-- ==== Sys2Proof/Word.lean ====
section
/-! DEFINITION. The plainest types of the FG410 model: octets, ticks of the reference clock, and the numbers
that name ports, lanes and frame slots. -/

namespace Sys2Proof

/-- One octet of a trunk frame or of a segment payload. -/
abbrev Octet := BitVec 8

/-- A length or a moment of time in ticks of REFCLK, 25 MHz, so 40 ns each (00_scope.md, PIN DESCRIPTION). -/
abbrev Ticks := Nat

/-- A segment port S0 to S3, by its number (11_formats_on_the_wire.md, CODE VALUES). -/
abbrev SegPort := Fin 4

/-- A port as ingress or egress: 0 to 3 are S0 to S3 and 4 is the trunk T (CODE VALUES, Port). -/
abbrev PortId := Fin 5

/-- The trunk T as a port. -/
abbrev trunkPort : PortId := 4

/-- The port number of a segment port. -/
abbrev SegPort.port (p : SegPort) : PortId := p.castSucc

/-- A frame slot of the pool (R109). -/
abbrev SlotId := Fin 64

/-- A priority, and the number of a lane (R115); 0 is the most urgent. -/
abbrev Priority := Fin 8

/-- A destination or source field of a segment frame (R26). -/
abbrev Address := Fin 128

/-- A service number (R27). -/
abbrev Service := Fin 16

/-- An index into a route bank (R68). -/
abbrev RouteIndex := Fin 64

/-- A lifetime class (R69). -/
abbrev LifetimeClass := Fin 4

/-- A set of ports in the one-octet form of 11_formats_on_the_wire.md: bits 0 to 3 for S0 to S3, bit 4 for T. -/
abbrev PortSet := BitVec 5

/-- The five ports in the order S0, S1, S2, S3, T (R134). -/
def allPorts : List PortId := [0, 1, 2, 3, 4]

/-- The four segment ports in ascending order. -/
def allSegPorts : List SegPort := [0, 1, 2, 3]

/-- The 64 frame slots in ascending order. -/
def allSlots : List SlotId := List.finRange 64

/-- Replace one entry of a table by a function of it. -/
def modAt {α : Type} {n : Nat} (v : Vector α n) (i : Fin n) (f : α → α) : Vector α n := v.set i (f v[i])

/-- Replace every entry of a table by a function of it. -/
def modAll {α β : Type} {n : Nat} (v : Vector α n) (f : α → β) : Vector β n := Vector.ofFn fun i : Fin n => f v[i]

end Sys2Proof
end

