-- ==== Sys2Proof/Syntax.lean ====
section
/-! DEFINITION. The commands of the block: one constructor of `Instr` for each row of spec/opcode_table.json, with
the operands the spec's rules give it. -/

namespace Sys2Proof

/-- What a port measures of one low on its line: the time from the falling edge of the last bit slot (the lead-in's, for bit
slot 1) to its falling edge, and the time that it lasts (R4, R6). A low under 0.05 Tb is not seen: it is no bit slot, and the
next gap too is from the last bit slot's edge (R4). -/
structure BitSlot where
  gap : Ticks
  low : Ticks
deriving DecidableEq, Repr

/-- What a port has measured on its line inside a frame since the last command of that port, in the order it came: the time
of the low that was in progress then (the lead-in's, or a bit slot's), the lows that have followed it whole, and the gap to
the falling edge of a bit slot whose low is still in progress (log 6), and has lasted 0.05 Tb (log 7). -/
structure Symbols where
  low : Option Ticks := none
  slots : List BitSlot := []
  edge : Option Ticks := none
deriving DecidableEq, Repr

/-- The evidence of a signal error (R17), as measured on the line. -/
inductive SignalFault where
  /-- the low in progress ended, in a shape-error row of R4 -/
  | shape (low : Ticks)
  /-- a falling edge came too soon after the falling edge of the lead-in or of the current bit slot -/
  | period (gap : Ticks)
  /-- no falling edge came for `waited` after the falling edge of the lead-in or of the current bit slot -/
  | stall (waited : Ticks)
deriving DecidableEq, Repr

/-- A signal error as a command gives it: the symbols heard before it, and its evidence. -/
structure SignalEvidence where
  heard : Symbols
  fault : SignalFault
deriving DecidableEq, Repr

/-- The end of a frame as a command gives it: the symbols heard up to it, and the gap from the refuse slot's falling edge to the
earlier edge that ends the frame, where one does (R6), of a low that lasts 0.05 Tb or more (log 7). -/
structure FrameEnding where
  heard : Symbols
  early : Option Ticks
deriving DecidableEq, Repr

/-- Symbols heard on a port's line. -/
structure PortSymbols where
  port : SegPort
  heard : Symbols
deriving DecidableEq, Repr

/-- The end of an abort pulse that a port drives: whether another station still holds the line low at that moment. -/
structure PulseEnd where
  port : SegPort
  stillLow : Bool
deriving DecidableEq, Repr

/-- A falling edge on a port's line, `gap` after the edge it is measured from. -/
structure PortEdge where
  port : SegPort
  gap : Ticks
deriving DecidableEq, Repr

/-- The start of a port's attempt: `joined` is the time from the idle start to the observed edge that the attempt joins, where it
joins one (R13). -/
structure PortStart where
  port : SegPort
  joined : Option Ticks
deriving DecidableEq, Repr

/-- A falling edge at idle: the time from the idle start to it, and how long its low has lasted when the command is given. -/
structure IdleEdge where
  recessive : Ticks
  low : Ticks
deriving DecidableEq, Repr

/-- A quiet line: how long after the last rising edge known the last one came, and how long the line is recessive since. -/
structure Quiet where
  later : Ticks
  recessive : Ticks
deriving DecidableEq, Repr

/-- A 10-bit character of the trunk line as it is received (R143). -/
inductive TrunkChar where
  | data (octet : Octet)
  | idleS
  | idleR
  | sof
  | eof
  | cut
  /-- a pattern that is neither a data nor a control character -/
  | invalid
deriving DecidableEq, Repr

/-- The 14 octets of a route entry in a request (11_formats_on_the_wire.md, MANAGEMENT FRAMES). -/
structure RouteArgs where
  ingress : Octet
  destLow : Octet
  destHigh : Octet
  sourcePresent : Octet
  sourceLow : Octet
  sourceHigh : Octet
  services : BitVec 16
  action : Octet
  egress : Octet
  mode : Octet
  mirror : Octet
  priority : Octet
  lifetime : Octet
deriving DecidableEq, Repr

/-- The six octets of a port's settings in a request. -/
structure PortArgs where
  enabled : Octet
  rate : Octet
  retryLimit : Octet
  queueLimit : Octet
  missAction : Octet
  abortOnError : Octet
deriving DecidableEq, Repr

/-- The 15 octets of the gateway settings in a request. -/
structure GatewayArgs where
  noticeSource : Octet
  noticePriority : Octet
  lifetime0 : BitVec 16
  lifetime1 : BitVec 16
  lifetime2 : BitVec 16
  lifetime3 : BitVec 16
  blockThreshold : Octet
  inboundReserve : Octet
  eventMask : BitVec 16
  suspectHold : Octet
deriving DecidableEq, Repr

/-- A management request by its code, with its argument octets as received (R167). `malformed` is a request whose
code is none of the spec's or whose body length is not the one its code requires (check 1 of R167). -/
inductive RequestOp where
  | malformed
  | identify
  | routeRead (bank index : Octet)
  | routeWrite (index : Octet) (fields : RouteArgs)
  | routeClear (first last : Octet)
  | routeCommit (purge : Octet)
  | nodeRead (address : Octet)
  | nodeWrite (address location : Octet)
  | nodeUnblock (address : Octet)
  | portRead (port : Octet)
  | portWrite (port : Octet) (settings : PortArgs)
  | gatewayRead
  | gatewayWrite (settings : GatewayArgs)
  | countersRead (group clear : Octet)
  | reset (kind : Octet)
deriving DecidableEq, Repr

/-- A request as it stands in a request buffer (R164). -/
structure Request where
  id : Octet
  op : RequestOp
deriving DecidableEq, Repr

/-- The commands, one constructor per row of spec/opcode_table.json, in the table's order. -/
inductive Instr where
  | hardwareReset
  | identify (id : Octet)
  | routeRead (id bank index : Octet)
  | routeWrite (id index : Octet) (fields : RouteArgs)
  | routeClear (id first last : Octet)
  | routeCommit (id purge : Octet)
  | purgeSweepStep
  | resyncComplete
  | nodeRead (id address : Octet)
  | nodeWrite (id address location : Octet)
  | nodeUnblock (id address : Octet)
  | portRead (id port : Octet)
  | portWrite (id port : Octet) (settings : PortArgs)
  | gatewayRead (id : Octet)
  | gatewayWrite (id : Octet) (settings : GatewayArgs)
  | countersRead (id group clear : Octet)
  | trafficReset (id : Octet)
  | fullReset (id : Octet)
  | agentBeginRequest
  | falseStart (p : SegPort) (low : Ticks)
  | headerCompletion (p : SegPort) (low : Option Ticks) (slots : List BitSlot)
  | controlCompletion (p : SegPort) (heard : Symbols)
  | checkCompletion (p : SegPort) (heard : Symbols)
  | endOfFrame (p : SegPort) (ending : FrameEnding)
  | signalError (p : SegPort) (evidence : SignalEvidence)
  | abortPulse (line : PortSymbols)
  /-- the held low's falling edge, measured from the last falling edge known: 0 where the low then begun is the held one -/
  | lineHeld (edge : PortEdge)
  | lineReleased (p : SegPort) (low : Ticks)
  | flushComplete (p : SegPort) (quiet : Quiet)
  | attemptBegin (start : PortStart)
  | arbitrationLost (p : SegPort) (heard : Symbols)
  | overdrive (p : SegPort) (heard : Symbols)
  /-- the symbols up to the end of the port's own frame, and the earlier edge that ends it as in `FrameEnding` -/
  | attemptEnd (p : SegPort) (low : Option Ticks) (slots : List BitSlot) (early : Option Ticks)
  | deadlineExpiry (slot : SlotId)
  | lockGained (chars : List TrunkChar)
  | lockLost (chars : List TrunkChar)
  | freshUp (chars : List TrunkChar)
  | enterSuspect (chars : List TrunkChar)
  | resume (chars : List TrunkChar)
  | holdTimerExpiry
  | trunkFrameReceived (chars : List TrunkChar)
  | trunkDataRouting
  | trunkFrameStart
  | trunkFrameEof
  | refreshTimerExpiry
  | idleFallingEdge (p : SegPort) (edge : IdleEdge)
  /-- the accept slot's falling edge, measured from the last check bit's, of a low that lasts 0.05 Tb or more (log 7) -/
  | acceptSlotEdge (edge : PortEdge)
  | abortPulseEnd (pulse : PulseEnd)
deriving DecidableEq, Repr

end Sys2Proof
end

