-- ==== Sys2Proof/Config.lean ====
section
/-! DEFINITION. The values the spec leaves open: two uninterpreted streams of free values. -/

namespace Sys2Proof

/-- The n-th free choice. No body: nothing can be proved of its value. It picks, among the unfilled reserved
slots, the one a received DATA frame takes (R112) or a trim moves next (R114), which the spec does not say
(DESIGN CHOICE, log 9; safe). -/
opaque Config.freePick : Nat → Nat

/-- How many ticks longer than 2 µs a hardware reset holds RESET_N low, by the number of free choices made before it. No body: R178
says "at least 2 µs", and the row of the table carries no length (DESIGN CHOICE, log 21; safe). -/
opaque Config.resetHold : Nat → Nat

end Sys2Proof
end

