-- ==== Sys2Proof/Machine/State.lean ====
section
/-! DEFINITION. The state of the FG410 as plain data, block by block, and its value after a hardware reset. -/

namespace Sys2Proof.Machine

/-! ### Values shared by the blocks -/

/-- Why a reference was removed, a frame refused or a trunk frame rejected (R126; 11, CODE VALUES, Reason). -/
inductive Reason where
  | delivered | undeliverable | expired | purged | blocked | portDisabled | linkDown
  | noSpace | noHome | noRoute | dropped | reconfigured | badSource
deriving DecidableEq, Repr

/-- Where a node lives (R93). An event's port takes the same values: S0-S3, 4 for the trunk, 7 for UNASSIGNED (R181). -/
inductive Location where
  | unassigned
  | seg (p : SegPort)
  | trunk
deriving DecidableEq, Repr

/-- Whether the FG410 takes custody of a frame (R69). -/
inductive Mode where
  | custody | passive
deriving DecidableEq, Repr

/-- The fields of a segment frame (R24); the length is the payload's. The check octet is computed, not stored (R25). -/
structure Frame where
  priority : Priority
  dest : Address
  source : Address
  service : Service
  payload : List Octet
deriving DecidableEq, Repr

/-- The entry field of a decision and of a frame slot (R78, R155). -/
inductive EntryRef where
  | entry (i : RouteIndex)
  | miss
  | direct
deriving DecidableEq, Repr

/-- A route decision record (R78). -/
structure Decision where
  misplaced : Bool
  entry : EntryRef
  epoch : Nat
  egress : PortSet
  mode : Mode
  priority : Priority
  lifetime : LifetimeClass
  mirror : Bool
  refusal : Option Reason
deriving DecidableEq, Repr

/-- The four admission results (R46). -/
inductive AdmitResult where
  | all | some | none | loc
deriving DecidableEq, Repr

/-- The pool's answer to an admission (R46, R118): the result, the reason of a NONE, whether a mirror copy was taken, and
the frame slot that holds what was admitted. -/
structure Admission where
  result : AdmitResult
  reason : Option Reason
  mirror : Bool
  slot : Option SlotId
deriving DecidableEq, Repr

/-! ### Segment ports (03_segment_port_engine.md) -/

/-- RATE (R40). -/
inductive Rate where
  | standard | slow
deriving DecidableEq, Repr

/-- MISS_ACTION (R40). -/
inductive MissAction where
  | drop | homePassive | homeCustody
deriving DecidableEq, Repr

/-- The receiver's states (R41). -/
inductive RxState where
  | off | flush | idle | leadIn | gap | bits | slots | held
deriving DecidableEq, Repr

/-- What the responder answers in the response slots of a frame of another talker (R49 to R51). -/
inductive Answer where
  | silent | accept | refuse
deriving DecidableEq, Repr

/-- The header fields as received (R24). -/
structure Header where
  priority : Priority
  dest : Address
  source : Address
deriving DecidableEq, Repr

/-- The control fields as received (R27). -/
structure Control where
  service : Service
  length : Nat
deriving DecidableEq, Repr

/-- The assembly buffer (R43) with the responder's answer for its frame. A field is `none` until it is final. -/
structure Assembly where
  /-- the bits classified so far, bit slot 1 first, those of the response slots last (R24, R43) -/
  bits : List Bool := []
  /-- a bit slot's falling edge has been seen and its low is not classified yet (R4) -/
  inSlot : Bool := false
  header : Option Header := none
  control : Option Control := none
  payload : List Octet := []
  check : Option Octet := none
  decision : Option Decision := none
  checkGood : Option Bool := none
  admission : Option Admission := none
  answer : Answer := .silent
  /-- the responder has joined the accept slot's falling edge (R11, R18, R48) -/
  acceptDriven : Bool := false
deriving DecidableEq, Repr

/-- The transmitter's candidate (R54): the head of a lane, named with the frame slot it points at, or the oldest notice
record held for the port with NOTICE_PRIORITY and NOTICE_SOURCE as at selection (R56, R57). -/
inductive Candidate where
  | frame (lane : Priority) (slot : SlotId)
  | notice (priority : Priority) (source : Address)
deriving DecidableEq, Repr

/-- An attempt: whether it is a notice's, and the frame as rendered (R57). -/
structure Attempt where
  notice : Bool
  frame : Frame
deriving DecidableEq, Repr

/-- The transmitter's states (R53). -/
inductive TxState where
  | off
  | idle
  | armed (c : Candidate)
  | sending (a : Attempt)
  | slots (a : Attempt)
deriving DecidableEq, Repr

/-- What the port's line driver is claimed for (R52): by the transmitter for its lead-in and its bits, by the responder for an
asserted accept or refuse slot, by either for an abort pulse. -/
inductive Claim where
  | leadIn | bit | accept | refuse | abort
deriving DecidableEq, Repr

/-- A low that the port drives on its SEGn pin, from its falling edge up to its rising edge (R1, R3). -/
structure PinLow where
  claim : Claim
  fall : Ticks
  rise : Ticks
deriving DecidableEq, Repr

/-- The twelve port counters, in the order of COUNTERS_READ (10_counters_and_events.md). -/
inductive PortCounter where
  | rxGood | rxSignalErrors | rxCheckErrors | rxFormatErrors | abortsSent | arbLost
  | attempts | delivered | failed | discarded | ingressAdmitted | ingressRefused
deriving DecidableEq, Repr

/-- One segment port engine (R40 to R67). -/
structure Port where
  enabled : Bool
  rate : Rate
  retryLimit : Nat
  queueLimit : Nat
  missAction : MissAction
  abortOnError : Bool
  rx : RxState
  idleStart : Ticks
  /-- the last falling edge known, from which the receiver times: inside a frame the lead-in's or the current bit slot's (R5 to R7);
  the moment of enabling before one is seen (R64) -/
  edge : Ticks
  /-- the last rising edge seen, or the moment of enabling before one is seen (R9, R22, R64) -/
  lastRise : Ticks
  /-- the flush under way follows a held line, whose rising edge stays the idle start (R9) -/
  heldFlush : Bool
  assembly : Assembly
  tx : TxState
  lastTalker : Bool
  /-- the lows that the port drives on its pin: those of the frame in progress or just ended, and, as talker, the low it is due
  to drive next; none once the port has released the line (R1, R7, R21) -/
  pin : List PinLow
  /-- when the port's own abort pulse completes, while it drives one (R20) -/
  pulse : Option Ticks
  counters : Vector Nat 12
  /-- the model's own: selection is due on this port before the step ends (R54, log 10) -/
  due : Bool
deriving DecidableEq, Repr

/-! ### Route list (04_the_route_list.md) -/

/-- The action of a route entry (R69). -/
inductive Action where
  | forward | home | drop
deriving DecidableEq, Repr

/-- A route entry (R69). -/
structure RouteEntry where
  valid : Bool
  ingress : PortSet
  destLow : Nat
  destHigh : Nat
  source : Option (Nat × Nat)
  services : BitVec 16
  action : Action
  egress : PortSet
  mode : Mode
  mirror : Bool
  priority : Option Priority
  lifetime : LifetimeClass
  hits : Nat
deriving DecidableEq, Repr

/-- The cleared form of an entry (R70). -/
def RouteEntry.cleared : RouteEntry :=
  ⟨false, 0, 0, 0, none, 0, .drop, 0, .passive, false, none, 0, 0⟩

/-- The commit state (R68): IDLE, or RUNNING, with the lanes that the purge sweep has still to examine, next one first, and whether
the resync is still due (R89, R90). -/
inductive Commit where
  | idle
  | running (lanesLeft : List (PortId × Priority)) (resyncDue : Bool)
deriving DecidableEq, Repr

/-- The route list (R68). -/
structure RouteList where
  bankA : Vector RouteEntry 64
  bankB : Vector RouteEntry 64
  /-- which bank is active: the second when set -/
  activeIsB : Bool
  epoch : Nat
  purgeEpoch : Nat
  commit : Commit
deriving DecidableEq, Repr

/-! ### Node map (05_the_node_map.md) -/

/-- A node entry (R93). -/
structure NodeEntry where
  location : Location
  failures : Nat
  blocked : Bool
deriving DecidableEq, Repr

/-- The node map (R93). -/
structure NodeMap where
  entries : Vector NodeEntry 120
  threshold : Nat
deriving DecidableEq, Repr

/-! ### Frame pool (06_frame_pool_admission_and_egress_queues.md) -/

/-- The mark of a reference (R60, R122). -/
inductive Mark where
  | expired | purged | blocked | portDisabled | linkDown
deriving DecidableEq, Repr

/-- The kind of a reference (R108). -/
inductive RefKind where
  | frame | trap
deriving DecidableEq, Repr

/-- A reference (R108). Its egress queue and its place are where it stands in `Queue`. -/
structure Ref where
  slot : SlotId
  kind : RefKind
  count : Nat
  mark : Option Mark
deriving DecidableEq, Repr

/-- An egress queue (R115, R116): pending references, eight lanes, and the reference in the port's attempt holder or, for
T, in trunk transmission. -/
structure Queue where
  pending : List Ref
  lanes : Vector (List Ref) 8
  holder : Option Ref
deriving DecidableEq, Repr

/-- The state of a frame slot (R109). -/
inductive SlotStatus where
  | free | unfilled | filled | queued
deriving DecidableEq, Repr

/-- What a filled reserved slot keeps of its DATA frame beside the frame's fields until it is routed (R155, R156). -/
structure Inbound where
  custody : Bool
  tag : Option (BitVec 16)
  direct : Option SegPort
  lifetime : LifetimeClass
deriving DecidableEq, Repr

/-- A frame slot (R108). -/
structure FrameSlot where
  status : SlotStatus
  frame : Frame
  origin : PortId
  ingress : PortId
  entry : EntryRef
  priority : Priority
  epoch : Nat
  deadline : Option Ticks
  custody : Bool
  tag : Option (BitVec 16)
  refs : Nat
  inbound : Option Inbound
  /-- the route decision bound with a DATA frame in its reserved slot, up to its admission (R78, R155) -/
  decision : Option Decision
deriving DecidableEq, Repr

/-- The frame pool and queue manager. -/
structure Pool where
  slots : Vector FrameSlot 64
  free : List SlotId
  queues : Vector Queue 5
  reserveSize : Nat
  /-- LIFETIME[0] to LIFETIME[3] in ms -/
  lifetimes : Vector Nat 4
deriving DecidableEq, Repr

/-! ### Custody unit (07_custody_notices_and_reports.md) -/

/-- A notice record (R135). -/
structure Notice where
  port : SegPort
  target : Address
  dest : Address
  service : Service
  reason : Reason
  attempts : Nat
  egress : PortId
  sendCount : Nat
  inAttempt : Bool
deriving DecidableEq, Repr

/-- A report record (R140, R141). -/
structure Report where
  tag : BitVec 16
  reason : Reason
  egress : Option PortId
  attempts : Nat
  inTx : Bool
deriving DecidableEq, Repr

/-- The custody unit (R133). -/
structure Custody where
  notices : List Notice
  reports : List Report
  noticeSource : Fin 120
  noticePriority : Priority
deriving DecidableEq, Repr

/-! ### Trunk link (08_trunk_link.md) -/

/-- The link monitor's states (R145). -/
inductive LinkState where
  | seek | train | up | suspect
deriving DecidableEq, Repr

/-- The trunk receiver (R144, R145, R152): lock, its two counts, the two idle counts, and the octets of the frame in
reception. -/
structure TrunkRx where
  lock : Bool
  run : Nat
  invalid : Nat
  idleR : Nat
  idleS : Nat
  frame : Option (List Octet)
deriving DecidableEq, Repr

/-- The hold timer while it runs (R148). -/
structure HoldTimer where
  startedAt : Ticks
  expiresAt : Ticks
deriving DecidableEq, Repr

/-- The kinds of frame the FG410 sends (R151). -/
inductive TxKind where
  | data | trap | credit | mgmtRsp | report | event
deriving DecidableEq, Repr

/-- A trunk frame in transmission (R161). -/
structure TxFrame where
  kind : TxKind
  seq : BitVec 8
  body : List Octet
  startedAt : Ticks
deriving DecidableEq, Repr

/-- A frame ended with CUT (R163): the frame, and when the CUT begins, in place of its next character. -/
structure Cut where
  frame : TxFrame
  startsAt : Ticks
deriving DecidableEq, Repr

/-- The status of a response (R167). -/
inductive Status where
  | ok | badRequest | badArgument | notNow
deriving DecidableEq, Repr

/-- A response in the response holder (R160, R167). -/
structure Response where
  id : Octet
  status : Status
  results : List Octet
deriving DecidableEq, Repr

/-- The ten trunk counters, in the order of COUNTERS_READ. -/
inductive TrunkCounter where
  | framesIn | framesOut | checkErrors | formatErrors | seqGaps | creditViolations | requestOverruns
  | reportsLost | cutFrames | linkUps
deriving DecidableEq, Repr

/-- The trunk link (R143 to R163). -/
structure Trunk where
  link : LinkState
  rx : TrunkRx
  hold : Option HoldTimer
  /-- SUSPECT_HOLD in ms (R146) -/
  suspectHold : Nat
  outLimit : BitVec 8
  sent : BitVec 8
  nextExpected : BitVec 8
  advertised : BitVec 8
  creditPending : Bool
  /-- when the refresh timer expires, while it runs (R158) -/
  refresh : Option Ticks
  response : Option Response
  tx : Option TxFrame
  /-- the last frame that was ended with CUT, until the next frame starts -/
  cut : Option Cut
  /-- no SOF begins before it: one idle character after the last EOF or CUT (R143), or after the boundary of the last choice that
  started no frame (R161) -/
  nextStart : Ticks
  /-- when the transmitter began to send, at the rise of RESET_N: its characters stand back to back from there (R143, R178) -/
  lineStart : Ticks
  /-- when the kind of idle character to send last changed, with lock or the monitor's state (R143) -/
  idleChanged : Ticks
  /-- whether an idle character in progress at that change is an IDLE_R (R143) -/
  idleWasR : Bool
  /-- the DATA frames taken and not yet routed, in the order they were taken (R155) -/
  taken : List SlotId
  counters : Vector Nat 10
deriving DecidableEq, Repr

/-! ### Management agent (09_in_band_management.md) -/

/-- The agent (R164): the buffered requests, oldest first; whether the oldest is in execution; the drop mark. -/
structure Agent where
  buffers : List Request
  executing : Bool
  dropMark : Bool
deriving DecidableEq, Repr

/-! ### Events (10_counters_and_events.md) -/

/-- The kinds of event (R181). -/
inductive EventKind where
  | lineHeld | lineReleased | nodeBlocked | noticeLost | reportLost | creditViolation | poolEmpty | linkResumed
deriving DecidableEq, Repr

/-- An event record (R181). -/
structure Event where
  kind : EventKind
  port : Location
  detail : Nat
  occurrences : Nat
  inTx : Bool
  further : Nat
  furtherDetail : Nat
deriving DecidableEq, Repr

/-- The event list (R181): bit k - 1 of the mask masks the kind with code k (11_formats_on_the_wire.md). -/
structure EventList where
  records : List Event
  mask : BitVec 8
deriving DecidableEq, Repr

/-- The seven gateway counters, in the order of COUNTERS_READ. -/
inductive GatewayCounter where
  | noticesCreated | noticesSent | noticesFailed | noticesLost | noticesSuppressed | eventsLost | poolEmptyCount
deriving DecidableEq, Repr

/-! ### The machine -/

/-- The whole state of the FG410, and the queue of the commands that are waiting. -/
structure State where
  /-- the model's clock in ticks of REFCLK (log 2) -/
  now : Ticks
  /-- the model's counter of free choices (log 9) -/
  freeCount : Nat
  ports : Vector Port 4
  route : RouteList
  nodes : NodeMap
  pool : Pool
  custody : Custody
  trunk : Trunk
  agent : Agent
  events : EventList
  gateway : Vector Nat 7
  /-- the commands that are waiting, first in, first out -/
  pending : List Instr
deriving DecidableEq, Repr

/-- Nothing stops the block: every rule gives a next state, so there is no fault. -/
inductive Fault where
deriving DecidableEq, Repr

/-- Why a command is refused. -/
inductive Refusal where
  /-- a command that has no meaning yet, by its mnemonic; raised by no arm of `exec`; safe -/
  | notModelled (mnemonic : String)
deriving DecidableEq, Repr

/-! ### Reset values -/

/-- A segment port after a hardware or FULL reset (R40, R65). -/
def Port.reset : Port where
  enabled := false
  rate := .standard
  retryLimit := 3
  queueLimit := 16
  missAction := .drop
  abortOnError := true
  rx := .off
  idleStart := 0
  edge := 0
  lastRise := 0
  heldFlush := false
  assembly := {}
  tx := .off
  lastTalker := false
  pin := []
  pulse := none
  counters := Vector.replicate 12 0
  due := false

/-- The route list after a hardware or FULL reset (R68). -/
def RouteList.reset : RouteList where
  bankA := Vector.replicate 64 .cleared
  bankB := Vector.replicate 64 .cleared
  activeIsB := false
  epoch := 0
  purgeEpoch := 0
  commit := .idle

/-- The node map after a hardware or FULL reset (R93). -/
def NodeMap.reset : NodeMap where
  entries := Vector.replicate 120 ⟨.unassigned, 0, false⟩
  threshold := 4

/-- An empty egress queue (R115). -/
def Queue.empty : Queue := ⟨[], Vector.replicate 8 [], none⟩

/-- A frame slot with no frame. The contents of such a slot have no meaning (R108, log 16). -/
def FrameSlot.blank (status : SlotStatus) : FrameSlot where
  status := status
  frame := ⟨0, 0, 0, 0, []⟩
  origin := 0
  ingress := 0
  entry := .miss
  priority := 0
  epoch := 0
  deadline := none
  custody := false
  tag := none
  refs := 0
  inbound := none
  decision := none

/-- The LIFETIME settings after a hardware or FULL reset, in ms (R127). -/
def resetLifetimes : Vector Nat 4 := ⟨#[100, 500, 2550, 0], rfl⟩

/-- The pool after a hardware reset: slots 0 to 7 in the reserve, 8 to 63 on the free list (R110). -/
def Pool.reset : Pool where
  slots := Vector.ofFn fun i : SlotId => .blank (if i.val < 8 then .unfilled else .free)
  free := allSlots.drop 8
  queues := Vector.replicate 5 .empty
  reserveSize := 8
  lifetimes := resetLifetimes

/-- The custody unit after a hardware or FULL reset (R133). -/
def Custody.reset : Custody := ⟨[], [], 119, 2⟩

/-- The trunk link after a hardware reset (R146). -/
def Trunk.reset : Trunk where
  link := .seek
  rx := ⟨false, 0, 0, 0, 0, none⟩
  hold := none
  suspectHold := 2
  outLimit := 0
  sent := 0
  nextExpected := 0
  advertised := 0
  creditPending := false
  refresh := none
  response := none
  tx := none
  cut := none
  nextStart := 0
  lineStart := 0
  idleChanged := 0
  idleWasR := false
  taken := []
  counters := Vector.replicate 10 0

/-- The agent after a hardware reset (R164). -/
def Agent.reset : Agent := ⟨[], false, false⟩

/-- The event list after a hardware or FULL reset: empty, every kind enabled (R181). -/
def EventList.reset : EventList := ⟨[], 0⟩

/-- The FG410 right after a hardware reset (R178), with no command waiting. -/
def State.reset : State where
  now := 0
  freeCount := 0
  ports := Vector.replicate 4 .reset
  route := .reset
  nodes := .reset
  pool := .reset
  custody := .reset
  trunk := .reset
  agent := .reset
  events := .reset
  gateway := Vector.replicate 7 0
  pending := []

end Sys2Proof.Machine
end

