-- ==== Sys2Proof/WellFormed.lean ====
section
/-! DEFINITION. Which commands are well formed: the checks on a command's operands that need no state. -/

namespace Sys2Proof

/-- Bit slots 1 to 17 are the header bits (R24). -/
def headerBits : Nat := 17

/-- Bit slots 18 to 25 are the control bits (R24). -/
def controlBits : Nat := 8

/-- The bit slots of the longest frame but its two response slots: 33 + 8n with n of 12 (R24). -/
def contentBitsMax : Nat := 129

/-- A low of 20 µs or more, 0.05 Tb at SLOW rate, which a receiver sees at either rate (R2, R4). -/
def BitSlot.isSeen (b : BitSlot) : Bool := 500 ≤ b.low

/-- At most `n` of these lows are surely bit slots: a low that is not seen is none (R4). -/
def slotsWithin (n : Nat) (slots : List BitSlot) : Bool := slots.countP (·.isSeen) ≤ n

/-- Symbols with at most `n` whole bit slots, which end with a whole low. -/
def Symbols.closed (n : Nat) (h : Symbols) : Bool := slotsWithin n h.slots && h.edge.isNone

/-- Symbols with at most `n` whole bit slots. -/
def Symbols.within (n : Nat) (h : Symbols) : Bool := slotsWithin n h.slots

/-- A command is well formed when its operands have the lengths the rules give them: at most the 17 header slots, the 8
control slots, or the 8n + 8 payload and check slots up to a completion, whose last low is whole; at most the refuse slot up to
the end of a frame; at most 16 header slots before one in which arbitration is lost, and at most 128 slots before an overdriven
one (R24); and at least one character for each event of the trunk receiver. Undefined codes in a request's octets are not ill
formed: the request is answered with a status (R167). -/
def Instr.wellFormed : Instr → Bool
  | .headerCompletion _ _ slots => slotsWithin headerBits slots
  | .controlCompletion _ h => h.closed controlBits
  | .checkCompletion _ h => h.closed 104
  | .endOfFrame _ e => e.heard.closed 1
  | .attemptEnd _ _ slots _ => slotsWithin 1 slots
  | .signalError _ e => e.heard.within contentBitsMax
  | .abortPulse line => line.heard.within contentBitsMax
  | .arbitrationLost _ h => h.within 16
  | .overdrive _ h => h.within 128
  | .lockGained cs | .lockLost cs | .freshUp cs | .enterSuspect cs | .resume cs | .trunkFrameReceived cs => !cs.isEmpty
  | .hardwareReset | .identify _ | .routeRead _ _ _ | .routeWrite _ _ _ | .routeClear _ _ _ | .routeCommit _ _ => true
  | .purgeSweepStep | .resyncComplete | .nodeRead _ _ | .nodeWrite _ _ _ | .nodeUnblock _ _ | .portRead _ _ => true
  | .portWrite _ _ _ | .gatewayRead _ | .gatewayWrite _ _ | .countersRead _ _ _ | .trafficReset _ | .fullReset _ => true
  | .agentBeginRequest | .falseStart _ _ | .lineHeld _ | .lineReleased _ _ | .flushComplete _ _ => true
  | .attemptBegin _ | .deadlineExpiry _ | .holdTimerExpiry | .trunkDataRouting | .trunkFrameStart => true
  | .trunkFrameEof | .refreshTimerExpiry | .idleFallingEdge _ _ | .acceptSlotEdge _ | .abortPulseEnd _ => true

end Sys2Proof
end

