-- ==== Sys2Proof/Machine/Operands.lean ====
section
/-! DEFINITION. How the operands of the segment commands are read: the bit period, the classes of lows, the receive
windows, and bits in and out of fields (01_segment_bus_signalling.md, 02_segment_frames_and_response_slots.md). -/

namespace Sys2Proof.Machine

/-- One microsecond in ticks of the 25 MHz reference clock. -/
def microsecond : Ticks := 25

/-- One millisecond in ticks. -/
def millisecond : Ticks := 25000

/-- One trunk character, 0.8 µs, in ticks (R143). -/
def characterTime : Ticks := 20

/-- The bit period Tb: 100 µs STANDARD, 400 µs SLOW (R2). -/
def bitPeriod : Rate → Ticks
  | .standard => 2500
  | .slow => 10000

/-- `t` is at least `c` hundredths of the bit period. -/
def atLeast (rate : Rate) (c : Nat) (t : Ticks) : Bool := c * bitPeriod rate ≤ 100 * t

/-- `t` is at most `c` hundredths of the bit period. -/
def atMost (rate : Rate) (c : Nat) (t : Ticks) : Bool := 100 * t ≤ c * bitPeriod rate

/-- The classes of a low inside a frame (R4). -/
inductive LowClass where
  | notSeen | shapeError | bit1 | bit0 | abortPulse | lineHeld
deriving DecidableEq, Repr

/-- The class of a low inside a frame, by the rows of R4 from the top; the ends of a range belong to the row that
names them. -/
def classifyLow (rate : Rate) (t : Ticks) : LowClass :=
  if !atLeast rate 5 t then .notSeen
  else if !atLeast rate 15 t then .shapeError
  else if atMost rate 40 t then .bit1
  else if !atLeast rate 48 t then .shapeError
  else if atMost rate 75 t then .bit0
  else if atMost rate 160 t then .shapeError
  else if atMost rate 500 t then .abortPulse
  else .lineHeld

/-- A low at idle is a lead-in when it lasts 2.6 to 3.4 Tb (R5). -/
def isLeadIn (rate : Rate) (t : Ticks) : Bool := atLeast rate 260 t && atMost rate 340 t

/-- A low at idle of 0.05 Tb or more that is neither a lead-in nor line held is a false start (R5). -/
def isFalseStart (rate : Rate) (t : Ticks) : Bool := atLeast rate 5 t && !isLeadIn rate t && atMost rate 500 t

/-- The window for the first bit slot's falling edge after the lead-in's falling edge, 3.8 to 4.4 Tb (R6). -/
def firstGapOk (rate : Rate) (gap : Ticks) : Bool := atLeast rate 380 gap && atMost rate 440 gap

/-- The window from one bit slot's falling edge to the next, 0.9 to 1.3 Tb (R6). -/
def slotGapOk (rate : Rate) (gap : Ticks) : Bool := atLeast rate 90 gap && atMost rate 130 gap

/-- The bit that a low is classified as, if it is a bit (R4). -/
def bitOf? (rate : Rate) (low : Ticks) : Option Bool :=
  match classifyLow rate low with
  | .bit1 => some true
  | .bit0 => some false
  | .notSeen | .shapeError | .abortPulse | .lineHeld => none

/-- `c` hundredths of the bit period in ticks. -/
def hundredths (rate : Rate) (c : Nat) : Ticks := c * bitPeriod rate / 100

/-- The low that the FG410 drives for a bit: 0.25 Tb for a 1 and 0.60 Tb for a 0 (R3, TYP). -/
def bitLow (rate : Rate) (bit : Bool) : Ticks := hundredths rate (if bit then 25 else 60)

/-- The low that the FG410 drives for a lead-in, 3.0 Tb (R3, R12). -/
def leadInLow (rate : Rate) : Ticks := 3 * bitPeriod rate

/-- The low that the FG410 drives for an abort pulse, 2.0 Tb (R3, R18). -/
def abortLow (rate : Rate) : Ticks := 2 * bitPeriod rate

/-- Where a talker samples a bit slot: 0.44 Tb after its falling edge (R8). -/
def samplePoint (rate : Rate) : Ticks := hundredths rate 44

/-- The number that bits spell, most significant bit first (R24). -/
def natOfBits (bits : List Bool) : Nat := bits.foldl (fun n b => 2 * n + b.toNat) 0

/-- The lowest `w` bits of a number, most significant bit first (R24). -/
def bitsOfNat : Nat → Nat → List Bool
  | 0, _ => []
  | w + 1, n => n.testBit w :: bitsOfNat w n

/-- The header fields of 17 header bits: 3 priority bits, 7 destination bits, 7 source bits (R24). -/
def headerOfBits (bits : List Bool) : Header where
  priority := Fin.ofNat 8 (natOfBits (bits.take 3))
  dest := Fin.ofNat 128 (natOfBits ((bits.drop 3).take 7))
  source := Fin.ofNat 128 (natOfBits ((bits.drop 10).take 7))

/-- The service and the length code of 8 control bits (R24, R27). -/
def controlOfBits (bits : List Bool) : Control where
  service := Fin.ofNat 16 (natOfBits (bits.take 4))
  length := natOfBits ((bits.drop 4).take 4)

/-- The first `n` octets of a run of bits (R24). -/
def octetsOfBits : Nat → List Bool → List Octet
  | 0, _ => []
  | n + 1, bits => BitVec.ofNat 8 (natOfBits (bits.take 8)) :: octetsOfBits n (bits.drop 8)

/-- The 17 header bits of a header (R24). -/
def headerBitsOf (h : Header) : List Bool := bitsOfNat 3 h.priority ++ bitsOfNat 7 h.dest ++ bitsOfNat 7 h.source

/-- The 8 control bits (R24). -/
def controlBitsOf (c : Control) : List Bool := bitsOfNat 4 c.service ++ bitsOfNat 4 c.length

/-- The bits of octets, each most significant bit first (R24, R188). -/
def octetBits (os : List Octet) : List Bool := os.flatMap fun o => bitsOfNat 8 o.toNat

/-- One bit through the CRC-8 register of R29. -/
def crc8Step (r : BitVec 8) (bit : Bool) : BitVec 8 :=
  if r.getLsbD 7 ^^ bit then (r <<< 1) ^^^ 7 else r <<< 1

/-- The CRC-8 of a run of bits: preset of all ones, no inversion (R29). -/
def crc8 (bits : List Bool) : BitVec 8 := bits.foldl crc8Step 255

/-- One bit through the CRC-16 register of R188. -/
def crc16Step (r : BitVec 16) (bit : Bool) : BitVec 16 :=
  if r.getLsbD 15 ^^ bit then (r <<< 1) ^^^ 0x1021 else r <<< 1

/-- The CRC-16 of a run of octets: preset FFFF, no inversion (R188). -/
def crc16 (os : List Octet) : BitVec 16 := (octetBits os).foldl crc16Step 0xFFFF

/-- The bits that a frame's check octet covers: header, control and payload, 25 + 8n bits (R29). -/
def coveredBits (f : Frame) : List Bool :=
  headerBitsOf ⟨f.priority, f.dest, f.source⟩ ++ controlBitsOf ⟨f.service, f.payload.length⟩ ++ octetBits f.payload

/-- The check octet of a frame (R29). -/
def checkOctet (f : Frame) : Octet := crc8 (coveredBits f)

/-- What the talker sends in bit slots 1 to 33 + 8n (R24). -/
def sentBits (f : Frame) : List Bool := coveredBits f ++ bitsOfNat 8 (checkOctet f).toNat

/-- The header value of R25: priority × 16384 + destination × 128 + source. -/
def headerValue (h : Header) : Nat := h.priority * 16384 + h.dest * 128 + h.source

/-- The quiet time Q of a candidate of priority `p`, in ticks: 2 + p Tb, and 3 Tb longer with the last-talker flag set
(R10). -/
def quietTime (rate : Rate) (p : Priority) (lastTalker : Bool) : Ticks :=
  (2 + p.val + if lastTalker then 3 else 0) * bitPeriod rate

/-- A value as two octets, most significant first (R188). -/
def octets2 (v : Nat) : List Octet := [BitVec.ofNat 8 (v / 256), BitVec.ofNat 8 v]

/-- A value as four octets, most significant first (R188). -/
def octets4 (v : Nat) : List Octet :=
  [BitVec.ofNat 8 (v / 16777216), BitVec.ofNat 8 (v / 65536), BitVec.ofNat 8 (v / 256), BitVec.ofNat 8 v]

/-- Two octets read as one 16-bit field, most significant first (R188). -/
def word16 (hi lo : Octet) : BitVec 16 := BitVec.ofNat 16 (hi.toNat * 256 + lo.toNat)

/-! ### Code values (11_formats_on_the_wire.md, CODE VALUES) -/

/-- A yes or no as an octet. -/
def yesNo (b : Bool) : Octet := if b then 1 else 0

/-- A yes-or-no octet, if it is one. -/
def yesNo? (o : Octet) : Option Bool := if o = 0 then some false else if o = 1 then some true else none

def Reason.code : Reason → Octet
  | .delivered => 0 | .undeliverable => 1 | .expired => 2 | .purged => 3 | .blocked => 4 | .portDisabled => 5
  | .linkDown => 6 | .noSpace => 7 | .noHome => 8 | .noRoute => 9 | .dropped => 10 | .reconfigured => 11
  | .badSource => 12

def Location.code : Location → Octet
  | .seg p => BitVec.ofNat 8 p.val
  | .trunk => 4
  | .unassigned => 7

/-- The location with a code, if there is one (R94). -/
def locationOf? (o : Octet) : Option Location :=
  if h : o.toNat < 4 then some (.seg ⟨o.toNat, h⟩) else if o = 4 then some .trunk else if o = 7 then some .unassigned else none

def LinkState.code : LinkState → Octet
  | .seek => 0 | .train => 1 | .up => 2 | .suspect => 3

def Status.code : Status → Octet
  | .ok => 0 | .badRequest => 1 | .badArgument => 2 | .notNow => 3

def Action.code : Action → Octet
  | .forward => 0 | .home => 1 | .drop => 2

def actionOf? (o : Octet) : Option Action :=
  if o = 0 then some .forward else if o = 1 then some .home else if o = 2 then some .drop else none

def Mode.code : Mode → Octet
  | .custody => 0 | .passive => 1

def modeOf? (o : Octet) : Option Mode := if o = 0 then some .custody else if o = 1 then some .passive else none

def Rate.code : Rate → Octet
  | .standard => 0 | .slow => 1

def rateOf? (o : Octet) : Option Rate := if o = 0 then some .standard else if o = 1 then some .slow else none

def MissAction.code : MissAction → Octet
  | .drop => 0 | .homePassive => 1 | .homeCustody => 2

def missActionOf? (o : Octet) : Option MissAction :=
  if o = 0 then some .drop else if o = 1 then some .homePassive else if o = 2 then some .homeCustody else none

def EventKind.code : EventKind → Nat
  | .lineHeld => 1 | .lineReleased => 2 | .nodeBlocked => 3 | .noticeLost => 4 | .reportLost => 5
  | .creditViolation => 6 | .poolEmpty => 7 | .linkResumed => 8

def TxKind.code : TxKind → Octet
  | .data => 1 | .trap => 2 | .credit => 3 | .mgmtRsp => 5 | .report => 6 | .event => 7

/-- The entry octet of a DATA or TRAP body: the index, 255 for MISS (R162). -/
def EntryRef.code : EntryRef → Octet
  | .entry i => BitVec.ofNat 8 i.val
  | .miss | .direct => 255

/-- The reason a mark stands for (R60, R122). -/
def Mark.reason : Mark → Reason
  | .expired => .expired | .purged => .purged | .blocked => .blocked | .portDisabled => .portDisabled
  | .linkDown => .linkDown

/-- The line status of PORT_READ: OFF 0, ACTIVE 1, HELD 2 (R171). -/
def lineStatus : RxState → Octet
  | .off => 0
  | .held => 2
  | .flush | .idle | .leadIn | .gap | .bits | .slots => 1

/-- The segment port a port number names, if it names one. -/
def segOf? (q : PortId) : Option SegPort := if h : q.val < 4 then some ⟨q.val, h⟩ else none

/-- A port number as an event's port: S0-S3, or 4 for the trunk (R181). -/
def portLocation (q : PortId) : Location :=
  match segOf? q with
  | some p => .seg p
  | none => .trunk

/-- The members of a port set, in the order S0, S1, S2, S3, T. -/
def portMembers (set : PortSet) : List PortId := allPorts.filter fun q => set.getLsbD q.val

/-- The set of one port. -/
def portSingleton (q : PortId) : PortSet := BitVec.ofNat 5 (2 ^ q.val)

/-- A port set less one port (R79). -/
def portErase (set : PortSet) (q : PortId) : PortSet := set &&& ~~~ portSingleton q

end Sys2Proof.Machine
end

