-- ==== Sys2Proof/Machine/Flags.lean ====
section
/-! DEFINITION. Counters and the event list: how a counter advances, and what the event list makes of a raised event
and of the end of an EVENT frame (10_counters_and_events.md). -/

namespace Sys2Proof.Machine

/-! ### Counters -/

/-- The value at which a counter stands once it would pass it (R179). -/
def counterMax : Nat := 4294967295

/-- A counter advanced by an amount, saturating (R179). -/
def saturate (c amount : Nat) : Nat := min (c + amount) counterMax

/-- The position of a port counter (10, COUNTER GROUPS). -/
def PortCounter.index : PortCounter → Fin 12
  | .rxGood => 0 | .rxSignalErrors => 1 | .rxCheckErrors => 2 | .rxFormatErrors => 3 | .abortsSent => 4 | .arbLost => 5
  | .attempts => 6 | .delivered => 7 | .failed => 8 | .discarded => 9 | .ingressAdmitted => 10 | .ingressRefused => 11

/-- The position of a trunk counter. -/
def TrunkCounter.index : TrunkCounter → Fin 10
  | .framesIn => 0 | .framesOut => 1 | .checkErrors => 2 | .formatErrors => 3 | .seqGaps => 4 | .creditViolations => 5
  | .requestOverruns => 6 | .reportsLost => 7 | .cutFrames => 8 | .linkUps => 9

/-- The position of a gateway counter. -/
def GatewayCounter.index : GatewayCounter → Fin 7
  | .noticesCreated => 0 | .noticesSent => 1 | .noticesFailed => 2 | .noticesLost => 3 | .noticesSuppressed => 4
  | .eventsLost => 5 | .poolEmptyCount => 6

/-- Change one port. -/
def modPort (p : SegPort) (f : Port → Port) (s : State) : State := { s with ports := modAt s.ports p f }

/-- Advance a port counter by an amount. -/
def countPort (p : SegPort) (c : PortCounter) (amount : Nat) (s : State) : State :=
  modPort p (fun pt => { pt with counters := modAt pt.counters c.index (saturate · amount) }) s

/-- Change the trunk link. -/
def modTrunk (f : Trunk → Trunk) (s : State) : State := { s with trunk := f s.trunk }

/-- Advance a trunk counter by an amount. -/
def countTrunk (c : TrunkCounter) (amount : Nat) (s : State) : State :=
  modTrunk (fun t => { t with counters := modAt t.counters c.index (saturate · amount) }) s

/-- Advance a gateway counter by one. -/
def countGateway (c : GatewayCounter) (s : State) : State :=
  { s with gateway := modAt s.gateway c.index (saturate · 1) }

/-! ### Events -/

/-- The largest detail of an event (R181). -/
def detailMax : Nat := 65535

/-- Change the event records. -/
def modEvents (f : List Event → List Event) (s : State) : State :=
  { s with events := { s.events with records := f s.events.records } }

/-- Whether a record is the one for a kind and a port (R182). -/
def Event.isFor (kind : EventKind) (port : Location) (e : Event) : Bool := e.kind == kind && e.port == port

/-- One more occurrence in the record that holds its kind and port (R182). -/
def Event.coalesce (detail : Nat) (e : Event) : Event :=
  if e.inTx then
    { e with further := min (e.further + 1) 255, furtherDetail := if e.further = 0 then detail else e.furtherDetail }
  else { e with occurrences := min (e.occurrences + 1) 255 }

/-- Whether a kind is masked (R182; bit k - 1 masks code k). -/
def masked (kind : EventKind) (s : State) : Bool := s.events.mask.getLsbD (kind.code - 1)

/-- The event list takes a raised event: the first case of R182 that fits. -/
def raise (kind : EventKind) (port : Location) (detail : Nat) (s : State) : State :=
  if masked kind s then s
  else if s.events.records.any (Event.isFor kind port) then
    modEvents (·.map fun e => if e.isFor kind port then e.coalesce (min detail detailMax) else e) s
  else if s.events.records.length < 16 then
    modEvents (· ++ [⟨kind, port, min detail detailMax, 1, false, 0, 0⟩]) s
  else countGateway .eventsLost s

/-- The end of the EVENT frame of the record in transmission at its EOF: the record leaves, or goes to the tail with its
further occurrences (R186). -/
def eventSent (s : State) : State :=
  modEvents (fun es =>
    es.filter (!·.inTx) ++
      (es.filter fun e => e.inTx && e.further != 0).map fun e =>
        { e with detail := e.furtherDetail, occurrences := e.further, further := 0, inTx := false }) s

/-- The EVENT frame of the record in transmission is cut at entry to SUSPECT (R186). -/
def eventCut (s : State) : State :=
  modEvents (·.map fun e =>
    if e.inTx then { e with inTx := false, occurrences := min (e.occurrences + e.further) 255, further := 0 } else e) s

end Sys2Proof.Machine
end

