-- ==== Sys2Proof/Machine/Ops.lean ====
section
/-! DEFINITION. The operations that the commands share: frame slots and the reserve, queues and references, the custody
unit's records, the node map's reports, selection, and the end of an attempt. -/

namespace Sys2Proof.Machine

/-! ### Frame slots and the inbound reserve (R109 to R114) -/

def modPool (f : Pool → Pool) (s : State) : State := { s with pool := f s.pool }

def modSlot (i : SlotId) (f : FrameSlot → FrameSlot) (s : State) : State :=
  modPool (fun p => { p with slots := modAt p.slots i f }) s

/-- The frame slots in a given state, in ascending order. -/
def slotsIn (status : SlotStatus) (s : State) : List SlotId := allSlots.filter fun i => s.pool.slots[i].status == status

/-- The number of unfilled reserved slots, which is the inbound credit (R157). -/
def unfilledCount (s : State) : Nat := (slotsIn .unfilled s).length

/-- The number of RESERVED slots, filled and unfilled together (R111). -/
def reservedCount (s : State) : Nat := unfilledCount s + (slotsIn .filled s).length

/-- The trunk link's current inbound limit (R157). -/
def currentLimit (s : State) : BitVec 8 := s.trunk.nextExpected + BitVec.ofNat 8 (unfilledCount s)

/-- The current limit has changed: CREDIT pending is set while the link is UP (R157). -/
def noteCredit (s : State) : State :=
  if s.trunk.link = .up then modTrunk (fun t => { t with creditPending := true }) s else s

/-- Refill the reserve from the head of the free list while it is short and the free list is not empty (R111). -/
def refill (s : State) : State :=
  let n := min (s.pool.reserveSize - reservedCount s) s.pool.free.length
  if n = 0 then s
  else
    noteCredit <| modPool (fun p =>
      { p with
        slots := (p.free.take n).foldl (fun v i => modAt v i fun _ => .blank .unfilled) p.slots
        free := p.free.drop n }) s

/-- Release a frame slot: it joins the reserve when that is short, else the tail of the free list (R113); a refill
follows where one is possible (R111). -/
def releaseSlot (i : SlotId) (s : State) : State :=
  let emptied := modSlot i (fun _ => .blank .free) s
  if reservedCount emptied < emptied.pool.reserveSize then
    refill (noteCredit (modSlot i (fun _ => .blank .unfilled) s))
  else refill (modPool (fun p => { p with free := p.free ++ [i] }) emptied)

/-- One of the unfilled reserved slots; which one the spec leaves open (R112, R114, log 9). -/
def pickUnfilled (s : State) : Option SlotId :=
  let us := slotsIn .unfilled s
  us[Config.freePick s.freeCount % us.length]?

/-- Move unfilled reserved slots, one after another, to the tail of the free list (R114). -/
def trimBy : Nat → State → State
  | 0, s => s
  | n + 1, s =>
    match pickUnfilled s with
    | none => s
    | some i =>
      trimBy n (modPool (fun p => { p with free := p.free ++ [i] })
        (modSlot i (fun _ => .blank .free) { s with freeCount := s.freeCount + 1 }))

/-- Trim the reserve until it is at or below INBOUND_RESERVE or no unfilled slot remains (R114). -/
def trim (s : State) : State := trimBy (min (reservedCount s - s.pool.reserveSize) (unfilledCount s)) s

/-! ### Queues (R115, R116) -/

def modQueue (q : PortId) (f : Queue → Queue) (s : State) : State :=
  modPool (fun p => { p with queues := modAt p.queues q f }) s

/-- The references of a queue's lanes, lanes 0 to 7, each from head to tail (R134). -/
def laneRefs (q : Queue) : List Ref := q.lanes.toList.flatten

/-- The length of a queue (R115). -/
def queueLength (q : Queue) : Nat := (laneRefs q).length + q.holder.toList.length

/-- The occupancy of a queue: its length and its pending references (R115). -/
def occupancy (q : Queue) : Nat := queueLength q + q.pending.length

/-- The frame slot a reference points at. -/
def slotOf (r : Ref) (s : State) : FrameSlot := s.pool.slots[r.slot]

/-- Selection falls due on a port (R54, log 10). -/
def makeDue (p : SegPort) (s : State) : State := modPort p (fun pt => { pt with due := true }) s

/-- Selection falls due on the port of a segment queue; the trunk queue has no transmitter to select. -/
def makeDueQueue (q : PortId) (s : State) : State :=
  match segOf? q with
  | some p => makeDue p s
  | none => s

/-- A reference joins the tail of the lane of its frame's egress priority (R116, R121). -/
def joinTail (q : PortId) (r : Ref) (s : State) : State :=
  makeDueQueue q (modQueue q (fun Q => { Q with lanes := modAt Q.lanes (slotOf r s).priority (· ++ [r]) }) s)

/-- A reference returns to the head of its lane (R116). -/
def returnToHead (q : PortId) (r : Ref) (s : State) : State :=
  modQueue q (fun Q => { Q with lanes := modAt Q.lanes (slotOf r s).priority (r :: ·) }) s

/-- The head of a lane. -/
def laneHead (q : PortId) (lane : Priority) (s : State) : Option Ref := s.pool.queues[q].lanes[lane].head?

/-- The most urgent non-empty lane of a queue, with its head (R54, R125). -/
def firstHead (q : PortId) (s : State) : Option (Priority × Ref) :=
  (List.finRange 8).findSome? fun lane => (laneHead q lane s).map (lane, ·)

/-- Take the head off a lane. -/
def popLane (q : PortId) (lane : Priority) (s : State) : State :=
  modQueue q (fun Q => { Q with lanes := modAt Q.lanes lane List.tail }) s

/-- Put a reference into a queue's holder: the attempt holder, or trunk transmission (R116). -/
def setHolder (q : PortId) (h : Option Ref) (s : State) : State := modQueue q (fun Q => { Q with holder := h }) s

/-- Mark the reference in a queue's holder, unless it is marked already (R60). -/
def markHolder (q : PortId) (hit : Ref → Bool) (m : Mark) (s : State) : State :=
  modQueue q (fun Q => { Q with holder := Q.holder.map fun r => if hit r && r.mark.isNone then { r with mark := some m } else r }) s

/-- Mark pending references of a queue, unless they are marked already (R122). -/
def markPending (q : PortId) (hit : Ref → Bool) (m : Mark) (s : State) : State :=
  modQueue q (fun Q => { Q with pending := Q.pending.map fun r => if hit r && r.mark.isNone then { r with mark := some m } else r }) s

/-- Whether a frame slot's epoch is stale (R86). -/
def isStale (epoch : Nat) (s : State) : Bool := epoch < s.route.purgeEpoch

/-! ### The node map's answers (R97, R100, R101) -/

/-- The entry index of a node address; groups and all stations have none (R93). -/
def nodeIndex? (a : Address) : Option (Fin 120) := if h : a.val < 120 then some ⟨a.val, h⟩ else none

/-- The location of a node; UNASSIGNED where the address has no entry. -/
def nodeLocation (a : Address) (s : State) : Location :=
  match nodeIndex? a with
  | some i => s.nodes.entries[i].location
  | none => .unassigned

/-- Whether a node is BLOCKED; an address without an entry is never blocked (R100). -/
def nodeBlocked (a : Address) (s : State) : Bool :=
  match nodeIndex? a with
  | some i => s.nodes.entries[i].blocked
  | none => false

def modNode (i : Fin 120) (f : NodeEntry → NodeEntry) (s : State) : State :=
  { s with nodes := { s.nodes with entries := modAt s.nodes.entries i f } }

/-! ### The custody unit's records (R134 to R142) -/

def modCustody (f : Custody → Custody) (s : State) : State := { s with custody := f s.custody }

/-- Create a notice from the end record of a segment-origin slot: the first case of R136 that applies. -/
def createNotice (n : Notice) (s : State) : State :=
  if n.service = 15 then countGateway .noticesSuppressed s
  else if nodeBlocked n.target s then countGateway .noticesSuppressed s
  else if !s.ports[n.port].enabled then countGateway .noticesCreated s
  else if 8 ≤ s.custody.notices.length then
    raise .noticeLost (.seg n.port) n.target.val (countGateway .noticesLost s)
  else makeDue n.port (countGateway .noticesCreated (modCustody (fun c => { c with notices := c.notices ++ [n] }) s))

/-- Create a report from a tagged record: the first case of R140 that applies. -/
def createReport (r : Report) (s : State) : State :=
  if s.trunk.link = .seek ∨ s.trunk.link = .train then countTrunk .reportsLost 1 s
  else if 16 ≤ s.custody.reports.length then raise .reportLost .trunk r.tag.toNat (countTrunk .reportsLost 1 s)
  else modCustody (fun c => { c with reports := c.reports ++ [r] }) s

/-- The custody unit takes an end record: a notice for a segment-origin slot, a report for a tagged trunk-origin slot
(R134). -/
def takeEndRecord (sl : FrameSlot) (q : PortId) (attempts : Nat) (reason : Reason) (s : State) : State :=
  match segOf? sl.origin, segOf? sl.ingress with
  | some _, some p =>
    if reason = .delivered then s
    else createNotice ⟨p, sl.frame.source, sl.frame.dest, sl.frame.service, reason, min attempts 255, q, 0, false⟩ s
  | _, _ =>
    match sl.tag with
    | some tag => createReport ⟨tag, reason, some q, min attempts 255, false⟩ s
    | none => s

/-- The custody unit takes a rejection record: a report when the frame carried a tag (R123, R134). -/
def takeRejection (tag : Option (BitVec 16)) (reason : Reason) (s : State) : State :=
  match tag with
  | some tag => createReport ⟨tag, reason, none, 0, false⟩ s
  | none => s

/-! ### Removal of references (R126) -/

/-- Whether the pool hands an end record for a removed reference (R126). -/
def endRecordDue (sl : FrameSlot) (r : Ref) (reason : Reason) : Bool :=
  sl.custody && r.kind == .frame && (reason != .delivered || sl.tag.isSome)

/-- A reference, already taken out of its place, is removed: an end record where one is due, then the slot's reference
count falls, and at 0 the slot is released (R126). -/
def dropRef (q : PortId) (r : Ref) (reason : Reason) (s : State) : State :=
  let sl := slotOf r s
  let handed := if endRecordDue sl r reason then takeEndRecord sl q r.count reason s else s
  if sl.refs ≤ 1 then releaseSlot r.slot handed
  else modSlot r.slot (fun x => { x with refs := x.refs - 1 }) handed

/-- A reference of a queue is removed without an attempt outcome: a segment port counts DISCARDED (R67). -/
def discardRef (q : PortId) (r : Ref) (reason : Reason) (s : State) : State :=
  match segOf? q with
  | some p => dropRef q r reason (countPort p .discarded 1 s)
  | none => dropRef q r reason s

/-- Whether a transmitter's armed frame candidate is no longer the head of its lane (R56). -/
def candidateGone (p : SegPort) (s : State) : Bool :=
  match s.ports[p].tx with
  | .armed (.frame lane slot) => (laneHead p.port lane s).map (·.slot) != some slot
  | .armed (.notice _ _) => !s.custody.notices.any (·.port == p)
  | .off | .idle | .sending _ | .slots _ => false

/-- Selection falls due on the port of a queue whose armed candidate has left its lane (R56). -/
def dueIfGone (q : PortId) (s : State) : State :=
  match segOf? q with
  | some p => if candidateGone p s then makeDue p s else s
  | none => s

/-- References already taken out of a queue's lanes are removed one after another; where the port's armed candidate was among them,
the transmitter selects again (R56, R126, R134). -/
def discardAll (q : PortId) (gone : List Ref) (reason : Reason) (s : State) : State :=
  dueIfGone q (gone.foldl (fun t r => discardRef q r reason t) s)

/-- Remove every lane reference of a queue that a block sweep, an expiry or a flush selects, in lane order (R128 to R130, R134). -/
def sweepLanes (q : PortId) (hit : Ref → Bool) (reason : Reason) (s : State) : State :=
  discardAll q ((laneRefs s.pool.queues[q]).filter hit) reason
    (modQueue q (fun Q => { Q with lanes := modAll Q.lanes (·.filter fun r => !hit r) }) s)

/-- Remove every reference of one lane that the purge sweep selects, from head to tail (R89, R134). -/
def sweepLane (q : PortId) (lane : Priority) (hit : Ref → Bool) (reason : Reason) (s : State) : State :=
  discardAll q (s.pool.queues[q].lanes[lane].filter hit) reason
    (modQueue q (fun Q => { Q with lanes := modAt Q.lanes lane (·.filter fun r => !hit r) }) s)

/-! ### The node map's reports (R99, R102 to R105) -/

/-- The block sweep of one segment queue for a node: pending references marked, the attempt holder marked, lane references
removed BLOCKED (R105). -/
def blockSweepQueue (a : Address) (s : State) (p : SegPort) : State :=
  let hit := fun r : Ref => (slotOf r s).frame.dest == a
  sweepLanes p.port hit .blocked (markHolder p.port hit .blocked (markPending p.port hit .blocked s))

/-- The block sweep for a node, over the four segment queues (R105). -/
def blockSweep (a : Address) (s : State) : State := allSegPorts.foldl (blockSweepQueue a) s

/-- A delivery failure is reported for a destination (R102): the node's failures advance, and at the threshold an OPEN
node is blocked, NODE_BLOCKED raised and the block sweep run (R104). -/
def nodeFailed (dest : Address) (s : State) : State :=
  match nodeIndex? dest with
  | none => s
  | some i =>
    let e := s.nodes.entries[i]
    let failures := min (e.failures + 1) 15
    if s.nodes.threshold ≠ 0 ∧ s.nodes.threshold ≤ failures ∧ e.blocked = false then
      blockSweep dest (raise .nodeBlocked e.location dest.val
        (modNode i (fun e => { e with failures := failures, blocked := true }) s))
    else modNode i (fun e => { e with failures := failures }) s

/-- A delivery is reported for a destination: the node's failures become 0 (R103). -/
def nodeDelivered (dest : Address) (s : State) : State :=
  match nodeIndex? dest with
  | none => s
  | some i => modNode i (fun e => { e with failures := 0 }) s

/-- The presence of a source on a segment port: a node BLOCKED and located there is unblocked (R99). -/
def nodePresent (p : SegPort) (source : Address) (s : State) : State :=
  match nodeIndex? source with
  | none => s
  | some i => modNode i (fun e => if e.blocked && e.location == .seg p then { e with failures := 0, blocked := false } else e) s

/-! ### The end of a reference by an outcome (R59 to R61) -/

/-- A segment reference ends FAILED: FAILED is counted, the reference removed with its reason and attempts used, and, when
`report` is set, a delivery failure reported (R61, R102). -/
def failRef (p : SegPort) (r : Ref) (reason : Reason) (report : Bool) (s : State) : State :=
  let dest := (slotOf r s).frame.dest
  let ended := dropRef p.port r reason (countPort p .failed 1 s)
  if report then nodeFailed dest ended else ended

/-- A segment reference is released DELIVERED: DELIVERED is counted and the delivery reported (R61, R103). -/
def deliverRef (p : SegPort) (r : Ref) (s : State) : State :=
  let dest := (slotOf r s).frame.dest
  dropRef p.port r .delivered (nodeDelivered dest (countPort p .delivered 1 s))

/-! ### Selection (R54) -/

/-- What selection finds best on a port. -/
inductive Choice where
  | nothing
  | notice
  | frame (lane : Priority) (r : Ref)
deriving DecidableEq, Repr

/-- The best candidate: the most urgent priority, a notice before a queued frame of equal priority (R54). -/
def bestChoice (p : SegPort) (s : State) : Choice :=
  match firstHead p.port s, s.custody.notices.any (·.port == p) with
  | none, false => .nothing
  | none, true => .notice
  | some (lane, r), false => .frame lane r
  | some (lane, r), true => if s.custody.noticePriority ≤ lane then .notice else .frame lane r

/-- The transmitter takes a state and its selection is no longer due. -/
def settleTx (p : SegPort) (tx : TxState) (s : State) : State := modPort p (fun pt => { pt with tx := tx, due := false }) s

/-- The transmitter may select: its receiver is in IDLE and it is IDLE or ARMED (R54). -/
def maySelect (pt : Port) : Bool :=
  pt.rx == .idle && match pt.tx with
    | .idle | .armed _ => true
    | .off | .sending _ | .slots _ => false

/-- One turn of selection on a port. A stale head is removed PURGED, an over-limit head ended FAILED, and selection stays
due; otherwise the transmitter is ARMED with the candidate, or IDLE (R54). Where selection may not run, an armed candidate
that has gone is dropped. -/
def selectOnce (p : SegPort) (s : State) : State :=
  let pt := s.ports[p]
  if maySelect pt then
    match bestChoice p s with
    | .nothing => settleTx p .idle s
    | .notice => settleTx p (.armed (.notice s.custody.noticePriority (s.custody.noticeSource.castLE (by decide)))) s
    | .frame lane r =>
      if isStale (slotOf r s).epoch s then discardRef p.port r .purged (popLane p.port lane s)
      else if pt.retryLimit < r.count then failRef p r .undeliverable true (popLane p.port lane s)
      else settleTx p (.armed (.frame lane r.slot)) s
  else settleTx p (if candidateGone p s then .idle else pt.tx) s

/-- The first port on which selection is due. -/
def nextDue (s : State) : Option SegPort := allSegPorts.find? fun p => s.ports[p].due

/-- Run selection wherever it is due, port by port in ascending order, until it is due nowhere (log 10). The bound is
never reached: each turn settles a port or removes one of at most 320 references. -/
def runSelections : Nat → State → State
  | 0, s => s
  | n + 1, s =>
    match nextDue s with
    | none => s
    | some p => runSelections n (selectOnce p s)

/-- The end of a step: the selections it has made due are run (R54, R56). -/
def settle (s : State) : State := runSelections 2048 s

/-! ### The end of an attempt (R38, R59, R60, R62) -/

/-- The outcomes of an attempt (R38). -/
inductive TalkerOutcome where
  | delivered | unaccepted | refused | aborted | lost
deriving DecidableEq, Repr

/-- Change, or remove, the first element that a test selects. -/
def updateFirst {α : Type} (test : α → Bool) (f : α → Option α) : List α → List α
  | [] => []
  | a :: as => if test a then (f a).toList ++ as else a :: updateFirst test f as

/-- The first element that a test selects is replaced, or removed, among the notices. -/
def updateNotice (p : SegPort) (f : Notice → Option Notice) (s : State) : State :=
  modCustody (fun c => { c with notices := updateFirst (fun n => n.port == p && n.inAttempt) f c.notices }) s

/-- The notice in attempt on a port. -/
def noticeInAttempt (p : SegPort) (s : State) : Option Notice := s.custody.notices.find? fun n => n.port == p && n.inAttempt

/-- The end of a notice's attempt (R62). -/
def noticeEnded (p : SegPort) (o : TalkerOutcome) (s : State) : State :=
  match noticeInAttempt p s with
  | none => s
  | some n =>
    match o with
    | .delivered => countGateway .noticesSent (updateNotice p (fun _ => none) s)
    | .lost => updateNotice p (fun n => some { n with inAttempt := false }) s
    | .unaccepted | .refused | .aborted =>
      if n.sendCount + 1 ≤ s.ports[p].retryLimit then
        updateNotice p (fun n => some { n with inAttempt := false, sendCount := n.sendCount + 1 }) s
      else countGateway .noticesFailed (updateNotice p (fun _ => none) s)

/-- The end of the attempt of the reference in a port's attempt holder (R59, R60). -/
def refEnded (p : SegPort) (o : TalkerOutcome) (s : State) : State :=
  match s.pool.queues[p.port].holder with
  | none => s
  | some r =>
    let freed := setHolder p.port none s
    match o, r.mark with
    | .delivered, _ => deliverRef p r freed
    | .lost, none => returnToHead p.port r freed
    | .lost, some m => failRef p r m.reason false freed
    | _, none =>
      if r.count + 1 ≤ s.ports[p].retryLimit then returnToHead p.port { r with count := r.count + 1 } freed
      else failRef p { r with count := r.count + 1 } .undeliverable true freed
    | _, some m => failRef p { r with count := r.count + 1 } m.reason true freed

/-- The attempt that a port is making, if it is the talker (R53). -/
def attemptOf (pt : Port) : Option Attempt :=
  match pt.tx with
  | .sending a | .slots a => some a
  | .off | .idle | .armed _ => none

/-- Whether a port is the talker of the current frame. -/
def isTalker (pt : Port) : Bool := (attemptOf pt).isSome

def setTx (p : SegPort) (tx : TxState) (s : State) : State := modPort p (fun pt => { pt with tx := tx }) s

def setRx (p : SegPort) (rx : RxState) (s : State) : State := modPort p (fun pt => { pt with rx := rx }) s

/-- The clock stands at a moment at least (log 2). -/
def advance (t : Ticks) (s : State) : State := { s with now := max s.now t }

/-- The receiver enters FLUSH, whose idle start will be the last rising edge seen (R9, R22). -/
def toFlush (p : SegPort) (s : State) : State := modPort p (fun pt => { pt with rx := .flush, heldFlush := false }) s

/-- The port releases the line and is due to drive nothing further (R20, R21, R23). -/
def release (p : SegPort) (s : State) : State := modPort p (fun pt => { pt with pin := [], pulse := none }) s

/-- A port's attempt, if it is making one, ends with an outcome: the transmitter enters IDLE, ARB_LOST is counted for a
LOST, and the reference or the notice takes the outcome (R58). -/
def endAttempt (p : SegPort) (o : TalkerOutcome) (s : State) : State :=
  match attemptOf s.ports[p] with
  | none => s
  | some a =>
    let counted := if o = .lost then countPort p .arbLost 1 s else s
    let idled := setTx p .idle counted
    if a.notice then noticeEnded p o idled else refEnded p o idled

/-- A transmitter that is armed when its receiver leaves idle for good drops its candidate, which stays where it is
(R55, R23). -/
def disarm (p : SegPort) (s : State) : State :=
  match s.ports[p].tx with
  | .armed _ => setTx p .idle s
  | .off | .idle | .sending _ | .slots _ => s

/-! ### Confirmation and withdrawal (R47, R48, R122) -/

/-- The frame slot of a port's admission that is not yet confirmed. -/
def admittedSlot (pt : Port) : Option SlotId := pt.assembly.admission.bind (·.slot)

/-- Confirm the pending references of a frame slot in one queue: an unmarked one joins its lane, a marked one is removed
with the reason of its mark (R122). -/
def confirmQueue (i : SlotId) (s : State) (q : PortId) : State :=
  let refs := s.pool.queues[q].pending.filter (·.slot == i)
  let rest := modQueue q (fun Q => { Q with pending := Q.pending.filter fun r => !(r.slot == i) }) s
  refs.foldl (fun t r =>
    match r.mark with
    | none => joinTail q r t
    | some m => discardRef q r m.reason t) rest

/-- Confirm an admission: the custody flag is written first, then the pending references of each queue (R47, R122). -/
def confirm (p : SegPort) (s : State) : State :=
  match admittedSlot s.ports[p] with
  | none => s
  | some i =>
    allPorts.foldl (confirmQueue i)
      (modSlot i (fun sl => { sl with custody := s.ports[p].assembly.answer == .accept }) s)

/-- Withdraw an admission: every pending reference of the slot goes and the slot is released, without a record (R48). -/
def withdraw (p : SegPort) (s : State) : State :=
  match admittedSlot s.ports[p] with
  | none => s
  | some i =>
    releaseSlot i (allPorts.foldl (fun t q =>
      modQueue q (fun Q => { Q with pending := Q.pending.filter fun r => !(r.slot == i) }) t) s)

def clearAssembly (p : SegPort) (s : State) : State := modPort p (fun pt => { pt with assembly := {} }) s

/-- The receiver leaves a frame: an admission not yet confirmed is withdrawn and the assembly buffer discarded (R43, R48). -/
def leaveFrame (p : SegPort) (s : State) : State := clearAssembly p (withdraw p s)

/-- The port drives an abort pulse of 2.0 Tb from a moment `t`, and nothing else; ABORTS_SENT counts it (R15, R18, R19). The line's low
runs from its falling edge `fall`, where the pulse lengthens a low in progress, or else from `t` (R1). -/
def driveAbort (p : SegPort) (fall t : Ticks) (s : State) : State :=
  modPort p (fun pt =>
    { pt with edge := fall, pin := [⟨.abort, t, t + abortLow pt.rate⟩], pulse := some (t + abortLow pt.rate) }) (countPort p .abortsSent 1 s)

/-- The receiver is inside a frame, or measures the low that may open one, and the port drives no abort pulse (R20, R41). -/
def following (pt : Port) : Bool :=
  pt.pulse.isNone && (pt.rx == .leadIn || pt.rx == .gap || pt.rx == .bits || pt.rx == .slots)

/-- A signal or format error detected at a moment (R18, R19, R32): it is counted; a talker's attempt ends ABORTED; the frame is
left, for flush; and the port drives an abort pulse as talker, when ABORT_ON_ERROR is set, or when it has asserted the accept
slot. -/
def frameError (p : SegPort) (c : PortCounter) (t : Ticks) (s : State) : State :=
  let pt := s.ports[p]
  let ended := endAttempt p .aborted (disarm p (countPort p c 1 s))
  let left := toFlush p (leaveFrame p ended)
  if isTalker pt || pt.abortOnError || pt.assembly.acceptDriven then driveAbort p t t left else release p left

end Sys2Proof.Machine
end

