-- ==== Sys2Proof/Machine/Routing.lean ====
section
/-! DEFINITION. The route list: banks, lookups and the route decision, and the commit; with the commands
PURGE_SWEEP_STEP and RESYNC_COMPLETE (04_the_route_list.md). -/

namespace Sys2Proof.Machine

def modRoute (f : RouteList → RouteList) (s : State) : State := { s with route := f s.route }

/-- The bank that answers lookups (R68). -/
def activeBank (r : RouteList) : Vector RouteEntry 64 := if r.activeIsB then r.bankB else r.bankA

/-- The bank that management edits (R68). -/
def shadowBank (r : RouteList) : Vector RouteEntry 64 := if r.activeIsB then r.bankA else r.bankB

/-- The route list with another active bank. -/
def setActive (b : Vector RouteEntry 64) (r : RouteList) : RouteList :=
  if r.activeIsB then { r with bankB := b } else { r with bankA := b }

/-- The route list with another shadow bank. -/
def setShadow (b : Vector RouteEntry 64) (r : RouteList) : RouteList :=
  if r.activeIsB then { r with bankA := b } else { r with bankB := b }

/-! ### Lookup (R74 to R84) -/

/-- Whether an entry matches a frame (R76). -/
def entryMatches (ingress : PortId) (dest source : Address) (service : Service) (e : RouteEntry) : Bool :=
  e.valid && e.ingress.getLsbD ingress.val && e.destLow ≤ dest.val && dest.val ≤ e.destHigh &&
    (match e.source with
      | none => true
      | some (lo, hi) => lo ≤ source.val && source.val ≤ hi) &&
    e.services.getLsbD service.val

/-- The index of the first entry of the active bank that matches (R76). -/
def findEntry (ingress : PortId) (dest source : Address) (service : Service) (r : RouteList) : Option RouteIndex :=
  (List.finRange 64).find? fun i => entryMatches ingress dest source service (activeBank r)[i]

/-- An egress set and a refusal reason. -/
abbrev Resolved := PortSet × Option Reason

/-- HOME resolution: the first case of R80 that applies, with R82 for ingress T. -/
def resolveHome (ingress : PortId) (dest : Address) (s : State) : Resolved :=
  match nodeIndex? dest with
  | none => (0, some .noHome)
  | some i =>
    let e := s.nodes.entries[i]
    match e.location with
    | .unassigned => (0, some .noHome)
    | .trunk => if ingress = trunkPort then (0, some .noHome) else (portSingleton trunkPort, none)
    | .seg p =>
      if ingress = p.port then (0, none)
      else if e.blocked then (0, some .blocked)
      else (portSingleton p.port, none)

/-- FORWARD: the egress set less the ingress port (R79); for ingress T an empty set is refused DROPPED (R82). -/
def resolveForward (ingress : PortId) (egress : PortSet) : Resolved :=
  let set := portErase egress ingress
  (set, if ingress = trunkPort ∧ set = 0 then some .dropped else none)

/-- The egress set and refusal reason of an entry's action (R79 to R82). -/
def resolveEntry (ingress : PortId) (dest : Address) (e : RouteEntry) (s : State) : Resolved :=
  match e.action with
  | .forward => resolveForward ingress e.egress
  | .home => resolveHome ingress dest s
  | .drop => (0, some .dropped)

/-- The decision's mirror (R83). -/
def mirrorOf (ingress : PortId) (e : RouteEntry) (egress : PortSet) : Bool :=
  e.mirror && ingress != trunkPort && !egress.getLsbD trunkPort.val

/-- The decision of a matching entry (R78). -/
def entryDecision (ingress : PortId) (f : Frame) (i : RouteIndex) (s : State) : Decision :=
  let e := (activeBank s.route)[i]
  let res := resolveEntry ingress f.dest e s
  { misplaced := false, entry := .entry i, epoch := s.route.epoch, egress := res.1, mode := e.mode
    priority := e.priority.getD f.priority, lifetime := e.lifetime, mirror := mirrorOf ingress e res.1, refusal := res.2 }

/-- A decision that names no entry: the frame's own priority, lifetime class 0, no mirror (R84). -/
def missDecision (f : Frame) (res : Resolved) (mode : Mode) (s : State) : Decision :=
  { misplaced := false, entry := .miss, epoch := s.route.epoch, egress := res.1, mode := mode, priority := f.priority
    lifetime := 0, mirror := false, refusal := res.2 }

/-- The decision of a miss, by the ingress and its MISS_ACTION (R84). -/
def resolveMiss (ingress : PortId) (miss : MissAction) (f : Frame) (s : State) : Decision :=
  if ingress = trunkPort then missDecision f (0, some .noRoute) .passive s
  else
    match miss with
    | .drop => missDecision f (0, some .noRoute) .passive s
    | .homePassive => missDecision f (resolveHome ingress f.dest s) .passive s
    | .homeCustody => missDecision f (resolveHome ingress f.dest s) .custody s

/-- The matching entry's hit count advances (R77). -/
def countHit (i : RouteIndex) (s : State) : State :=
  modRoute (fun r => setActive (modAt (activeBank r) i fun e => { e with hits := saturate e.hits 1 }) r) s

/-- Matching and resolution, once the source check has passed (R76 to R84). -/
def matchFrame (ingress : PortId) (miss : MissAction) (f : Frame) (s : State) : Decision × State :=
  match findEntry ingress f.dest f.source f.service s.route with
  | some i => (entryDecision ingress f i s, countHit i s)
  | none => (resolveMiss ingress miss f s, s)

/-- Whether a segment frame is misplaced: its source's location is another segment port or TRUNK (R75, R97). -/
def isMisplaced (p : SegPort) (source : Address) (s : State) : Bool :=
  match nodeLocation source s with
  | .unassigned => false
  | .seg q => q != p
  | .trunk => true

/-- A segment lookup: the source check, then matching (R75). R75 gives a misplaced decision no entry, egress set, mirror or refusal
reason, and neither it nor R78 gives one a mode, an egress priority or a lifetime class: the model gives PASSIVE, the frame's own
priority and class 0, which nothing reads (DESIGN CHOICE, log 26). -/
def segmentLookup (p : SegPort) (f : Frame) (s : State) : Decision × State :=
  if isMisplaced p f.source s then ({ missDecision f (0, none) .passive s with misplaced := true }, s)
  else matchFrame p.port s.ports[p].missAction f s

/-- The decision of a direct trunk frame (R155, R74). -/
def directDecision (f : Frame) (direct : SegPort) (inb : Inbound) (s : State) : Decision :=
  { misplaced := false, entry := .direct, epoch := s.route.epoch, egress := portSingleton direct.port
    mode := if inb.custody then .custody else .passive, priority := f.priority, lifetime := inb.lifetime
    mirror := false, refusal := none }

/-! ### Writing the banks (R70 to R73) -/

/-- The source range of written fields: absent, or the two octets (R189). -/
def sourceRange (a : RouteArgs) : Option (Nat × Nat) :=
  if a.sourcePresent = 1 then some (a.sourceLow.toNat, a.sourceHigh.toNat) else none

/-- The priority override of written fields: 255 is absent (R189); other values out of range are refused. -/
def priorityOf? (o : Octet) : Option (Option Priority) :=
  if o = 255 then some none else if h : o.toNat < 8 then some (some ⟨o.toNat, h⟩) else none

/-- The port set of an octet, refused when any of bits 5-7 is set (R169). -/
def portSet? (o : Octet) : Option PortSet := if o.toNat < 32 then some (BitVec.ofNat 5 o.toNat) else none

/-- The lifetime class of an octet. -/
def lifetime? (o : Octet) : Option LifetimeClass := if h : o.toNat < 4 then some ⟨o.toNat, h⟩ else none

/-- A valid entry is well formed (R70). -/
def entryWellFormed (e : RouteEntry) : Bool :=
  e.ingress != 0 && e.destLow ≤ e.destHigh && e.destHigh ≤ 127 &&
    (match e.source with
      | none => true
      | some (lo, hi) => lo ≤ hi && hi ≤ 119) &&
    e.services != 0 &&
    (match e.action with
      | .forward => e.egress != 0
      | .home | .drop => e.egress == 0)

/-- The entry that written fields make, if every field names a value and the entry is well formed (R70, R71, R169). -/
def entryOfArgs? (a : RouteArgs) : Option RouteEntry :=
  match portSet? a.ingress, actionOf? a.action, portSet? a.egress, modeOf? a.mode, yesNo? a.mirror, priorityOf? a.priority,
    lifetime? a.lifetime, yesNo? a.sourcePresent with
  | some ingress, some action, some egress, some mode, some mirror, some priority, some lifetime, some _ =>
    let e : RouteEntry :=
      { valid := true, ingress := ingress, destLow := a.destLow.toNat, destHigh := a.destHigh.toNat, source := sourceRange a
        services := a.services, action := action, egress := egress, mode := mode, mirror := mirror, priority := priority
        lifetime := lifetime, hits := 0 }
    if entryWellFormed e then some e else none
  | _, _, _, _, _, _, _, _ => none

/-- The 14 octets of an entry's written fields (11, MANAGEMENT FRAMES; R189). -/
def entryOctets (e : RouteEntry) : List Octet :=
  let src := match e.source with
    | none => [0, 0, 0]
    | some (lo, hi) => [1, BitVec.ofNat 8 lo, BitVec.ofNat 8 hi]
  [e.ingress.setWidth 8, BitVec.ofNat 8 e.destLow, BitVec.ofNat 8 e.destHigh] ++ src ++ octets2 e.services.toNat ++
    [e.action.code, e.egress.setWidth 8, e.mode.code, yesNo e.mirror,
      match e.priority with
      | none => 255
      | some p => BitVec.ofNat 8 p.val,
      BitVec.ofNat 8 e.lifetime.val]

/-! ### Commit (R87 to R92) -/

/-- The largest epoch (R68). -/
def epochMax : Nat := 4294967295

/-- A bank with every hit count 0 (R88). -/
def withoutHits (b : Vector RouteEntry 64) : Vector RouteEntry 64 := modAll b fun e => { e with hits := 0 }

/-- The lanes in the order in which the purge sweep examines them: the queues S0 to S3 and T, lanes 0 to 7 of each (DESIGN CHOICE: R134
orders the removals of one step so, and R89 names no order; log 12). -/
def sweepOrder : List (PortId × Priority) := allPorts.flatMap fun q => (List.finRange 8).map (q, ·)

/-- The swap: the banks exchange roles, the epoch advances, the new active bank's hit counts are 0, and with purge the
purge epoch is raised (R88). The old active bank keeps no hit counts. -/
def swapBanks (purge : Bool) (r : RouteList) : RouteList :=
  { r with
    bankA := withoutHits r.bankA
    bankB := withoutHits r.bankB
    activeIsB := !r.activeIsB
    epoch := r.epoch + 1
    purgeEpoch := if purge then r.epoch + 1 else r.purgeEpoch
    commit := .running (if purge then sweepOrder else []) true }

/-- With purge, the swap makes every ARMED transmitter select again (R88). -/
def dueIfArmed (s : State) (p : SegPort) : State :=
  match s.ports[p].tx with
  | .armed _ => makeDue p s
  | .off | .idle | .sending _ | .slots _ => s

/-- The commit's swap as a step of the device (R88). -/
def commitSwap (purge : Bool) (s : State) : State :=
  let swapped := modRoute (swapBanks purge) s
  if purge then allSegPorts.foldl dueIfArmed swapped else swapped

/-- A response goes to the response holder (R160, R166). -/
def respond (r : Response) (s : State) : State := modTrunk (fun t => { t with response := some r }) s

/-- Once the resync and any purge sweep have completed, the commit completes: IDLE, and the agent answers OK with the new
epoch, unless the drop mark is set; the request's buffer is freed (R90, R166). -/
def commitComplete (s : State) : State :=
  match s.route.commit with
  | .running [] false =>
    let idle := modRoute (fun r => { r with commit := .idle }) s
    match s.agent.executing, s.agent.buffers with
    | true, req :: rest =>
      let freed := { idle with agent := { buffers := rest, executing := false, dropMark := false } }
      if s.agent.dropMark then freed else respond ⟨req.id, .ok, octets4 s.route.epoch⟩ freed
    | _, _ => idle
  | .idle | .running (_ :: _) _ | .running _ true => s

/-- The purge sweep of one lane, whole: a stale reference in the attempt holder of its queue's port is marked, and the lane's
references with a stale epoch are removed PURGED (R89). -/
def purgeSweepLane (q : PortId) (lane : Priority) (s : State) : State :=
  let hit := fun r : Ref => isStale (slotOf r s).epoch s
  let marked := if q = trunkPort then s else markHolder q hit .purged s
  sweepLane q lane hit .purged marked

/-- PURGE_SWEEP_STEP: the pool's purge sweep examines its next lane; with the last one the sweep completes (R89, R90, R129; one lane
to a command is log 12). -/
def execPurgeSweepStep (s : State) : Host.Outcome State Fault Refusal :=
  match s.route.commit with
  | .running ((q, lane) :: rest) resync =>
    .next (settle (commitComplete
      (modRoute (fun r => { r with commit := .running rest resync }) (purgeSweepLane q lane s))))
  | .idle | .running [] _ => .next s

/-- RESYNC_COMPLETE: the shadow bank is a copy of the active bank, with hit counts 0 (R90). -/
def execResyncComplete (s : State) : Host.Outcome State Fault Refusal :=
  match s.route.commit with
  | .running lanesLeft true =>
    .next (commitComplete (modRoute (fun r =>
      { setShadow (withoutHits (activeBank r)) r with commit := .running lanesLeft false }) s))
  | .idle | .running _ false => .next s

end Sys2Proof.Machine
end

