-- ==== Sys2Proof/Machine/Admission.lean ====
section
/-! DEFINITION. Admission of segment and trunk frames, the mirror copy, and the command DEADLINE_EXPIRY
(06_frame_pool_admission_and_egress_queues.md). -/

namespace Sys2Proof.Machine

/-- The trunk egress queue's limit (R115). -/
def trunkQueueLimit : Nat := 48

/-- Why one target fails its checks, if it does: the first of PORT_DISABLED, BLOCKED, NO_SPACE (R117). -/
def targetFailure (dest : Address) (s : State) (q : PortId) : Option Reason :=
  match segOf? q with
  | some p =>
    if !s.ports[p].enabled then some .portDisabled
    else if nodeBlocked dest s then some .blocked
    else if s.ports[p].queueLimit ≤ occupancy s.pool.queues[q] then some .noSpace
    else none
  | none => if trunkQueueLimit ≤ occupancy s.pool.queues[q] then some .noSpace else none

/-- The reason of a NONE over failing targets: BLOCKED before PORT_DISABLED before NO_SPACE (R118). -/
def noneReason (fails : List Reason) : Reason :=
  if fails.contains .blocked then .blocked else if fails.contains .portDisabled then .portDisabled else .noSpace

/-- What admission settles: the result, the reason of a NONE, the targets admitted, the reasons of those that failed. -/
structure Settled where
  result : AdmitResult
  reason : Option Reason
  admitted : List PortId
  fails : List Reason
deriving DecidableEq, Repr

/-- Whether a decision's epoch is stale (R117 step 2). -/
def staleDecision (d : Decision) (s : State) : Bool := isStale d.epoch s

/-- Steps 1 to 3 of R117 and the policy of R118, before a frame slot is sought. A stale epoch goes first. -/
def settleTargets (dest : Address) (d : Decision) (s : State) : Settled :=
  if staleDecision d s then ⟨.none, some .reconfigured, [], []⟩
  else
    match d.refusal with
    | some reason => ⟨.none, some reason, [], []⟩
    | none =>
      let targets := portMembers d.egress
      if targets.isEmpty then ⟨.loc, none, [], []⟩
      else
        let fails := targets.filterMap (targetFailure dest s)
        let passing := targets.filter fun q => (targetFailure dest s q).isNone
        if fails.isEmpty then ⟨.all, none, targets, []⟩
        else if d.mode = .custody ∨ passing.isEmpty then ⟨.none, some (noneReason fails), [], fails⟩
        else ⟨.some, none, passing, fails⟩

/-- The deadline of a frame admitted now in a lifetime class; LIFETIME 0 gives none (R121, R127). -/
def deadlineOf (c : LifetimeClass) (s : State) : Option Ticks :=
  if s.pool.lifetimes[c] = 0 then none else some (s.now + s.pool.lifetimes[c] * millisecond)

/-- A reference just made: count 0 and no mark (R121). -/
def newRef (i : SlotId) (kind : RefKind) : Ref := ⟨i, kind, 0, none⟩

def addPending (r : Ref) (s : State) (q : PortId) : State := modQueue q (fun Q => { Q with pending := Q.pending ++ [r] }) s

/-- Whether a mirror copy is due, but for the frame slot (R120). -/
def mirrorDue (d : Decision) (s : State) : Bool :=
  !staleDecision d s && d.mirror && occupancy s.pool.queues[trunkPort] < trunkQueueLimit

/-- A segment frame takes the slot at the head of the free list, and its references are made pending (R119, R121). -/
def takeSlot (p : SegPort) (f : Frame) (d : Decision) (i : SlotId) (admitted : List PortId) (mirror : Bool) (s : State) :
    State :=
  let slot : FrameSlot :=
    { status := .queued, frame := f, origin := p.port, ingress := p.port, entry := d.entry, priority := d.priority
      epoch := d.epoch, deadline := deadlineOf d.lifetime s, custody := false, tag := none
      refs := admitted.length + mirror.toNat, inbound := none, decision := none }
  let stored := modSlot i (fun _ => slot) (modPool (fun pl => { pl with free := pl.free.tail }) s)
  let queued := admitted.foldl (addPending (newRef i .frame)) stored
  if mirror then addPending (newRef i .trap) queued trunkPort else queued

/-- Admission of a segment frame (R117 to R121), with its answer to the receiver (R46). -/
def admitSegment (p : SegPort) (f : Frame) (d : Decision) (s : State) : Admission × State :=
  let st := settleTargets f.dest d s
  let mirror := mirrorDue d s
  if st.admitted.isEmpty && !mirror then (⟨st.result, st.reason, false, none⟩, s)
  else
    match s.pool.free with
    | i :: _ => (⟨st.result, st.reason, mirror, some i⟩, takeSlot p f d i st.admitted mirror s)
    | [] =>
      let empty := countGateway .poolEmptyCount (raise .poolEmpty (.seg p) f.dest.val s)
      if st.admitted.isEmpty then (⟨st.result, st.reason, false, none⟩, empty)
      else (⟨.none, some (noneReason (st.fails ++ [.noSpace])), false, none⟩, empty)

/-- A trunk frame is rejected: its slot is released, and a rejection record goes to the custody unit (R123). -/
def rejectTrunk (i : SlotId) (tag : Option (BitVec 16)) (reason : Reason) (s : State) : State :=
  takeRejection tag reason (releaseSlot i s)

/-- Admission of a trunk frame in its filled reserved slot (R117 to R123). -/
def admitTrunk (i : SlotId) (inb : Inbound) (d : Decision) (s : State) : State :=
  let st := settleTargets (s.pool.slots[i].frame.dest) d s
  if st.admitted.isEmpty then rejectTrunk i inb.tag (st.reason.getD .noRoute) s
  else
    let stored := modSlot i (fun sl =>
      { sl with
        status := .queued, origin := trunkPort, ingress := trunkPort, priority := d.priority, epoch := d.epoch
        deadline := deadlineOf d.lifetime s, custody := d.mode == .custody && inb.custody, tag := inb.tag
        refs := st.admitted.length, inbound := none, decision := none }) s
    refill (st.admitted.foldl (fun t q => joinTail q (newRef i .frame) t) stored)

/-- The references of a frame slot whose deadline is reached, in one queue: those in lanes are removed EXPIRED, one in a
segment attempt holder is marked expired, one in trunk transmission is left (R128). -/
def expireQueue (i : SlotId) (s : State) (q : PortId) : State :=
  let hit := fun r : Ref => r.slot == i
  let marked := if q = trunkPort then s else markHolder q hit .expired s
  sweepLanes q hit .expired marked

/-- DEADLINE_EXPIRY: a QUEUED frame's deadline is reached (R128). The clock stands at the deadline at least (log 2). -/
def execDeadlineExpiry (i : SlotId) (s : State) : Host.Outcome State Fault Refusal :=
  match s.pool.slots[i].status, s.pool.slots[i].deadline with
  | .queued, some d => .next (settle (allPorts.foldl (expireQueue i) { s with now := max s.now d }))
  | _, _ => .next s

end Sys2Proof.Machine
end

