-- ==== Sys2Proof/Machine/Line.lean ====
section
/-! DEFINITION. A port on its line: what its receiver makes of the edges and lows of a frame, and the lows that the port drives
on its pin (01_segment_bus_signalling.md, R1 to R8, R12, R16, R17; 03_segment_port_engine.md, R41 to R43). -/

namespace Sys2Proof.Machine

/-! ### The pin (R1, R3, R7, R52) -/

/-- What the port claims its driver for at a moment, if it drives its pin low then. -/
def driverAt (pt : Port) (t : Ticks) : Option Claim := (pt.pin.find? fun l => l.fall ≤ t && t < l.rise).map (·.claim)

/-- Whether the port drives its SEGn pin low at a moment; it never drives it high (R1). -/
def pinIsLow (pt : Port) (t : Ticks) : Bool := (driverAt pt t).isSome

/-- The bit that the talker of a frame sends in a bit slot, counted from 0: the frame's content, and 1 in the two response
slots (R16, R24). -/
def talkerBit (a : Attempt) (k : Nat) : Bool := (sentBits a.frame).getD k true

/-- The low of a talker in a bit slot, counted from 0, at its falling edge (R3, R58). -/
def talkerLow (rate : Rate) (a : Attempt) (k : Nat) (fall : Ticks) : PinLow := ⟨.bit, fall, fall + bitLow rate (talkerBit a k)⟩

/-- The number of bit slots of a frame with `n` payload octets (R6). -/
def frameSlots (n : Nat) : Nat := 35 + 8 * n

/-- The low that a talker is due to drive in the slot after the one with falling edge `fall`, 1.0 Tb later (R6, R7). -/
def talkerNext (rate : Rate) (a : Attempt) (k : Nat) (fall : Ticks) : List PinLow :=
  if k + 1 < frameSlots a.frame.payload.length then [talkerLow rate a (k + 1) (fall + bitPeriod rate)] else []

/-- What a talker drives from its lead-in's falling edge: the lead-in for 3.0 Tb, and bit slot 1 at 4.0 Tb (R6, R12). -/
def talkerStart (rate : Rate) (a : Attempt) (fall : Ticks) : List PinLow :=
  [⟨.leadIn, fall, fall + leadInLow rate⟩, talkerLow rate a 0 (fall + 4 * bitPeriod rate)]

/-- The low with which a responder joins a response slot: 0.60 Tb from the slot's falling edge (R16, R49, R50). -/
def responderLow (rate : Rate) (claim : Claim) (fall : Ticks) : List PinLow := [⟨claim, fall, fall + bitLow rate false⟩]

/-- The number of bit slots of the frame in reception, once control completion has passed (R6, R31). -/
def slotsOf? (a : Assembly) : Option Nat := a.control.map fun c => frameSlots c.length

/-- The accept slot of the frame in reception is the next to begin, or in progress (R24). -/
def atAcceptSlot (a : Assembly) : Bool := slotsOf? a == some (a.bits.length + 2)

/-- The refuse slot of the frame in reception is the next to begin, or in progress (R24). -/
def atRefuseSlot (a : Assembly) : Bool := slotsOf? a == some (a.bits.length + 1)

/-- The pin of a port at the falling edge of a bit slot. A talker's low for the slot runs from the observed edge, and its next one
is due 1.0 Tb after it (R7). A responder joins the accept slot or the refuse slot where its answer asserts it (R49, R50). -/
def pinAtEdge (pt : Port) (fall : Ticks) : List PinLow :=
  match attemptOf pt with
  | some a =>
    let k := pt.assembly.bits.length
    pt.pin.dropLast ++ talkerLow pt.rate a k fall :: talkerNext pt.rate a k fall
  | none =>
    if pt.assembly.answer = .accept ∧ atAcceptSlot pt.assembly = true then pt.pin ++ responderLow pt.rate .accept fall
    else if pt.assembly.answer = .refuse ∧ atRefuseSlot pt.assembly = true then pt.pin ++ responderLow pt.rate .refuse fall
    else pt.pin

/-! ### Edges and lows (R4 to R7, R42) -/

/-- The receiver is between the lows of a frame: a falling edge is a bit slot's (R42, GAP, BITS, SLOTS). -/
def betweenLows (pt : Port) : Bool := (pt.rx == .gap || pt.rx == .bits || pt.rx == .slots) && !pt.assembly.inSlot

/-- A low of a bit slot is in progress (R42, BITS, SLOTS). -/
def insideLow (pt : Port) : Bool := (pt.rx == .bits || pt.rx == .slots) && pt.assembly.inSlot

/-- Whether a gap is one at which the receiver accepts a bit slot's falling edge: 3.8 to 4.4 Tb after the lead-in's and 0.9 to
1.3 Tb after a bit slot's (R6). A talker drives the edge itself after 4.0 or 1.0 Tb, so it sees none later (R7). -/
def edgeAccepted (pt : Port) (gap : Ticks) : Bool :=
  if pt.rx = .gap then firstGapOk pt.rate gap && (!isTalker pt || atMost pt.rate 400 gap)
  else slotGapOk pt.rate gap && (!isTalker pt || atMost pt.rate 100 gap)

/-- A bit slot begins at its falling edge. -/
def beginSlot (gap : Ticks) (pt : Port) : Port :=
  { pt with
    rx := if pt.rx = .gap then .bits else pt.rx
    edge := pt.edge + gap
    pin := pinAtEdge pt (pt.edge + gap)
    assembly := { pt.assembly with inSlot := true } }

/-- The number of bits classified at the next completion point (R31), or at the end of the frame. -/
def completionAt (a : Assembly) : Nat :=
  match a.header, a.control with
  | none, _ => headerBits
  | some _, none => headerBits + controlBits
  | some _, some c => if a.checkGood.isNone then frameSlots c.length - 2 else frameSlots c.length

/-- Bit slots remain to begin after those classified, and the next completion point is still to come (R6, R31). -/
def slotsRemain (a : Assembly) : Bool := a.bits.length < completionAt a

/-- What a talker finds at its sample point in the slot in progress, whose low lasts `low`, is what it sends: in a header, control,
payload or check bit the line is high 0.44 Tb after the edge where it sends 1, and low where it sends 0 (R8). A low sample where
it sends 1 is ARBITRATION_LOST or OVERDRIVE, which come before the end of that low (R14, R15). DESIGN CHOICE: a low that ends at
the sample point itself, 0.44 Tb after the edge, is sampled high (log 32). -/
def sampleAgrees (low : Ticks) (pt : Port) : Bool :=
  match attemptOf pt with
  | some a => pt.rx != .bits || talkerBit a pt.assembly.bits.length == decide (low ≤ samplePoint pt.rate)
  | none => true

/-- The receiver hears the falling edge of a bit slot. That of the accept slot is the command ACCEPT_SLOT_EDGE (R11), and a
completion point is the command of that point: neither is passed over here. -/
def hearEdge (gap : Ticks) (pt : Port) : Option Port :=
  if betweenLows pt && edgeAccepted pt gap && slotsRemain pt.assembly &&
      !(pt.rx == .slots && atAcceptSlot pt.assembly) then some (beginSlot gap pt)
  else none

/-- The receiver hears the end of the low in progress: the lead-in's, which must be 2.6 to 3.4 Tb, or a bit's, which in a talker's own
frame agrees with its sample (R4, R5, R8). A low in progress has a falling edge that was seen, so it lasts 0.05 Tb (log 7). -/
def hearLow (low : Ticks) (pt : Port) : Option Port :=
  if pt.rx = .leadIn then
    if isLeadIn pt.rate low then some { pt with rx := .gap, lastRise := pt.edge + low } else none
  else if insideLow pt && sampleAgrees low pt then
    (bitOf? pt.rate low).map fun bit =>
      { pt with
        lastRise := pt.edge + low
        assembly := { pt.assembly with bits := pt.assembly.bits ++ [bit], inSlot := false } }
  else none

/-- The receiver hears a whole low. Between the lows of a frame one under 0.05 Tb is not seen: it starts no bit slot, and the receiver
is as if the line had stayed recessive (R4). Any other is a bit slot's. -/
def hearSlot (b : BitSlot) (pt : Port) : Option Port :=
  if classifyLow pt.rate b.low = .notSeen then if betweenLows pt then some pt else none
  else (hearEdge b.gap pt).bind (hearLow b.low)

/-- The receiver hears whole lows, in their order. -/
def hearSlots : List BitSlot → Port → Option Port
  | [], pt => some pt
  | b :: rest, pt => (hearSlot b pt).bind (hearSlots rest)

/-- The receiver hears the symbols of a command, or they are none that its state accepts. -/
def hearSymbols (h : Symbols) (pt : Port) : Option Port :=
  ((h.low.elim some hearLow) pt).bind fun closed =>
    (hearSlots h.slots closed).bind fun read => (h.edge.elim some hearEdge) read

/-- The moment of the last edge that a receiver has heard. -/
def heardAt (pt : Port) : Ticks := max pt.edge pt.lastRise

/-- A port inside a frame hears symbols, and the clock stands at the last edge at least (log 2, log 6). -/
def hearOn (p : SegPort) (h : Symbols) (s : State) : Option State :=
  if following s.ports[p] then
    (hearSymbols h s.ports[p]).map fun pt => advance (heardAt pt) (modPort p (fun _ => pt) s)
  else none

/-! ### Signal errors (R17) -/

/-- The moment at which a fault is detected, and the port with the edge then seen, where the fault is a signal error of R17 in the
receiver's state: a shape error at the end of the low in progress; a period error at an edge sooner than 3.8 Tb after the
lead-in's, or 0.9 Tb after a bit slot's, edge; a stall error 4.4 Tb after the lead-in's edge, or 1.3 Tb after a bit slot's while
bit slots remain. A talker detects no stall error in its own frame (R19), and its sample comes before the end of a low (R8).
DESIGN CHOICE: an edge given as a period error is one whatever its low then proves to be, one under 0.05 Tb among them (log 33). -/
def faultAt (pt : Port) (f : SignalFault) : Option (Ticks × Port) :=
  match f with
  | .shape low =>
    if insideLow pt && sampleAgrees low pt && classifyLow pt.rate low == .shapeError then
      some (pt.edge + low, { pt with lastRise := pt.edge + low })
    else none
  | .period gap =>
    if betweenLows pt && slotsRemain pt.assembly && !atLeast pt.rate (if pt.rx = .gap then 380 else 90) gap then
      some (pt.edge + gap, { pt with edge := pt.edge + gap })
    else none
  | .stall waited =>
    let window := if pt.rx = .gap then 440 else 130
    if betweenLows pt && slotsRemain pt.assembly && atLeast pt.rate window waited && !isTalker pt then
      some (pt.edge + hundredths pt.rate window, pt)
    else none

end Sys2Proof.Machine
end

