-- ==== Sys2Proof/Machine/Receiver.lean ====
section
/-! DEFINITION. The commands of the segment receiver and responder (03_segment_port_engine.md, R41 to R52, R66).
A command whose event the receiver's state does not list, or whose symbols the receiver does not accept, leaves the state as
it is (R42, log 1). A completion or an end of frame whose symbols stop short of it is heard, and no more (log 6). -/

namespace Sys2Proof.Machine

def modAssembly (p : SegPort) (f : Assembly → Assembly) (s : State) : State :=
  modPort p (fun pt => { pt with assembly := f pt.assembly }) s

/-- A low at idle that is not a lead-in (R5, R12): counted at its rising edge, the talker's attempt ends ABORTED without an abort
pulse, and the receiver goes to FLUSH. -/
def execFalseStart (p : SegPort) (low : Ticks) (s : State) : Host.Outcome State Fault Refusal :=
  let pt := s.ports[p]
  if pt.rx = .leadIn ∧ isFalseStart pt.rate low = true then
    let seen := modPort p (fun q => { q with lastRise := q.edge + low }) (advance (pt.edge + low) s)
    let ended := endAttempt p .aborted (disarm p (countPort p .rxSignalErrors 1 seen))
    .next (settle (toFlush p (release p (leaveFrame p ended))))
  else .next s

/-- Header completion (R31): the 17th bit is classified. A source of 120 or more is a format error (R32). -/
def execHeaderCompletion (p : SegPort) (low : Option Ticks) (slots : List BitSlot) (s : State) : Host.Outcome State Fault Refusal :=
  match s.ports[p].assembly.header, hearOn p ⟨low, slots, none⟩ s with
  | none, some t =>
    let pt := t.ports[p]
    if pt.assembly.bits.length = headerBits then
      let header := headerOfBits pt.assembly.bits
      let read := modAssembly p (fun a => { a with header := some header }) t
      if header.source.val < 120 then .next read
      else .next (settle (frameError p .rxFormatErrors (heardAt pt) read))
    else .next t
  | _, _ => .next s

/-- The frame that an assembly buffer holds so far. -/
def assembledFrame (h : Header) (c : Control) (payload : List Octet) : Frame := ⟨h.priority, h.dest, h.source, c.service, payload⟩

/-- Control completion (R31, R45): the 25th bit is classified. A length code of 13-15 is a format error (R32); otherwise, in a
frame of another talker, the receiver asks the route list for a lookup and binds the decision. -/
def execControlCompletion (p : SegPort) (h : Symbols) (s : State) : Host.Outcome State Fault Refusal :=
  match s.ports[p].assembly.header, s.ports[p].assembly.control, hearOn p h s with
  | some header, none, some t =>
    let pt := t.ports[p]
    if pt.assembly.bits.length = headerBits + controlBits then
      let c := controlOfBits (pt.assembly.bits.drop headerBits)
      let read := modAssembly p (fun a => { a with control := some c }) t
      if 12 < c.length then .next (settle (frameError p .rxFormatErrors (heardAt pt) read))
      else if isTalker pt then .next read
      else
        let (d, looked) := segmentLookup p (assembledFrame header c []) read
        .next (modAssembly p (fun a => { a with decision := some d }) looked)
    else .next t
  | _, _, _ => .next s

/-- The responder's answer in the slots of a frame of another talker with a good check (R49 to R51). -/
def answerOf (dest : Address) (d : Decision) (adm : Admission) : Answer :=
  if d.mode = .custody then
    if adm.result = .none then .refuse
    else if adm.result = .all ∧ dest.val < 120 ∧ d.egress ≠ 0 then .accept
    else .silent
  else .silent

/-- Check completion with a good check in a frame of another talker (R46): a misplaced frame is counted INGRESS_REFUSED and
no more; otherwise the source's presence is reported and admission requested. -/
def goodCheck (p : SegPort) (f : Frame) (d : Decision) (s : State) : State :=
  if d.misplaced then countPort p .ingressRefused 1 s
  else
    let (adm, admitted) := admitSegment p f d (nodePresent p f.source s)
    let answered := modAssembly p (fun a => { a with admission := some adm, answer := answerOf f.dest d adm }) admitted
    if adm.result = .none then countPort p .ingressRefused 1 answered else answered

/-- The payload of a run of bits from bit slot 1 on (R24). -/
def payloadOf (n : Nat) (bits : List Bool) : List Octet := octetsOfBits n (bits.drop (headerBits + controlBits))

/-- The check octet of a run of bits from bit slot 1 on (R24). -/
def checkOf (n : Nat) (bits : List Bool) : Octet := BitVec.ofNat 8 (natOfBits (bits.drop (headerBits + controlBits + 8 * n)))

/-- Check completion (R31, R46): bit slot 33 + 8n is classified, and the receiver enters SLOTS. The check octet is compared with the
CRC-8 of header, control and payload (R30). The port's own frame is followed and no more (R44). -/
def execCheckCompletion (p : SegPort) (h : Symbols) (s : State) : Host.Outcome State Fault Refusal :=
  match s.ports[p].assembly.header, s.ports[p].assembly.control, s.ports[p].assembly.checkGood, hearOn p h s with
  | some header, some c, none, some t =>
    let pt := t.ports[p]
    let bits := pt.assembly.bits
    if atAcceptSlot pt.assembly then
      let f := assembledFrame header c (payloadOf c.length bits)
      let good := checkOctet f == checkOf c.length bits
      let read := setRx p .slots (modAssembly p (fun a =>
        { a with payload := payloadOf c.length bits, check := some (checkOf c.length bits), checkGood := some good }) t)
      if isTalker pt then .next read
      else if !good then .next (countPort p .rxCheckErrors 1 (modAssembly p (fun a => { a with answer := .refuse }) read))
      else
        match pt.assembly.decision with
        | some d => .next (goodCheck p f d read)
        | none => .next read
    else .next t
  | _, _, _, _ => .next s

/-- The moment at which a frame whose refuse slot has been classified ends: 1.0 Tb after the refuse slot's falling edge, or at the
earlier falling edge of R6, which comes after the slot's low and is given by its gap. -/
def frameEnd? (early : Option Ticks) (pt : Port) : Option Ticks :=
  if slotsOf? pt.assembly = some pt.assembly.bits.length ∧ pt.assembly.inSlot = false then
    match early with
    | none => some (pt.edge + bitPeriod pt.rate)
    | some gap => if pt.lastRise ≤ pt.edge + gap ∧ gap < bitPeriod pt.rate then some (pt.edge + gap) else none
  else none

/-- The receiver is at the end of a frame (R42): IDLE with the end as idle start, or LEADIN with the early edge of R6 as a new
low. The assembly buffer is released (R43), and selection is due. -/
def endFrame (p : SegPort) (early : Bool) (t : Ticks) (s : State) : State :=
  makeDue p (modPort p (fun pt =>
    { pt with
      rx := if early then .leadIn else .idle
      edge := if early then t else pt.edge
      pin := if early then [] else pt.pin
      idleStart := t, assembly := {} }) (advance t s))

/-- The end of a frame of another talker (R47): RX_GOOD for a good check, the admission confirmed, INGRESS_ADMITTED for ALL or
SOME. -/
def execEndOfFrame (p : SegPort) (e : FrameEnding) (s : State) : Host.Outcome State Fault Refusal :=
  let h := e.heard
  let early := e.early
  if s.ports[p].rx = .slots ∧ isTalker s.ports[p] = false then
    match hearOn p h s with
    | none => .next s
    | some t =>
      let pt := t.ports[p]
      match frameEnd? early pt with
      | none => .next t
      | some at' =>
        let good := if pt.assembly.checkGood = some true then countPort p .rxGood 1 t else t
        let admitted := match pt.assembly.admission with
          | some adm => if adm.result = .all ∨ adm.result = .some then countPort p .ingressAdmitted 1 good else good
          | none => good
        .next (settle (endFrame p early.isSome at' (confirm p admitted)))
  else .next s

/-- A signal error (R17 to R19): after the symbols, the fault must be one by the port's own windows and in the receiver's state. -/
def execSignalError (p : SegPort) (e : SignalEvidence) (s : State) : Host.Outcome State Fault Refusal :=
  let h := e.heard
  let fault := e.fault
  match hearOn p h s with
  | none => .next s
  | some t =>
    match faultAt t.ports[p] fault with
    | none => .next s
    | some (at', seen) => .next (settle (frameError p .rxSignalErrors at' (modPort p (fun _ => seen) (advance at' t))))

/-- A low inside a frame passes 1.6 Tb (R20): a listener discards the frame; a talker's attempt ends ABORTED; both go to FLUSH. A
station driving an abort pulse of its own completes it. A talker that sends 1 there is a listener, or drives a pulse of its own,
since its sample (R8). -/
def execAbortPulse (line : PortSymbols) (s : State) : Host.Outcome State Fault Refusal :=
  let p := line.port
  let h := line.heard
  match hearOn p h s with
  | none => .next s
  | some t =>
    let pt := t.ports[p]
    if insideLow pt && sampleAgrees (hundredths pt.rate 160) pt then
      let ended := endAttempt p .aborted (disarm p (advance (pt.edge + hundredths pt.rate 160) t))
      .next (settle (toFlush p (release p (leaveFrame p ended))))
    else .next s

/-- The port's own abort pulse completes its 2.0 Tb and the port releases the line, which is a rising edge unless another station
still holds the line low (R1). The receiver enters FLUSH (R20, R22). -/
def execAbortPulseEnd (pulse : PulseEnd) (s : State) : Host.Outcome State Fault Refusal :=
  let p := pulse.port
  match s.ports[p].pulse with
  | none => .next s
  | some t =>
    .next (toFlush p (release p (modPort p (fun pt => { pt with lastRise := if pulse.stillLow then pt.lastRise else t })
      (clearAssembly p (advance t s)))))

/-- A low passes 5.0 Tb (R23, R66): HELD, the line released, an attempt ended ABORTED, the frame left, and LINE_HELD raised
with detail 1 when the port's own attempt was ended. The low's falling edge is measured from the last one known, and is none
before the last rising edge. -/
def execLineHeld (e : PortEdge) (s : State) : Host.Outcome State Fault Refusal :=
  let p := e.port
  let pt := s.ports[p]
  let edge := pt.edge + e.gap
  if pt.rx = .off ∨ pt.rx = .held ∨ edge < pt.lastRise then .next s
  else
    let seen := modPort p (fun q => { q with edge := edge }) (advance (edge + 5 * bitPeriod pt.rate) s)
    let raised := raise .lineHeld (.seg p) (isTalker pt).toNat seen
    let ended := endAttempt p .aborted (disarm p raised)
    .next (settle (setRx p .held (release p (leaveFrame p ended))))

/-- The rising edge of a held line (R66): FLUSH with that edge as idle start, and LINE_RELEASED with the length of the low in
whole Tb. -/
def execLineReleased (p : SegPort) (low : Ticks) (s : State) : Host.Outcome State Fault Refusal :=
  let pt := s.ports[p]
  if pt.rx = .held then
    let rise := pt.edge + low
    .next (raise .lineReleased (.seg p) (low / bitPeriod pt.rate)
      (modPort p (fun pt => { pt with rx := .flush, lastRise := rise, idleStart := rise, heldFlush := true }) (advance rise s)))
  else .next s

/-- The line has been recessive without a break for `recessive`, 2.0 Tb or more, since its last rising edge, which came `later` after
the last one known, and not before the last falling edge known (R22): 2.0 Tb after it the receiver goes to IDLE, and selection
runs. The idle start is that rising edge; after a held line with no further low it is the edge that ended the held low (R9). DESIGN
CHOICE where lows came in the flush after a held line: R9's row names the held low's edge, R22 and R10 the last one (log 28). -/
def execFlushComplete (p : SegPort) (quiet : Quiet) (s : State) : Host.Outcome State Fault Refusal :=
  let later := quiet.later
  let recessive := quiet.recessive
  let pt := s.ports[p]
  let rise := pt.lastRise + later
  if pt.rx = .flush ∧ pt.pulse = none ∧ atLeast pt.rate 200 recessive = true ∧ pt.edge ≤ rise then
    .next (settle (makeDue p (modPort p (fun pt =>
      { pt with rx := .idle, lastRise := rise, idleStart := if pt.heldFlush ∧ later = 0 then pt.idleStart else rise })
      (advance (rise + 2 * bitPeriod pt.rate) s))))
  else .next s

end Sys2Proof.Machine
end

