-- ==== Sys2Proof/Machine/Transmitter.lean ====
section
/-! DEFINITION. The commands of the segment transmitter (03_segment_port_engine.md, R53 to R62). -/

namespace Sys2Proof.Machine

/-- The frame that a queued reference is sent as (R57): its own fields, with the egress priority. -/
def renderFrame (sl : FrameSlot) : Frame := { sl.frame with priority := sl.priority }

/-- The frame that a notice is sent as (R57, R138; 11, SEGMENT FRAME). -/
def renderNotice (n : Notice) (priority : Priority) (source : Address) : Frame where
  priority := priority
  dest := n.target
  source := source
  service := 15
  payload := [n.reason.code, BitVec.ofNat 8 n.dest.val, BitVec.ofNat 8 n.service.val, BitVec.ofNat 8 n.attempts,
    BitVec.ofNat 8 n.egress.val]

/-- The oldest notice held for a port is marked in attempt (R57). -/
def markAttempt (p : SegPort) (s : State) : State :=
  modCustody (fun c =>
    { c with notices := updateFirst (fun n => n.port == p) (fun n => some { n with inAttempt := true }) c.notices }) s

/-- The attempt that a candidate becomes, and the state with it in hand: a frame's reference moves from the head of its lane to
the attempt holder; a notice is marked in attempt (R57, R124). -/
def takeCandidate (p : SegPort) (c : Candidate) (s : State) : Option (Attempt × State) :=
  match c with
  | .frame lane _ =>
    (laneHead p.port lane s).map fun r =>
      (⟨false, renderFrame (slotOf r s)⟩, setHolder p.port (some r) (popLane p.port lane s))
  | .notice priority source =>
    (s.custody.notices.find? (·.port == p)).map fun n => (⟨true, renderNotice n priority source⟩, markAttempt p s)

/-- The quiet time of a candidate on a port (R10, R55). -/
def candidateQuiet (pt : Port) : Candidate → Ticks
  | .frame lane _ => quietTime pt.rate lane pt.lastTalker
  | .notice priority _ => quietTime pt.rate priority pt.lastTalker

/-- The falling edge at which the attempt of a candidate begins (R10, R55): the port's own at the instant the quiet time is
satisfied, at once where it is already; or the edge observed `joined` after the idle start, which is joined only where the quiet
time is satisfied by it (R13). -/
def beginsAt (joined : Option Ticks) (pt : Port) (c : Candidate) (now : Ticks) : Option Ticks :=
  match joined with
  | none => some (max now (pt.idleStart + candidateQuiet pt c))
  | some recessive => if candidateQuiet pt c ≤ recessive then some (pt.idleStart + recessive) else none

/-- The attempt of an armed candidate begins at a falling edge (R12, R57): ATTEMPTS counts, the transmitter is SENDING, the receiver
in LEADIN with an empty assembly buffer, and the pin is driven from that edge. -/
def beginAttempt (p : SegPort) (c : Candidate) (edge : Ticks) (s : State) : Option State :=
  (takeCandidate p c s).map fun (a, taken) =>
    advance edge (countPort p .attempts 1 (modPort p (fun pt =>
      { pt with tx := .sending a, rx := .leadIn, edge := edge, assembly := {}, pin := talkerStart pt.rate a edge }) taken))

/-- The lead-in begins, at the port's own edge or at one it joins (R12, R13, R55, R57). -/
def execAttemptBegin (start : PortStart) (s : State) : Host.Outcome State Fault Refusal :=
  let p := start.port
  let joined := start.joined
  let pt := s.ports[p]
  match pt.tx, pt.rx with
  | .armed c, .idle =>
    match (beginsAt joined pt c s.now).bind fun edge => beginAttempt p c edge s with
    | some t => .next t
    | none => .next s
  | _, _ => .next s

/-- The receiver listens to the frame that a falling edge at idle may open (R10, R42): LEADIN, the assembly buffer cleared, and an
armed transmitter returned to IDLE (R55). -/
def listenFrom (p : SegPort) (edge : Ticks) (s : State) : State :=
  disarm p (modPort p (fun pt => { pt with rx := .leadIn, edge := edge, assembly := {}, pin := [] }) (advance edge s))

/-- The falling edge of a low at idle that the port did not drive, `recessive` after the idle start (R10, R42, R55). A transmitter
ARMED with its quiet time satisfied joins it (R13). Otherwise the receiver listens, and a low under 0.05 Tb is not seen (R4,
R5). DESIGN CHOICE: the edge is joined at once, whatever its low has lasted (log 33). -/
def execIdleFallingEdge (p : SegPort) (e : IdleEdge) (s : State) : Host.Outcome State Fault Refusal :=
  let recessive := e.recessive
  let low := e.low
  let pt := s.ports[p]
  if pt.rx = .idle then
    let joins := match pt.tx with
      | .armed c => (beginsAt (some recessive) pt c s.now).bind fun edge => beginAttempt p c edge s
      | .off | .idle | .sending _ | .slots _ => none
    match joins with
    | some t => .next t
    | none => .next (if atLeast pt.rate 5 low then listenFrom p (pt.idleStart + recessive) s else s)
  else .next s

/-- Whether a talker sends 1 in the bit slot whose low is in progress (R8, R24). -/
def sendsOne (a : Attempt) (pt : Port) : Bool := insideLow pt && talkerBit a pt.assembly.bits.length

/-- The moment at which a talker samples the bit slot in progress (R8). -/
def sampleAt (pt : Port) : Ticks := pt.edge + samplePoint pt.rate

/-- Arbitration is lost (R14): a talker sending 1 in a header bit slot samples a low there. The attempt ends LOST, the line is
released and the receiver carries on as a listener (R44). -/
def execArbitrationLost (p : SegPort) (h : Symbols) (s : State) : Host.Outcome State Fault Refusal :=
  match s.ports[p].tx, hearOn p h s with
  | .sending a, some t =>
    let pt := t.ports[p]
    if sendsOne a pt = true ∧ pt.assembly.bits.length < headerBits then
      .next (settle (release p (endAttempt p .lost (advance (sampleAt pt) t))))
    else .next s
  | _, _ => .next s

/-- Overdrive (R15): a talker sending 1 in a control, payload or check bit samples a low there. It drives an abort pulse from its
sample point and its attempt ends ABORTED. No signal error is counted. -/
def execOverdrive (p : SegPort) (h : Symbols) (s : State) : Host.Outcome State Fault Refusal :=
  match s.ports[p].tx, hearOn p h s with
  | .sending a, some t =>
    let pt := t.ports[p]
    if sendsOne a pt = true ∧ headerBits ≤ pt.assembly.bits.length ∧
        pt.assembly.bits.length < frameSlots a.frame.payload.length - 2 then
      .next (settle (driveAbort p pt.edge (sampleAt pt) (endAttempt p .aborted (advance (sampleAt pt) t))))
    else .next s
  | _, _ => .next s

/-- The falling edge of the accept slot (R11, R58), where the receiver accepts it (R6): the talker enters SLOTS and sets its
last-talker flag; a listener inside the frame clears its flag, and its responder joins the edge where it asserts accept
(R49). -/
def execAcceptSlotEdge (e : PortEdge) (s : State) : Host.Outcome State Fault Refusal :=
  let p := e.port
  let gap := e.gap
  let pt := s.ports[p]
  if following pt = true ∧ pt.rx = .slots ∧ betweenLows pt = true ∧ atAcceptSlot pt.assembly = true ∧
      edgeAccepted pt gap = true then
    let begun := beginSlot gap pt
    let heard := match pt.tx with
      | .sending a | .slots a => { begun with tx := .slots a, lastTalker := true }
      | .off | .idle | .armed _ =>
        { begun with
          lastTalker := false
          assembly := { begun.assembly with acceptDriven := pt.assembly.answer == .accept } }
    .next (advance heard.edge (modPort p (fun _ => heard) s))
  else .next s

/-- The outcome that a talker draws from its readings of the two slots (R38). -/
def outcomeOf (dest : Address) (acceptLow refuseLow : Bool) : TalkerOutcome :=
  if refuseLow then .refused
  else if 120 ≤ dest.val then .delivered
  else if acceptLow then .delivered
  else .unaccepted

/-- A talker's readings of the accept slot and the refuse slot, the last two bits of its frame: low at the sample point of 0.44 Tb is
asserted (R16). A low classified as 0 is low there and one classified as 1 is high (R8). -/
def readings (a : Assembly) : Bool × Bool :=
  let slots := a.bits.drop (a.bits.length - 2)
  (slots[0]? == some false, slots[1]? == some false)

/-- The end of the port's own frame (R38, R59): the talker takes its outcome from the two readings; the receiver goes to IDLE, or to
LEADIN at the early edge of R6. -/
def execAttemptEnd (p : SegPort) (low : Option Ticks) (slots : List BitSlot) (early : Option Ticks) (s : State) :
    Host.Outcome State Fault Refusal :=
  match s.ports[p].tx, s.ports[p].rx, hearOn p ⟨low, slots, none⟩ s with
  | .slots a, .slots, some t =>
    let pt := t.ports[p]
    match frameEnd? early pt with
    | none => .next t
    | some at' =>
      let r := readings pt.assembly
      .next (settle (endFrame p early.isSome at' (endAttempt p (outcomeOf a.frame.dest r.1 r.2) t)))
  | _, _, _ => .next s

end Sys2Proof.Machine
end

