-- ==== Sys2Proof/Machine/Management.lean ====
section
/-! DEFINITION. Management: the agent, every request with its checks and effects, and the resets
(09_in_band_management.md). -/

namespace Sys2Proof.Machine

/-- What executing a request gives: the status, the results of an OK, and the state. -/
structure Reply where
  status : Status
  results : List Octet
  state : State
deriving DecidableEq, Repr

/-- A refused request changes nothing (R167). -/
def refuse (status : Status) (s : State) : Reply := ⟨status, [], s⟩

/-- An accepted request with its results. -/
def accept (results : List Octet) (s : State) : Reply := ⟨.ok, results, s⟩

/-! ### Identification, routes and nodes (R168 to R170) -/

/-- IDENTIFY (R168). -/
def runIdentify (s : State) : Reply :=
  accept (octets2 410 ++ [2, 64, 64] ++ octets4 s.route.epoch ++ [s.trunk.link.code]) s

/-- A route index in an octet, 0-63. -/
def routeIndex? (o : Octet) : Option RouteIndex := if h : o.toNat < 64 then some ⟨o.toNat, h⟩ else none

/-- ROUTE_READ (R73). -/
def runRouteRead (bank index : Octet) (s : State) : Reply :=
  match routeIndex? index with
  | none => refuse .badArgument s
  | some i =>
    if bank = 0 then
      let e := (activeBank s.route)[i]
      accept ([yesNo e.valid] ++ entryOctets e ++ octets4 e.hits) s
    else if bank = 1 then
      let e := (shadowBank s.route)[i]
      accept ([yesNo e.valid] ++ entryOctets e ++ octets4 0) s
    else refuse .badArgument s

/-- ROUTE_WRITE (R71). -/
def runRouteWrite (index : Octet) (a : RouteArgs) (s : State) : Reply :=
  match routeIndex? index, entryOfArgs? a with
  | some i, some e => accept [] (modRoute (fun r => setShadow ((shadowBank r).set i e) r) s)
  | _, _ => refuse .badArgument s

/-- A bank with the entries from first to last in cleared form (R72). -/
def clearRange (first last : Nat) (b : Vector RouteEntry 64) : Vector RouteEntry 64 :=
  Vector.ofFn fun i : RouteIndex => if first ≤ i.val ∧ i.val ≤ last then .cleared else b[i]

/-- ROUTE_CLEAR (R72). -/
def runRouteClear (first last : Octet) (s : State) : Reply :=
  if 64 ≤ first.toNat ∨ 64 ≤ last.toNat ∨ last.toNat < first.toNat then refuse .badArgument s
  else accept [] (modRoute (fun r => setShadow (clearRange first.toNat last.toNat (shadowBank r)) r) s)

/-- A node address in an octet, 0-119. -/
def nodeAddress? (o : Octet) : Option (Fin 120) := if h : o.toNat < 120 then some ⟨o.toNat, h⟩ else none

/-- NODE_READ (R96). -/
def runNodeRead (address : Octet) (s : State) : Reply :=
  match nodeAddress? address with
  | none => refuse .badArgument s
  | some i =>
    let e := s.nodes.entries[i]
    accept [e.location.code, BitVec.ofNat 8 e.failures, yesNo e.blocked] s

/-- NODE_WRITE (R94). -/
def runNodeWrite (address location : Octet) (s : State) : Reply :=
  match nodeAddress? address, locationOf? location with
  | some i, some l => accept [] (modNode i (fun _ => ⟨l, 0, false⟩) s)
  | _, _ => refuse .badArgument s

/-- NODE_UNBLOCK (R96). -/
def runNodeUnblock (address : Octet) (s : State) : Reply :=
  match nodeAddress? address with
  | none => refuse .badArgument s
  | some i => accept [] (modNode i (fun e => { e with failures := 0, blocked := false }) s)

/-! ### Ports (R63, R64, R171) -/

/-- A segment port in an octet, 0-3. -/
def segPort? (o : Octet) : Option SegPort := if h : o.toNat < 4 then some ⟨o.toNat, h⟩ else none

/-- PORT_READ (R171). -/
def runPortRead (port : Octet) (s : State) : Reply :=
  match segPort? port with
  | none => refuse .badArgument s
  | some p =>
    let pt := s.ports[p]
    accept [yesNo pt.enabled, pt.rate.code, BitVec.ofNat 8 pt.retryLimit, BitVec.ofNat 8 pt.queueLimit, pt.missAction.code,
      yesNo pt.abortOnError, lineStatus pt.rx] s

/-- The reference in a port's attempt holder is removed without an outcome, PORT_DISABLED (R63, R130). -/
def flushHolder (p : SegPort) (s : State) : State :=
  match s.pool.queues[p.port].holder with
  | none => s
  | some r => discardRef p.port r .portDisabled (setHolder p.port none s)

/-- The disable of a port (R63): the attempt is cut and its reference removed, the receiver and the transmitter go to OFF and
an admission not yet confirmed is withdrawn, the queue is flushed, pending references marked, and its notices
discarded. -/
def disablePort (p : SegPort) (s : State) : State :=
  let off := release p (modPort p (fun pt => { pt with enabled := false, tx := .off }) s)
  let cut := flushHolder p (markPending p.port (fun _ => true) .portDisabled off)
  let left := setRx p .off (leaveFrame p cut)
  let flushed := sweepLanes p.port (fun _ => true) .portDisabled left
  modCustody (fun c => { c with notices := c.notices.filter fun n => !(n.port == p) }) flushed

/-- The enable of a port (R64): the receiver enters FLUSH, the transmitter IDLE, the last-talker flag is cleared, and the idle
start, until it sees a rising edge, is the moment of enabling (R9), from which a low in progress is measured. -/
def enablePort (p : SegPort) (s : State) : State :=
  modPort p (fun pt =>
    { pt with
      enabled := true, rx := .flush, tx := .idle, lastTalker := false, idleStart := s.now, edge := s.now, lastRise := s.now
      heldFlush := false }) s

/-- The six settings that a PORT_WRITE carries, when every code names a value and every number is in range (R171). -/
structure PortSettings where
  enabled : Bool
  rate : Rate
  retryLimit : Nat
  queueLimit : Nat
  missAction : MissAction
  abortOnError : Bool
deriving DecidableEq, Repr

def portSettings? (a : PortArgs) : Option PortSettings :=
  match yesNo? a.enabled, rateOf? a.rate, missActionOf? a.missAction, yesNo? a.abortOnError with
  | some enabled, some rate, some miss, some abort =>
    if a.retryLimit.toNat ≤ 7 ∧ 1 ≤ a.queueLimit.toNat ∧ a.queueLimit.toNat ≤ 64 then
      some ⟨enabled, rate, a.retryLimit.toNat, a.queueLimit.toNat, miss, abort⟩
    else none
  | _, _, _, _ => none

/-- The NOT_NOW condition of a PORT_WRITE: the port is enabled and a defined RATE or a QUEUE_LIMIT of 1-64 would change
(R40, R171). -/
def portNotNow (a : PortArgs) (pt : Port) : Bool :=
  pt.enabled &&
    ((match rateOf? a.rate with
      | some r => r != pt.rate
      | none => false) ||
    (1 ≤ a.queueLimit.toNat && a.queueLimit.toNat ≤ 64 && a.queueLimit.toNat != pt.queueLimit))

/-- An accepted PORT_WRITE: the five settings, then the enable or the disable (R171). -/
def writePort (p : SegPort) (v : PortSettings) (s : State) : State :=
  let written := modPort p (fun pt =>
    { pt with
      rate := v.rate, queueLimit := v.queueLimit, retryLimit := v.retryLimit, missAction := v.missAction
      abortOnError := v.abortOnError }) s
  if v.enabled = s.ports[p].enabled then written
  else if v.enabled then enablePort p written
  else settle (disablePort p written)

/-- PORT_WRITE (R171). -/
def runPortWrite (port : Octet) (a : PortArgs) (s : State) : Reply :=
  match segPort? port with
  | none => refuse .badArgument s
  | some p =>
    if portNotNow a s.ports[p] then refuse .notNow s
    else
      match portSettings? a with
      | none => refuse .badArgument s
      | some v => accept [] (writePort p v s)

/-! ### Gateway settings and counters (R172 to R174, R180) -/

/-- GATEWAY_READ (R172). -/
def runGatewayRead (s : State) : Reply :=
  accept ([BitVec.ofNat 8 s.custody.noticeSource.val, BitVec.ofNat 8 s.custody.noticePriority.val] ++
    s.pool.lifetimes.toList.flatMap octets2 ++
    [BitVec.ofNat 8 s.nodes.threshold, BitVec.ofNat 8 s.pool.reserveSize] ++ octets2 s.events.mask.toNat ++
    [BitVec.ofNat 8 s.trunk.suspectHold]) s

/-- A LIFETIME of 0, or 10-2550 ms in steps of 10 ms (R127). -/
def lifetimeOk (v : Nat) : Bool := v = 0 || (10 ≤ v && v ≤ 2550 && v % 10 = 0)

/-- None of the refusals of R173 applies to the settings of a GATEWAY_WRITE. -/
def gatewayOk (a : GatewayArgs) : Bool :=
  a.noticeSource.toNat ≤ 119 && a.noticePriority.toNat ≤ 7 && lifetimeOk a.lifetime0.toNat && lifetimeOk a.lifetime1.toNat &&
    lifetimeOk a.lifetime2.toNat && lifetimeOk a.lifetime3.toNat && a.blockThreshold.toNat ≤ 15 &&
    2 ≤ a.inboundReserve.toNat && a.inboundReserve.toNat ≤ 16 && a.eventMask.toNat < 256 &&
    1 ≤ a.suspectHold.toNat && a.suspectHold.toNat ≤ 15

/-- INBOUND_RESERVE takes a new value: a raise refills; a lowering trims in SEEK and TRAIN, and else shrinks lazily (R114). -/
def setReserveSize (n : Nat) (s : State) : State :=
  let written := modPool (fun p => { p with reserveSize := n }) s
  if s.pool.reserveSize < n then refill written
  else if n < s.pool.reserveSize ∧ (s.trunk.link = .seek ∨ s.trunk.link = .train) then trim written
  else written

/-- An accepted GATEWAY_WRITE writes every setting in one step (R173). -/
def writeGateway (a : GatewayArgs) (s : State) : State :=
  setReserveSize a.inboundReserve.toNat
    { s with
      custody := { s.custody with
        noticeSource := Fin.ofNat 120 a.noticeSource.toNat, noticePriority := Fin.ofNat 8 a.noticePriority.toNat }
      nodes := { s.nodes with threshold := a.blockThreshold.toNat }
      pool := { s.pool with
        lifetimes := ⟨#[a.lifetime0.toNat, a.lifetime1.toNat, a.lifetime2.toNat, a.lifetime3.toNat], rfl⟩ }
      events := { s.events with mask := a.eventMask.setWidth 8 }
      trunk := { s.trunk with suspectHold := a.suspectHold.toNat } }

/-- GATEWAY_WRITE (R173). -/
def runGatewayWrite (a : GatewayArgs) (s : State) : Reply :=
  if gatewayOk a then accept [] (writeGateway a s) else refuse .badArgument s

/-- A counter group (R174). -/
inductive CounterGroup where
  | port (p : SegPort) | trunk | gateway
deriving DecidableEq, Repr

/-- The counter group a code names (11, CODE VALUES). -/
def counterGroup? (o : Octet) : Option CounterGroup :=
  match segPort? o with
  | some p => some (.port p)
  | none => if o = 4 then some .trunk else if o = 5 then some .gateway else none

/-- The counters of a group, in the order of 10_counters_and_events.md. -/
def groupValues (g : CounterGroup) (s : State) : List Nat :=
  match g with
  | .port p => s.ports[p].counters.toList
  | .trunk => s.trunk.counters.toList
  | .gateway => s.gateway.toList

/-- Every counter of a group set to 0 (R180). -/
def clearGroup (g : CounterGroup) (s : State) : State :=
  match g with
  | .port p => modPort p (fun pt => { pt with counters := Vector.replicate 12 0 }) s
  | .trunk => modTrunk (fun t => { t with counters := Vector.replicate 10 0 }) s
  | .gateway => { s with gateway := Vector.replicate 7 0 }

/-- COUNTERS_READ (R174, R180). -/
def runCountersRead (group clear : Octet) (s : State) : Reply :=
  match counterGroup? group, yesNo? clear with
  | some g, some c => accept ((groupValues g s).flatMap octets4) (if c then clearGroup g s else s)
  | _, _ => refuse .badArgument s

/-! ### Resets (R175 to R178) -/

/-- A TRAFFIC reset of one port (R65): its lane references and the cut reference are counted DISCARDED. -/
def trafficPort (s : State) (p : SegPort) : State :=
  let removed := queueLength s.pool.queues[p.port]
  modPort p (fun pt =>
    if pt.enabled then
      { pt with
        rx := if pt.rx = .held then .held else .flush
        heldFlush := false, assembly := {}, tx := .idle, pin := [], pulse := none, due := false }
    else { pt with due := false }) (countPort p .discarded removed s)

/-- Whether a TRAFFIC or FULL reset keeps an unfilled reserved slot (R130). -/
def keepsUnfilled (s : State) : Bool := s.trunk.link = .up || s.trunk.link = .suspect

/-- The frame slots after a TRAFFIC or FULL reset: every slot FREE but the kept unfilled ones; the freed ones join the free
list in ascending order; every queue is empty (R130). The refill comes after. -/
def trafficPool (s : State) : State :=
  let kept := fun i : SlotId => s.pool.slots[i].status == .unfilled && keepsUnfilled s
  let freed := allSlots.filter fun i => !kept i && s.pool.slots[i].status != .free
  modPool (fun p =>
    { p with
      slots := Vector.ofFn fun i : SlotId => if kept i then .blank .unfilled else .blank .free
      free := p.free ++ freed
      queues := Vector.replicate 5 .empty }) s

/-- When the character that follows the one in progress at `now` begins, in a frame started at `start`: its characters stand back to
back from its SOF (R143, R151). DESIGN CHOICE: a character that begins exactly at `now` is in progress, so that an event which cuts
the frame at that instant lets it be sent and puts CUT in place of the one after it; R163's "next character" does not say which
of the two it is at a boundary (log 29). -/
def nextCharacter (start now : Ticks) : Ticks := start + ((now - start) / characterTime + 1) * characterTime

/-- A frame in transmission is ended with CUT in place of its next character; CUT_FRAMES counts it, and at least one idle
character comes before the next SOF (R143, R163). DESIGN CHOICE: a frame whose EOF is in progress is still in transmission, its CUT
follows the EOF, and it counts as cut (log 29). -/
def cutFrame (s : State) : State :=
  match s.trunk.tx with
  | none => s
  | some f =>
    let cut := nextCharacter f.startedAt s.now
    countTrunk .cutFrames 1 (modTrunk (fun t =>
      { t with tx := none, cut := some ⟨f, cut⟩, nextStart := cut + 2 * characterTime }) s)

/-- Which frames in transmission a TRAFFIC reset cuts (R163). -/
def trafficCuts : TxKind → Bool
  | .data | .trap | .report => true
  | .credit | .mgmtRsp | .event => false

/-- Which frames in transmission a FULL reset cuts (R163). -/
def fullCuts : TxKind → Bool
  | .data | .trap | .report | .event => true
  | .credit | .mgmtRsp => false

def cutIf (cuts : TxKind → Bool) (s : State) : State :=
  match s.trunk.tx with
  | some f => if cuts f.kind then cutFrame s else s
  | none => s

/-- A TRAFFIC reset (R176): attempts, queues, notice and report lists go, the configuration stays. -/
def trafficReset (s : State) : State :=
  let ports := allSegPorts.foldl trafficPort s
  let cut := cutIf trafficCuts ports
  let lists := modCustody (fun c => { c with notices := [], reports := [] }) cut
  refill (modTrunk (fun t => { t with taken := [] }) (trafficPool lists))

/-- A FULL reset (R177): the hardware-reset state, but for the link state, lock, credit counts and timers, a frame in
reception, a CREDIT in transmission, and the slots that back granted credit. -/
def fullReset (s : State) : State :=
  let cut := cutIf fullCuts s
  let pooled := trafficPool cut
  let t := cut.trunk
  refill
    { State.reset with
      now := s.now
      freeCount := s.freeCount
      pool := { pooled.pool with reserveSize := Pool.reset.reserveSize, lifetimes := Pool.reset.lifetimes }
      trunk := { t with suspectHold := Trunk.reset.suspectHold, taken := [], counters := Trunk.reset.counters }
      pending := s.pending }

/-- RESET with its kind (R175). -/
def runReset (kind : Octet) (s : State) : Reply :=
  if kind = 1 then accept [] (trafficReset s)
  else if kind = 2 then accept [] (fullReset s)
  else refuse .badArgument s

/-! ### The agent (R164 to R167) -/

/-- The execution of a request that is answered in its own step (R166). ROUTE_COMMIT is not one. -/
def runRequest (op : RequestOp) (s : State) : Reply :=
  match op with
  | .malformed => refuse .badRequest s
  | .identify => runIdentify s
  | .routeRead bank index => runRouteRead bank index s
  | .routeWrite index fields => runRouteWrite index fields s
  | .routeClear first last => runRouteClear first last s
  | .routeCommit _ => refuse .badRequest s
  | .nodeRead address => runNodeRead address s
  | .nodeWrite address location => runNodeWrite address location s
  | .nodeUnblock address => runNodeUnblock address s
  | .portRead port => runPortRead port s
  | .portWrite port settings => runPortWrite port settings s
  | .gatewayRead => runGatewayRead s
  | .gatewayWrite settings => runGatewayWrite settings s
  | .countersRead group clear => runCountersRead group clear s
  | .reset kind => runReset kind s

def modAgent (f : Agent → Agent) (s : State) : State := { s with agent := f s.agent }

/-- A request that is answered at once: its buffer is freed and its response handed over in the same step (R166). -/
def answerNow (id : Octet) (r : Reply) : State := respond ⟨id, r.status, r.results⟩ r.state

/-- The agent begins a ROUTE_COMMIT, whose buffer is still held: NOT_NOW at the maximum epoch, BAD_ARGUMENT for a flag that
is no yes or no, and otherwise the swap, with the request in execution until the commit completes (R87, R169). -/
def beginCommit (id purge : Octet) (rest : List Request) (s : State) : State :=
  let freed := modAgent (fun a => { a with buffers := rest }) s
  if epochMax ≤ s.route.epoch then answerNow id (refuse .notNow freed)
  else
    match yesNo? purge with
    | none => answerNow id (refuse .badArgument freed)
    | some flag => settle (commitSwap flag (modAgent (fun a => { a with executing := true }) s))

/-- The agent begins the oldest buffered request, when none is in execution and the response holder is empty (R166). -/
def beginRequest (s : State) : State :=
  if s.agent.executing || s.trunk.response.isSome then s
  else
    match s.agent.buffers with
    | [] => s
    | r :: rest =>
      match r.op with
      | .routeCommit purge => beginCommit r.id purge rest s
      | op => answerNow r.id (runRequest op (modAgent (fun a => { a with buffers := rest }) s))

/-- A request is offered to the agent: it takes an empty buffer, or is an overrun (R165). -/
def offerRequest (r : Request) (s : State) : State :=
  if s.agent.buffers.length < 2 then modAgent (fun a => { a with buffers := a.buffers ++ [r] }) s
  else countTrunk .requestOverruns 1 s

/-- A request from the partner: the trunk link dispatches it in UP only (R153, R165); it is buffered or an overrun (R165), and the
agent begins its oldest request if it may (R166, log 5). -/
def submit (id : Octet) (op : RequestOp) (s : State) : Host.Outcome State Fault Refusal :=
  .next (if s.trunk.link = .up then beginRequest (offerRequest ⟨id, op⟩ s) else s)

/-! ### The commands -/

/-- IDENTIFY (R168). -/
def execIdentify (id : Octet) (s : State) : Host.Outcome State Fault Refusal := submit id .identify s

/-- ROUTE_READ (R73). -/
def execRouteRead (id bank index : Octet) (s : State) : Host.Outcome State Fault Refusal := submit id (.routeRead bank index) s

/-- ROUTE_WRITE (R71). -/
def execRouteWrite (id index : Octet) (fields : RouteArgs) (s : State) : Host.Outcome State Fault Refusal :=
  submit id (.routeWrite index fields) s

/-- ROUTE_CLEAR (R72). -/
def execRouteClear (id first last : Octet) (s : State) : Host.Outcome State Fault Refusal := submit id (.routeClear first last) s

/-- ROUTE_COMMIT (R87). -/
def execRouteCommit (id purge : Octet) (s : State) : Host.Outcome State Fault Refusal := submit id (.routeCommit purge) s

/-- NODE_READ (R96). -/
def execNodeRead (id address : Octet) (s : State) : Host.Outcome State Fault Refusal := submit id (.nodeRead address) s

/-- NODE_WRITE (R94). -/
def execNodeWrite (id address location : Octet) (s : State) : Host.Outcome State Fault Refusal :=
  submit id (.nodeWrite address location) s

/-- NODE_UNBLOCK (R96). -/
def execNodeUnblock (id address : Octet) (s : State) : Host.Outcome State Fault Refusal := submit id (.nodeUnblock address) s

/-- PORT_READ (R171). -/
def execPortRead (id port : Octet) (s : State) : Host.Outcome State Fault Refusal := submit id (.portRead port) s

/-- PORT_WRITE (R171). -/
def execPortWrite (id port : Octet) (settings : PortArgs) (s : State) : Host.Outcome State Fault Refusal :=
  submit id (.portWrite port settings) s

/-- GATEWAY_READ (R172). -/
def execGatewayRead (id : Octet) (s : State) : Host.Outcome State Fault Refusal := submit id .gatewayRead s

/-- GATEWAY_WRITE (R173). -/
def execGatewayWrite (id : Octet) (settings : GatewayArgs) (s : State) : Host.Outcome State Fault Refusal :=
  submit id (.gatewayWrite settings) s

/-- COUNTERS_READ (R174). -/
def execCountersRead (id group clear : Octet) (s : State) : Host.Outcome State Fault Refusal :=
  submit id (.countersRead group clear) s

/-- TRAFFIC_RESET: the request RESET with kind TRAFFIC (R176). -/
def execTrafficReset (id : Octet) (s : State) : Host.Outcome State Fault Refusal := submit id (.reset 1) s

/-- FULL_RESET: the request RESET with kind FULL (R177). -/
def execFullReset (id : Octet) (s : State) : Host.Outcome State Fault Refusal := submit id (.reset 2) s

/-- AGENT_BEGIN_REQUEST (R166). -/
def execAgentBeginRequest (s : State) : Host.Outcome State Fault Refusal := .next (beginRequest s)

/-- How long RESET_N is held low at least (R178). -/
def resetLowTime : Ticks := 2 * microsecond

/-- HARDWARE_RESET: RESET_N falls, is low for 2 µs or longer, and rises. While it is low no driver is on a line, no character is sent and
none is taken; when it rises every block holds its hardware-reset value, and the trunk transmitter begins to send (R143, R178).
How much longer than 2 µs is a free value. The queue of commands, the clock and the counter of free choices are the model's and
go on (log 21). -/
def execHardwareReset (s : State) : Host.Outcome State Fault Refusal :=
  let rise := s.now + resetLowTime + Config.resetHold s.freeCount
  .next { State.reset with
    now := rise, freeCount := s.freeCount + 1, pending := s.pending, trunk := { Trunk.reset with lineStart := rise } }

end Sys2Proof.Machine
end

