-- ==== Sys2Proof/Machine/TrunkReceive.lean ====
section
/-! DEFINITION. The trunk receiver and link monitor: characters and lock, the monitor's events, the checks of received
frames, inbound DATA and its routing (08_trunk_link.md, R143 to R159). -/

namespace Sys2Proof.Machine

/-! ### Characters (R143 to R145, R152) -/

/-- How a frame in reception ended (R152). -/
inductive FrameEnd where
  /-- EOF where it is due; the octets from kind to the second CRC octet -/
  | complete (octets : List Octet)
  /-- an invalid character inside the frame -/
  | checkError
  /-- a fault counted in FORMAT_ERRORS -/
  | formatError
  /-- CUT in place of a character -/
  | cut
deriving DecidableEq, Repr

/-- What one character brings about beyond the receiver's own counts. -/
inductive RxEvent where
  | lockGained
  /-- lock lost; a frame in reception was abandoned -/
  | lockLost (abandoned : Bool)
  /-- the 32nd consecutive IDLE_R, in TRAIN or SUSPECT (R145) -/
  | idleR32
  /-- the 8th consecutive IDLE_S, in UP (R145) -/
  | idleS8
  | frameEnded (e : FrameEnd)
deriving DecidableEq, Repr

/-- A received character that is not an idle sets both idle counts to 0 (R145). -/
def clearIdles (rx : TrunkRx) : TrunkRx := { rx with idleR := 0, idleS := 0 }

/-- A valid character in lock advances the run count; at 16 the invalid count is cleared and the run starts again (R144). -/
def advanceRun (rx : TrunkRx) : TrunkRx :=
  if rx.run + 1 = 16 then { rx with run := 0, invalid := 0 } else { rx with run := rx.run + 1 }

/-- Whether the frame in reception is complete but for its EOF: three octets, the L body octets, two CRC octets (R151). -/
def eofDue (os : List Octet) : Bool :=
  match os with
  | _ :: _ :: len :: _ => os.length == len.toNat + 5
  | _ => false

/-- The length octet, when the octets so far end with it (R151). -/
def lengthJustRead (os : List Octet) : Option Nat :=
  match os with
  | [_, _, len] => some len.toNat
  | _ => none

/-- An idle character in lock: its count advances, the other is 0, and inside a frame it is a fault (R145, R152). -/
def idleChar (link : LinkState) (ready : Bool) (rx : TrunkRx) : TrunkRx × Option RxEvent :=
  let counted := if ready then { rx with idleR := min (rx.idleR + 1) 32, idleS := 0 }
    else { rx with idleR := 0, idleS := min (rx.idleS + 1) 8 }
  if rx.frame.isSome then ({ counted with frame := none }, some (.frameEnded .formatError))
  else if ready then
    (counted, if rx.idleR + 1 = 32 ∧ (link = .train ∨ link = .suspect) then some .idleR32 else none)
  else (counted, if rx.idleS + 1 = 8 ∧ link = .up then some .idleS8 else none)

/-- A valid character in lock, framed (R152). Outside a frame, data characters, EOF and CUT are discarded without count. -/
def frameChar (link : LinkState) (c : TrunkChar) (rx : TrunkRx) : TrunkRx × Option RxEvent :=
  match c, rx.frame with
  | .idleR, _ => idleChar link true rx
  | .idleS, _ => idleChar link false rx
  | .sof, none => ({ clearIdles rx with frame := some [] }, none)
  | .sof, some _ => ({ clearIdles rx with frame := some [] }, some (.frameEnded .formatError))
  | .data o, some os =>
    if eofDue os then ({ clearIdles rx with frame := none }, some (.frameEnded .formatError))
    else
      let read := os ++ [o]
      match lengthJustRead read with
      | some len =>
        if 60 < len then ({ clearIdles rx with frame := none }, some (.frameEnded .formatError))
        else ({ clearIdles rx with frame := some read }, none)
      | none => ({ clearIdles rx with frame := some read }, none)
  | .eof, some os =>
    ({ clearIdles rx with frame := none }, some (.frameEnded (if eofDue os then .complete os else .formatError)))
  | .cut, some _ => ({ clearIdles rx with frame := none }, some (.frameEnded .cut))
  | .data _, none | .eof, none | .cut, none => (clearIdles rx, none)
  | .invalid, _ => (rx, none)

/-- One character at the trunk receiver (R144). Out of lock it only counts towards lock; in lock an invalid character counts
against it, the 4th losing lock, and a valid one is framed. -/
def rxChar (link : LinkState) (c : TrunkChar) (rx : TrunkRx) : TrunkRx × Option RxEvent :=
  if rx.lock then
    if c = .invalid then
      if rx.invalid + 1 = 4 then
        (⟨false, 0, 0, 0, 0, none⟩, some (.lockLost rx.frame.isSome))
      else
        ({ clearIdles rx with invalid := rx.invalid + 1, run := 0, frame := none },
          if rx.frame.isSome then some (.frameEnded .checkError) else none)
    else frameChar link c (advanceRun rx)
  else if c = .invalid then ({ rx with run := 0 }, none)
  else if rx.run + 1 = 16 then ({ rx with lock := true, run := 0, invalid := 0 }, some .lockGained)
  else ({ rx with run := rx.run + 1 }, none)

/-- What a run of characters brings about: nothing but counts, an event at the last character, or an event before it. -/
inductive Heard where
  | quiet (rx : TrunkRx)
  | event (rx : TrunkRx) (e : RxEvent)
  | early
deriving DecidableEq, Repr

/-- A run of characters at the trunk receiver. -/
def hear (link : LinkState) : TrunkRx → List TrunkChar → Heard
  | rx, [] => .quiet rx
  | rx, c :: cs =>
    match rxChar link c rx with
    | (rx', none) => hear link rx' cs
    | (rx', some e) => if cs.isEmpty then .event rx' e else .early

/-- What the trunk receiver of a state makes of a run of characters. -/
def heard (chars : List TrunkChar) (s : State) : Heard := hear s.trunk.link s.trunk.rx chars

/-- Whether the idle character to send between frames is IDLE_R: in lock and not in SEEK; else it is IDLE_S (R143). -/
def sendsIdleR (t : Trunk) : Bool := t.rx.lock && t.link != .seek

/-- When the character in progress on TRK_TX at a moment began: characters stand back to back from the rise of RESET_N (R143, R178). -/
def charStart (t : Trunk) (at' : Ticks) : Ticks := t.lineStart + (at' - t.lineStart) / characterTime * characterTime

/-- Whether an idle character in progress at a moment is an IDLE_R: its kind is chosen as it begins, and so stays as it was in the
character in which lock or the monitor's state changes (R143). DESIGN CHOICE: a character that begins at the instant of the change
is the first one after it (log 30). -/
def idleIsR (t : Trunk) (at' : Ticks) : Bool := if t.idleChanged ≤ charStart t at' then sendsIdleR t else t.idleWasR

/-- The idle character in progress at a moment (R143). -/
def idleAt (t : Trunk) (at' : Ticks) : TrunkChar := if idleIsR t at' then .idleR else .idleS

/-- The trunk link changes: where the idle character to send changes with it, the kind of the one in progress is kept to its end
(R143). -/
def retune (f : Trunk → Trunk) (s : State) : State :=
  modTrunk (fun t =>
    let u := f t
    if sendsIdleR u = sendsIdleR t then u else { u with idleChanged := s.now, idleWasR := idleIsR t s.now }) s

def setTrunkRx (rx : TrunkRx) (s : State) : State := retune (fun t => { t with rx := rx }) s

/-- The monitor changes state; both idle counts are 0 (R145). -/
def setLink (l : LinkState) (s : State) : State := retune (fun t => { t with link := l, rx := clearIdles t.rx }) s

/-- The characters bring no event of the command's kind: the counts stand as the characters left them, or, where they bring
another event, that event is not this command's and nothing is taken (log 13). -/
def heardOther (h : Heard) (s : State) : Host.Outcome State Fault Refusal :=
  match h with
  | .quiet rx => .next (setTrunkRx rx s)
  | .event _ _ | .early => .next s

/-! ### The link monitor (R145 to R150) -/

/-- The reference in trunk transmission returns to the head of its lane, or is removed EXPIRED when its deadline has passed
(R125). -/
def cutReference (s : State) : State :=
  match s.pool.queues[trunkPort].holder with
  | none => s
  | some r =>
    let freed := setHolder trunkPort none s
    match (slotOf r s).deadline with
    | some d => if d ≤ s.now then dropRef trunkPort r .expired freed else returnToHead trunkPort r freed
    | none => returnToHead trunkPort r freed

/-- The report in transmission is offered again (R141). -/
def unmarkReport (s : State) : State :=
  modCustody (fun c => { c with reports := c.reports.map fun r => { r with inTx := false } }) s

/-- The frame in transmission is ended with CUT at entry to SUSPECT (R163). -/
def cutForSuspect (s : State) : State :=
  match s.trunk.tx with
  | none => s
  | some f =>
    let cut := cutFrame s
    match f.kind with
    | .data | .trap => cutReference cut
    | .report => unmarkReport cut
    | .event => eventCut cut
    | .credit | .mgmtRsp => cut

/-- Entry to SUSPECT (R148). -/
def enterSuspect (s : State) : State :=
  cutForSuspect <| setLink .suspect <| modTrunk (fun t =>
    { t with
      hold := some ⟨s.now, s.now + t.suspectHold * millisecond⟩
      creditPending := false, refresh := none, rx := { t.rx with frame := none } }) s

/-- LOCK_GAINED: the 16th consecutive valid character gains lock; SEEK goes to TRAIN (R144, R145). -/
def execLockGained (chars : List TrunkChar) (s : State) : Host.Outcome State Fault Refusal :=
  match heard chars s with
  | .event rx .lockGained =>
    let locked := setTrunkRx rx s
    .next (if s.trunk.link = .seek then setLink .train locked else locked)
  | h => heardOther h s

/-- LOCK_LOST: the 4th invalid character loses lock; TRAIN goes to SEEK and UP to SUSPECT; a frame in reception is abandoned and
counted in CHECK_ERRORS (R144, R145, R148). -/
def execLockLost (chars : List TrunkChar) (s : State) : Host.Outcome State Fault Refusal :=
  match heard chars s with
  | .event rx (.lockLost abandoned) =>
    let lost := countTrunk .checkErrors abandoned.toNat (setTrunkRx rx s)
    .next (match s.trunk.link with
      | .train => setLink .seek lost
      | .up => settle (enterSuspect lost)
      | .seek | .suspect => lost)
  | h => heardOther h s

/-- How long the refresh timer runs: 900 µs (R158). -/
def refreshTime : Ticks := 900 * microsecond

/-- FRESH_UP: the 32nd consecutive IDLE_R in TRAIN (R147). -/
def execFreshUp (chars : List TrunkChar) (s : State) : Host.Outcome State Fault Refusal :=
  match heard chars s, s.trunk.link with
  | .event rx .idleR32, .train =>
    .next (countTrunk .linkUps 1 (setLink .up (modTrunk (fun t =>
      { t with
        rx := rx, outLimit := 0, sent := 0, nextExpected := 0, advertised := 0, creditPending := true
        refresh := some (s.now + refreshTime) }) s)))
  | h, _ => heardOther h s

/-- ENTER_SUSPECT: the 8th consecutive IDLE_S in UP (R148). -/
def execEnterSuspect (chars : List TrunkChar) (s : State) : Host.Outcome State Fault Refusal :=
  match heard chars s with
  | .event rx .idleS8 => .next (settle (enterSuspect (setTrunkRx rx s)))
  | h => heardOther h s

/-- RESUME: the 32nd consecutive IDLE_R in SUSPECT while the hold timer runs (R149). -/
def execResume (chars : List TrunkChar) (s : State) : Host.Outcome State Fault Refusal :=
  match heard chars s, s.trunk.link, s.trunk.hold with
  | .event rx .idleR32, .suspect, some hold =>
    .next (raise .linkResumed .trunk ((s.now - hold.startedAt) / microsecond)
      (setLink .up (modTrunk (fun t =>
        { t with rx := rx, hold := none, creditPending := true, refresh := some (s.now + refreshTime) }) s)))
  | h, _, _ => heardOther h s

/-- DOWN processing (R150): the trunk queue flushed LINK_DOWN, the report list discarded and counted, the waiting requests and
the response discarded, the request in execution marked, the counts zeroed, and, in TRAIN or SEEK, the reserve trimmed. DESIGN
CHOICE: R150 says that it raises no event, and R136 and R137 raise NOTICE_LOST for each notice lost; a notice that the flush makes and
the full list loses raises it, as at any other removal (log 34). -/
def downProcessing (s : State) : State :=
  let marked := markPending trunkPort (fun _ => true) .linkDown s
  let flushed := sweepLanes trunkPort (fun _ => true) .linkDown marked
  let reports := countTrunk .reportsLost flushed.custody.reports.length
    (modCustody (fun c => { c with reports := [] }) flushed)
  let agent := modAgent (fun a =>
    if a.executing then { a with buffers := a.buffers.take 1, dropMark := true } else { a with buffers := [] }) reports
  let counts := modTrunk (fun t =>
    { t with
      hold := none, outLimit := 0, sent := 0, nextExpected := 0, advertised := 0
      creditPending := false, refresh := none, response := none }) agent
  trim (setLink (if counts.trunk.rx.lock then .train else .seek) counts)

/-- HOLD_TIMER_EXPIRY: the hold timer expires in SUSPECT (R150). The clock stands at the expiry at least (log 2). -/
def execHoldTimerExpiry (s : State) : Host.Outcome State Fault Refusal :=
  match s.trunk.link, s.trunk.hold with
  | .suspect, some hold => .next (settle (downProcessing { s with now := max s.now hold.expiresAt }))
  | _, _ => .next s

/-- REFRESH_TIMER_EXPIRY: the refresh timer expires in UP and sets CREDIT pending (R158). The timer has then run out; the start of
the CREDIT starts it again. -/
def execRefreshTimerExpiry (s : State) : Host.Outcome State Fault Refusal :=
  match s.trunk.link, s.trunk.refresh with
  | .up, some t =>
    .next (modTrunk (fun k => { k with creditPending := true, refresh := none }) { s with now := max s.now t })
  | _, _ => .next s

/-! ### Received frames (R152 to R154) -/

/-- A DATA frame as received (11, DATA, PARTNER TO FG410). -/
structure DataFrame where
  frame : Frame
  inbound : Inbound
deriving DecidableEq, Repr

/-- The fields of a DATA body that follow the lifetime class: direct port, tag, payload length and payload; `none` is a
format error (R152). -/
def dataTail? (flags : Octet) (rest : List Octet) : Option (Option SegPort × Option (BitVec 16) × List Octet) :=
  let direct : Option (Option SegPort × List Octet) :=
    if flags.getLsbD 2 then
      match rest with
      | o :: os => (segPort? o).map fun p => (some p, os)
      | [] => none
    else some (none, rest)
  direct.bind fun (d, os) =>
    let tag : Option (Option (BitVec 16) × List Octet) :=
      if flags.getLsbD 1 then
        match os with
        | hi :: lo :: more => some (some (word16 hi lo), more)
        | _ => none
      else some (none, os)
    tag.bind fun (t, more) =>
      match more with
      | n :: payload => if n.toNat ≤ 12 ∧ payload.length = n.toNat then some (d, t, payload) else none
      | [] => none

/-- The DATA frame of a body, if its length and its fields are in range (R152; 11). Bits 3-7 of the flags are ignored (R189). A source
octet of 128-255, which R152 does not list and which is no source that R98 names, is taken as a format error (DESIGN CHOICE,
log 27). -/
def dataOf? (body : List Octet) : Option DataFrame :=
  match body with
  | priority :: dest :: source :: service :: flags :: lifetime :: rest =>
    if priority.toNat ≤ 7 ∧ dest.toNat ≤ 127 ∧ source.toNat ≤ 127 ∧ service.toNat ≤ 15 ∧ lifetime.toNat ≤ 3 then
      (dataTail? flags rest).map fun (direct, tag, payload) =>
        { frame := ⟨Fin.ofNat 8 priority.toNat, Fin.ofNat 128 dest.toNat, Fin.ofNat 128 source.toNat,
            Fin.ofNat 16 service.toNat, payload⟩
          inbound := ⟨flags.getLsbD 0, tag, direct, Fin.ofNat 4 lifetime.toNat⟩ }
    else none
  | _ => none

/-- The route fields of the 14 octets of an entry. -/
def routeArgs? (os : List Octet) : Option RouteArgs :=
  match os with
  | [a, b, c, d, e, f, g, h, i, j, k, l, m, n] => some ⟨a, b, c, d, e, f, word16 g h, i, j, k, l, m, n⟩
  | _ => none

/-- The request of a code and its argument octets; `malformed` when the code is unknown or the length is not its layout's
(check 1 of R167; 11, MANAGEMENT FRAMES). -/
def requestOf (code : Octet) (args : List Octet) : RequestOp :=
  match code.toNat, args with
  | 1, [] => .identify
  | 2, [bank, index] => .routeRead bank index
  | 3, index :: fields =>
    match routeArgs? fields with
    | some a => .routeWrite index a
    | none => .malformed
  | 4, [first, last] => .routeClear first last
  | 5, [purge] => .routeCommit purge
  | 6, [address] => .nodeRead address
  | 7, [address, location] => .nodeWrite address location
  | 8, [address] => .nodeUnblock address
  | 9, [port] => .portRead port
  | 10, [port, a, b, c, d, e, f] => .portWrite port ⟨a, b, c, d, e, f⟩
  | 11, [] => .gatewayRead
  | 12, [a, b, c, d, e, f, g, h, i, j, k, l, m, n, o] =>
    .gatewayWrite ⟨a, b, word16 c d, word16 e f, word16 g h, word16 i j, k, l, word16 m n, o⟩
  | 13, [group, clear] => .countersRead group clear
  | 14, [kind] => .reset kind
  | _, _ => .malformed

/-- A received frame that has passed the checks of R152, by kind. -/
inductive Received where
  | data (seq : BitVec 8) (d : DataFrame)
  | credit (limit : BitVec 8)
  | request (r : Request)
deriving DecidableEq, Repr

/-- The kind codes a frame may come with (11, CODE VALUES), and their bodies; `none` is a format error (R152). -/
def receivedOf? (kind seq : Octet) (body : List Octet) : Option Received :=
  if kind = 1 then (dataOf? body).map (.data seq)
  else if kind = 3 then
    match body with
    | [limit] => some (.credit limit)
    | _ => none
  else if kind = 4 then
    match body with
    | code :: id :: args => some (.request ⟨id, requestOf code args⟩)
    | _ => none
  else none

/-- The checks of R152 at EOF: the CRC-16 first, then kind and layout. -/
inductive Checked where
  | crcError
  | formatError
  | good (r : Received)
deriving DecidableEq, Repr

/-- The octets of a frame that came to its EOF, checked (R152, R188). The last two are the CRC. -/
def checkFrame (os : List Octet) : Checked :=
  let covered := os.take (os.length - 2)
  match os.drop (os.length - 2), covered with
  | [hi, lo], kind :: seq :: _ :: body =>
    if crc16 covered = word16 hi lo then
      match receivedOf? kind seq body with
      | some r => .good r
      | none => .formatError
    else .crcError
  | _, _ => .crcError

/-- A DATA frame inside the window is taken: SEQ_GAPS and next expected advance, and the frame fills an unfilled reserved slot
(R112, R154). The current limit has moved unless the frame was in order (R157). -/
def takeData (seq : BitVec 8) (d : DataFrame) (s : State) : State :=
  let skipped := (seq - s.trunk.nextExpected).toNat
  let counted := countTrunk .seqGaps skipped (countTrunk .framesIn 1
    (modTrunk (fun t => { t with nextExpected := seq + 1 }) s))
  let noted := if skipped = 0 then counted else noteCredit counted
  match pickUnfilled s with
  | none => noted
  | some i =>
    modTrunk (fun t => { t with taken := t.taken ++ [i] })
      (modSlot i (fun sl => { sl with status := .filled, frame := d.frame, inbound := some d.inbound })
        { noted with freeCount := noted.freeCount + 1 })

/-- Whether a sequence number is inside the window (R154). -/
def insideWindow (seq : BitVec 8) (t : Trunk) : Bool :=
  (seq - t.nextExpected).toNat < (t.advertised - t.nextExpected).toNat

/-- The inbound sequence check (R154). -/
def receiveData (seq : BitVec 8) (d : DataFrame) (s : State) : State :=
  if insideWindow seq s.trunk then takeData seq d s
  else raise .creditViolation .trunk seq.toNat (countTrunk .creditViolations 1 s)

/-- A frame that passed every check, dispatched by the monitor's state (R153). -/
def dispatch (r : Received) (s : State) : State :=
  match s.trunk.link with
  | .up =>
    match r with
    | .data seq d => receiveData seq d s
    | .credit limit => countTrunk .framesIn 1 (modTrunk (fun t => { t with outLimit := limit }) s)
    | .request req => offerRequest req (countTrunk .framesIn 1 s)
  | .train | .suspect => countTrunk .formatErrors 1 s
  | .seek => s

/-- A received frame has ended (R152, R153). -/
def frameEnd (e : FrameEnd) (s : State) : State :=
  match e with
  | .checkError => countTrunk .checkErrors 1 s
  | .formatError => countTrunk .formatErrors 1 s
  | .cut => countTrunk .cutFrames 1 s
  | .complete os =>
    match checkFrame os with
    | .crcError => countTrunk .checkErrors 1 s
    | .formatError => countTrunk .formatErrors 1 s
    | .good r => dispatch r s

/-- TRUNK_FRAME_RECEIVED: the characters end a frame, which is checked and, in UP, acted on (R152, R153). -/
def execTrunkFrameReceived (chars : List TrunkChar) (s : State) : Host.Outcome State Fault Refusal :=
  match heard chars s with
  | .event rx (.frameEnded e) => .next (frameEnd e (setTrunkRx rx s))
  | h => heardOther h s

/-- The decision of a taken DATA frame: built for its direct port, or the route list's (R74, R155 step 2). -/
def trunkDecision (f : Frame) (inb : Inbound) (s : State) : Decision × State :=
  match inb.direct with
  | some p => (directDecision f p inb s, s)
  | none => matchFrame trunkPort .drop f s

/-- TRUNK_DATA_ROUTING: the next step of the oldest DATA frame taken. While no decision is bound with it, the source check, and then
the decision, which is bound with the frame in its slot; else its admission, with the decision bound (R78, R85, R91, R98,
R155; that the table's row is given twice to a frame is log 31). -/
def execTrunkDataRouting (s : State) : Host.Outcome State Fault Refusal :=
  match s.trunk.taken with
  | [] => .next s
  | i :: rest =>
    let routed := modTrunk (fun t => { t with taken := rest }) s
    let sl := s.pool.slots[i]
    match sl.inbound, sl.decision with
    | none, _ => .next routed
    | some inb, some d => .next (settle (admitTrunk i inb d routed))
    | some inb, none =>
      if nodeLocation sl.frame.source s ≠ .trunk then .next (rejectTrunk i inb.tag .badSource routed)
      else
        let (d, looked) := trunkDecision sl.frame inb s
        .next (modSlot i (fun x => { x with decision := some d }) looked)

end Sys2Proof.Machine
end

