-- ==== Sys2Proof/Machine/TrunkTransmit.lean ====
section
/-! DEFINITION. The trunk transmit arbiter and the end of a frame in transmission, with the commands
TRUNK_FRAME_START and TRUNK_FRAME_EOF (08_trunk_link.md, R151, R157 to R162). -/

namespace Sys2Proof.Machine

/-! ### The envelope (R151, R188) -/

/-- The octets of an envelope that the CRC-16 covers: kind, sequence, length and body. -/
def coveredOctets (kind seq : Octet) (body : List Octet) : List Octet := kind :: seq :: BitVec.ofNat 8 body.length :: body

/-- The octets of an envelope between SOF and EOF, with the two octets of the CRC-16. -/
def envelopeOctets (kind seq : Octet) (body : List Octet) : List Octet :=
  coveredOctets kind seq body ++ octets2 (crc16 (coveredOctets kind seq body)).toNat

/-- The characters of a frame from SOF to EOF. -/
def envelope (kind seq : Octet) (body : List Octet) : List TrunkChar :=
  .sof :: (envelopeOctets kind seq body).map .data ++ [.eof]

/-- The characters of a frame in transmission. -/
def TxFrame.chars (f : TxFrame) : List TrunkChar := envelope f.kind.code f.seq f.body

/-- The character of a frame at a moment: its characters stand back to back from its SOF (R151). -/
def TxFrame.charAt (f : TxFrame) (t : Ticks) : Option TrunkChar := f.chars[(t - f.startedAt) / characterTime]?

/-- The character on TRK_TX at a moment that is not before the last frame started and not after the next change of the trunk link: none
up to the rise of RESET_N; the frame in transmission; a frame ended with CUT up to that CUT, then the CUT; and idle characters
between frames (R143, R151, R163, R178). -/
def trunkOut (k : Trunk) (t : Ticks) : Option TrunkChar :=
  if t < k.lineStart then none
  else
    match k.tx, k.cut with
    | some f, _ => some ((f.charAt t).getD (idleAt k t))
    | none, some c =>
      if t < c.startsAt then some ((c.frame.charAt t).getD (idleAt k t))
      else if t < c.startsAt + characterTime then some .cut
      else some (idleAt k t)
    | none, none => some (idleAt k t)

/-- The first character boundary of TRK_TX that is not before a moment (R143, R161). -/
def boundaryFrom (k : Trunk) (t : Ticks) : Ticks :=
  k.lineStart + (t - k.lineStart + (characterTime - 1)) / characterTime * characterTime

/-- How long a frame with a body of L octets lasts: L + 7 characters. -/
def frameTime (body : List Octet) : Ticks := (body.length + 7) * characterTime

/-! ### Bodies (11_formats_on_the_wire.md) -/

/-- The body of a MGMT_RSP: id, status and results. -/
def responseBody (r : Response) : List Octet := [r.id, r.status.code] ++ r.results

/-- The octet of an egress port; 255 when there is none (R189). -/
def egressOctet (q : Option PortId) : Octet :=
  match q with
  | some q => BitVec.ofNat 8 q.val
  | none => 255

/-- The body of a REPORT: tag, reason, egress port and attempts used. -/
def reportBody (r : Report) : List Octet :=
  octets2 r.tag.toNat ++ [r.reason.code, egressOctet r.egress, BitVec.ofNat 8 r.attempts]

/-- The body of an EVENT: kind, port, detail and occurrences. -/
def eventBody (e : Event) : List Octet :=
  [BitVec.ofNat 8 e.kind.code, e.port.code] ++ octets2 e.detail ++ [BitVec.ofNat 8 e.occurrences]

/-- The body of a DATA or TRAP frame, built from the reference's frame slot (R162). -/
def dataBody (sl : FrameSlot) : List Octet :=
  [BitVec.ofNat 8 sl.ingress.val, BitVec.ofNat 8 sl.priority.val, BitVec.ofNat 8 sl.frame.dest.val,
    BitVec.ofNat 8 sl.frame.source.val, BitVec.ofNat 8 sl.frame.service.val, sl.entry.code,
    BitVec.ofNat 8 sl.frame.payload.length] ++ sl.frame.payload

/-- The kind of frame that carries a reference (R162). -/
def RefKind.txKind : RefKind → TxKind
  | .frame => .data
  | .trap => .trap

/-! ### The arbiter (R161) -/

/-- A frame goes into transmission. -/
def transmit (kind : TxKind) (seq : BitVec 8) (body : List Octet) (s : State) : State :=
  modTrunk (fun t => { t with tx := some ⟨kind, seq, body, s.now⟩, cut := none }) s

/-- A CREDIT with the current limit is started: CREDIT pending is cleared and the refresh timer starts again (R157, R158). -/
def startCredit (s : State) : State :=
  transmit .credit 0 [currentLimit s]
    (modTrunk (fun t => { t with creditPending := false, refresh := some (s.now + refreshTime) }) s)

/-- The REPORT of a record is started: the record is marked in transmission and stays at its place (R141). -/
def startReport (r : Report) (s : State) : State :=
  transmit .report 0 (reportBody r)
    (modCustody (fun c =>
      { c with reports := updateFirst (fun x => !x.inTx) (fun x => some { x with inTx := true }) c.reports }) s)

/-- The record that the event list offers: its oldest, while none is in transmission (R185). -/
def offeredEvent (s : State) : Option Event := if s.events.records.any (·.inTx) then none else s.events.records.head?

/-- The EVENT of the oldest record is started: the record is marked in transmission with no further occurrences (R185). -/
def startEvent (e : Event) (s : State) : State :=
  transmit .event 0 (eventBody e)
    (modEvents (fun es =>
      match es with
      | [] => []
      | x :: xs => { x with inTx := true, further := 0 } :: xs) s)

/-- Whether the outbound credit allows a DATA or TRAP frame: the limit lies 1 to 128 ahead of the sent count (R159). -/
def creditAllows (t : Trunk) : Bool := 1 ≤ (t.outLimit - t.sent).toNat && (t.outLimit - t.sent).toNat ≤ 128

/-- Stale heads of the trunk queue are removed PURGED, lane by lane, until a head is not stale or the queue is empty (R125). -/
def purgeHeads : Nat → State → State
  | 0, s => s
  | n + 1, s =>
    match firstHead trunkPort s with
    | none => s
    | some (lane, r) =>
      if isStale (slotOf r s).epoch s then purgeHeads n (discardRef trunkPort r .purged (popLane trunkPort lane s)) else s

/-- The head of the most urgent lane moves into trunk transmission, its count advanced, and its frame is started with the
sent count as its sequence number, which then advances (R125, R159, R162). -/
def startData (lane : Priority) (r : Ref) (s : State) : State :=
  transmit r.kind.txKind s.trunk.sent (dataBody (slotOf r s))
    (modTrunk (fun t => { t with sent := t.sent + 1 })
      (setHolder trunkPort (some { r with count := r.count + 1 }) (popLane trunkPort lane s)))

/-- The pool is asked for a DATA or TRAP frame (R125). -/
def handOff (s : State) : State :=
  let purged := purgeHeads (laneRefs s.pool.queues[trunkPort]).length s
  match firstHead trunkPort purged with
  | none => purged
  | some (lane, r) => startData lane r purged

/-- The arbiter starts the first frame that is ready (R161). -/
def arbitrate (s : State) : State :=
  if s.trunk.creditPending then startCredit s
  else
    match s.trunk.response with
    | some r => transmit .mgmtRsp 0 (responseBody r) s
    | none =>
      match s.custody.reports.find? (!·.inTx) with
      | some r => startReport r s
      | none =>
        match offeredEvent s with
        | some e => startEvent e s
        | none => if creditAllows s.trunk then handOff s else s

/-- The choice of the arbiter at the character boundary at which the clock stands. Where it starts no frame, the transmitter sends an
idle character there, and the next choice comes at the boundary after it (R161). -/
def choose (s : State) : State :=
  let chosen := arbitrate s
  if chosen.trunk.tx.isNone then modTrunk (fun t => { t with nextStart := s.now + characterTime }) chosen else chosen

/-- TRUNK_FRAME_START: a choice of the arbiter at the next character boundary in UP, with no frame in transmission and the idle
character after the last frame, or the last choice that started none, sent (R143, R161). The clock then stands at that boundary
(log 2). -/
def execTrunkFrameStart (s : State) : Host.Outcome State Fault Refusal :=
  match s.trunk.link, s.trunk.tx with
  | .up, none => .next (settle (choose { s with now := boundaryFrom s.trunk (max s.now s.trunk.nextStart) }))
  | _, _ => .next s

/-! ### The end of a frame (R151) -/

/-- The limit that a CREDIT carried becomes the advertised limit at its EOF (R157). -/
def creditSent (f : TxFrame) (s : State) : State :=
  match f.body with
  | limit :: _ => modTrunk (fun t => { t with advertised := limit }) s
  | [] => s

/-- The report in transmission leaves the list (R141). -/
def reportSent (s : State) : State := modCustody (fun c => { c with reports := c.reports.filter (!·.inTx) }) s

/-- The reference in trunk transmission is released DELIVERED (R125). -/
def dataSent (s : State) : State :=
  match s.pool.queues[trunkPort].holder with
  | none => s
  | some r => dropRef trunkPort r .delivered (setHolder trunkPort none s)

/-- What the EOF of a frame brings about beyond FRAMES_OUT, by its kind. -/
def frameSent (f : TxFrame) (s : State) : State :=
  match f.kind with
  | .credit => creditSent f s
  | .mgmtRsp => modTrunk (fun t => { t with response := none }) s
  | .report => reportSent s
  | .event => eventSent s
  | .data | .trap => dataSent s

/-- TRUNK_FRAME_EOF: the frame in transmission reaches its EOF, L + 7 characters after its SOF began, FRAMES_OUT advances and the line
owes an idle character (R143, R151). -/
def execTrunkFrameEof (s : State) : Host.Outcome State Fault Refusal :=
  match s.trunk.tx with
  | none => .next s
  | some f =>
    let ends := f.startedAt + frameTime f.body
    let ended := countTrunk .framesOut 1
      (modTrunk (fun t => { t with tx := none, nextStart := ends + characterTime }) { s with now := max s.now ends })
    .next (settle (frameSent f ended))

end Sys2Proof.Machine
end

