-- ==== Sys2Proof/Machine/Dispatch.lean ====
section
/-! DEFINITION. The dispatch: one arm per command, each one call of the command's meaning. -/

namespace Sys2Proof.Machine

def exec (i : Instr) (s : State) : Host.Outcome State Fault Refusal :=
  match i with
  | .hardwareReset => Sys2Proof.Machine.execHardwareReset s
  | .identify id => Sys2Proof.Machine.execIdentify id s
  | .routeRead id bank index => Sys2Proof.Machine.execRouteRead id bank index s
  | .routeWrite id index fields => Sys2Proof.Machine.execRouteWrite id index fields s
  | .routeClear id first last => Sys2Proof.Machine.execRouteClear id first last s
  | .routeCommit id purge => Sys2Proof.Machine.execRouteCommit id purge s
  | .purgeSweepStep => Sys2Proof.Machine.execPurgeSweepStep s
  | .resyncComplete => Sys2Proof.Machine.execResyncComplete s
  | .nodeRead id address => Sys2Proof.Machine.execNodeRead id address s
  | .nodeWrite id address location => Sys2Proof.Machine.execNodeWrite id address location s
  | .nodeUnblock id address => Sys2Proof.Machine.execNodeUnblock id address s
  | .portRead id port => Sys2Proof.Machine.execPortRead id port s
  | .portWrite id port settings => Sys2Proof.Machine.execPortWrite id port settings s
  | .gatewayRead id => Sys2Proof.Machine.execGatewayRead id s
  | .gatewayWrite id settings => Sys2Proof.Machine.execGatewayWrite id settings s
  | .countersRead id group clear => Sys2Proof.Machine.execCountersRead id group clear s
  | .trafficReset id => Sys2Proof.Machine.execTrafficReset id s
  | .fullReset id => Sys2Proof.Machine.execFullReset id s
  | .agentBeginRequest => Sys2Proof.Machine.execAgentBeginRequest s
  | .falseStart p low => Sys2Proof.Machine.execFalseStart p low s
  | .headerCompletion p low slots => Sys2Proof.Machine.execHeaderCompletion p low slots s
  | .controlCompletion p heard => Sys2Proof.Machine.execControlCompletion p heard s
  | .checkCompletion p heard => Sys2Proof.Machine.execCheckCompletion p heard s
  | .endOfFrame p ending => Sys2Proof.Machine.execEndOfFrame p ending s
  | .signalError p evidence => Sys2Proof.Machine.execSignalError p evidence s
  | .abortPulse line => Sys2Proof.Machine.execAbortPulse line s
  | .lineHeld edge => Sys2Proof.Machine.execLineHeld edge s
  | .lineReleased p low => Sys2Proof.Machine.execLineReleased p low s
  | .flushComplete p quiet => Sys2Proof.Machine.execFlushComplete p quiet s
  | .attemptBegin start => Sys2Proof.Machine.execAttemptBegin start s
  | .arbitrationLost p heard => Sys2Proof.Machine.execArbitrationLost p heard s
  | .overdrive p heard => Sys2Proof.Machine.execOverdrive p heard s
  | .attemptEnd p low slots early => Sys2Proof.Machine.execAttemptEnd p low slots early s
  | .deadlineExpiry slot => Sys2Proof.Machine.execDeadlineExpiry slot s
  | .lockGained chars => Sys2Proof.Machine.execLockGained chars s
  | .lockLost chars => Sys2Proof.Machine.execLockLost chars s
  | .freshUp chars => Sys2Proof.Machine.execFreshUp chars s
  | .enterSuspect chars => Sys2Proof.Machine.execEnterSuspect chars s
  | .resume chars => Sys2Proof.Machine.execResume chars s
  | .holdTimerExpiry => Sys2Proof.Machine.execHoldTimerExpiry s
  | .trunkFrameReceived chars => Sys2Proof.Machine.execTrunkFrameReceived chars s
  | .trunkDataRouting => Sys2Proof.Machine.execTrunkDataRouting s
  | .trunkFrameStart => Sys2Proof.Machine.execTrunkFrameStart s
  | .trunkFrameEof => Sys2Proof.Machine.execTrunkFrameEof s
  | .refreshTimerExpiry => Sys2Proof.Machine.execRefreshTimerExpiry s
  | .idleFallingEdge p edge => Sys2Proof.Machine.execIdleFallingEdge p edge s
  | .acceptSlotEdge edge => Sys2Proof.Machine.execAcceptSlotEdge edge s
  | .abortPulseEnd pulse => Sys2Proof.Machine.execAbortPulseEnd pulse s

end Sys2Proof.Machine
end

