-- ==== Sys2Proof/Safety.lean ====
section
/-! DEFINITION. What a safe run of the block keeps: the properties of the state that the spec states of every moment, in
the terms the claims use. -/

namespace Sys2Proof.Machine

/-- A step goes on: it answers a next state. -/
def Completes (o : Host.Outcome State Fault Refusal) : Prop := ∃ t, o = .next t

/-- A property of states that every step keeps. -/
def KeptByStep (inv : State → Prop) : Prop := ∀ s t : State, inv s → step s = .next t → inv t

/-! ### Lists and buffers -/

/-- The capacities of the notice list, the report list, the event list and the request buffers (R133, R181, R164). -/
abbrev CapacityOk (s : State) : Prop :=
  s.custody.notices.length ≤ 8 ∧ s.custody.reports.length ≤ 16 ∧ s.events.records.length ≤ 16 ∧ s.agent.buffers.length ≤ 2

/-- The ranges of an event record; only a record in transmission has further occurrences (R181, R185). -/
abbrev EventOk (e : Event) : Prop :=
  1 ≤ e.occurrences ∧ e.occurrences ≤ 255 ∧ e.detail ≤ detailMax ∧ e.further ≤ 255 ∧ e.furtherDetail ≤ detailMax ∧
    (e.inTx = false → e.further = 0)

/-- The event list holds one record of a kind and port, and at most one record in transmission (R182, R185). -/
abbrev EventsOk (s : State) : Prop :=
  (∀ e ∈ s.events.records, EventOk e) ∧
    s.events.records.Pairwise (fun a b => ¬(a.kind = b.kind ∧ a.port = b.port)) ∧
    (s.events.records.filter (·.inTx)).length ≤ 1

/-! ### Route list, node map, settings and counters -/

/-- The epochs: the purge epoch is never ahead of the epoch, which never passes its maximum (R68, R87). -/
abbrev EpochsOk (s : State) : Prop := s.route.purgeEpoch ≤ s.route.epoch ∧ s.route.epoch ≤ epochMax

/-- The lanes that the purge sweep of a commit has still to examine. -/
def Commit.lanesLeft : Commit → List (PortId × Priority)
  | .idle => []
  | .running lanes _ => lanes

/-- A commit is running exactly while a request is in execution; that request is buffered, the response holder is empty, and
the drop mark is set only then; the lanes that its purge sweep has left are the last ones of the sweep's order (R87, R89, R90,
R150, R160, R166). -/
abbrev CommitOk (s : State) : Prop :=
  (s.agent.executing = true ↔ s.route.commit ≠ .idle) ∧ s.route.commit ≠ .running [] false ∧
    s.route.commit.lanesLeft <:+ sweepOrder ∧
    (s.agent.executing = true → s.agent.buffers ≠ [] ∧ s.trunk.response = none) ∧
    (s.agent.dropMark = true → s.agent.executing = true)

/-- Every counter of every group, and every hit count, stands at most at its maximum (R179, R77). -/
abbrev CountersOk (s : State) : Prop :=
  (∀ p : SegPort, ∀ c : Fin 12, s.ports[p].counters[c] ≤ counterMax) ∧ (∀ c : Fin 10, s.trunk.counters[c] ≤ counterMax) ∧
    (∀ c : Fin 7, s.gateway[c] ≤ counterMax) ∧
    (∀ i : RouteIndex, s.route.bankA[i].hits ≤ counterMax ∧ s.route.bankB[i].hits ≤ counterMax)

/-- The settings stand in their ranges (R40, R93, R111, R127, R146). -/
abbrev SettingsOk (s : State) : Prop :=
  (∀ p : SegPort, s.ports[p].retryLimit ≤ 7 ∧ 1 ≤ s.ports[p].queueLimit ∧ s.ports[p].queueLimit ≤ 64) ∧
    s.nodes.threshold ≤ 15 ∧ 2 ≤ s.pool.reserveSize ∧ s.pool.reserveSize ≤ 16 ∧
    (∀ c : LifetimeClass, lifetimeOk s.pool.lifetimes[c] = true) ∧ 1 ≤ s.trunk.suspectHold ∧ s.trunk.suspectHold ≤ 15

/-- A node's failures stand at most at 15 (R93, R102). -/
abbrev NodesOk (s : State) : Prop := ∀ i : Fin 120, s.nodes.entries[i].failures ≤ 15

/-! ### Segment ports -/

/-- A transmitter is armed. -/
def TxState.isArmed : TxState → Bool
  | .armed _ => true
  | .off | .idle | .sending _ | .slots _ => false

/-- A disabled port is OFF, its assembly buffer empty, and drives nothing; an enabled one is not OFF (R41, R53, R63, R64). A
transmitter is ARMED only with its receiver in IDLE (R54, R55), and a talker only inside the frame of its attempt (R20, R53). A
receiver enters IDLE only once the port's own abort pulse is over (R22). -/
abbrev PortsOff (s : State) : Prop :=
  ∀ p : SegPort,
    (s.ports[p].enabled = false →
      s.ports[p].rx = .off ∧ s.ports[p].tx = .off ∧ s.ports[p].assembly = {} ∧ s.ports[p].pin = [] ∧ s.ports[p].pulse = none) ∧
    (s.ports[p].enabled = true → s.ports[p].rx ≠ .off ∧ s.ports[p].tx ≠ .off) ∧
    (s.ports[p].tx.isArmed = true → s.ports[p].rx = .idle) ∧ (isTalker s.ports[p] = true → following s.ports[p] = true) ∧
    (s.ports[p].rx = .idle → s.ports[p].pulse = none)

/-! ### Trunk link -/

/-- A moment is a character boundary of TRK_TX: characters of 0.8 µs stand back to back from the rise of RESET_N (R143, R178). -/
abbrev OnBoundary (k : Trunk) (t : Ticks) : Prop := k.lineStart ≤ t ∧ (t - k.lineStart) % 20 = 0

/-- The link monitor and the counts beside it: lock by state, the hold timer exactly in SUSPECT, no CREDIT pending, refresh
timer or frame in transmission outside UP, no credit in SEEK and TRAIN, and frames and CUTs on character boundaries (R143 to R151,
R158, R161, R163). -/
abbrev LinkOk (s : State) : Prop :=
  (s.trunk.link = .seek → s.trunk.rx.lock = false) ∧
    (s.trunk.link = .train ∨ s.trunk.link = .up → s.trunk.rx.lock = true) ∧
    (s.trunk.hold.isSome = true ↔ s.trunk.link = .suspect) ∧
    (s.trunk.link ≠ .up → s.trunk.creditPending = false ∧ s.trunk.refresh = none ∧ s.trunk.tx = none) ∧
    (s.trunk.link = .up → s.trunk.creditPending = true ∨ s.trunk.refresh.isSome = true) ∧
    (s.trunk.link = .seek ∨ s.trunk.link = .train →
      s.trunk.outLimit = 0 ∧ s.trunk.sent = 0 ∧ s.trunk.nextExpected = 0 ∧ s.trunk.advertised = 0) ∧
    (s.trunk.rx.frame.isSome = true → s.trunk.rx.lock = true) ∧
    s.trunk.rx.run ≤ 15 ∧ s.trunk.rx.invalid ≤ 3 ∧ s.trunk.rx.idleR ≤ 32 ∧ s.trunk.rx.idleS ≤ 8 ∧
    s.trunk.lineStart ≤ s.now ∧ s.trunk.idleChanged ≤ s.now ∧
    (∀ f ∈ s.trunk.tx, OnBoundary s.trunk f.startedAt) ∧ (∀ c ∈ s.trunk.cut, OnBoundary s.trunk c.startsAt)

/-! ### The frame pool -/

/-- The references of a queue, wherever they stand (R115). -/
def queueRefs (q : Queue) : List Ref := q.pending ++ laneRefs q ++ q.holder.toList

/-- The references of a queue that point at a frame slot. -/
def refsTo (i : SlotId) (q : Queue) : List Ref := (queueRefs q).filter (·.slot == i)

/-- How many references of the five queues point at a frame slot (R108). -/
def refCount (i : SlotId) (s : State) : Nat := (allPorts.map fun q => (refsTo i s.pool.queues[q]).length).sum

/-- Every frame slot is on one side of R109: the FREE ones are those of the free list, once each; the filled ones are the DATA
frames taken and not yet routed, of which only the oldest may have its decision bound (R155); a QUEUED one has as many references as
it counts, at least one, and no other slot has any (R108, R109, R112, R126). -/
abbrev SlotsOk (s : State) : Prop :=
  s.pool.free.Nodup ∧ (∀ i : SlotId, s.pool.slots[i].status = .free ↔ i ∈ s.pool.free) ∧
    s.trunk.taken.Nodup ∧ (∀ i : SlotId, s.pool.slots[i].status = .filled ↔ i ∈ s.trunk.taken) ∧
    (∀ i : SlotId, s.pool.slots[i].status = .filled → s.pool.slots[i].inbound.isSome = true) ∧
    (∀ i : SlotId, s.pool.slots[i].decision.isSome = true → s.trunk.taken.head? = some i) ∧
    (∀ i : SlotId, s.pool.slots[i].status = .queued → 1 ≤ s.pool.slots[i].refs ∧ s.pool.slots[i].refs = refCount i s) ∧
    (∀ i : SlotId, s.pool.slots[i].status ≠ .queued → refCount i s = 0)

/-- An admission not yet confirmed is a listener's in SLOTS with a good check; its frame slot is QUEUED, is no other port's, and has its
references pending; every pending reference belongs to one; and no bound decision mirrors a frame that goes to T (R46 to R48,
R83, R121). -/
abbrev AdmissionsOk (s : State) : Prop :=
  (∀ p : SegPort, s.ports[p].assembly.admission.isSome = true →
    s.ports[p].rx = .slots ∧ isTalker s.ports[p] = false ∧ s.ports[p].pulse = none ∧
      s.ports[p].assembly.checkGood = some true) ∧
    (∀ (p : SegPort) (i : SlotId), admittedSlot s.ports[p] = some i →
      s.pool.slots[i].status = .queued ∧
      (∀ q : PortId, ∀ r ∈ laneRefs s.pool.queues[q] ++ s.pool.queues[q].holder.toList, r.slot ≠ i) ∧
      (∀ q : SegPort, admittedSlot s.ports[q] = some i → q = p)) ∧
    (∀ q : PortId, ∀ r ∈ s.pool.queues[q].pending, ∃ p : SegPort, admittedSlot s.ports[p] = some r.slot) ∧
    (∀ p : SegPort, ∀ d ∈ s.ports[p].assembly.decision, d.mirror = true → d.egress.getLsbD 4 = false)

/-- A port's attempt holder is in use exactly in an attempt of a frame, and trunk transmission exactly while a DATA or TRAP frame is
sent (R57, R116, R125). -/
abbrev HoldersOk (s : State) : Prop :=
  (∀ p : SegPort, s.pool.queues[p.port].holder.isSome = (attemptOf s.ports[p]).any (!·.notice)) ∧
    s.pool.queues[trunkPort].holder.isSome = s.trunk.tx.any (fun f => f.kind == .data || f.kind == .trap)

/-- How much of a queue's limit is taken: its length, and its pending references that confirmation will let join a lane (R115,
R122). -/
def queueLoad (q : Queue) : Nat := queueLength q + (q.pending.filter (·.mark.isNone)).length

/-- No queue passes its limit, and the queue of a disabled port is empty, its pending references marked (R63, R115, R117). -/
abbrev QueuesOk (s : State) : Prop :=
  (∀ p : SegPort, queueLoad s.pool.queues[p.port] ≤ s.ports[p].queueLimit ∧
    (s.ports[p].enabled = false → queueLoad s.pool.queues[p.port] = 0)) ∧
    queueLoad s.pool.queues[trunkPort] ≤ trunkQueueLimit

/-- The reserve is short only when the free list is empty (R111); in UP and SUSPECT the window stands within the unfilled slots, and so
does the limit that a CREDIT in transmission carries (R157). -/
abbrev ReserveOk (s : State) : Prop :=
  (reservedCount s < s.pool.reserveSize → s.pool.free = []) ∧
    (s.trunk.link = .up ∨ s.trunk.link = .suspect →
      (s.trunk.advertised - s.trunk.nextExpected).toNat ≤ unfilledCount s) ∧
    (∀ f ∈ s.trunk.tx, f.kind = .credit → ∃ limit ∈ f.body.head?, f.body.length = 1 ∧
      (s.trunk.advertised - s.trunk.nextExpected).toNat ≤ (limit - s.trunk.nextExpected).toNat ∧
      (limit - s.trunk.nextExpected).toNat ≤ unfilledCount s)

/-- The frame pool stands as R108 to R125 and R157 say of every moment. -/
abbrev PoolOk (s : State) : Prop := SlotsOk s ∧ AdmissionsOk s ∧ HoldersOk s ∧ QueuesOk s ∧ ReserveOk s

/-! ### The words of the claims -/

/-- The agent is free for a request of the partner: the link is UP, no request is buffered or in execution, and the response holder is
empty (R164 to R166). -/
abbrev AgentFree (s : State) : Prop :=
  s.trunk.link = .up ∧ s.agent.executing = false ∧ s.agent.buffers = [] ∧ s.trunk.response = none

/-- The agent may begin a request: none is in execution and the response holder is empty (R166). -/
abbrev AgentReady (s : State) : Prop := s.agent.executing = false ∧ s.trunk.response = none

/-- What the removal of references and selection never change: the clock, the route list, the agent, the queue of commands, every
setting, the trunk link but for CREDIT pending and its counters, and each port but for its transmitter, its counters and
whether selection is due. -/
structure Kept (s t : State) : Prop where
  now : t.now = s.now
  freeCount : t.freeCount = s.freeCount
  route : t.route = s.route
  agent : t.agent = s.agent
  pending : t.pending = s.pending
  reserveSize : t.pool.reserveSize = s.pool.reserveSize
  lifetimes : t.pool.lifetimes = s.pool.lifetimes
  threshold : t.nodes.threshold = s.nodes.threshold
  noticeSource : t.custody.noticeSource = s.custody.noticeSource
  noticePriority : t.custody.noticePriority = s.custody.noticePriority
  mask : t.events.mask = s.events.mask
  trunk : t.trunk = { s.trunk with creditPending := t.trunk.creditPending, counters := t.trunk.counters }
  port : ∀ p : SegPort, t.ports[p] =
    { s.ports[p] with tx := t.ports[p].tx, counters := t.ports[p].counters, due := t.ports[p].due }

/-- A request is executed, and `rest` waits in the other buffer: its row, with the agent free and nothing waiting, or
AGENT_BEGIN_REQUEST with it as the oldest request buffered, in any state of the link (R165, R166; log 5). -/
abbrev Requested (c row : Instr) (r : Request) (rest : List Request) (s : State) : Prop :=
  (c = row ∧ AgentFree s ∧ rest = []) ∨ (c = .agentBeginRequest ∧ AgentReady s ∧ s.agent.buffers = r :: rest)

/-- The frame slots after a TRAFFIC or FULL reset that leaves INBOUND_RESERVE at `size`: every slot is FREE but the unfilled
reserved ones in UP and SUSPECT; the freed ones join the tail of the free list in ascending order; the reserve is then refilled from
the head of the free list, which sets CREDIT pending in UP (R111, R130, R157). -/
abbrev PoolFlushed (size : Nat) (s t : State) : Prop :=
  ∀ (kept : SlotId → Bool) (free : List SlotId) (n : Nat),
    (∀ i : SlotId, kept i = true ↔
      s.pool.slots[i].status = .unfilled ∧ (s.trunk.link = .up ∨ s.trunk.link = .suspect)) →
    free = s.pool.free ++ (List.finRange 64).filter (fun i => !kept i && s.pool.slots[i].status != .free) →
    n = min (size - ((List.finRange 64).filter kept).length) free.length →
    t.pool.free = free.drop n ∧
      (∀ i : SlotId, t.pool.slots[i] = if kept i = true ∨ i ∈ free.take n then .blank .unfilled else .blank .free) ∧
      t.trunk.creditPending = (s.trunk.creditPending || (n != 0 && s.trunk.link == .up))

/-- The transmitter of a port that drops an armed candidate (R55). -/
def TxState.unarmed : TxState → TxState
  | .armed _ => .idle
  | tx => tx

/-- A port inside a frame hears symbols, each in its window and of its class, and stands as `pt` then (R4, R6, R42; log 6). -/
abbrev Hears (p : SegPort) (h : Symbols) (s : State) (pt : Port) : Prop :=
  following s.ports[p] = true ∧ hearSymbols h s.ports[p] = some pt

/-- A port is not inside a frame, or the symbols are none that it accepts. -/
abbrev HearsNone (p : SegPort) (h : Symbols) (s : State) : Prop :=
  following s.ports[p] = false ∨ hearSymbols h s.ports[p] = none

/-- The frame of a port has ended: its refuse slot has been classified, and the end is 1.0 Tb after that slot's falling edge, or an
earlier falling edge after its low (R6). -/
abbrev FrameEnds (early : Option Ticks) (pt : Port) (at' : Ticks) : Prop :=
  (∃ c : Control, pt.assembly.control = some c ∧ pt.assembly.bits.length = 35 + 8 * c.length) ∧ pt.assembly.inSlot = false ∧
    ((early = none ∧ at' = pt.edge + bitPeriod pt.rate) ∨
      ∃ gap : Ticks, early = some gap ∧ pt.lastRise ≤ pt.edge + gap ∧ gap < bitPeriod pt.rate ∧ at' = pt.edge + gap)

/-- Bit slots remain in the frame of a port before its next completion point, or before its end: fewer than 17 bits are classified
without a header, 25 without a control field, 33 + 8n without a check result, and 35 + 8n in any case (R6, R31). -/
abbrev SlotsRemain (pt : Port) : Prop :=
  (pt.assembly.header = none → pt.assembly.bits.length < 17) ∧
  (pt.assembly.header ≠ none → pt.assembly.control = none → pt.assembly.bits.length < 25) ∧
  (∀ c : Control, pt.assembly.header ≠ none → pt.assembly.control = some c →
    pt.assembly.bits.length < if pt.assembly.checkGood = none then 33 + 8 * c.length else 35 + 8 * c.length)

/-- What a talker samples 0.44 Tb after the edge of the slot in progress, whose low lasts `low`, is what it sends there, if it is a
header, control, payload or check bit (R8): else it has lost arbitration or detected overdrive (R14, R15). -/
abbrev SampleAgrees (low : Ticks) (pt : Port) : Prop :=
  ∀ a : Attempt, attemptOf pt = some a → pt.rx = .bits →
    (talkerBit a pt.assembly.bits.length = true ↔ low ≤ 44 * bitPeriod pt.rate / 100)

/-- A signal error of R17 is detected at a moment, `q` being the port with the edge then seen: a shape error at the end of the low in
progress; a period error at an edge less than 3.8 Tb after the lead-in's or 0.9 Tb after a bit slot's; by a listener (R19), a
stall error 4.4 Tb after the lead-in's edge or 1.3 Tb after a bit slot's, the last two between lows while bit slots remain. -/
abbrev FaultDetected (fault : SignalFault) (pt : Port) (at' : Ticks) (q : Port) : Prop :=
  (∃ low : Ticks, fault = .shape low ∧ insideLow pt = true ∧ SampleAgrees low pt ∧ classifyLow pt.rate low = .shapeError ∧
    at' = pt.edge + low ∧ q = { pt with lastRise := pt.edge + low }) ∨
  (∃ gap : Ticks, fault = .period gap ∧ betweenLows pt = true ∧ SlotsRemain pt ∧
    100 * gap < (if pt.rx = .gap then 380 else 90) * bitPeriod pt.rate ∧ at' = pt.edge + gap ∧
    q = { pt with edge := pt.edge + gap }) ∨
  (∃ waited : Ticks, fault = .stall waited ∧ betweenLows pt = true ∧ SlotsRemain pt ∧ isTalker pt = false ∧
    (if pt.rx = .gap then 440 else 130) * bitPeriod pt.rate ≤ 100 * waited ∧
    at' = pt.edge + (if pt.rx = .gap then 440 else 130) * bitPeriod pt.rate / 100 ∧ q = pt)

/-- A receiver leaves a frame of another talker on an error detected at a moment: the error is counted, an admission not yet confirmed
withdrawn, the receiver goes to FLUSH, and the port drives an abort pulse of 2.0 Tb from that moment when ABORT_ON_ERROR is
set or it has asserted the accept slot, and else releases the line (R18, R22, R32, R48). -/
def listenerLeaves (p : SegPort) (c : PortCounter) (at' : Ticks) (s : State) : State :=
  let left := modPort p (fun pt =>
    { pt with rx := .flush, heldFlush := false, assembly := {}, tx := pt.tx.unarmed, pin := [], pulse := none })
    (countPort p c 1 (withdraw p s))
  if s.ports[p].abortOnError || s.ports[p].assembly.acceptDriven then
    modPort p (fun pt =>
      { pt with
        edge := at', pin := [⟨.abort, at', at' + 2 * bitPeriod pt.rate⟩]
        pulse := some (at' + 2 * bitPeriod pt.rate) }) (countPort p .abortsSent 1 left)
  else left

/-- A talker leaves its own frame on an error detected at a moment: the error is counted, the attempt ends ABORTED, the receiver goes to
FLUSH, and the port drives an abort pulse of 2.0 Tb from that moment (R19, R22, R32). -/
def talkerLeaves (p : SegPort) (c : PortCounter) (at' : Ticks) (s : State) : State :=
  let ended := leaveFrame p (endAttempt p .aborted (countPort p c 1 s))
  countPort p .abortsSent 1 (modPort p (fun pt =>
    { pt with
      rx := .flush, heldFlush := false, edge := at', pin := [⟨.abort, at', at' + 2 * bitPeriod pt.rate⟩]
      pulse := some (at' + 2 * bitPeriod pt.rate) }) ended)

/-- A port's frame was admitted ALL or SOME (R47). -/
def wasAdmitted (pt : Port) : Bool :=
  match pt.assembly.admission with
  | some adm => adm.result == .all || adm.result == .some
  | none => false

/-- The conditions on the fields of a ROUTE_WRITE (R70, R169, R189). -/
abbrev RouteFieldsOk (a : RouteArgs) : Prop :=
  1 ≤ a.ingress.toNat ∧ a.ingress.toNat ≤ 31 ∧ a.destLow.toNat ≤ a.destHigh.toNat ∧ a.destHigh.toNat ≤ 127 ∧
    (a.sourcePresent = 0 ∨ (a.sourcePresent = 1 ∧ a.sourceLow.toNat ≤ a.sourceHigh.toNat ∧ a.sourceHigh.toNat ≤ 119)) ∧
    a.services ≠ 0 ∧
    ((a.action = 0 ∧ 1 ≤ a.egress.toNat ∧ a.egress.toNat ≤ 31) ∨ ((a.action = 1 ∨ a.action = 2) ∧ a.egress = 0)) ∧
    (a.mode = 0 ∨ a.mode = 1) ∧ (a.mirror = 0 ∨ a.mirror = 1) ∧ (a.priority = 255 ∨ a.priority.toNat ≤ 7) ∧
    a.lifetime.toNat ≤ 3

/-- The octets in which the fields of a ROUTE_WRITE are read back: the source octets are 0 when the range is absent (R189). -/
def readBackOctets (a : RouteArgs) : List Octet :=
  [a.ingress, a.destLow, a.destHigh, a.sourcePresent, if a.sourcePresent = 1 then a.sourceLow else 0,
    if a.sourcePresent = 1 then a.sourceHigh else 0, BitVec.ofNat 8 (a.services.toNat / 256), BitVec.ofNat 8 a.services.toNat,
    a.action, a.egress, a.mode, a.mirror, a.priority, a.lifetime]

/-- The conditions on the values of a PORT_WRITE at step 4 of its checks (R171). -/
abbrev PortFieldsOk (a : PortArgs) : Prop :=
  (a.enabled = 0 ∨ a.enabled = 1) ∧ (a.rate = 0 ∨ a.rate = 1) ∧ a.retryLimit.toNat ≤ 7 ∧ 1 ≤ a.queueLimit.toNat ∧
    a.queueLimit.toNat ≤ 64 ∧ a.missAction.toNat ≤ 2 ∧ (a.abortOnError = 0 ∨ a.abortOnError = 1)

/-- The six octets of a port's settings, in the order of 11_formats_on_the_wire.md. -/
def portOctets (pt : Port) : List Octet :=
  [yesNo pt.enabled, pt.rate.code, BitVec.ofNat 8 pt.retryLimit, BitVec.ofNat 8 pt.queueLimit, pt.missAction.code,
    yesNo pt.abortOnError]

/-- A LIFETIME in ms that a GATEWAY_WRITE may carry (R127, R173). -/
abbrev LifetimeFieldOk (v : BitVec 16) : Prop := v = 0 ∨ (10 ≤ v.toNat ∧ v.toNat ≤ 2550 ∧ v.toNat % 10 = 0)

/-- The conditions on the values of a GATEWAY_WRITE (R173). -/
abbrev GatewayFieldsOk (a : GatewayArgs) : Prop :=
  a.noticeSource.toNat ≤ 119 ∧ a.noticePriority.toNat ≤ 7 ∧ LifetimeFieldOk a.lifetime0 ∧ LifetimeFieldOk a.lifetime1 ∧
    LifetimeFieldOk a.lifetime2 ∧ LifetimeFieldOk a.lifetime3 ∧ a.blockThreshold.toNat ≤ 15 ∧ 2 ≤ a.inboundReserve.toNat ∧
    a.inboundReserve.toNat ≤ 16 ∧ a.eventMask.toNat ≤ 255 ∧ 1 ≤ a.suspectHold.toNat ∧ a.suspectHold.toNat ≤ 15

/-- The 15 octets of the gateway settings a GATEWAY_WRITE carries, in their order on the wire. -/
def gatewayOctets (a : GatewayArgs) : List Octet :=
  [a.noticeSource, a.noticePriority] ++ octets2 a.lifetime0.toNat ++ octets2 a.lifetime1.toNat ++
    octets2 a.lifetime2.toNat ++ octets2 a.lifetime3.toNat ++ [a.blockThreshold, a.inboundReserve] ++
    octets2 a.eventMask.toNat ++ [a.suspectHold]

/-- The bit slots in which a talker sends bits: lows of 0.25 Tb for 1 and 0.60 Tb for 0, 1.0 Tb apart, the first `first` hundredths
of a Tb after the edge before it (R3, TYP; R6). -/
def slotsOfBits (rate : Rate) (first : Nat) : List Bool → List BitSlot
  | [] => []
  | b :: bs =>
    ⟨first * bitPeriod rate / 100, (if b then 25 else 60) * bitPeriod rate / 100⟩ :: slotsOfBits rate 100 bs

/-- The state once a port has heard symbols: the port as its receiver then stands, and the clock at the last edge it heard at least
(log 2). -/
def withHeard (p : SegPort) (pt : Port) (s : State) : State :=
  { modPort p (fun _ => pt) s with now := max s.now (max pt.edge pt.lastRise) }

/-- The request that a command of the table offers to the agent, for the rows that are requests. -/
def requestOfCommand? : Instr → Option Request
  | .identify id => some ⟨id, .identify⟩
  | .routeRead id bank index => some ⟨id, .routeRead bank index⟩
  | .routeWrite id index fields => some ⟨id, .routeWrite index fields⟩
  | .routeClear id first last => some ⟨id, .routeClear first last⟩
  | .routeCommit id purge => some ⟨id, .routeCommit purge⟩
  | .nodeRead id address => some ⟨id, .nodeRead address⟩
  | .nodeWrite id address location => some ⟨id, .nodeWrite address location⟩
  | .nodeUnblock id address => some ⟨id, .nodeUnblock address⟩
  | .portRead id port => some ⟨id, .portRead port⟩
  | .portWrite id port settings => some ⟨id, .portWrite port settings⟩
  | .gatewayRead id => some ⟨id, .gatewayRead⟩
  | .gatewayWrite id settings => some ⟨id, .gatewayWrite settings⟩
  | .countersRead id group clear => some ⟨id, .countersRead group clear⟩
  | .trafficReset id => some ⟨id, .reset 1⟩
  | .fullReset id => some ⟨id, .reset 2⟩
  | .hardwareReset | .purgeSweepStep | .resyncComplete | .agentBeginRequest | .falseStart _ _ => none
  | .headerCompletion _ _ _ | .controlCompletion _ _ | .checkCompletion _ _ | .endOfFrame _ _ | .signalError _ _ => none
  | .abortPulse _ | .lineHeld _ | .lineReleased _ _ | .flushComplete _ _ | .attemptBegin _ | .arbitrationLost _ _ => none
  | .overdrive _ _ | .attemptEnd _ _ _ _ | .deadlineExpiry _ | .lockGained _ | .lockLost _ | .freshUp _ => none
  | .enterSuspect _ | .resume _ | .holdTimerExpiry | .trunkFrameReceived _ | .trunkDataRouting | .trunkFrameStart => none
  | .trunkFrameEof | .refreshTimerExpiry | .idleFallingEdge _ _ | .acceptSlotEdge _ | .abortPulseEnd _ => none

/-- The code and the argument octets of a request (11_formats_on_the_wire.md, MANAGEMENT FRAMES); none for a malformed one. -/
def requestOctets : RequestOp → Option (Octet × List Octet)
  | .malformed => none
  | .identify => some (1, [])
  | .routeRead bank index => some (2, [bank, index])
  | .routeWrite index a =>
    some (3, [index, a.ingress, a.destLow, a.destHigh, a.sourcePresent, a.sourceLow, a.sourceHigh] ++
      octets2 a.services.toNat ++ [a.action, a.egress, a.mode, a.mirror, a.priority, a.lifetime])
  | .routeClear first last => some (4, [first, last])
  | .routeCommit purge => some (5, [purge])
  | .nodeRead address => some (6, [address])
  | .nodeWrite address location => some (7, [address, location])
  | .nodeUnblock address => some (8, [address])
  | .portRead port => some (9, [port])
  | .portWrite port a => some (10, [port, a.enabled, a.rate, a.retryLimit, a.queueLimit, a.missAction, a.abortOnError])
  | .gatewayRead => some (11, [])
  | .gatewayWrite a => some (12, gatewayOctets a)
  | .countersRead group clear => some (13, [group, clear])
  | .reset kind => some (14, [kind])

/-- EOF is due after these octets of a frame: kind, sequence, the length octet, as many body octets as it says, and the CRC (R151). -/
abbrev EofDue (os : List Octet) : Prop := os.length = (os.getD 2 0).toNat + 5

/-- A character is a fault of R152 in the frame in reception, whose octets so far are `os`, and the counter its row names. -/
abbrev ReceiveFault (rx : TrunkRx) (os : List Octet) (c : TrunkChar) (counter : TrunkCounter) : Prop :=
  (c = .invalid ∧ rx.invalid + 1 ≠ 4 ∧ counter = .checkErrors) ∨
  ((c = .sof ∨ c = .idleS ∨ c = .idleR) ∧ counter = .formatErrors) ∨
  (∃ o : Octet, c = .data o ∧ ((os.length = 2 ∧ 60 < o.toNat) ∨ EofDue os) ∧ counter = .formatErrors) ∨
  (c = .eof ∧ ¬EofDue os ∧ counter = .formatErrors) ∨
  (c = .cut ∧ counter = .cutFrames) ∨
  (∃ (covered : List Octet) (hi lo : Octet), c = .eof ∧ EofDue os ∧ os = covered ++ [hi, lo] ∧ crc16 covered ≠ word16 hi lo ∧
    counter = .checkErrors) ∨
  (∃ (kind seq len : Octet) (body : List Octet) (hi lo : Octet), c = .eof ∧ EofDue os ∧
    os = kind :: seq :: len :: body ++ [hi, lo] ∧ crc16 (kind :: seq :: len :: body) = word16 hi lo ∧
    receivedOf? kind seq body = none ∧ counter = .formatErrors)

/-- The flags octet of a DATA body: bit 0 custody, bit 1 report, bit 2 direct present (11_formats_on_the_wire.md). -/
def dataFlags (d : DataFrame) : Nat :=
  d.inbound.custody.toNat + 2 * d.inbound.tag.isSome.toNat + 4 * d.inbound.direct.isSome.toNat

/-- The body of a DATA frame from the partner. -/
def dataFrameBody (d : DataFrame) : List Octet :=
  [BitVec.ofNat 8 d.frame.priority.val, BitVec.ofNat 8 d.frame.dest.val, BitVec.ofNat 8 d.frame.source.val,
    BitVec.ofNat 8 d.frame.service.val, BitVec.ofNat 8 (dataFlags d), BitVec.ofNat 8 d.inbound.lifetime.val] ++
    (match d.inbound.direct with
      | some p => [BitVec.ofNat 8 p.val]
      | none => []) ++
    (match d.inbound.tag with
      | some t => octets2 t.toNat
      | none => []) ++
    BitVec.ofNat 8 d.frame.payload.length :: d.frame.payload

end Sys2Proof.Machine
end

