-- ==== Sys2Proof/Certificates/Slice0/Obligations.lean ====
section
/-! DEFINITION. The statements for the provers. -/

open Sys2Proof Sys2Proof.Machine

/-! ### The step -/

/-- A step runs the command at the front of the queue on the state with the queue's rest (95_what_each_step_holds.md: the
table lists "the part's steps, each whole and indivisible"). On an empty queue the clock moves by one tick and nothing else
changes: that clause is the model's choice (log 3). -/
def Obligations.StepRunsFrontCommand : Prop :=
  (∀ (c : Instr) (rest : List Instr) (s : State),
    step { s with pending := c :: rest } = exec c { s with pending := rest }) ∧
  (∀ s : State, s.pending = [] → step s = .next { s with now := s.now + 1 })

/-- No command stops the block: every command answers a next state in every state (R42, R167: what does not apply, or is
refused, leaves the state; log 1). -/
def Obligations.EveryCommandGoesOn : Prop := ∀ (c : Instr) (s : State), Completes (exec c s)

/-- HARDWARE_RESET, from the fall of RESET_N at the clock to its rise 2 µs later or more: no character is on the trunk until the
rise, and an IDLE_S then; every block holds its whole hardware-reset state, assembly buffers, receiver counts, timers and records
among it (R40, R65, R68, R93, R110, R133, R143, R146, R164, R178, R181). That the queue of commands, the clock and the counter of
free choices go on, and that how much longer the low lasts is a free value, is log 21; the idle start, the edges, the next start,
the last change of the idles and the first bank as the active one, for which the spec gives no reset value, are log 16. -/
def Obligations.HardwareResetValues : Prop :=
  ∀ s : State, ∃ t, exec .hardwareReset s = .next t ∧ t.pending = s.pending ∧ s.now + 50 ≤ t.now ∧
    t.freeCount = s.freeCount + 1 ∧
    (∀ at' : Ticks, at' < t.now → trunkOut t.trunk at' = none) ∧ trunkOut t.trunk t.now = some .idleS ∧
    (∀ p : SegPort, t.ports[p] =
      { enabled := false, rate := .standard, retryLimit := 3, queueLimit := 16, missAction := .drop, abortOnError := true
        rx := .off, idleStart := 0, edge := 0, lastRise := 0, heldFlush := false, assembly := {}, tx := .off
        lastTalker := false, pin := [], pulse := none, counters := Vector.replicate 12 0, due := false }) ∧
    (∀ i : RouteIndex, (activeBank t.route)[i] = .cleared ∧ (shadowBank t.route)[i] = .cleared) ∧
    t.route.activeIsB = false ∧ t.route.epoch = 0 ∧ t.route.purgeEpoch = 0 ∧ t.route.commit = .idle ∧
    (∀ i : Fin 120, t.nodes.entries[i] = ⟨.unassigned, 0, false⟩) ∧ t.nodes.threshold = 4 ∧
    (∀ i : SlotId, t.pool.slots[i] = .blank (if i.val < 8 then .unfilled else .free)) ∧
    t.pool.free = (List.finRange 64).drop 8 ∧ (∀ q : PortId, t.pool.queues[q] = .empty) ∧ t.pool.reserveSize = 8 ∧
    t.pool.lifetimes.toList = [100, 500, 2550, 0] ∧
    t.custody = ⟨[], [], 119, 2⟩ ∧
    t.trunk =
      { link := .seek, rx := { lock := false, run := 0, invalid := 0, idleR := 0, idleS := 0, frame := none }, hold := none
        suspectHold := 2, outLimit := 0, sent := 0, nextExpected := 0, advertised := 0, creditPending := false
        refresh := none, response := none, tx := none, cut := none, nextStart := 0, lineStart := t.now, idleChanged := 0
        idleWasR := false, taken := []
        counters := Vector.replicate 10 0 } ∧
    t.agent = { buffers := [], executing := false, dropMark := false } ∧ t.events = { records := [], mask := 0 } ∧
    t.gateway = Vector.replicate 7 0

/-! ### Management -/

/-- In UP a request takes an empty buffer, or finds both full and is an overrun; the agent then begins its oldest request if it
may (R165, R166; that a request row is arrival and beginning in one step is log 5); in any other state of the link it is not
dispatched and changes nothing (R153, R165). The agent may not begin while a request is in execution or the response holder is
full. It answers a malformed request BAD_REQUEST, and every other but a commit with its status and results, its buffer
freed. -/
def Obligations.RequestsQueueAtTheAgent : Prop :=
  (∀ (c : Instr) (r : Request) (s : State), requestOfCommand? c = some r →
    (s.trunk.link = .up → s.agent.buffers.length < 2 →
      exec c s = exec .agentBeginRequest { s with agent := { s.agent with buffers := s.agent.buffers ++ [r] } }) ∧
    (s.trunk.link = .up → 2 ≤ s.agent.buffers.length →
      exec c s = exec .agentBeginRequest (countTrunk .requestOverruns 1 s)) ∧
    (s.trunk.link ≠ .up → exec c s = .next s)) ∧
  (∀ s : State, s.agent.executing = true ∨ s.trunk.response ≠ none ∨ s.agent.buffers = [] →
    exec .agentBeginRequest s = .next s) ∧
  (∀ (id : Octet) (rest : List Request) (s : State), AgentReady s → s.agent.buffers = ⟨id, .malformed⟩ :: rest →
    exec .agentBeginRequest s = .next (respond ⟨id, .badRequest, []⟩ { s with agent := { s.agent with buffers := rest } })) ∧
  (∀ (r : Request) (rest : List Request) (s : State), AgentReady s → s.agent.buffers = r :: rest →
    (∀ purge, r.op ≠ .routeCommit purge) →
    exec .agentBeginRequest s =
      .next (respond ⟨r.id, (runRequest r.op { s with agent := { s.agent with buffers := rest } }).status,
        (runRequest r.op { s with agent := { s.agent with buffers := rest } }).results⟩
        (runRequest r.op { s with agent := { s.agent with buffers := rest } }).state))

/-- IDENTIFY, ROUTE_READ, NODE_READ, PORT_READ, GATEWAY_READ and COUNTERS_READ answer OK with what the state holds, and change
nothing but the response holder; COUNTERS_READ with the clear flag yes sets each counter of its group to 0 in the same step
(R168, R73, R96, R171, R172, R174, R180). -/
def Obligations.ReadRequestsAnswer : Prop :=
  ∀ (id : Octet) (s : State), AgentFree s →
    (∀ clear : Octet, clear = 0 ∨ clear = 1 →
      (∀ p : SegPort,
        exec (.countersRead id (BitVec.ofNat 8 p.val) clear) s =
          .next (respond ⟨id, .ok, s.ports[p].counters.toList.flatMap octets4⟩
            (if clear = 1 then modPort p (fun pt => { pt with counters := Vector.replicate 12 0 }) s else s))) ∧
      exec (.countersRead id 4 clear) s =
        .next (respond ⟨id, .ok, s.trunk.counters.toList.flatMap octets4⟩
          (if clear = 1 then { s with trunk := { s.trunk with counters := Vector.replicate 10 0 } } else s)) ∧
      exec (.countersRead id 5 clear) s =
        .next (respond ⟨id, .ok, s.gateway.toList.flatMap octets4⟩
          (if clear = 1 then { s with gateway := Vector.replicate 7 0 } else s))) ∧
    exec (.identify id) s =
      .next (respond ⟨id, .ok, [1, 154, 2, 64, 64] ++ octets4 s.route.epoch ++ [s.trunk.link.code]⟩ s) ∧
    (∀ (index : Octet) (h : index.toNat < 64),
      exec (.routeRead id 0 index) s =
        .next (respond ⟨id, .ok, [yesNo (activeBank s.route)[index.toNat].valid] ++
          entryOctets (activeBank s.route)[index.toNat] ++ octets4 (activeBank s.route)[index.toNat].hits⟩ s) ∧
      exec (.routeRead id 1 index) s =
        .next (respond ⟨id, .ok, [yesNo (shadowBank s.route)[index.toNat].valid] ++
          entryOctets (shadowBank s.route)[index.toNat] ++ [0, 0, 0, 0]⟩ s)) ∧
    (∀ (address : Octet) (h : address.toNat < 120),
      exec (.nodeRead id address) s =
        .next (respond ⟨id, .ok, [s.nodes.entries[address.toNat].location.code,
          BitVec.ofNat 8 s.nodes.entries[address.toNat].failures, yesNo s.nodes.entries[address.toNat].blocked]⟩ s)) ∧
    (∀ p : SegPort,
      exec (.portRead id (BitVec.ofNat 8 p.val)) s =
        .next (respond ⟨id, .ok, portOctets s.ports[p] ++ [lineStatus s.ports[p].rx]⟩ s)) ∧
    exec (.gatewayRead id) s =
      .next (respond ⟨id, .ok, [BitVec.ofNat 8 s.custody.noticeSource.val, BitVec.ofNat 8 s.custody.noticePriority.val] ++
        octets2 s.pool.lifetimes[0] ++ octets2 s.pool.lifetimes[1] ++ octets2 s.pool.lifetimes[2] ++
        octets2 s.pool.lifetimes[3] ++ [BitVec.ofNat 8 s.nodes.threshold, BitVec.ofNat 8 s.pool.reserveSize] ++
        octets2 s.events.mask.toNat ++ [BitVec.ofNat 8 s.trunk.suspectHold]⟩ s)

/-- ROUTE_WRITE replaces one shadow entry by a valid one that reads back the octets written, with hit count 0, and changes
nothing else; with fields that break a condition of R70 or name no value it is refused BAD_ARGUMENT and changes nothing.
ROUTE_CLEAR puts every shadow entry of its range into cleared form and leaves the others and the active bank; with a first
greater than last or an index out of range it is refused BAD_ARGUMENT and changes nothing (R70 to R72, R169, R189). -/
def Obligations.ShadowBankIsEdited : Prop :=
  (∀ (id index : Octet) (a : RouteArgs) (s : State), AgentFree s →
    (∀ h : index.toNat < 64, RouteFieldsOk a →
      ∃ e : RouteEntry, e.valid = true ∧ e.hits = 0 ∧ entryOctets e = readBackOctets a ∧
        exec (.routeWrite id index a) s =
          .next (respond ⟨id, .ok, []⟩ { s with route := setShadow ((shadowBank s.route).set index.toNat e) s.route })) ∧
    (64 ≤ index.toNat ∨ ¬RouteFieldsOk a →
      exec (.routeWrite id index a) s = .next (respond ⟨id, .badArgument, []⟩ s))) ∧
  (∀ (id first last : Octet) (s : State), AgentFree s →
    (first.toNat ≤ last.toNat → last.toNat < 64 →
      ∃ b : Vector RouteEntry 64,
        (∀ i : RouteIndex,
          b[i] = if first.toNat ≤ i.val ∧ i.val ≤ last.toNat then .cleared else (shadowBank s.route)[i]) ∧
        exec (.routeClear id first last) s = .next (respond ⟨id, .ok, []⟩ { s with route := setShadow b s.route })) ∧
    (last.toNat < first.toNat ∨ 64 ≤ last.toNat ∨ 64 ≤ first.toNat →
      exec (.routeClear id first last) s = .next (respond ⟨id, .badArgument, []⟩ s)))

/-- ROUTE_COMMIT, as a row in UP or begun from the buffers in any state of the link, when the epoch is below its maximum: the banks
exchange roles, the new active bank's hit counts are 0, the epoch advances by one and, with purge, the purge epoch is raised to it and
the purge sweep has every lane to examine; the commit runs, and the request stays in execution, buffered before any that waits. With
purge every ARMED transmitter selects again in the same step; without, where no selection is due, only the route list and the agent
change. At the maximum epoch it is answered NOT_NOW whatever its flag; another flag is refused BAD_ARGUMENT; a waiting request
stays (R54, R56, R87, R88, R166, R169; the order of the lanes is log 12, that selections run at the end of the step log 10). -/
def Obligations.RouteCommitSwaps : Prop :=
  ∀ (c : Instr) (id purge : Octet) (rest : List Request) (s : State),
    Requested c (.routeCommit id purge) ⟨id, .routeCommit purge⟩ rest s →
    (s.route.epoch < epochMax → purge = 0 ∨ purge = 1 →
      ∃ t, exec c s = .next t ∧
        (∀ i : RouteIndex, (activeBank t.route)[i] = { (shadowBank s.route)[i] with hits := 0 } ∧
          (shadowBank t.route)[i] = { (activeBank s.route)[i] with hits := 0 }) ∧
        t.route.activeIsB = !s.route.activeIsB ∧
        t.route.epoch = s.route.epoch + 1 ∧
        t.route.purgeEpoch = (if purge = 1 then s.route.epoch + 1 else s.route.purgeEpoch) ∧
        t.route.commit = .running (if purge = 1 then sweepOrder else []) true ∧
        t.agent = { s.agent with buffers := ⟨id, .routeCommit purge⟩ :: rest, executing := true } ∧
        Kept { s with route := t.route, agent := t.agent } t ∧
        t = settle { s with
          route := t.route, agent := t.agent
          ports := if purge = 1 then modAll s.ports (fun pt => if pt.tx.isArmed then { pt with due := true } else pt)
            else s.ports } ∧
        (purge = 0 → (∀ p : SegPort, s.ports[p].due = false) → t = { s with route := t.route, agent := t.agent })) ∧
    (epochMax ≤ s.route.epoch →
      exec c s = .next (respond ⟨id, .notNow, []⟩ { s with agent := { s.agent with buffers := rest } })) ∧
    (s.route.epoch < epochMax → purge ≠ 0 → purge ≠ 1 →
      exec c s = .next (respond ⟨id, .badArgument, []⟩ { s with agent := { s.agent with buffers := rest } }))

/-- PURGE_SWEEP_STEP examines the next lane of the purge sweep: the lane keeps exactly its references whose epoch is not stale, in
order, each stale one is removed PURGED, and a stale reference in the attempt holder of that queue's segment port is marked unless
it is marked already; no other lane, holder or pending reference changes. The sweep completes when every lane of the five queues has
been examined, once each, and the commit then completes, that last lane swept as the others, if the resync has: IDLE, and the
request in execution answered OK with the epoch (R67, R89 to R91, R126, R129, R166). One lane to a command, and the order of the
lanes, are log 12, and that the command changes nothing when no lane is left is log 1. -/
def Obligations.PurgeSweepRemovesStale : Prop :=
  (∀ (s : State) (q : PortId) (lane : Priority) (rest : List (PortId × Priority)) (resync : Bool),
    s.route.commit = .running ((q, lane) :: rest) resync →
    (rest ≠ [] ∨ resync = true →
      exec .purgeSweepStep s =
        .next (settle (modRoute (fun r => { r with commit := .running rest resync }) (purgeSweepLane q lane s)))) ∧
    (∀ (r : Request) (waiting : List Request) (swept : State), rest = [] → resync = false → s.agent.executing = true →
      s.agent.buffers = r :: waiting → swept = purgeSweepLane q lane s →
      exec .purgeSweepStep s = .next (settle { swept with
        route := { s.route with commit := .idle }
        agent := ⟨waiting, false, false⟩
        trunk := { swept.trunk with
          response := if s.agent.dropMark then s.trunk.response else some ⟨r.id, .ok, octets4 s.route.epoch⟩ } }))) ∧
  (∀ (s : State), (∀ q lane rest resync, s.route.commit ≠ .running ((q, lane) :: rest) resync) →
    exec .purgeSweepStep s = .next s) ∧
  (sweepOrder.Nodup ∧ ∀ (q : PortId) (lane : Priority), (q, lane) ∈ sweepOrder) ∧
  (∀ (s swept : State) (q : PortId) (lane : Priority), swept = purgeSweepLane q lane s →
    swept.pool.queues[q].lanes[lane] =
      s.pool.queues[q].lanes[lane].filter (fun r => decide (s.route.purgeEpoch ≤ (slotOf r s).epoch)) ∧
    (∀ other : Priority, other ≠ lane → swept.pool.queues[q].lanes[other] = s.pool.queues[q].lanes[other]) ∧
    swept.pool.queues[q].pending = s.pool.queues[q].pending ∧
    swept.pool.queues[q].holder = s.pool.queues[q].holder.map (fun r =>
      if q ≠ trunkPort ∧ (slotOf r s).epoch < s.route.purgeEpoch ∧ r.mark = none then { r with mark := some .purged } else r) ∧
    (∀ other : PortId, other ≠ q → swept.pool.queues[other] = s.pool.queues[other]) ∧ Kept s swept ∧
    swept = dueIfGone q ((s.pool.queues[q].lanes[lane].filter fun r => decide ((slotOf r s).epoch < s.route.purgeEpoch)).foldl
      (fun t r => discardRef q r .purged t) { s with pool := { s.pool with queues := swept.pool.queues } }))

/-- RESYNC_COMPLETE copies the active bank into the shadow bank with hit counts 0; with lanes left to the purge sweep nothing else
changes; else the commit is IDLE, and the request in execution is answered OK with the epoch and its buffer freed, the answer
not handed over when the drop mark is set (R90, R150, R166). -/
def Obligations.ResyncCompletesCommit : Prop :=
  ∀ (s : State) (lanes : List (PortId × Priority)), s.route.commit = .running lanes true →
    ∃ t, exec .resyncComplete s = .next t ∧
      activeBank t.route = activeBank s.route ∧
      (∀ i : RouteIndex, (shadowBank t.route)[i] = { (activeBank s.route)[i] with hits := 0 }) ∧
      t.route.epoch = s.route.epoch ∧ t.route.purgeEpoch = s.route.purgeEpoch ∧
      (lanes ≠ [] → t = { s with route := t.route } ∧ t.route.commit = .running lanes false) ∧
      (∀ (r : Request) (rest : List Request), lanes = [] → s.agent.executing = true → s.agent.buffers = r :: rest →
        t.route.commit = .idle ∧
        t = { s with
          route := t.route
          agent := ⟨rest, false, false⟩
          trunk := { s.trunk with
            response := if s.agent.dropMark then s.trunk.response else some ⟨r.id, .ok, octets4 s.route.epoch⟩ } })

/-- NODE_WRITE gives an entry its location with failures 0 and OPEN; NODE_UNBLOCK sets failures 0 and OPEN and keeps the
location; nothing else changes (R94, R96). -/
def Obligations.NodeRequestsWrite : Prop :=
  ∀ (id address : Octet) (h : address.toNat < 120) (s : State), AgentFree s →
    (∀ l : Location,
      exec (.nodeWrite id address l.code) s =
        .next (respond ⟨id, .ok, []⟩ (modNode ⟨address.toNat, h⟩ (fun _ => ⟨l, 0, false⟩) s))) ∧
    exec (.nodeUnblock id address) s =
      .next (respond ⟨id, .ok, []⟩ (modNode ⟨address.toNat, h⟩ (fun e => ⟨e.location, 0, false⟩) s))

/-- A request whose object or code is out of range is refused BAD_ARGUMENT and changes nothing (R73, R94, R96, R167, R169 to
R171, R174). -/
def Obligations.ArgumentsOutOfRangeRefused : Prop :=
  ∀ (id a b : Octet) (s : State), AgentFree s →
    (2 ≤ a.toNat ∨ 64 ≤ b.toNat → exec (.routeRead id a b) s = .next (respond ⟨id, .badArgument, []⟩ s)) ∧
    (120 ≤ a.toNat → exec (.nodeRead id a) s = .next (respond ⟨id, .badArgument, []⟩ s) ∧
      exec (.nodeUnblock id a) s = .next (respond ⟨id, .badArgument, []⟩ s)) ∧
    (120 ≤ a.toNat ∨ (4 < b.toNat ∧ b.toNat ≠ 7) →
      exec (.nodeWrite id a b) s = .next (respond ⟨id, .badArgument, []⟩ s)) ∧
    (4 ≤ a.toNat → exec (.portRead id a) s = .next (respond ⟨id, .badArgument, []⟩ s)) ∧
    (6 ≤ a.toNat ∨ 2 ≤ b.toNat → exec (.countersRead id a b) s = .next (respond ⟨id, .badArgument, []⟩ s))

/-- PORT_WRITE, when it does not disable an enabled port: the settings take the values written and, when the port was
disabled and ENABLED is yes, the receiver enters FLUSH, the transmitter IDLE and the last-talker flag is cleared; nothing
else changes. An enabled port refuses a changed RATE or QUEUE_LIMIT with NOT_NOW; values out of range are refused
BAD_ARGUMENT (R40, R64, R171; the idle start at enabling is R9's). -/
def Obligations.PortWriteSettings : Prop :=
  ∀ (id : Octet) (p : SegPort) (a : PortArgs) (s : State), AgentFree s →
    (PortFieldsOk a → (s.ports[p].enabled = true → a.enabled = 1 ∧ a.rate = s.ports[p].rate.code ∧
        a.queueLimit.toNat = s.ports[p].queueLimit) →
      ∃ (rate : Rate) (miss : MissAction), rate.code = a.rate ∧ miss.code = a.missAction ∧
        exec (.portWrite id (BitVec.ofNat 8 p.val) a) s =
          .next (respond ⟨id, .ok, []⟩ (modPort p (fun pt => { pt with
            rate := rate, retryLimit := a.retryLimit.toNat, queueLimit := a.queueLimit.toNat, missAction := miss
            abortOnError := a.abortOnError == 1
            enabled := a.enabled == 1
            rx := if pt.enabled = false ∧ a.enabled = 1 then .flush else pt.rx
            tx := if pt.enabled = false ∧ a.enabled = 1 then .idle else pt.tx
            lastTalker := if pt.enabled = false ∧ a.enabled = 1 then false else pt.lastTalker
            idleStart := if pt.enabled = false ∧ a.enabled = 1 then s.now else pt.idleStart
            edge := if pt.enabled = false ∧ a.enabled = 1 then s.now else pt.edge
            lastRise := if pt.enabled = false ∧ a.enabled = 1 then s.now else pt.lastRise
            heldFlush := if pt.enabled = false ∧ a.enabled = 1 then false else pt.heldFlush }) s))) ∧
    (s.ports[p].enabled = true →
      (a.rate.toNat ≤ 1 ∧ a.rate ≠ s.ports[p].rate.code) ∨
        (1 ≤ a.queueLimit.toNat ∧ a.queueLimit.toNat ≤ 64 ∧ a.queueLimit.toNat ≠ s.ports[p].queueLimit) →
      exec (.portWrite id (BitVec.ofNat 8 p.val) a) s = .next (respond ⟨id, .notNow, []⟩ s)) ∧
    (¬(s.ports[p].enabled = true ∧
        ((a.rate.toNat ≤ 1 ∧ a.rate ≠ s.ports[p].rate.code) ∨
          (1 ≤ a.queueLimit.toNat ∧ a.queueLimit.toNat ≤ 64 ∧ a.queueLimit.toNat ≠ s.ports[p].queueLimit))) →
      ¬PortFieldsOk a →
      exec (.portWrite id (BitVec.ofNat 8 p.val) a) s = .next (respond ⟨id, .badArgument, []⟩ s)) ∧
    (∀ port : Octet, 4 ≤ port.toNat → exec (.portWrite id port a) s = .next (respond ⟨id, .badArgument, []⟩ s))

/-- A PORT_WRITE that sets ENABLED from yes to no leaves the port OFF and driving nothing: the reference in its attempt holder is
removed PORT_DISABLED, an admission not yet confirmed withdrawn, every reference of its lanes removed PORT_DISABLED in lane order,
each with its end record, its pending references marked port-disabled unless they are marked, and its notices discarded; DISCARDED
advances once for each reference removed. The other ports keep all but their transmitter and counters, and the rest of the device
keeps what no removal of references changes (R48, R60, R63, R67, R126, R130, R171). -/
def Obligations.PortDisableEmptiesQueue : Prop :=
  ∀ (id : Octet) (p : SegPort) (a : PortArgs) (s : State), AgentFree s → PortFieldsOk a → a.enabled = 0 →
    s.ports[p].enabled = true → a.rate = s.ports[p].rate.code → a.queueLimit.toNat = s.ports[p].queueLimit →
    ∃ t, exec (.portWrite id (BitVec.ofNat 8 p.val) a) s = .next t ∧
      t.trunk.response = some ⟨id, .ok, []⟩ ∧
      t.ports[p].enabled = false ∧ t.ports[p].rx = .off ∧ t.ports[p].tx = .off ∧ t.ports[p].pin = [] ∧
      t.ports[p].pulse = none ∧ t.ports[p].assembly = {} ∧ t.ports[p].retryLimit = a.retryLimit.toNat ∧
      t.pool.queues[p.port].holder = none ∧ (∀ lane : Priority, t.pool.queues[p.port].lanes[lane] = []) ∧
      (∀ r ∈ t.pool.queues[p.port].pending, r.mark ≠ none) ∧ (∀ n ∈ t.custody.notices, n.port ≠ p) ∧
      (∀ q : SegPort, q ≠ p → t.ports[q] =
        { s.ports[q] with tx := t.ports[q].tx, counters := t.ports[q].counters, due := t.ports[q].due }) ∧
      Kept { s with ports := t.ports, trunk := { s.trunk with response := some ⟨id, .ok, []⟩ } } t ∧
      (s.ports[p].counters[PortCounter.discarded.index] ≤ 4294967295 →
        t.ports[p].counters[PortCounter.discarded.index] =
          min (s.ports[p].counters[PortCounter.discarded.index] + queueLength s.pool.queues[p.port]) 4294967295) ∧
      (∀ (miss : MissAction) (off cut left flushed : State), miss.code = a.missAction →
        off = modQueue p.port (fun Q => { Q with
            holder := none
            pending := Q.pending.map fun r => if r.mark = none then { r with mark := some .portDisabled } else r })
          (modPort p (fun pt => { pt with
            enabled := false, retryLimit := a.retryLimit.toNat, missAction := miss, abortOnError := a.abortOnError == 1
            tx := .off, pin := [], pulse := none }) s) →
        cut = (match s.pool.queues[p.port].holder with
          | some r => discardRef p.port r .portDisabled off
          | none => off) →
        left = modQueue p.port (fun Q => { Q with lanes := Vector.replicate 8 [] })
          (modPort p (fun pt => { pt with rx := .off, assembly := {} }) (withdraw p cut)) →
        flushed = (laneRefs s.pool.queues[p.port]).foldl (fun u r => discardRef p.port r .portDisabled u) left →
        t = respond ⟨id, .ok, []⟩ (settle { flushed with
          custody := { flushed.custody with notices := flushed.custody.notices.filter fun n => n.port != p } }))

/-- GATEWAY_WRITE writes every setting in one step. With INBOUND_RESERVE unchanged nothing else changes; raised it refills the
reserve from the head of the free list as far as that goes; lowered in UP or SUSPECT it keeps every frame slot; lowered in SEEK or
TRAIN it trims the reserve: as many unfilled slots as it has over the new size, or all if there are fewer, become FREE and join the
tail of the free list one after another (which ones is left open, log 9). A value out of range is refused BAD_ARGUMENT and no setting
changes. A request waiting in the other buffer stays (R111, R114, R157, R166, R172, R173). -/
def Obligations.GatewayWriteSettings : Prop :=
  ∀ (c : Instr) (id : Octet) (a : GatewayArgs) (rest : List Request) (s : State),
    Requested c (.gatewayWrite id a) ⟨id, .gatewayWrite a⟩ rest s →
    (GatewayFieldsOk a → ∃ t, exec c s = .next t ∧
      t.custody.noticeSource.val = a.noticeSource.toNat ∧ t.custody.noticePriority.val = a.noticePriority.toNat ∧
      t.pool.lifetimes.toList = [a.lifetime0.toNat, a.lifetime1.toNat, a.lifetime2.toNat, a.lifetime3.toNat] ∧
      t.nodes.threshold = a.blockThreshold.toNat ∧ t.pool.reserveSize = a.inboundReserve.toNat ∧
      t.events.mask.toNat = a.eventMask.toNat ∧
      t.ports = s.ports ∧ t.route = s.route ∧ t.nodes.entries = s.nodes.entries ∧ t.pool.queues = s.pool.queues ∧
      t.custody.notices = s.custody.notices ∧ t.custody.reports = s.custody.reports ∧
      t.agent = { s.agent with buffers := rest } ∧
      t.events.records = s.events.records ∧ t.gateway = s.gateway ∧ t.now = s.now ∧ t.pending = s.pending ∧
      t.trunk = { s.trunk with
        suspectHold := a.suspectHold.toNat, response := some ⟨id, .ok, []⟩, creditPending := t.trunk.creditPending } ∧
      (a.inboundReserve.toNat = s.pool.reserveSize ∨
        (a.inboundReserve.toNat < s.pool.reserveSize ∧ (s.trunk.link = .up ∨ s.trunk.link = .suspect)) →
        t.pool.slots = s.pool.slots ∧ t.pool.free = s.pool.free ∧ t.freeCount = s.freeCount ∧
          t.trunk.creditPending = s.trunk.creditPending) ∧
      (∀ n : Nat, s.pool.reserveSize < a.inboundReserve.toNat →
        n = min (a.inboundReserve.toNat - reservedCount s) s.pool.free.length →
        t.pool.free = s.pool.free.drop n ∧ t.freeCount = s.freeCount ∧
          (∀ i : SlotId, t.pool.slots[i] = if i ∈ s.pool.free.take n then .blank .unfilled else s.pool.slots[i]) ∧
          t.trunk.creditPending = (s.trunk.creditPending || (n != 0 && s.trunk.link == .up))) ∧
      (a.inboundReserve.toNat < s.pool.reserveSize → s.trunk.link = .seek ∨ s.trunk.link = .train →
        (reservedCount t ≤ a.inboundReserve.toNat ∨ unfilledCount t = 0) ∧
        ∃ gone : List SlotId, gone.length = min (reservedCount s - a.inboundReserve.toNat) (unfilledCount s) ∧ gone.Nodup ∧
          (∀ i ∈ gone, s.pool.slots[i].status = .unfilled) ∧ t.pool.free = s.pool.free ++ gone ∧
          (∀ i : SlotId, t.pool.slots[i] = if i ∈ gone then .blank .free else s.pool.slots[i]) ∧
          t.freeCount = s.freeCount + gone.length ∧ t.trunk.creditPending = s.trunk.creditPending)) ∧
    (¬GatewayFieldsOk a →
      exec c s = .next (respond ⟨id, .badArgument, []⟩ { s with agent := { s.agent with buffers := rest } }))

/-- TRAFFIC_RESET: each enabled port's receiver not in HELD goes to FLUSH, its transmitter to IDLE, its line released and its
assembly buffer empty; each port counts its removed references DISCARDED; every queue is empty; every frame slot is FREE but the
unfilled reserved ones in UP and SUSPECT, the freed ones join the free list in ascending order, and the reserve is then refilled
from its head; both custody lists and the taken frames are gone; a DATA, TRAP or REPORT frame in transmission is ended with CUT in
place of its next character and counted in CUT_FRAMES, one idle character at least before the next frame, any other goes on; every
setting, the route list, the node map, the event list, the link state and a request waiting in the other buffer stay (R65, R111,
R130, R143, R157, R163, R164, R176; a frame cut during its EOF or on a character boundary is log 29). -/
def Obligations.TrafficResetClearsTraffic : Prop :=
  ∀ (c : Instr) (id : Octet) (rest : List Request) (s : State), Requested c (.trafficReset id) ⟨id, .reset 1⟩ rest s →
    ∃ t, exec c s = .next t ∧
      (∀ p : SegPort, s.ports[p].enabled = true → t.ports[p] = { s.ports[p] with
        rx := if s.ports[p].rx = .held then .held else .flush
        heldFlush := false, assembly := {}, tx := .idle, pin := [], pulse := none, due := false
        counters := modAt s.ports[p].counters PortCounter.discarded.index
          (saturate · (queueLength s.pool.queues[p.port])) }) ∧
      (∀ p : SegPort, s.ports[p].enabled = false → t.ports[p] = { s.ports[p] with
        due := false
        counters := modAt s.ports[p].counters PortCounter.discarded.index
          (saturate · (queueLength s.pool.queues[p.port])) }) ∧
      PoolFlushed s.pool.reserveSize s t ∧ (∀ q : PortId, t.pool.queues[q] = .empty) ∧
      (∀ i : SlotId, t.pool.slots[i].status = .free ∨ t.pool.slots[i].status = .unfilled) ∧
      (∀ i : SlotId, s.trunk.link = .up ∨ s.trunk.link = .suspect → s.pool.slots[i].status = .unfilled →
        t.pool.slots[i].status = .unfilled) ∧
      t.pool.reserveSize = s.pool.reserveSize ∧ t.pool.lifetimes = s.pool.lifetimes ∧
      t.custody = { s.custody with notices := [], reports := [] } ∧
      t.trunk = { s.trunk with
        response := some ⟨id, .ok, []⟩, taken := [], tx := t.trunk.tx, cut := t.trunk.cut, nextStart := t.trunk.nextStart
        creditPending := t.trunk.creditPending, counters := t.trunk.counters } ∧
      (s.trunk.creditPending = true → t.trunk.creditPending = true) ∧
      (s.trunk.tx = none → t.trunk.tx = none ∧ t.trunk.cut = s.trunk.cut ∧ t.trunk.nextStart = s.trunk.nextStart ∧
        t.trunk.counters = s.trunk.counters) ∧
      (∀ (f : TxFrame) (cutAt : Ticks), s.trunk.tx = some f →
        cutAt = f.startedAt + ((s.now - f.startedAt) / characterTime + 1) * characterTime →
        (f.kind = .data ∨ f.kind = .trap ∨ f.kind = .report → t.trunk.tx = none ∧ t.trunk.cut = some ⟨f, cutAt⟩ ∧
          t.trunk.nextStart = cutAt + 2 * characterTime ∧
          t.trunk.counters = modAt s.trunk.counters TrunkCounter.cutFrames.index (saturate · 1)) ∧
        (f.kind = .credit ∨ f.kind = .mgmtRsp ∨ f.kind = .event → t.trunk.tx = some f ∧ t.trunk.cut = s.trunk.cut ∧
          t.trunk.nextStart = s.trunk.nextStart ∧ t.trunk.counters = s.trunk.counters)) ∧
      t.route = s.route ∧ t.nodes = s.nodes ∧ t.agent = { s.agent with buffers := rest } ∧ t.events = s.events ∧
      t.gateway = s.gateway ∧ t.now = s.now ∧ t.freeCount = s.freeCount ∧ t.pending = s.pending

/-- FULL_RESET: every block takes its hardware-reset value; kept are the link state, lock, the credit and sequence counts and the
timers, a CREDIT in transmission, and the unfilled slots in UP and SUSPECT, the other slots freed to the free list in ascending
order and the reserve of 8 refilled from its head where the kept ones fall short of it; a DATA, TRAP, REPORT or EVENT frame in
transmission is ended with CUT in place of its next character; a request waiting in the other buffer is discarded (R111, R114, R130,
R143, R146, R157, R163, R164, R177; a frame cut during its EOF or on a character boundary is log 29). -/
def Obligations.FullResetKeepsLink : Prop :=
  ∀ (c : Instr) (id : Octet) (rest : List Request) (s : State), Requested c (.fullReset id) ⟨id, .reset 2⟩ rest s →
    ∃ t, exec c s = .next t ∧
      t.ports = State.reset.ports ∧ t.route = State.reset.route ∧ t.nodes = State.reset.nodes ∧
      t.custody = State.reset.custody ∧ t.events = State.reset.events ∧ t.gateway = State.reset.gateway ∧
      t.agent = ⟨[], false, false⟩ ∧ PoolFlushed 8 s t ∧ t.freeCount = s.freeCount ∧
      (∀ q : PortId, t.pool.queues[q] = .empty) ∧ t.pool.reserveSize = 8 ∧
      t.pool.lifetimes.toList = [100, 500, 2550, 0] ∧
      (∀ i : SlotId, t.pool.slots[i].status = .free ∨ t.pool.slots[i].status = .unfilled) ∧
      (∀ i : SlotId, s.trunk.link = .up ∨ s.trunk.link = .suspect → s.pool.slots[i].status = .unfilled →
        t.pool.slots[i].status = .unfilled) ∧
      t.trunk = { s.trunk with
        response := some ⟨id, .ok, []⟩, taken := [], suspectHold := 2, counters := Vector.replicate 10 0
        tx := t.trunk.tx, cut := t.trunk.cut, nextStart := t.trunk.nextStart, creditPending := t.trunk.creditPending } ∧
      (s.trunk.creditPending = true → t.trunk.creditPending = true) ∧
      (s.trunk.tx = none → t.trunk.tx = none ∧ t.trunk.cut = s.trunk.cut ∧ t.trunk.nextStart = s.trunk.nextStart) ∧
      (∀ (f : TxFrame) (cutAt : Ticks), s.trunk.tx = some f →
        cutAt = f.startedAt + ((s.now - f.startedAt) / characterTime + 1) * characterTime →
        (f.kind = .credit ∨ f.kind = .mgmtRsp → t.trunk.tx = some f ∧ t.trunk.cut = s.trunk.cut ∧
          t.trunk.nextStart = s.trunk.nextStart) ∧
        (f.kind = .data ∨ f.kind = .trap ∨ f.kind = .report ∨ f.kind = .event → t.trunk.tx = none ∧
          t.trunk.cut = some ⟨f, cutAt⟩ ∧ t.trunk.nextStart = cutAt + 2 * characterTime)) ∧
      t.now = s.now ∧ t.pending = s.pending

/-! ### Bits on a segment line -/

/-- The classes of a low inside a frame at STANDARD rate, in ticks of 40 ns, and the same classes at SLOW rate for lows four
times as long; and what a low at idle is: a lead-in, or a false start (R2, R4, R5). -/
def Obligations.LowsAreClassified : Prop :=
  ∀ t : Ticks,
    (classifyLow .standard t = .notSeen ↔ t < 125) ∧
    (classifyLow .standard t = .bit1 ↔ 375 ≤ t ∧ t ≤ 1000) ∧
    (classifyLow .standard t = .bit0 ↔ 1200 ≤ t ∧ t ≤ 1875) ∧
    (classifyLow .standard t = .shapeError ↔
      (125 ≤ t ∧ t < 375) ∨ (1000 < t ∧ t < 1200) ∨ (1875 < t ∧ t ≤ 4000)) ∧
    (classifyLow .standard t = .abortPulse ↔ 4000 < t ∧ t ≤ 12500) ∧
    (classifyLow .standard t = .lineHeld ↔ 12500 < t) ∧
    classifyLow .slow (4 * t) = classifyLow .standard t ∧
    (isLeadIn .standard t = true ↔ 6500 ≤ t ∧ t ≤ 8500) ∧
    (isFalseStart .standard t = true ↔ (125 ≤ t ∧ t < 6500) ∨ (8500 < t ∧ t ≤ 12500)) ∧
    isLeadIn .slow (4 * t) = isLeadIn .standard t ∧ isFalseStart .slow (4 * t) = isFalseStart .standard t

/-- What a talker sends is what a receiver reads. A lead-in of 3.0 Tb and up to 17 bits with lows of 0.25 Tb for 1 and 0.60 Tb for 0,
the first 4.0 Tb after the lead-in's edge and the others 1.0 Tb apart, take a receiver from LEADIN through GAP to BITS with
those bits read; so do further bits in BITS, up to the next completion. A lead-in is accepted from 2.6 to 3.4 Tb, the first
bit's edge from 3.8 to 4.4 Tb, a later one from 0.9 to 1.3 Tb, a bit's low from 0.15 to 0.40 and from 0.48 to 0.75 Tb. A
talker drives its bit from the edge of each bit slot 1 to 33 + 8n, its own 1.0 Tb after the last or an earlier one that it joins, for
0.25 or 0.60 Tb, and is due to drive the next 1.0 Tb later, after the last check bit the accept slot with a 1; a listener drives
nothing there, and no rising edge changes what a port drives. The fields of header, control and payload are those of the frame. A
talker hears the bits that it sends: in a header, control, payload or check bit it takes no 0 for a 1, since its sample 0.44 Tb after
the edge has then ended its attempt. A low under 0.05 Tb between the lows of a frame is passed over: what follows is heard as if it
had not come (R3 to R8, R14, R15, R24, R42, R58; that a low of 0.44 Tb samples high is log 32). -/
def Obligations.SegmentFieldsRoundTrip : Prop :=
  (∀ (pt : Port) (b : Bool) (bits : List Bool), pt.rx = .leadIn → pt.assembly = {} → bits.length < 17 →
    (∀ a : Attempt, attemptOf pt = some a → b :: bits <+: sentBits a.frame) →
    ∃ q : Port, hearSymbols ⟨some (3 * bitPeriod pt.rate), slotsOfBits pt.rate 400 (b :: bits), none⟩ pt = some q ∧
      q = { pt with
        rx := .bits, edge := pt.edge + (4 + bits.length) * bitPeriod pt.rate, lastRise := q.lastRise, pin := q.pin
        assembly := { pt.assembly with bits := b :: bits } }) ∧
  (∀ (pt : Port) (bits : List Bool), pt.rx = .bits → pt.assembly.inSlot = false →
    pt.assembly.bits.length + bits.length ≤ completionAt pt.assembly →
    (∀ a : Attempt, attemptOf pt = some a → bits <+: (sentBits a.frame).drop pt.assembly.bits.length) →
    ∃ q : Port, hearSymbols ⟨none, slotsOfBits pt.rate 100 bits, none⟩ pt = some q ∧
      q = { pt with
        edge := pt.edge + bits.length * bitPeriod pt.rate, lastRise := q.lastRise, pin := q.pin
        assembly := { pt.assembly with bits := pt.assembly.bits ++ bits } }) ∧
  (∀ (pt : Port) (t : Ticks),
    (pt.rx = .leadIn →
      ((hearLow t pt).isSome = true ↔ 260 * bitPeriod pt.rate ≤ 100 * t ∧ 100 * t ≤ 340 * bitPeriod pt.rate)) ∧
    (pt.rx = .gap → pt.assembly = {} → isTalker pt = false →
      ((hearEdge t pt).isSome = true ↔ 380 * bitPeriod pt.rate ≤ 100 * t ∧ 100 * t ≤ 440 * bitPeriod pt.rate)) ∧
    (pt.rx = .bits → pt.assembly.inSlot = false → pt.assembly.bits.length < completionAt pt.assembly →
      isTalker pt = false →
      ((hearEdge t pt).isSome = true ↔ 90 * bitPeriod pt.rate ≤ 100 * t ∧ 100 * t ≤ 130 * bitPeriod pt.rate)) ∧
    ((pt.rx = .bits ∧ isTalker pt = false) ∨ pt.rx = .slots → pt.assembly.inSlot = true →
      ((hearLow t pt).isSome = true ↔
        (15 * bitPeriod pt.rate ≤ 100 * t ∧ 100 * t ≤ 40 * bitPeriod pt.rate) ∨
        (48 * bitPeriod pt.rate ≤ 100 * t ∧ 100 * t ≤ 75 * bitPeriod pt.rate))) ∧
    (∀ (a : Attempt) (sent : Bool), pt.rx = .bits → pt.assembly.inSlot = true → attemptOf pt = some a →
      (sentBits a.frame)[pt.assembly.bits.length]? = some sent →
      ((hearLow t pt).isSome = true ↔
        if sent then 15 * bitPeriod pt.rate ≤ 100 * t ∧ 100 * t ≤ 40 * bitPeriod pt.rate
        else 48 * bitPeriod pt.rate ≤ 100 * t ∧ 100 * t ≤ 75 * bitPeriod pt.rate))) ∧
  (∀ (pt : Port) (gap fall : Ticks) (k : Nat), fall = pt.edge + gap → k = pt.assembly.bits.length →
    (∀ (a : Attempt) (sent : Bool), attemptOf pt = some a → (sentBits a.frame)[k]? = some sent →
      (pt.rx = .gap ∧ pt.assembly = {} ∧ 380 * bitPeriod pt.rate ≤ 100 * gap ∧ gap ≤ 4 * bitPeriod pt.rate) ∨
        (pt.rx = .bits ∧ pt.assembly.inSlot = false ∧ k < completionAt pt.assembly ∧
          90 * bitPeriod pt.rate ≤ 100 * gap ∧ gap ≤ bitPeriod pt.rate) →
      hearEdge gap pt = some { pt with
        rx := .bits, edge := fall, assembly := { pt.assembly with inSlot := true }
        pin := pt.pin.dropLast ++ [⟨.bit, fall, fall + (if sent then 25 else 60) * bitPeriod pt.rate / 100⟩,
          ⟨.bit, fall + bitPeriod pt.rate, fall + bitPeriod pt.rate +
            (if (sentBits a.frame)[k + 1]? = some false then 60 else 25) * bitPeriod pt.rate / 100⟩] }) ∧
    (isTalker pt = false →
      (pt.rx = .gap ∧ pt.assembly = {} ∧ 380 * bitPeriod pt.rate ≤ 100 * gap ∧ 100 * gap ≤ 440 * bitPeriod pt.rate) ∨
        (pt.rx = .bits ∧ pt.assembly.inSlot = false ∧ k < completionAt pt.assembly ∧ pt.assembly.checkGood = none ∧
          90 * bitPeriod pt.rate ≤ 100 * gap ∧ 100 * gap ≤ 130 * bitPeriod pt.rate) →
      hearEdge gap pt = some { pt with rx := .bits, edge := fall, assembly := { pt.assembly with inSlot := true } }) ∧
    (∀ (low : Ticks) (q : Port), hearLow low pt = some q → q.pin = pt.pin)) ∧
  (∀ (pt q : Port) (low edge : Option Ticks) (before after : List BitSlot) (short : BitSlot),
    hearSymbols ⟨low, before, none⟩ pt = some q → betweenLows q = true → 100 * short.low < 5 * bitPeriod pt.rate →
    hearSymbols ⟨low, before ++ short :: after, edge⟩ pt = hearSymbols ⟨low, before ++ after, edge⟩ pt) ∧
  (∀ h : Header, headerOfBits (headerBitsOf h) = h) ∧
  (∀ c : Control, c.length ≤ 15 → controlOfBits (controlBitsOf c) = c) ∧
  (∀ (payload : List Octet) (rest : List Bool), octetsOfBits payload.length (octetBits payload ++ rest) = payload)

/-! ### The segment receiver -/

/-- HEADER_COMPLETION of a receiver with no header yet. Once it has classified 17 bits it takes the header; with a source of 120 or
more that is a format error: a listener counts it and leaves the frame, and a talker ends its attempt ABORTED besides (R31, R32).
With fewer bits it has heard them and no more, and symbols that it does not accept are no completion: that the symbols come
with the command and may stop short of its point is the model's choice (log 6; the clock is log 2). -/
def Obligations.HeaderCompletionTakesHeader : Prop :=
  ∀ (p : SegPort) (low : Option Ticks) (slots : List BitSlot) (h : Symbols) (s : State),
    h = ⟨low, slots, none⟩ → s.ports[p].assembly.header = none →
    (HearsNone p h s → exec (.headerCompletion p low slots) s = .next s) ∧
    (∀ (pt : Port) (read : State), Hears p h s pt →
      read = withHeard p
        { pt with assembly := { pt.assembly with header := some (headerOfBits pt.assembly.bits) } } s →
      (pt.assembly.bits.length ≠ 17 → exec (.headerCompletion p low slots) s = .next (withHeard p pt s)) ∧
      (pt.assembly.bits.length = 17 →
        ((headerOfBits pt.assembly.bits).source.val < 120 → exec (.headerCompletion p low slots) s = .next read) ∧
        (120 ≤ (headerOfBits pt.assembly.bits).source.val →
          (isTalker s.ports[p] = false →
            exec (.headerCompletion p low slots) s =
              .next (settle (listenerLeaves p .rxFormatErrors (max pt.edge pt.lastRise) read))) ∧
          (isTalker s.ports[p] = true →
            exec (.headerCompletion p low slots) s =
              .next (settle (talkerLeaves p .rxFormatErrors (max pt.edge pt.lastRise) read))))))

/-- CONTROL_COMPLETION of a receiver with a header and no control field yet. Once it has classified 25 bits: with a length code of 0
to 12 the control field is taken and, in a frame of another talker, the route decision of a lookup is bound; with 13 to 15 that
is a format error, and the frame is left (R27, R31, R32, R44, R45). With fewer bits it has heard them and no more, the model's
choice (log 6; the clock is log 2). -/
def Obligations.ControlCompletionBindsDecision : Prop :=
  ∀ (p : SegPort) (sy : Symbols) (h : Header) (pt : Port) (c : Control) (s read : State),
    s.ports[p].assembly.header = some h → s.ports[p].assembly.control = none → Hears p sy s pt →
    c = controlOfBits (pt.assembly.bits.drop 17) →
    read = withHeard p { pt with assembly := { pt.assembly with control := some c } } s →
    (pt.assembly.bits.length ≠ 25 → exec (.controlCompletion p sy) s = .next (withHeard p pt s)) ∧
    (pt.assembly.bits.length = 25 →
      (c.length ≤ 12 → isTalker s.ports[p] = true → exec (.controlCompletion p sy) s = .next read) ∧
      (c.length ≤ 12 → isTalker s.ports[p] = false →
        exec (.controlCompletion p sy) s =
          .next (modPort p (fun q => { q with assembly := { q.assembly with
              decision := some (segmentLookup p ⟨h.priority, h.dest, h.source, c.service, []⟩ read).1 } })
            (segmentLookup p ⟨h.priority, h.dest, h.source, c.service, []⟩ read).2)) ∧
      (12 < c.length → isTalker s.ports[p] = false →
        exec (.controlCompletion p sy) s =
          .next (settle (listenerLeaves p .rxFormatErrors (max pt.edge pt.lastRise) read))) ∧
      (12 < c.length → isTalker s.ports[p] = true →
        exec (.controlCompletion p sy) s =
          .next (settle (talkerLeaves p .rxFormatErrors (max pt.edge pt.lastRise) read))))

/-- CHECK_COMPLETION: the receiver compares the CRC of R29 over the header, control and payload bits with the check octet. They
agree exactly when the CRC over all 33 + 8n bits, check octet included, leaves the register at zero (R30). -/
def Obligations.CheckCompletionComparesCrc : Prop :=
  ∀ (p : SegPort) (sy : Symbols) (h : Header) (c : Control) (pt : Port) (bits : List Bool) (s : State),
    s.ports[p].assembly.header = some h → s.ports[p].assembly.control = some c → s.ports[p].assembly.checkGood = none →
    Hears p sy s pt → pt.assembly.bits.length = 33 + 8 * c.length → bits = pt.assembly.bits.drop 25 →
    ∃ t, exec (.checkCompletion p sy) s = .next t ∧
      t.ports[p].assembly.checkGood = some (decide
        (crc8 (headerBitsOf h ++ controlBitsOf c ++ bits.take (8 * c.length)) =
          BitVec.ofNat 8 (natOfBits (bits.drop (8 * c.length))))) ∧
      (crc8 (headerBitsOf h ++ controlBitsOf c ++ bits.take (8 * c.length)) =
          BitVec.ofNat 8 (natOfBits (bits.drop (8 * c.length))) ↔
        crc8 (headerBitsOf h ++ controlBitsOf c ++ bits) = 0)

/-- CHECK_COMPLETION in full. Once 33 + 8n bits are classified the receiver enters SLOTS with payload and check octet. In its own
frame it does no more. On a check error it counts RX_CHECK_ERRORS and answers refuse. On a good check a misplaced frame is counted
INGRESS_REFUSED; otherwise the source's presence is reported and admission requested, INGRESS_REFUSED counting a NONE; the answer
is accept for a unicast frame admitted ALL under CUSTODY, refuse for a NONE under CUSTODY, and silence in every other case. The
presence makes a source that is BLOCKED and located on the ingress port OPEN with failures 0; in every other case no node entry
changes (R44, R46, R49 to R51, R99). With fewer bits it has heard them and no more, the model's choice (log 6; the clock is log 2). -/
def Obligations.CheckCompletionActs : Prop :=
  (∀ (p : SegPort) (sy : Symbols) (h : Header) (c : Control) (pt : Port) (bits : List Bool) (s read : State) (f : Frame) (good : Bool),
    s.ports[p].assembly.header = some h → s.ports[p].assembly.control = some c → s.ports[p].assembly.checkGood = none →
    Hears p sy s pt → bits = pt.assembly.bits.drop 25 →
    f = ⟨h.priority, h.dest, h.source, c.service, octetsOfBits c.length bits⟩ →
    good = (checkOctet f == BitVec.ofNat 8 (natOfBits (bits.drop (8 * c.length)))) →
    read = withHeard p { pt with
      rx := .slots
      assembly := { pt.assembly with
        payload := octetsOfBits c.length bits
        check := some (BitVec.ofNat 8 (natOfBits (bits.drop (8 * c.length))))
        checkGood := some good } } s →
    (pt.assembly.bits.length ≠ 33 + 8 * c.length → exec (.checkCompletion p sy) s = .next (withHeard p pt s)) ∧
    (pt.assembly.bits.length = 33 + 8 * c.length →
      (isTalker s.ports[p] = true → exec (.checkCompletion p sy) s = .next read) ∧
      (isTalker s.ports[p] = false → good = false →
        exec (.checkCompletion p sy) s =
          .next (countPort p .rxCheckErrors 1 (modPort p (fun q =>
            { q with assembly := { q.assembly with answer := .refuse } }) read))) ∧
      (∀ d : Decision, isTalker s.ports[p] = false → good = true → s.ports[p].assembly.decision = some d →
        d.misplaced = true → exec (.checkCompletion p sy) s = .next (countPort p .ingressRefused 1 read)) ∧
      (∀ (d : Decision) (adm : Admission) (admitted : State),
        isTalker s.ports[p] = false → good = true → s.ports[p].assembly.decision = some d → d.misplaced = false →
        admitSegment p f d (nodePresent p h.source read) = (adm, admitted) →
        exec (.checkCompletion p sy) s =
          .next ((if adm.result = .none then countPort p .ingressRefused 1 else id)
            (modPort p (fun q => { q with assembly := { q.assembly with
              admission := some adm
              answer :=
                if d.mode = .custody ∧ adm.result = .all ∧ h.dest.val < 120 ∧ d.egress ≠ 0 then .accept
                else if d.mode = .custody ∧ adm.result = .none then .refuse else .silent } }) admitted))))) ∧
  (∀ (p : SegPort) (source : Address) (s : State),
    (∀ i : Fin 120, source.val = i.val → s.nodes.entries[i].blocked = true → s.nodes.entries[i].location = .seg p →
      nodePresent p source s =
        { s with nodes := { s.nodes with entries := s.nodes.entries.set i ⟨.seg p, 0, false⟩ } }) ∧
    ((∀ i : Fin 120, source.val = i.val → s.nodes.entries[i].blocked = false ∨ s.nodes.entries[i].location ≠ .seg p) →
      nodePresent p source s = s))

/-- END_OF_FRAME in the slots of another talker's frame, its refuse slot classified: RX_GOOD counts a good check, INGRESS_ADMITTED an
ALL or SOME, the admission is confirmed, and the receiver goes to IDLE with the end, 1.0 Tb after the refuse slot's edge, as idle
start, or to LEADIN at the earlier edge, which is then the end; its assembly buffer is released and selection due (R6, R9, R42,
R43, R47). Short of the end it has heard the symbols and no more, the model's choice (log 6; the clock is log 2). -/
def Obligations.EndOfFrameConfirms : Prop :=
  ∀ (p : SegPort) (sy : Symbols) (early : Option Ticks) (pt : Port) (s : State),
    s.ports[p].rx = .slots → isTalker s.ports[p] = false → Hears p sy s pt →
    (∀ at' : Ticks, FrameEnds early pt at' →
      exec (.endOfFrame p ⟨sy, early⟩) s =
        .next (settle (modPort p (fun q => { q with
            rx := if early.isSome then .leadIn else .idle
            edge := if early.isSome then at' else q.edge
            pin := if early.isSome then [] else q.pin
            idleStart := at', assembly := {}, due := true })
          (advance at' (confirm p
            ((if wasAdmitted pt then countPort p .ingressAdmitted 1 else id)
              ((if pt.assembly.checkGood = some true then countPort p .rxGood 1 else id) (withHeard p pt s)))))))) ∧
    ((∀ at' : Ticks, ¬FrameEnds early pt at') → exec (.endOfFrame p ⟨sy, early⟩) s = .next (withHeard p pt s))

/-- Confirmation: the custody flag becomes whether accept was the answer, and the five queues are taken in order; in each, the frame's
pending reference joins the tail of its lane when it is unmarked, and is removed with the reason of its mark when it is marked.
Where none is marked, in every queue the frame's pending references leave the pending ones and join the tail of the lane of its egress
priority; other lanes stay. Joining a lane makes selection due on a segment queue's port and changes nothing else (R47, R54, R60, R116,
R122; that selection is due and then taken by the command is log 10). -/
def Obligations.ConfirmationJoinsLanes : Prop :=
  (∀ (p : SegPort) (i : SlotId) (s : State), admittedSlot s.ports[p] = some i →
    confirm p s = allPorts.foldl (confirmQueue i)
      (modSlot i (fun sl => { sl with custody := s.ports[p].assembly.answer == .accept }) s)) ∧
  (∀ (i : SlotId) (q : PortId) (before after : List Ref) (r : Ref) (s rest : State),
    s.pool.queues[q].pending = before ++ r :: after → r.slot = i → (∀ x ∈ before ++ after, x.slot ≠ i) →
    rest = modQueue q (fun Q => { Q with pending := before ++ after }) s →
    (r.mark = none → confirmQueue i s q = joinTail q r rest) ∧
    (∀ m : Mark, r.mark = some m → confirmQueue i s q = discardRef q r m.reason rest)) ∧
  (∀ (p : SegPort) (i : SlotId) (s : State), admittedSlot s.ports[p] = some i →
    (∀ q : PortId, ∀ r ∈ s.pool.queues[q].pending, r.slot = i → r.mark = none) →
    (confirm p s).pool.slots[i] = { s.pool.slots[i] with custody := s.ports[p].assembly.answer == .accept } ∧
    (∀ q : PortId,
      (confirm p s).pool.queues[q].pending = s.pool.queues[q].pending.filter (fun r => r.slot != i) ∧
      (∀ lane : Priority, (confirm p s).pool.queues[q].lanes[lane] =
        s.pool.queues[q].lanes[lane] ++
          if lane = s.pool.slots[i].priority then s.pool.queues[q].pending.filter (fun r => r.slot == i) else []))) ∧
  (∀ (q : PortId) (r : Ref) (s queued : State),
    queued = { s with pool := { s.pool with queues := s.pool.queues.set q { s.pool.queues[q] with
      lanes := s.pool.queues[q].lanes.set (slotOf r s).priority
        (s.pool.queues[q].lanes[(slotOf r s).priority] ++ [r]) } } } →
    (q = trunkPort → joinTail q r s = queued) ∧
    (∀ p : SegPort, q = p.port → joinTail q r s = modPort p (fun pt => { pt with due := true }) queued))

/-- SIGNAL_ERROR, for a fault that R17 names, detected at its moment: a listener counts RX_SIGNAL_ERRORS, withdraws what was
admitted and leaves the frame; a talker counts it, ends its attempt ABORTED, leaves the frame and drives an abort pulse, and detects
no stall in its own frame (R8, R17 to R19, R48). Anything else is no signal error and changes nothing, by the model's choice (log 1;
no stall is looked for while a low is in progress, log 24; that a given edge is a period error whatever its low proves to be, log 33;
that a low which ends at the sample point is sampled high, log 32; the symbols that come with the command, none of them past a
completion point, are log 6, the clock log 2). -/
def Obligations.SignalErrorLeavesFrame : Prop :=
  ∀ (p : SegPort) (sy : Symbols) (fault : SignalFault) (s : State),
    (HearsNone p sy s → exec (.signalError p ⟨sy, fault⟩) s = .next s) ∧
    (∀ pt : Port, Hears p sy s pt →
      (∀ (at' : Ticks) (q : Port) (seen : State), FaultDetected fault pt at' q →
        seen = modPort p (fun _ => q) (advance at' (withHeard p pt s)) →
        (isTalker s.ports[p] = false →
          exec (.signalError p ⟨sy, fault⟩) s = .next (settle (listenerLeaves p .rxSignalErrors at' seen))) ∧
        (isTalker s.ports[p] = true →
          exec (.signalError p ⟨sy, fault⟩) s = .next (settle (talkerLeaves p .rxSignalErrors at' seen)))) ∧
      ((∀ (at' : Ticks) (q : Port), ¬FaultDetected fault pt at' q) → exec (.signalError p ⟨sy, fault⟩) s = .next s))

/-- ABORT_PULSE, at 1.6 Tb of a bit slot's low: a listener discards the frame and withdraws what was admitted, a talker's attempt
ends ABORTED, and both go to FLUSH with the line released and no error counted; with no such low in progress nothing happens, nor to
a talker that sends 1 there, which has lost arbitration or been overdriven at its sample. ABORT_PULSE_END: a port that drives an
abort pulse of its own releases the line at the pulse's end, a rising edge unless the line stays low, and enters FLUSH. FALSE_START,
a low at idle that is neither a lead-in nor line held, at its rising edge: as ABORT_PULSE, with RX_SIGNAL_ERRORS counted; no abort
pulse is driven (R1, R4, R5, R8, R12, R20, R22, R42, R48). The symbols that come with the command are log 6, the clock is log 2, and
that a command out of place changes nothing is log 1. -/
def Obligations.AbortsAndFalseStartsFlush : Prop :=
  (∀ (p : SegPort) (sy : Symbols) (s : State),
    (HearsNone p sy s → exec (.abortPulse ⟨p, sy⟩) s = .next s) ∧
    (∀ (pt : Port) (seen : State), Hears p sy s pt →
      seen = advance (pt.edge + 160 * bitPeriod pt.rate / 100) (withHeard p pt s) →
      (insideLow pt = true → isTalker s.ports[p] = false →
        exec (.abortPulse ⟨p, sy⟩) s =
          .next (settle (modPort p (fun q => { q with
            rx := .flush, heldFlush := false, tx := q.tx.unarmed, assembly := {}, pin := [], pulse := none })
            (withdraw p seen)))) ∧
      (insideLow pt = true → isTalker s.ports[p] = true → SampleAgrees (160 * bitPeriod pt.rate / 100) pt →
        exec (.abortPulse ⟨p, sy⟩) s =
          .next (settle (modPort p (fun q => { q with rx := .flush, heldFlush := false, pin := [], pulse := none })
            (leaveFrame p (endAttempt p .aborted seen))))) ∧
      (insideLow pt = false ∨ ¬SampleAgrees (160 * bitPeriod pt.rate / 100) pt → exec (.abortPulse ⟨p, sy⟩) s = .next s))) ∧
  (∀ (p : SegPort) (stillLow : Bool) (s : State),
    (∀ at' : Ticks, s.ports[p].pulse = some at' →
      exec (.abortPulseEnd ⟨p, stillLow⟩) s =
        .next (modPort p (fun q => { q with
            rx := .flush, heldFlush := false, lastRise := if stillLow then q.lastRise else at', assembly := {}, pin := []
            pulse := none })
          (advance at' s))) ∧
    (s.ports[p].pulse = none → exec (.abortPulseEnd ⟨p, stillLow⟩) s = .next s)) ∧
  (∀ (p : SegPort) (low : Ticks) (s seen : State),
    s.ports[p].rx = .leadIn → isFalseStart s.ports[p].rate low = true →
    seen = countPort p .rxSignalErrors 1 (modPort p (fun q => { q with lastRise := q.edge + low })
      (advance (s.ports[p].edge + low) s)) →
    (isTalker s.ports[p] = false →
      exec (.falseStart p low) s =
        .next (settle (modPort p (fun q => { q with
          rx := .flush, heldFlush := false, tx := q.tx.unarmed, assembly := {}, pin := [], pulse := none })
          (withdraw p seen)))) ∧
    (isTalker s.ports[p] = true →
      exec (.falseStart p low) s =
        .next (settle (modPort p (fun q => { q with rx := .flush, heldFlush := false, pin := [], pulse := none })
          (leaveFrame p (endAttempt p .aborted seen))))))

/-- A frame that its receiver leaves after admission and before its end is withdrawn: after an abort pulse no queue holds a pending
reference to its frame slot, which is released, and the receiver is in FLUSH with an empty assembly buffer and the line released
(R20, R43, R48, R122; the symbols of the command are log 6, the clock log 2). A withdrawal takes the pending references of that
slot, the mirror copy's too, out of the five queues, and releases the slot; it makes no notice, no report and no record, counts
nothing DISCARDED, and changes nothing else; with nothing admitted it changes nothing. A receiver that leaves a frame then clears
its assembly buffer (R48). -/
def Obligations.AbortedAdmissionIsWithdrawn : Prop :=
  (∀ (p : SegPort) (s : State),
    (∀ i : SlotId, admittedSlot s.ports[p] = some i →
      withdraw p s = releaseSlot i { s with pool := { s.pool with
        queues := s.pool.queues.map fun Q => { Q with pending := Q.pending.filter fun r => r.slot ≠ i } } }) ∧
    (admittedSlot s.ports[p] = none → withdraw p s = s) ∧
    leaveFrame p s = modPort p (fun pt => { pt with assembly := {} }) (withdraw p s)) ∧
  ∀ (p : SegPort) (i : SlotId) (sy : Symbols) (pt : Port) (s : State), Hears p sy s pt → insideLow pt = true →
    isTalker s.ports[p] = false → admittedSlot s.ports[p] = some i →
    ∃ t u : State, exec (.abortPulse ⟨p, sy⟩) s = .next t ∧ t = settle u ∧
      (u.pool.slots[i].status = .free ∨ u.pool.slots[i].status = .unfilled) ∧
      (∀ q : PortId, ∀ r ∈ t.pool.queues[q].pending, r.slot ≠ i) ∧
      t.ports[p].rx = .flush ∧ t.ports[p].assembly = {} ∧ t.ports[p].pin = [] ∧
      (∀ q : SegPort, q ≠ p → t.ports[q] =
        { s.ports[q] with tx := t.ports[q].tx, counters := t.ports[q].counters, due := t.ports[q].due }) ∧
      Kept { s with
        ports := t.ports, now := max (max s.now (max pt.edge pt.lastRise)) (pt.edge + 160 * bitPeriod pt.rate / 100) } t

/-- LINE_HELD, when a low passes 5.0 Tb: the receiver enters HELD with the line released, what was admitted withdrawn, and LINE_HELD
raised with detail 1 when an attempt of the port's own is ended ABORTED and 0 otherwise; in OFF and HELD, or for a low that would
have begun before the last rising edge, nothing happens. The low's falling edge is the last one known, or a later one.
LINE_RELEASED, at the held low's rising edge: FLUSH with that edge as idle start, and LINE_RELEASED raised with the length of the
low in whole Tb (R9, R23, R48, R66). The model's choices: that a command for a low begun before the last rising edge, or in OFF or
HELD, changes nothing (log 1, and log 7 for the low), the order of the event and the attempt's end (log 11), and the clock (log 2).
-/
def Obligations.LineHeldAndReleased : Prop :=
  (∀ (p : SegPort) (gap fall : Ticks) (s seen : State), fall = s.ports[p].edge + gap →
    seen = modPort p (fun q => { q with edge := fall }) (advance (fall + 5 * bitPeriod s.ports[p].rate) s) →
    (s.ports[p].rx ≠ .off → s.ports[p].rx ≠ .held → s.ports[p].lastRise ≤ fall → isTalker s.ports[p] = false →
      exec (.lineHeld ⟨p, gap⟩) s =
        .next (settle (modPort p (fun q =>
          { q with rx := .held, tx := q.tx.unarmed, assembly := {}, pin := [], pulse := none })
            (withdraw p (raise .lineHeld (.seg p) 0 seen))))) ∧
    (s.ports[p].rx ≠ .off → s.ports[p].rx ≠ .held → s.ports[p].lastRise ≤ fall → isTalker s.ports[p] = true →
      exec (.lineHeld ⟨p, gap⟩) s =
        .next (settle (modPort p (fun q => { q with rx := .held, pin := [], pulse := none })
          (leaveFrame p (endAttempt p .aborted (raise .lineHeld (.seg p) 1 seen)))))) ∧
    (s.ports[p].rx = .off ∨ s.ports[p].rx = .held ∨ fall < s.ports[p].lastRise → exec (.lineHeld ⟨p, gap⟩) s = .next s)) ∧
  (∀ (p : SegPort) (low rise : Ticks) (s : State), s.ports[p].rx = .held → rise = s.ports[p].edge + low →
    exec (.lineReleased p low) s =
      .next (raise .lineReleased (.seg p) (low / bitPeriod s.ports[p].rate)
        (modPort p (fun q => { q with rx := .flush, lastRise := rise, idleStart := rise, heldFlush := true })
          (advance rise s))))

/-- FLUSH_COMPLETE: 2.0 Tb after the last rising edge the receiver goes from FLUSH to IDLE, its idle start that edge, or, after a
held line and no further low, the edge that ended the held low; selection runs. That a further low moves it is the model's choice
(log 28). With less recessive time, or no rising edge since the last falling edge, nothing happens. IDLE_FALLING_EDGE in IDLE: a
transmitter that is armed with its quiet time satisfied by the edge joins it and its attempt begins; otherwise the receiver enters
LEADIN at that edge with an empty assembly buffer and an armed transmitter returns to IDLE; a low under 0.05 Tb is not seen (R4, R5,
R9, R10, R13, R22, R42, R54, R55; that the clock moves to the edge at least is log 2, and that the joined attempt is the command
ATTEMPT_BEGIN at that edge is log 14, and that it joins at once, whatever the low, log 33). The quiet time is 2 + p Tb, and 3 Tb
more with the last-talker flag set (R10). -/
def Obligations.IdleIsEnteredAndLeft : Prop :=
  (∀ (p : SegPort) (later recessive rise : Ticks) (s : State), rise = s.ports[p].lastRise + later →
    (s.ports[p].rx = .flush → s.ports[p].pulse = none → 2 * bitPeriod s.ports[p].rate ≤ recessive →
      s.ports[p].edge ≤ rise →
      exec (.flushComplete p ⟨later, recessive⟩) s =
        .next (settle (modPort p (fun q => { q with
            rx := .idle, lastRise := rise, idleStart := if q.heldFlush ∧ later = 0 then q.idleStart else rise, due := true })
          (advance (rise + 2 * bitPeriod s.ports[p].rate) s)))) ∧
    (s.ports[p].rx ≠ .flush ∨ s.ports[p].pulse ≠ none ∨ recessive < 2 * bitPeriod s.ports[p].rate ∨ rise < s.ports[p].edge →
      exec (.flushComplete p ⟨later, recessive⟩) s = .next s)) ∧
  (∀ (p : SegPort) (recessive low : Ticks) (s : State),
    (∀ c : Candidate, s.ports[p].rx = .idle → s.ports[p].tx = .armed c → candidateGone p s = false →
      candidateQuiet s.ports[p] c ≤ recessive →
      exec (.idleFallingEdge p ⟨recessive, low⟩) s = exec (.attemptBegin ⟨p, some recessive⟩) s) ∧
    (s.ports[p].rx = .idle → (∀ c : Candidate, s.ports[p].tx = .armed c → recessive < candidateQuiet s.ports[p] c) →
      (5 * bitPeriod s.ports[p].rate ≤ 100 * low →
        exec (.idleFallingEdge p ⟨recessive, low⟩) s =
          .next (modPort p (fun q => { q with
              rx := .leadIn, edge := s.ports[p].idleStart + recessive, assembly := {}, pin := [], tx := q.tx.unarmed })
            (advance (s.ports[p].idleStart + recessive) s))) ∧
      (100 * low < 5 * bitPeriod s.ports[p].rate → exec (.idleFallingEdge p ⟨recessive, low⟩) s = .next s)) ∧
    (s.ports[p].rx ≠ .idle → exec (.idleFallingEdge p ⟨recessive, low⟩) s = .next s)) ∧
  (∀ (pt : Port) (priority : Priority) (slot : SlotId) (source : Address),
    candidateQuiet pt (.frame priority slot) = (2 + priority.val + if pt.lastTalker then 3 else 0) * bitPeriod pt.rate ∧
      candidateQuiet pt (.notice priority source) =
        (2 + priority.val + if pt.lastTalker then 3 else 0) * bitPeriod pt.rate)

/-! ### The segment transmitter -/

/-- Selection on the one port where it is due. With nothing queued the transmitter is IDLE. It is ARMED with the notice, where there
is one and NOTICE_PRIORITY is not less urgent than the most urgent lane in use, else with the head of that lane. A stale head is
removed PURGED and an over-limit head ended FAILED, UNDELIVERABLE, and selection goes on (R54). Where it is due on several ports,
each turn is the lowest-numbered one's, by the same rules, until that port's selection is settled; a port that may not select then
keeps its transmitter, but for an armed candidate that has gone. The first head is that of the lowest-numbered lane that is not
empty, and to pop it takes it off its lane (R116). A port may select in IDLE with its transmitter
IDLE or ARMED; an armed frame has gone when it heads its lane no more, an armed notice when none is held for the port, and selection
is then due (R56). The order of the ports, and the bound on the turns, are the model's choice (log
10). -/
def Obligations.SelectionArmsBestCandidate : Prop :=
  (∀ (q : PortId) (s : State),
    (∀ (lane : Priority) (r : Ref), firstHead q s = some (lane, r) ↔
      s.pool.queues[q].lanes[lane].head? = some r ∧ ∀ l : Priority, l < lane → s.pool.queues[q].lanes[l] = []) ∧
    (firstHead q s = none ↔ ∀ l : Priority, s.pool.queues[q].lanes[l] = []) ∧
    (∀ lane : Priority, popLane q lane s =
      modQueue q (fun Q => { Q with lanes := Q.lanes.set lane (Q.lanes[lane].drop 1) }) s)) ∧
  (∀ (p : SegPort) (s : State),
    (maySelect s.ports[p] = true ↔
      s.ports[p].rx = .idle ∧ (s.ports[p].tx = .idle ∨ ∃ c : Candidate, s.ports[p].tx = .armed c)) ∧
    (candidateGone p s = true ↔
      (∃ (lane : Priority) (slot : SlotId), s.ports[p].tx = .armed (.frame lane slot) ∧
        ∀ r : Ref, s.pool.queues[p.port].lanes[lane].head? = some r → r.slot ≠ slot) ∨
      (∃ (priority : Priority) (source : Address), s.ports[p].tx = .armed (.notice priority source) ∧
        ∀ n ∈ s.custody.notices, n.port ≠ p)) ∧
    dueIfGone trunkPort s = s ∧
    dueIfGone p.port s = if candidateGone p s = true then modPort p (fun pt => { pt with due := true }) s else s) ∧
  (∀ (p : SegPort) (s : State), (∀ q : SegPort, s.ports[q].due = true ↔ q = p) → maySelect s.ports[p] = true →
    (firstHead p.port s = none → (∀ n ∈ s.custody.notices, n.port ≠ p) →
      settle s = modPort p (fun pt => { pt with tx := .idle, due := false }) s) ∧
    (∀ n ∈ s.custody.notices, n.port = p →
      (∀ lane r, firstHead p.port s = some (lane, r) → s.custody.noticePriority ≤ lane) →
      ∃ source : Address, source.val = s.custody.noticeSource.val ∧
        settle s = modPort p (fun pt =>
          { pt with tx := .armed (.notice s.custody.noticePriority source), due := false }) s) ∧
    (∀ lane r, firstHead p.port s = some (lane, r) →
      (∀ n ∈ s.custody.notices, n.port = p → lane < s.custody.noticePriority) →
      (s.route.purgeEpoch ≤ (slotOf r s).epoch → r.count ≤ s.ports[p].retryLimit →
        settle s = modPort p (fun pt => { pt with tx := .armed (.frame lane r.slot), due := false }) s) ∧
      ((slotOf r s).epoch < s.route.purgeEpoch →
        settle s = runSelections 2047 (discardRef p.port r .purged (popLane p.port lane s))) ∧
      (s.route.purgeEpoch ≤ (slotOf r s).epoch → s.ports[p].retryLimit < r.count →
        settle s = runSelections 2047 (failRef p r .undeliverable true (popLane p.port lane s))))) ∧
  (∀ s : State, settle s = runSelections 2048 s) ∧
  (∀ (n : Nat) (s : State), (∀ q : SegPort, s.ports[q].due = false) → runSelections n s = s) ∧
  (∀ (n : Nat) (p : SegPort) (s : State), s.ports[p].due = true → (∀ q : SegPort, q < p → s.ports[q].due = false) →
    (maySelect s.ports[p] = false →
      runSelections (n + 1) s = runSelections n (modPort p (fun pt => { pt with
        tx := if candidateGone p s then .idle else pt.tx, due := false }) s)) ∧
    (maySelect s.ports[p] = true →
      (firstHead p.port s = none → (∀ m ∈ s.custody.notices, m.port ≠ p) →
        runSelections (n + 1) s = runSelections n (modPort p (fun pt => { pt with tx := .idle, due := false }) s)) ∧
      (∀ m ∈ s.custody.notices, m.port = p →
        (∀ lane r, firstHead p.port s = some (lane, r) → s.custody.noticePriority ≤ lane) →
        ∃ source : Address, source.val = s.custody.noticeSource.val ∧
          runSelections (n + 1) s = runSelections n (modPort p (fun pt =>
            { pt with tx := .armed (.notice s.custody.noticePriority source), due := false }) s)) ∧
      (∀ lane r, firstHead p.port s = some (lane, r) →
        (∀ m ∈ s.custody.notices, m.port = p → lane < s.custody.noticePriority) →
        (s.route.purgeEpoch ≤ (slotOf r s).epoch → r.count ≤ s.ports[p].retryLimit →
          runSelections (n + 1) s = runSelections n (modPort p (fun pt =>
            { pt with tx := .armed (.frame lane r.slot), due := false }) s)) ∧
        ((slotOf r s).epoch < s.route.purgeEpoch →
          runSelections (n + 1) s = runSelections n (discardRef p.port r .purged (popLane p.port lane s))) ∧
        (s.route.purgeEpoch ≤ (slotOf r s).epoch → s.ports[p].retryLimit < r.count →
          runSelections (n + 1) s = runSelections n (failRef p r .undeliverable true (popLane p.port lane s))))))

/-- ATTEMPT_BEGIN from IDLE, at the port's own edge when its quiet time is satisfied, or at an observed edge that it joins with its
quiet time satisfied. With a frame: the head of the candidate's lane moves to the attempt holder and is sent with its own fields
and the egress priority. With a notice: the oldest notice held for the port is marked in attempt and sent to its target with
service 15 and five octets, reason, original destination, original service, attempts used and egress port. ATTEMPTS counts, the
receiver enters LEADIN with an empty assembly buffer, and the port drives its line from that edge, the lead-in for 3.0 Tb and bit
slot 1, 0.25 or 0.60 Tb, at 4.0 Tb. The quiet time is 2.0 Tb and the priority in Tb, and 3.0 Tb more with the
last-talker flag set. With the quiet time not satisfied, or outside IDLE and ARMED, nothing happens (R3, R6, R10, R12,
R13, R57, R124, R138). The model's choices: that the command changes nothing where its edge is joined before the quiet time, an edge
that R42 and R55 take to LEADIN by IDLE_FALLING_EDGE, or outside IDLE and ARMED (log 1); that the clock then stands at the edge at
least (log 2); and that the attempt begins by a command of its own, an own edge no earlier than the clock (log 14). -/
def Obligations.AttemptBeginsWithCandidate : Prop :=
  (∀ (rate : Rate) (lane : Priority) (lastTalker : Bool),
    quietTime rate lane lastTalker = (2 + lane.val + if lastTalker then 3 else 0) * bitPeriod rate) ∧
  ∀ (p : SegPort) (joined : Option Ticks) (s : State),
    (∀ lane slot r edge quiet, s.ports[p].rx = .idle → s.ports[p].tx = .armed (.frame lane slot) →
      laneHead p.port lane s = some r → quiet = quietTime s.ports[p].rate lane s.ports[p].lastTalker →
      (joined = none ∧ edge = max s.now (s.ports[p].idleStart + quiet)) ∨
        (∃ recessive, joined = some recessive ∧ quiet ≤ recessive ∧ edge = s.ports[p].idleStart + recessive) →
      exec (.attemptBegin ⟨p, joined⟩) s =
        .next { countPort p .attempts 1 (modPort p (fun q => { q with
            tx := .sending ⟨false, { (slotOf r s).frame with priority := (slotOf r s).priority }⟩
            rx := .leadIn, edge := edge, assembly := {}
            pin := [⟨.leadIn, edge, edge + 3 * bitPeriod q.rate⟩,
              ⟨.bit, edge + 4 * bitPeriod q.rate,
                edge + 4 * bitPeriod q.rate + (if (slotOf r s).priority.val < 4 then 60 else 25) * bitPeriod q.rate / 100⟩] })
          (modQueue p.port (fun Q => { Q with holder := some r, lanes := modAt Q.lanes lane List.tail }) s)) with
          now := max s.now edge }) ∧
    (∀ priority source before n after edge quiet, s.ports[p].rx = .idle →
      s.ports[p].tx = .armed (.notice priority source) →
      s.custody.notices = before ++ n :: after → n.port = p → (∀ m ∈ before, m.port ≠ p) →
      quiet = quietTime s.ports[p].rate priority s.ports[p].lastTalker →
      (joined = none ∧ edge = max s.now (s.ports[p].idleStart + quiet)) ∨
        (∃ recessive, joined = some recessive ∧ quiet ≤ recessive ∧ edge = s.ports[p].idleStart + recessive) →
      exec (.attemptBegin ⟨p, joined⟩) s =
        .next { countPort p .attempts 1 (modPort p (fun q => { q with
            tx := .sending ⟨true, ⟨priority, n.target, source, 15, [n.reason.code, BitVec.ofNat 8 n.dest.val,
              BitVec.ofNat 8 n.service.val, BitVec.ofNat 8 n.attempts, BitVec.ofNat 8 n.egress.val]⟩⟩
            rx := .leadIn, edge := edge, assembly := {}
            pin := [⟨.leadIn, edge, edge + 3 * bitPeriod q.rate⟩,
              ⟨.bit, edge + 4 * bitPeriod q.rate,
                edge + 4 * bitPeriod q.rate + (if priority.val < 4 then 60 else 25) * bitPeriod q.rate / 100⟩] }) s) with
          custody := { s.custody with notices := before ++ { n with inAttempt := true } :: after }
          now := max s.now edge }) ∧
    (∀ c recessive, s.ports[p].tx = .armed c → joined = some recessive → recessive < candidateQuiet s.ports[p] c →
      exec (.attemptBegin ⟨p, joined⟩) s = .next s) ∧
    (s.ports[p].rx ≠ .idle ∨ s.ports[p].tx.isArmed = false → exec (.attemptBegin ⟨p, joined⟩) s = .next s)

/-- ARBITRATION_LOST and OVERDRIVE, for a frame's reference: the talker sends 1 in the bit slot in progress and samples a low 0.44 Tb
after its edge. In a header bit the attempt is lost: ARB_LOST counts, the line is released, and the reference goes back to the head
of its lane, its count as it was; a marked one ends FAILED with its mark's reason, its count as it was, and no delivery failure is
reported. In a control, payload or check bit it is overdriven: an abort pulse of 2.0 Tb is driven from the sample, the count
advances, and the reference goes back while the retry limit allows, and else ends FAILED, UNDELIVERABLE; a marked one ends FAILED
with its mark's reason; both report a delivery failure. No signal error is counted. An attempt that ends ABORTED in any other way, by an
abort pulse, a signal error, a false start, line held or a format error, ends its reference in these three ways too (R8, R14, R15,
R18, R58 to R60, R102; the symbols that come with the command are log 6, the clock is log 2). That the receiver stays in its state
while the port's own abort pulse lasts, until ABORT_PULSE_END, is the model's reading (log 8). -/
def Obligations.LostAndOverdrivenAttempts : Prop :=
  (∀ (p : SegPort) (frame : Frame) (r : Ref) (s freed : State),
    s.ports[p].tx = .sending ⟨false, frame⟩ ∨ s.ports[p].tx = .slots ⟨false, frame⟩ →
    s.pool.queues[p.port].holder = some r → freed = setHolder p.port none (setTx p .idle s) →
    (r.mark = none → r.count + 1 ≤ s.ports[p].retryLimit →
      endAttempt p .aborted s = returnToHead p.port { r with count := r.count + 1 } freed) ∧
    (r.mark = none → s.ports[p].retryLimit < r.count + 1 →
      endAttempt p .aborted s = failRef p { r with count := r.count + 1 } .undeliverable true freed) ∧
    (∀ m : Mark, r.mark = some m →
      endAttempt p .aborted s = failRef p { r with count := r.count + 1 } m.reason true freed)) ∧
  (∀ (p : SegPort) (fall at' : Ticks) (s : State),
    driveAbort p fall at' s = modPort p (fun q => { q with
        edge := fall, pin := [⟨.abort, at', at' + 2 * bitPeriod q.rate⟩], pulse := some (at' + 2 * bitPeriod q.rate) })
      (countPort p .abortsSent 1 s)) ∧
  ∀ (p : SegPort) (sy : Symbols) (pt : Port) (frame : Frame) (r : Ref) (at' : Ticks) (s seen freed : State), Hears p sy s pt →
    s.ports[p].tx = .sending ⟨false, frame⟩ → s.pool.queues[p.port].holder = some r → insideLow pt = true →
    (sentBits frame)[pt.assembly.bits.length]? = some true →
    at' = pt.edge + 44 * bitPeriod pt.rate / 100 → seen = advance at' (withHeard p pt s) →
    (pt.assembly.bits.length < 17 →
      freed = setHolder p.port none (setTx p .idle (countPort p .arbLost 1 seen)) →
      (r.mark = none →
        exec (.arbitrationLost p sy) s =
          .next (settle (modPort p (fun q => { q with pin := [], pulse := none }) (returnToHead p.port r freed)))) ∧
      (∀ m : Mark, r.mark = some m →
        exec (.arbitrationLost p sy) s =
          .next (settle (modPort p (fun q => { q with pin := [], pulse := none })
            (failRef p r m.reason false freed))))) ∧
    (17 ≤ pt.assembly.bits.length → pt.assembly.bits.length < 33 + 8 * frame.payload.length →
      freed = setHolder p.port none (setTx p .idle seen) →
      (r.mark = none → r.count + 1 ≤ s.ports[p].retryLimit →
        exec (.overdrive p sy) s =
          .next (settle (driveAbort p pt.edge at' (returnToHead p.port { r with count := r.count + 1 } freed)))) ∧
      (r.mark = none → s.ports[p].retryLimit < r.count + 1 →
        exec (.overdrive p sy) s =
          .next (settle (driveAbort p pt.edge at' (failRef p { r with count := r.count + 1 } .undeliverable true freed)))) ∧
      (∀ m : Mark, r.mark = some m →
        exec (.overdrive p sy) s =
          .next (settle (driveAbort p pt.edge at' (failRef p { r with count := r.count + 1 } m.reason true freed)))))

/-- ACCEPT_SLOT_EDGE, between 0.9 and 1.3 Tb after the last check bit's edge (a talker drives it itself after 1.0 Tb): a talker enters
SLOTS, sets its last-talker flag and sends 1 in both response slots, the refuse slot 1.0 Tb later; a listener clears its own flag,
and its responder drives the slot for 0.60 Tb when its answer is accept. With another spacing nothing happens. A responder whose answer
is refuse drives the refuse slot for 0.60 Tb from its falling edge (R3, R6, R7, R11, R16, R49, R50, R58). The model's choices:
that with another spacing, which R17 and R42 make an error given by SIGNAL_ERROR, this command changes nothing (log 1); that the
refuse slot comes with the command that follows (log 15); and the clock (log 2). -/
def Obligations.AcceptSlotEdgeSetsFlag : Prop :=
  (∀ (p : SegPort) (gap fall : Ticks) (c : Control) (s : State), following s.ports[p] = true → s.ports[p].rx = .slots →
    s.ports[p].assembly.inSlot = false → s.ports[p].assembly.control = some c →
    s.ports[p].assembly.bits.length = 33 + 8 * c.length → fall = s.ports[p].edge + gap →
    (∀ a : Attempt, s.ports[p].tx = .sending a → a.frame.payload.length = c.length →
      90 * bitPeriod s.ports[p].rate ≤ 100 * gap → gap ≤ bitPeriod s.ports[p].rate →
      exec (.acceptSlotEdge ⟨p, gap⟩) s =
        .next (modPort p (fun q => { q with
            tx := .slots a, lastTalker := true, edge := fall, assembly := { q.assembly with inSlot := true }
            pin := q.pin.dropLast ++ [⟨.bit, fall, fall + 25 * bitPeriod q.rate / 100⟩,
              ⟨.bit, fall + bitPeriod q.rate, fall + bitPeriod q.rate + 25 * bitPeriod q.rate / 100⟩] })
          (advance fall s))) ∧
    (isTalker s.ports[p] = false → 90 * bitPeriod s.ports[p].rate ≤ 100 * gap →
      100 * gap ≤ 130 * bitPeriod s.ports[p].rate →
      exec (.acceptSlotEdge ⟨p, gap⟩) s =
        .next (modPort p (fun q => { q with
            lastTalker := false, edge := fall
            assembly := { q.assembly with inSlot := true, acceptDriven := q.assembly.answer == .accept }
            pin := if q.assembly.answer = .accept then q.pin ++ [⟨.accept, fall, fall + 60 * bitPeriod q.rate / 100⟩]
              else q.pin })
          (advance fall s))) ∧
    (100 * gap < 90 * bitPeriod s.ports[p].rate ∨ 130 * bitPeriod s.ports[p].rate < 100 * gap →
      exec (.acceptSlotEdge ⟨p, gap⟩) s = .next s)) ∧
  (∀ (pt : Port) (gap fall : Ticks) (c : Control), pt.rx = .slots → pt.assembly.inSlot = false → isTalker pt = false →
    pt.assembly.control = some c → pt.assembly.checkGood ≠ none → pt.assembly.header ≠ none →
    pt.assembly.bits.length = 34 + 8 * c.length → pt.assembly.answer = .refuse → fall = pt.edge + gap →
    90 * bitPeriod pt.rate ≤ 100 * gap → 100 * gap ≤ 130 * bitPeriod pt.rate →
    hearEdge gap pt = some { pt with
      edge := fall, assembly := { pt.assembly with inSlot := true }
      pin := pt.pin ++ [⟨.refuse, fall, fall + 60 * bitPeriod pt.rate / 100⟩] })

/-- ATTEMPT_END of a frame, at the end of the port's own frame, by the readings of its two response slots, the last two bits: not
refused, and accepted or to a group, its reference is released DELIVERED, marked or not; otherwise an unmarked one goes back to the
head of its lane with its count advanced while the retry limit allows, and else ends FAILED, UNDELIVERABLE, and a marked one ends
FAILED with its mark's reason, as a delivery failure. The port goes to IDLE, or to LEADIN at an early edge, and selection is due. A
reference that goes back is at the head of the lane of its slot's egress priority, and nothing else changes; one that ends FAILED counts
FAILED and is removed with its reason, and the failure is reported for its destination where it is one; one that ends DELIVERED counts
DELIVERED, its delivery is reported, and it is removed (R6, R16, R38, R59 to R61, R102, R103, R116; the order of removal and
report is log 25). Short of the end it has heard the symbols and no more, the model's choice (log 6; the clock is
log 2; a reading is the class of the slot's low, log 7). -/
def Obligations.AttemptEndTakesOutcome : Prop :=
  (∀ (p : SegPort) (low : Option Ticks) (slots : List BitSlot) (sy : Symbols) (early : Option Ticks) (pt : Port) (frame : Frame)
    (r : Ref) (s ended : State), sy = ⟨low, slots, none⟩ → Hears p sy s pt → s.ports[p].rx = .slots → s.ports[p].tx = .slots ⟨false, frame⟩ →
    s.pool.queues[p.port].holder = some r → ended = setHolder p.port none (setTx p .idle (withHeard p pt s)) →
    (∀ (at' : Ticks) (before : List Bool) (acceptLow refuseLow : Bool), FrameEnds early pt at' →
      pt.assembly.bits = before ++ [!acceptLow, !refuseLow] →
      (refuseLow = false → acceptLow = true ∨ 120 ≤ frame.dest.val →
        exec (.attemptEnd p low slots early) s = .next (settle (endFrame p early.isSome at' (deliverRef p r ended)))) ∧
      (refuseLow = true ∨ (acceptLow = false ∧ frame.dest.val < 120) →
        (r.mark = none → r.count + 1 ≤ s.ports[p].retryLimit →
          exec (.attemptEnd p low slots early) s =
            .next (settle (endFrame p early.isSome at' (returnToHead p.port { r with count := r.count + 1 } ended)))) ∧
        (r.mark = none → s.ports[p].retryLimit < r.count + 1 →
          exec (.attemptEnd p low slots early) s =
            .next (settle (endFrame p early.isSome at'
              (failRef p { r with count := r.count + 1 } .undeliverable true ended)))) ∧
        (∀ m : Mark, r.mark = some m →
          exec (.attemptEnd p low slots early) s =
            .next (settle (endFrame p early.isSome at' (failRef p { r with count := r.count + 1 } m.reason true ended)))))) ∧
    ((∀ at' : Ticks, ¬FrameEnds early pt at') → exec (.attemptEnd p low slots early) s = .next (withHeard p pt s))) ∧
  (∀ (p : SegPort) (early : Bool) (at' : Ticks) (s : State),
    endFrame p early at' s = modPort p (fun q => { q with
        rx := if early then .leadIn else .idle, edge := if early then at' else q.edge, pin := if early then [] else q.pin
        idleStart := at', assembly := {}, due := true }) (advance at' s)) ∧
  (∀ (q : PortId) (r : Ref) (s : State),
    returnToHead q r s = { s with pool := { s.pool with queues := s.pool.queues.set q { s.pool.queues[q] with
      lanes := s.pool.queues[q].lanes.set (slotOf r s).priority
        (r :: s.pool.queues[q].lanes[(slotOf r s).priority]) } } }) ∧
  (∀ (p : SegPort) (r : Ref) (reason : Reason) (s : State),
    failRef p r reason false s = dropRef p.port r reason (countPort p .failed 1 s) ∧
    failRef p r reason true s = nodeFailed (slotOf r s).frame.dest (dropRef p.port r reason (countPort p .failed 1 s))) ∧
  (∀ (p : SegPort) (r : Ref) (s : State),
    (∀ i : Fin 120, (slotOf r s).frame.dest.val = i.val →
      deliverRef p r s =
        dropRef p.port r .delivered (modNode i (fun e => { e with failures := 0 }) (countPort p .delivered 1 s))) ∧
    (120 ≤ (slotOf r s).frame.dest.val → deliverRef p r s = dropRef p.port r .delivered (countPort p .delivered 1 s)))

/-- The attempt of a notice. ATTEMPT_END: delivered, its record leaves the list and NOTICES_SENT counts; otherwise the record stays with
its send count advanced while the retry limit allows, and else leaves the list and NOTICES_FAILED counts. ARBITRATION_LOST: the record
stays with its send count as it was, and ARB_LOST counts. ABORTED, by OVERDRIVE, ABORT_PULSE, SIGNAL_ERROR and every other end that
aborts an attempt: as an attempt that was not delivered, with the line as it is for a frame (R8, R14, R15, R18 to R20, R38, R62; the
symbols that come with the command are log 6, the clock is log 2, and a reading is the class of the slot's low, log 7). The model's
readings: the receiver's state while the port's own abort pulse lasts, FLUSH after a signal error and as it was after an overdrive
(log 8); that a talker finds no stall (log 24); that a low of 0.44 Tb samples high (log 32); and that an edge given as too early is an
error whatever its low (log 33). -/
def Obligations.NoticeAttemptEnds : Prop :=
  ∀ (p : SegPort) (sy : Symbols) (pt : Port) (frame : Frame) (before after : List Notice) (n : Notice) (s : State),
    Hears p sy s pt → s.custody.notices = before ++ n :: after → n.port = p → n.inAttempt = true →
    (∀ m ∈ before, ¬(m.port = p ∧ m.inAttempt = true)) →
    (∀ (low : Option Ticks) (slots : List BitSlot) (early : Option Ticks) (at' : Ticks) (bits : List Bool)
        (acceptLow refuseLow : Bool) (idle : State), sy = ⟨low, slots, none⟩ →
      s.ports[p].rx = .slots → s.ports[p].tx = .slots ⟨true, frame⟩ → frame.dest.val < 120 →
      FrameEnds early pt at' →
      pt.assembly.bits = bits ++ [!acceptLow, !refuseLow] → idle = setTx p .idle (withHeard p pt s) →
      (refuseLow = false → acceptLow = true →
        exec (.attemptEnd p low slots early) s =
          .next (settle (endFrame p early.isSome at' (countGateway .noticesSent
            { idle with custody := { s.custody with notices := before ++ after } })))) ∧
      (refuseLow = true ∨ acceptLow = false → n.sendCount + 1 ≤ s.ports[p].retryLimit →
        exec (.attemptEnd p low slots early) s =
          .next (settle (endFrame p early.isSome at'
            { idle with custody := { s.custody with
                notices := before ++ { n with inAttempt := false, sendCount := n.sendCount + 1 } :: after } }))) ∧
      (refuseLow = true ∨ acceptLow = false → s.ports[p].retryLimit < n.sendCount + 1 →
        exec (.attemptEnd p low slots early) s =
          .next (settle (endFrame p early.isSome at' (countGateway .noticesFailed
            { idle with custody := { s.custody with notices := before ++ after } }))))) ∧
    (s.ports[p].tx = .sending ⟨true, frame⟩ → insideLow pt = true → pt.assembly.bits.length < 17 →
      (sentBits frame)[pt.assembly.bits.length]? = some true →
      exec (.arbitrationLost p sy) s =
        .next (settle (modPort p (fun q => { q with tx := .idle, pin := [], pulse := none })
          (countPort p .arbLost 1 { advance (pt.edge + 44 * bitPeriod pt.rate / 100) (withHeard p pt s) with
            custody := { s.custody with notices := before ++ { n with inAttempt := false } :: after } }))) ∧
    (∀ ended : State → State,
      (∀ u : State, ended u =
        if n.sendCount + 1 ≤ s.ports[p].retryLimit then
          { setTx p .idle u with custody := { s.custody with
              notices := before ++ { n with inAttempt := false, sendCount := n.sendCount + 1 } :: after } }
        else countGateway .noticesFailed
          { setTx p .idle u with custody := { s.custody with notices := before ++ after } }) →
      (∀ (at' : Ticks) (seen : State), s.ports[p].tx = .sending ⟨true, frame⟩ → insideLow pt = true →
        17 ≤ pt.assembly.bits.length → pt.assembly.bits.length < 33 + 8 * frame.payload.length →
        (sentBits frame)[pt.assembly.bits.length]? = some true → at' = pt.edge + 44 * bitPeriod pt.rate / 100 →
        seen = advance at' (withHeard p pt s) →
        exec (.overdrive p sy) s = .next (settle (driveAbort p pt.edge at' (ended seen)))) ∧
      (∀ seen : State, s.ports[p].tx = .sending ⟨true, frame⟩ ∨ s.ports[p].tx = .slots ⟨true, frame⟩ →
        insideLow pt = true → SampleAgrees (160 * bitPeriod pt.rate / 100) pt →
        seen = advance (pt.edge + 160 * bitPeriod pt.rate / 100) (withHeard p pt s) →
        exec (.abortPulse ⟨p, sy⟩) s =
          .next (settle (modPort p (fun q => { q with rx := .flush, heldFlush := false, pin := [], pulse := none })
            (leaveFrame p (ended seen))))) ∧
      (∀ (fault : SignalFault) (at' : Ticks) (q : Port) (seen : State),
        s.ports[p].tx = .sending ⟨true, frame⟩ ∨ s.ports[p].tx = .slots ⟨true, frame⟩ →
        FaultDetected fault pt at' q → seen = modPort p (fun _ => q) (advance at' (withHeard p pt s)) →
        exec (.signalError p ⟨sy, fault⟩) s =
          .next (settle (countPort p .abortsSent 1 (modPort p (fun x => { x with
              rx := .flush, heldFlush := false, edge := at', pin := [⟨.abort, at', at' + 2 * bitPeriod x.rate⟩]
              pulse := some (at' + 2 * bitPeriod x.rate) })
            (leaveFrame p (ended (countPort p .rxSignalErrors 1 seen))))))) ∧
      (∀ u : State, u.custody = s.custody → u.ports[p].retryLimit = s.ports[p].retryLimit →
        u.ports[p].tx = .sending ⟨true, frame⟩ ∨ u.ports[p].tx = .slots ⟨true, frame⟩ →
        endAttempt p .aborted u = ended u)))

/-! ### Route decisions, the pool, records and events -/

/-- A lookup. A segment frame is misplaced when its source's location is another segment port or TRUNK; its decision then names no
entry, no egress set, no mirror and no refusal reason, and counts no hit (that it is PASSIVE, of its own priority and of class 0 is
the model's choice, log 26). Otherwise, and for every trunk frame, the first entry of the active bank that matches decides and its
hit count alone advances by one; where none matches nothing changes. An entry matches when it is valid, the ingress port is a member
of its ingress set, the destination lies in its range, its source range is absent or the source lies within it, and the service is a
member of its mask. An entry's decision carries the epoch and the entry's mode, lifetime class and priority override; FORWARD gives
its egress set less the ingress port, refused DROPPED where that leaves a trunk frame none; DROP gives none, DROPPED; HOME gives the
destination's port by the node map, or NO_HOME or BLOCKED, or, at home on the ingress segment, none; a mirror is due where the entry
has it, the ingress is a segment and T is not in the set. A miss carries the frame's own priority and class 0: NO_ROUTE from the
trunk and under DROP, else as HOME (R74 to R84). -/
def Obligations.LookupTakesFirstMatch : Prop :=
  (∀ (p : SegPort) (f : Frame) (s : State),
    (isMisplaced p f.source s = true ↔ ∃ h : f.source.val < 120,
      s.nodes.entries[f.source.val].location = .trunk ∨
        ∃ q : SegPort, q ≠ p ∧ s.nodes.entries[f.source.val].location = .seg q) ∧
    (isMisplaced p f.source s = true →
      segmentLookup p f s = ({ misplaced := true, entry := .miss, epoch := s.route.epoch, egress := 0, mode := .passive
                               priority := f.priority, lifetime := 0, mirror := false, refusal := none }, s)) ∧
    (isMisplaced p f.source s = false →
      segmentLookup p f s = matchFrame p.port s.ports[p].missAction f s)) ∧
  (∀ (ingress : PortId) (dest source : Address) (service : Service) (e : RouteEntry),
    entryMatches ingress dest source service e = true ↔
      e.valid = true ∧ e.ingress.getLsbD ingress.val = true ∧ (e.destLow ≤ dest.val ∧ dest.val ≤ e.destHigh) ∧
        (e.source = none ∨ ∃ low high, e.source = some (low, high) ∧ low ≤ source.val ∧ source.val ≤ high) ∧
        e.services.getLsbD service.val = true) ∧
  (∀ (ingress : PortId) (miss : MissAction) (f : Frame) (i : RouteIndex) (e : RouteEntry) (d : Decision) (s t : State),
    e = (activeBank s.route)[i] → entryMatches ingress f.dest f.source f.service e = true →
    (∀ j : RouteIndex, j < i → entryMatches ingress f.dest f.source f.service (activeBank s.route)[j] = false) →
    matchFrame ingress miss f s = (d, t) →
    d.entry = .entry i ∧ d.misplaced = false ∧ d.epoch = s.route.epoch ∧ d.mode = e.mode ∧ d.lifetime = e.lifetime ∧
    d.priority = e.priority.getD f.priority ∧
    (d.mirror = true ↔ e.mirror = true ∧ ingress ≠ trunkPort ∧ d.egress.getLsbD 4 = false) ∧
    (e.action = .forward →
      (∀ q : PortId, d.egress.getLsbD q.val = (e.egress.getLsbD q.val && q != ingress)) ∧
        d.refusal = if ingress = trunkPort ∧ d.egress = 0 then some .dropped else none) ∧
    (e.action = .home → (d.egress, d.refusal) = resolveHome ingress f.dest s) ∧
    (e.action = .drop → d.egress = 0 ∧ d.refusal = some .dropped) ∧
    (∃ r : RouteList, t = { s with route := r } ∧ shadowBank r = shadowBank s.route ∧
      r.epoch = s.route.epoch ∧ r.purgeEpoch = s.route.purgeEpoch ∧ r.commit = s.route.commit ∧
      ∀ j : RouteIndex, (activeBank r)[j] =
        if j = i then { (activeBank s.route)[j] with hits := min ((activeBank s.route)[j].hits + 1) counterMax }
        else (activeBank s.route)[j])) ∧
  (∀ (ingress : PortId) (miss : MissAction) (f : Frame) (d : Decision) (s t : State),
    (∀ j : RouteIndex, entryMatches ingress f.dest f.source f.service (activeBank s.route)[j] = false) →
    matchFrame ingress miss f s = (d, t) →
    t = s ∧ d.entry = .miss ∧ d.misplaced = false ∧ d.epoch = s.route.epoch ∧ d.priority = f.priority ∧ d.lifetime = 0 ∧
    d.mirror = false ∧
    (ingress = trunkPort ∨ miss = .drop → d.egress = 0 ∧ d.mode = .passive ∧ d.refusal = some .noRoute) ∧
    (ingress ≠ trunkPort → miss ≠ .drop → (d.egress, d.refusal) = resolveHome ingress f.dest s ∧
      d.mode = if miss = .homeCustody then .custody else .passive)) ∧
  (∀ (ingress : PortId) (dest : Address) (s : State),
    (120 ≤ dest.val → resolveHome ingress dest s = (0, some .noHome)) ∧
    (∀ h : dest.val < 120,
      (s.nodes.entries[dest.val].location = .unassigned → resolveHome ingress dest s = (0, some .noHome)) ∧
      (s.nodes.entries[dest.val].location = .trunk →
        resolveHome ingress dest s = if ingress = trunkPort then (0, some .noHome) else (16, none)) ∧
      (∀ p : SegPort, s.nodes.entries[dest.val].location = .seg p →
        resolveHome ingress dest s =
          if ingress = p.port then (0, none)
          else if s.nodes.entries[dest.val].blocked = true then (0, some .blocked)
          else (BitVec.ofNat 5 (2 ^ p.val), none))))

/-- What admission settles for a decision: a stale epoch is NONE, RECONFIGURED; a refusal reason is NONE with that reason; an empty
egress set is LOCAL; with every target passing, ALL; with one failing, NONE under CUSTODY, and under PASSIVE SOME over the passing
ones, or NONE when there is none. The reason of a NONE is BLOCKED before PORT_DISABLED before NO_SPACE. A segment target fails
PORT_DISABLED when its port is disabled, else BLOCKED when the destination is a blocked node, and any target NO_SPACE when its
queue's lanes, holder and pending references together are at its limit, 48 for the trunk (R100, R115, R117, R118). -/
def Obligations.AdmissionSettlesTargets : Prop :=
  (∀ (dest : Address) (d : Decision) (s : State),
    (d.epoch < s.route.purgeEpoch →
      (settleTargets dest d s).result = .none ∧ (settleTargets dest d s).reason = some .reconfigured) ∧
    (∀ reason, s.route.purgeEpoch ≤ d.epoch → d.refusal = some reason →
      (settleTargets dest d s).result = .none ∧ (settleTargets dest d s).reason = some reason) ∧
    (s.route.purgeEpoch ≤ d.epoch → d.refusal = none → d.egress = 0 → (settleTargets dest d s).result = .loc) ∧
    (s.route.purgeEpoch ≤ d.epoch → d.refusal = none → d.egress ≠ 0 →
      ((∀ q : PortId, d.egress.getLsbD q.val = true → targetFailure dest s q = none) →
        (settleTargets dest d s).result = .all ∧
          ∀ q : PortId, q ∈ (settleTargets dest d s).admitted ↔ d.egress.getLsbD q.val = true) ∧
      ((∃ q : PortId, d.egress.getLsbD q.val = true ∧ targetFailure dest s q ≠ none) →
        (d.mode = .custody → (settleTargets dest d s).result = .none ∧ (settleTargets dest d s).admitted = []) ∧
        (d.mode = .passive →
          ((∃ q : PortId, d.egress.getLsbD q.val = true ∧ targetFailure dest s q = none) →
            (settleTargets dest d s).result = .some ∧
              ∀ q : PortId, q ∈ (settleTargets dest d s).admitted ↔
                d.egress.getLsbD q.val = true ∧ targetFailure dest s q = none) ∧
          ((∀ q : PortId, d.egress.getLsbD q.val = true → targetFailure dest s q ≠ none) →
            (settleTargets dest d s).result = .none ∧ (settleTargets dest d s).admitted = [])) ∧
        ((settleTargets dest d s).result = .none →
          (settleTargets dest d s).reason = some (
            if ∃ q : PortId, d.egress.getLsbD q.val = true ∧ targetFailure dest s q = some .blocked then .blocked
            else if ∃ q : PortId, d.egress.getLsbD q.val = true ∧ targetFailure dest s q = some .portDisabled then
              .portDisabled
            else .noSpace))))) ∧
  (∀ (dest : Address) (s : State) (used : PortId → Nat),
    (∀ q : PortId, used q = ((s.pool.queues[q].lanes.toList.map List.length).sum +
      (if s.pool.queues[q].holder.isSome then 1 else 0) + s.pool.queues[q].pending.length)) →
    (∀ p : SegPort, targetFailure dest s p.port =
      if s.ports[p].enabled = false then some .portDisabled
      else if ∃ h : dest.val < 120, s.nodes.entries[dest.val].blocked = true then some .blocked
      else if s.ports[p].queueLimit ≤ used p.port then some .noSpace else none) ∧
    targetFailure dest s trunkPort = if 48 ≤ used trunkPort then some .noSpace else none)

/-- Admission of a segment frame. A mirror copy is due when the decision's epoch is not stale, it says mirror, and T holds fewer than
48 references. With no target admitted and no copy due no slot is needed and nothing changes. Otherwise, with a slot on the free
list: the frame takes the slot at the head, with its fields, egress priority, epoch and deadline and no custody yet; one pending
reference of count 0 joins each admitted queue, and T a TRAP one when the copy is due, which may be the only one; nothing else
changes. With the free list empty POOL_EMPTY is raised and counted and nothing is admitted or copied: with targets the answer is
NONE, BLOCKED or PORT_DISABLED where a target fails so and else NO_SPACE, and without, what it was (R115, R118 to R121, R127). -/
def Obligations.SegmentAdmissionTakesSlot : Prop :=
  ∀ (p : SegPort) (f : Frame) (d : Decision) (s : State) (mirror : Bool) (targets : List PortId),
    targets = (settleTargets f.dest d s).admitted →
    (mirror = true ↔ s.route.purgeEpoch ≤ d.epoch ∧ d.mirror = true ∧
      (s.pool.queues[4].lanes.toList.map List.length).sum + (if s.pool.queues[4].holder.isSome then 1 else 0) +
        s.pool.queues[4].pending.length < 48) →
    (targets = [] → mirror = false →
      admitSegment p f d s =
        (⟨(settleTargets f.dest d s).result, (settleTargets f.dest d s).reason, false, none⟩, s)) ∧
    (∀ (i : SlotId) (rest : List SlotId), targets ≠ [] ∨ mirror = true → s.pool.free = i :: rest →
      (admitSegment p f d s).1 = ⟨(settleTargets f.dest d s).result, (settleTargets f.dest d s).reason, mirror, some i⟩ ∧
      ∃ pool : Pool, (admitSegment p f d s).2 = { s with pool := pool } ∧ pool.free = rest ∧
        pool.reserveSize = s.pool.reserveSize ∧ pool.lifetimes = s.pool.lifetimes ∧
        pool.slots = s.pool.slots.set i
          { status := .queued, frame := f, origin := p.port, ingress := p.port, entry := d.entry, priority := d.priority
            epoch := d.epoch
            deadline := if s.pool.lifetimes[d.lifetime] = 0 then none
              else some (s.now + s.pool.lifetimes[d.lifetime] * millisecond)
            custody := false, tag := none, refs := targets.length + mirror.toNat, inbound := none, decision := none } ∧
        ∀ q : PortId, pool.queues[q] = { s.pool.queues[q] with
          pending := s.pool.queues[q].pending ++ (if q ∈ targets then [⟨i, .frame, 0, none⟩] else []) ++
            (if mirror = true ∧ q = trunkPort then [⟨i, .trap, 0, none⟩] else []) }) ∧
    (s.pool.free = [] → targets ≠ [] ∨ mirror = true →
      (admitSegment p f d s).2 = countGateway .poolEmptyCount (raise .poolEmpty (.seg p) f.dest.val s) ∧
      (targets = [] → (admitSegment p f d s).1 =
        ⟨(settleTargets f.dest d s).result, (settleTargets f.dest d s).reason, false, none⟩) ∧
      (targets ≠ [] → (admitSegment p f d s).1 =
        ⟨.none, some (
          if ∃ q : PortId, d.egress.getLsbD q.val = true ∧ targetFailure f.dest s q = some .blocked then .blocked
          else if ∃ q : PortId, d.egress.getLsbD q.val = true ∧ targetFailure f.dest s q = some .portDisabled then
            .portDisabled
          else .noSpace), false, none⟩))

/-- A released slot, QUEUED or filled, joins the reserve as an unfilled slot when the number of RESERVED slots is then below
INBOUND_RESERVE, and otherwise the tail of the free list, whatever its origin (R113). In the first case the reserve, where it is still
short, is refilled from the head of the free list, and CREDIT pending is set while the link is UP (R111, R157). Nothing else changes:
no queue, no list, no counter, no event. -/
def Obligations.ReleasedSlotGoesToReserveOrTail : Prop :=
  ∀ (i : SlotId) (n : Nat) (s : State), s.pool.slots[i].status = .queued ∨ s.pool.slots[i].status = .filled →
    n = reservedCount s - (if s.pool.slots[i].status = .filled then 1 else 0) →
    (∀ m : Nat, n < s.pool.reserveSize → m = min (s.pool.reserveSize - (n + 1)) s.pool.free.length →
      releaseSlot i s = { s with
        pool := { s.pool with slots := (releaseSlot i s).pool.slots, free := s.pool.free.drop m }
        trunk := { s.trunk with creditPending := s.trunk.creditPending || s.trunk.link == .up } } ∧
      (∀ j : SlotId, (releaseSlot i s).pool.slots[j] =
        if j = i ∨ j ∈ s.pool.free.take m then .blank .unfilled else s.pool.slots[j])) ∧
    (s.pool.reserveSize ≤ n →
      releaseSlot i s = { s with
        pool := { s.pool with slots := s.pool.slots.set i (.blank .free), free := s.pool.free ++ [i] } })

/-- A reference of a frame whose destination is 0 to 119, released DELIVERED, sets that node's failures to 0 and leaves its state as
it is; no other node changes, and a delivery to a group changes none (R103). -/
def Obligations.DeliveryClearsFailures : Prop :=
  ∀ (p : SegPort) (r : Ref) (s : State),
    (∀ i : Fin 120, (slotOf r s).frame.dest.val = i.val →
      (deliverRef p r s).nodes.entries[i] = { s.nodes.entries[i] with failures := 0 }) ∧
    (∀ i : Fin 120, (slotOf r s).frame.dest.val ≠ i.val →
      (deliverRef p r s).nodes.entries[i] = s.nodes.entries[i])

/-- A delivery failure advances the node's failures, staying at 15. At a BLOCK_THRESHOLD that is not 0, an OPEN node whose failures
are at or above it is blocked, NODE_BLOCKED is raised with its location and address, and the block sweep runs; in every other case
the increment is the whole effect. The block sweep takes the four segment queues in order; in each, every lane keeps exactly its
references to other destinations, those to the blocked node are removed BLOCKED, and its pending references and its attempt holder's
are marked blocked where they had no mark; no other queue's lanes, holder or pending references change (R102, R104, R105). -/
def Obligations.DeliveryFailureBlocksNode : Prop :=
  (∀ (i : Fin 120) (dest : Address) (s : State), dest.val = i.val →
    (s.nodes.threshold ≠ 0 → s.nodes.threshold ≤ min (s.nodes.entries[i].failures + 1) 15 →
      s.nodes.entries[i].blocked = false →
      nodeFailed dest s =
        [0, 1, 2, 3].foldl (blockSweepQueue dest) (raise .nodeBlocked s.nodes.entries[i].location dest.val
          (modNode i (fun e => { e with failures := min (e.failures + 1) 15, blocked := true }) s)) ∧
      ∀ p : SegPort, ∀ lane : Priority, ∀ r ∈ (nodeFailed dest s).pool.queues[p.port].lanes[lane],
        r ∈ s.pool.queues[p.port].lanes[lane]) ∧
    (s.nodes.threshold = 0 ∨ min (s.nodes.entries[i].failures + 1) 15 < s.nodes.threshold ∨
        s.nodes.entries[i].blocked = true →
      nodeFailed dest s = modNode i (fun e => { e with failures := min (e.failures + 1) 15 }) s)) ∧
  (∀ (dest : Address) (p : SegPort) (s swept : State), swept = blockSweepQueue dest s p →
    (∀ lane : Priority, swept.pool.queues[p.port].lanes[lane] =
      s.pool.queues[p.port].lanes[lane].filter fun r => (slotOf r s).frame.dest != dest) ∧
    swept.pool.queues[p.port].pending = s.pool.queues[p.port].pending.map (fun r =>
      if (slotOf r s).frame.dest = dest ∧ r.mark = none then { r with mark := some .blocked } else r) ∧
    swept.pool.queues[p.port].holder = s.pool.queues[p.port].holder.map (fun r =>
      if (slotOf r s).frame.dest = dest ∧ r.mark = none then { r with mark := some .blocked } else r) ∧
    (∀ q : PortId, q ≠ p.port → swept.pool.queues[q] = s.pool.queues[q]) ∧
    swept = dueIfGone p.port (((laneRefs s.pool.queues[p.port]).filter fun r => (slotOf r s).frame.dest == dest).foldl
      (fun t r => discardRef p.port r .blocked t) { s with pool := { s.pool with queues := swept.pool.queues } }))

/-- The custody unit takes an end record of a segment-origin slot that was not delivered: suppressed for service 15 or a blocked
target, created and discarded on a disabled port, lost with NOTICE_LOST when the list holds 8, and else appended to the tail (R136;
selection then falls due, R137). Of a tagged trunk-origin slot it makes a report: not made in SEEK and TRAIN and lost with
REPORT_LOST when the list holds 16, counted REPORTS_LOST in both cases, and else appended. Removing a reference hands over an end
record when the frame is in custody, the reference is no TRAP copy, and it was not delivered or carries a tag; then the slot's
reference count falls, and the last reference releases the slot (R126, R134, R135, R140). -/
def Obligations.NoticeIsCreatedOrLost : Prop :=
  (∀ (n : Notice) (s : State),
    (n.service = 15 ∨ nodeBlocked n.target s = true → createNotice n s = countGateway .noticesSuppressed s) ∧
    (n.service ≠ 15 → nodeBlocked n.target s = false →
      (s.ports[n.port].enabled = false → createNotice n s = countGateway .noticesCreated s) ∧
      (s.ports[n.port].enabled = true → 8 ≤ s.custody.notices.length →
        createNotice n s = raise .noticeLost (.seg n.port) n.target.val (countGateway .noticesLost s)) ∧
      (s.ports[n.port].enabled = true → s.custody.notices.length < 8 →
        createNotice n s = modPort n.port (fun pt => { pt with due := true })
          { countGateway .noticesCreated s with custody := { s.custody with notices := s.custody.notices ++ [n] } }))) ∧
  (∀ (r : Report) (s : State),
    (s.trunk.link = .seek ∨ s.trunk.link = .train → createReport r s = countTrunk .reportsLost 1 s) ∧
    (s.trunk.link = .up ∨ s.trunk.link = .suspect →
      (16 ≤ s.custody.reports.length →
        createReport r s = raise .reportLost .trunk r.tag.toNat (countTrunk .reportsLost 1 s)) ∧
      (s.custody.reports.length < 16 →
        createReport r s = { s with custody := { s.custody with reports := s.custody.reports ++ [r] } }))) ∧
  (∀ (q : PortId) (r : Ref) (reason : Reason) (sl : FrameSlot) (s handed : State), sl = s.pool.slots[r.slot] →
    (sl.custody = false ∨ r.kind = .trap ∨ (reason = .delivered ∧ sl.tag = none) → handed = s) →
    (sl.custody = true → r.kind = .frame → reason ≠ .delivered ∨ sl.tag ≠ none →
      (∀ o p : SegPort, sl.origin = o.port → sl.ingress = p.port →
        handed = if reason = .delivered then s
          else createNotice ⟨p, sl.frame.source, sl.frame.dest, sl.frame.service, reason, min r.count 255, q, 0, false⟩ s) ∧
      (∀ tag : BitVec 16, sl.origin = trunkPort → sl.tag = some tag →
        handed = createReport ⟨tag, reason, some q, min r.count 255, false⟩ s) ∧
      (sl.origin = trunkPort → sl.tag = none → handed = s)) →
    (∃ p : SegPort, sl.ingress = p.port) ∨ sl.origin = trunkPort →
    (sl.refs ≤ 1 → dropRef q r reason s = releaseSlot r.slot handed) ∧
    (1 < sl.refs → dropRef q r reason s = modSlot r.slot (fun x => { x with refs := x.refs - 1 }) handed)) ∧
  (∀ (p : SegPort) (r : Ref) (reason : Reason) (s : State),
    discardRef p.port r reason s = dropRef p.port r reason (countPort p .discarded 1 s) ∧
      discardRef trunkPort r reason s = dropRef trunkPort r reason s)

/-- The event list takes a raised event by the first case that fits: masked, an occurrence more of the record of its kind and port, a
further occurrence of a record in transmission, appended, or lost and counted. Bits 0 to 7 of EVENT_MASK mask the kinds with codes 1
to 8 (R181, R182; 11, GATEWAY SETTINGS and CODE VALUES). -/
def Obligations.EventIsTaken : Prop :=
  ∀ (kind : EventKind) (port : Location) (detail : Nat) (s : State) (bit : Bool),
    bit = s.events.mask.getLsbD (match kind with
      | .lineHeld => 0
      | .lineReleased => 1
      | .nodeBlocked => 2
      | .noticeLost => 3
      | .reportLost => 4
      | .creditViolation => 5
      | .poolEmpty => 6
      | .linkResumed => 7) →
    (bit = true → raise kind port detail s = s) ∧
    (∀ before e after, bit = false → s.events.records = before ++ e :: after → e.kind = kind → e.port = port →
      (∀ x ∈ before ++ after, ¬(x.kind = kind ∧ x.port = port)) →
      (e.inTx = false → raise kind port detail s = { s with events := { s.events with
        records := before ++ { e with occurrences := min (e.occurrences + 1) 255 } :: after } }) ∧
      (e.inTx = true → raise kind port detail s = { s with events := { s.events with
        records := before ++ { e with
          further := min (e.further + 1) 255
          furtherDetail := if e.further = 0 then min detail 65535 else e.furtherDetail } :: after } })) ∧
    (bit = false → (∀ x ∈ s.events.records, ¬(x.kind = kind ∧ x.port = port)) →
      (s.events.records.length < 16 → raise kind port detail s = { s with events := { s.events with
        records := s.events.records ++ [⟨kind, port, min detail 65535, 1, false, 0, 0⟩] } }) ∧
      (16 ≤ s.events.records.length → raise kind port detail s = countGateway .eventsLost s))

/-- DEADLINE_EXPIRY of a QUEUED frame takes the five queues in order; in each, every lane keeps exactly its references to other
frames, each one to this frame is removed EXPIRED in lane order, one in a segment queue's attempt holder is marked expired unless it
is marked already, and one in trunk transmission is left; another frame's holder, the pending references and the other queues stay
(R60, R126, R128; log 2). Of a slot that is not QUEUED or has no deadline nothing expires (log 1). -/
def Obligations.DeadlineExpiryRemovesReferences : Prop :=
  (∀ (i : SlotId) (deadline : Ticks) (s : State), s.pool.slots[i].status = .queued →
    s.pool.slots[i].deadline = some deadline →
    exec (.deadlineExpiry i) s = .next (settle (allPorts.foldl (expireQueue i) { s with now := max s.now deadline }))) ∧
  (∀ (i : SlotId) (s : State), s.pool.slots[i].status ≠ .queued ∨ s.pool.slots[i].deadline = none →
    exec (.deadlineExpiry i) s = .next s) ∧
  (∀ (i : SlotId) (s swept : State) (q : PortId), swept = expireQueue i s q →
    (∀ lane : Priority, swept.pool.queues[q].lanes[lane] = s.pool.queues[q].lanes[lane].filter fun r => r.slot != i) ∧
    swept.pool.queues[q].holder = s.pool.queues[q].holder.map (fun r =>
      if q ≠ trunkPort ∧ r.slot = i ∧ r.mark = none then { r with mark := some .expired } else r) ∧
    swept.pool.queues[q].pending = s.pool.queues[q].pending ∧
    (∀ other : PortId, other ≠ q → swept.pool.queues[other] = s.pool.queues[other]) ∧ Kept s swept ∧
    swept = dueIfGone q (((laneRefs s.pool.queues[q]).filter fun r => r.slot == i).foldl
      (fun t r => discardRef q r .expired t) { s with pool := { s.pool with queues := swept.pool.queues } }))

/-! ### The trunk link -/

/-- LOCK_GAINED: the 16th consecutive valid character gains lock, and in SEEK the monitor goes to TRAIN. LOCK_LOST: the last of 4
invalid characters loses lock, with every count and any frame in reception gone, the abandoned frame counted in CHECK_ERRORS; TRAIN
goes to SEEK, and UP to SUSPECT, with the hold timer started, CREDIT pending and the refresh timer cleared and a frame in
transmission cut; SUSPECT stays. Between frames the idle character in progress at the change runs to its end, and those that begin
from then on are IDLE_R in lock and IDLE_S out of it (R143 to R145, R148, R163; how a frame is cut is stated with ENTER_SUSPECT, and
that a character which begins at the instant of the change is of the new kind is the model's choice, log 30). -/
def Obligations.LockIsGainedAndLost : Prop :=
  (∀ (chars : List TrunkChar) (s : State), s.trunk.rx.lock = false → chars ≠ [] → TrunkChar.invalid ∉ chars →
    chars.length + s.trunk.rx.run = 16 →
    ∃ rx : TrunkRx, rx.lock = true ∧ rx.run = 0 ∧ rx.invalid = 0 ∧ rx.frame = s.trunk.rx.frame ∧
      exec (.lockGained chars) s =
        .next { s with trunk := { s.trunk with
          rx := rx, link := if s.trunk.link = .seek then .train else s.trunk.link
          idleChanged := s.now, idleWasR := idleIsR s.trunk s.now } }) ∧
  (∀ (k : Nat) (s entered : State), s.trunk.rx.lock = true → s.trunk.link ≠ .seek → k + 1 + s.trunk.rx.invalid = 4 →
    (s.trunk.rx.frame = none ∨ k = 0) →
    entered = { s with trunk := { s.trunk with
      link := .suspect, rx := ⟨false, 0, 0, 0, 0, none⟩, hold := some ⟨s.now, s.now + s.trunk.suspectHold * 25000⟩
      creditPending := false, refresh := none, idleChanged := s.now, idleWasR := idleIsR s.trunk s.now
      counters := modAt s.trunk.counters TrunkCounter.checkErrors.index (saturate · s.trunk.rx.frame.isSome.toNat) } } →
    ∃ t, exec (.lockLost (List.replicate (k + 1) .invalid)) s = .next t ∧
      t.trunk.rx = ⟨false, 0, 0, 0, 0, none⟩ ∧
      (s.trunk.link = .train → t.trunk.link = .seek) ∧ (s.trunk.link = .suspect → t.trunk.link = .suspect) ∧
      (s.trunk.link = .up → t.trunk.link = .suspect ∧ t.trunk.hold = entered.trunk.hold ∧
        t.trunk.creditPending = false ∧ t.trunk.refresh = none ∧ t.trunk.tx = none ∧ Kept { s with trunk := t.trunk } t ∧
        (s.trunk.tx = none → t = settle entered) ∧ (s.trunk.tx ≠ none → t = settle (cutForSuspect entered))) ∧
      (s.trunk.link ≠ .up →
        t = countTrunk .checkErrors s.trunk.rx.frame.isSome.toNat { s with trunk := { s.trunk with
          rx := ⟨false, 0, 0, 0, 0, none⟩, link := if s.trunk.link = .train then .seek else s.trunk.link
          idleChanged := s.now, idleWasR := idleIsR s.trunk s.now } })) ∧
  (∀ (before after : Trunk) (now at' : Ticks) (ready : Bool), before.tx = none → before.cut = none → after.tx = none →
    after.cut = none → after.lineStart = before.lineStart → after.idleChanged = now → after.idleWasR = idleIsR before now →
    ready = (after.rx.lock && after.link != .seek) → before.lineStart ≤ now → now ≤ at' →
    trunkOut after at' =
      if now ≤ before.lineStart + (at' - before.lineStart) / 20 * 20 then some (if ready then .idleR else .idleS)
      else trunkOut before now)

/-- FRESH_UP: the 32nd consecutive IDLE_R in TRAIN sets every credit and sequence count to 0, CREDIT pending and the refresh timer,
and counts LINK_UPS. RESUME: the 32nd in SUSPECT, while the hold timer runs, keeps the counts, stops the hold timer, sets CREDIT
pending and the refresh timer and raises LINK_RESUMED with the time since entry in microseconds (R145, R147, R149, R158). -/
def Obligations.IdleRunBringsLinkUp : Prop :=
  ∀ (k : Nat) (s : State), s.trunk.rx.lock = true → s.trunk.rx.frame = none → k + 1 + s.trunk.rx.idleR = 32 →
    ∃ rx : TrunkRx, rx.lock = true ∧ rx.frame = none ∧ rx.idleR = 0 ∧ rx.idleS = 0 ∧
      (s.trunk.link = .train →
        exec (.freshUp (List.replicate (k + 1) .idleR)) s =
          .next (countTrunk .linkUps 1 { s with trunk := { s.trunk with
            link := .up, rx := rx, outLimit := 0, sent := 0, nextExpected := 0, advertised := 0, creditPending := true
            refresh := some (s.now + 22500) } })) ∧
      (∀ hold : HoldTimer, s.trunk.link = .suspect → s.trunk.hold = some hold →
        exec (.resume (List.replicate (k + 1) .idleR)) s =
          .next (raise .linkResumed .trunk ((s.now - hold.startedAt) / 25) { s with trunk := { s.trunk with
            link := .up, rx := rx, hold := none, creditPending := true, refresh := some (s.now + 22500) } }))

/-- ENTER_SUSPECT: the 8th consecutive IDLE_S in UP starts the hold timer and clears CREDIT pending and the refresh timer; with no frame
in transmission nothing else changes. A frame in transmission is ended with CUT in place of its next character and counted in
CUT_FRAMES, one idle character at least before the next frame. The reference of a DATA or TRAP frame goes back to the head of its
lane, or is removed EXPIRED when its deadline has passed; a report is offered again; an event's record takes its further
occurrences; a response stays in its holder; nothing more is done for a CREDIT. On the line the cut frame's characters run up to
the CUT, and idle characters follow it (R125, R141, R143, R145, R148, R160, R163, R186; the model's choices: log 2, log 22,
and log 29 for a frame cut during its EOF or on a character boundary). -/
def Obligations.EighthIdleEntersSuspect : Prop :=
  (∀ (k : Nat) (s : State), s.trunk.link = .up → s.trunk.rx.lock = true → s.trunk.rx.frame = none →
    k + 1 + s.trunk.rx.idleS = 8 →
    ∃ (rx : TrunkRx) (entered : State), rx.lock = true ∧ rx.frame = none ∧ rx.idleR = 0 ∧ rx.idleS = 0 ∧
      entered = { s with trunk := { s.trunk with
        link := .suspect, rx := rx, hold := some ⟨s.now, s.now + s.trunk.suspectHold * 25000⟩, creditPending := false
        refresh := none } } ∧
      (s.trunk.tx = none → exec (.enterSuspect (List.replicate (k + 1) .idleS)) s = .next (settle entered)) ∧
      (s.trunk.tx ≠ none →
        exec (.enterSuspect (List.replicate (k + 1) .idleS)) s = .next (settle (cutForSuspect entered)))) ∧
  (∀ (f : TxFrame) (cutAt : Ticks) (s cut : State), s.trunk.tx = some f →
    cutAt = f.startedAt + ((s.now - f.startedAt) / characterTime + 1) * characterTime →
    cut = countTrunk .cutFrames 1 { s with trunk := { s.trunk with
      tx := none, cut := some ⟨f, cutAt⟩, nextStart := cutAt + 2 * characterTime } } →
    (∀ r : Ref, f.kind = .data ∨ f.kind = .trap → s.pool.queues[trunkPort].holder = some r →
      cutForSuspect s =
        if ∃ d : Ticks, (slotOf r s).deadline = some d ∧ d ≤ s.now then dropRef trunkPort r .expired (setHolder trunkPort none cut)
        else returnToHead trunkPort r (setHolder trunkPort none cut)) ∧
    (f.kind = .credit ∨ f.kind = .mgmtRsp → cutForSuspect s = cut) ∧
    (f.kind = .report →
      cutForSuspect s =
        { cut with custody := { s.custody with reports := s.custody.reports.map fun r => { r with inTx := false } } }) ∧
    (∀ before e after, f.kind = .event → s.events.records = before ++ e :: after → e.inTx = true →
      (∀ x ∈ before ++ after, x.inTx = false) →
      cutForSuspect s = { cut with events := { s.events with
        records := before ++ { e with
          inTx := false, occurrences := min (e.occurrences + e.further) 255, further := 0 } :: after } }) ∧
    (∀ t : Ticks, s.trunk.lineStart ≤ t →
      trunkOut cut.trunk t = some (
        if t < cutAt then ((envelope f.kind.code f.seq f.body)[(t - f.startedAt) / characterTime]?).getD (idleAt cut.trunk t)
        else if t < cutAt + characterTime then .cut
        else idleAt cut.trunk t)))

/-- HOLD_TIMER_EXPIRY in SUSPECT: every reference of the trunk queue's lanes is removed LINK_DOWN, with its end record, in lane
order, and the pending ones are marked link-down unless they are marked; the report list is discarded, REPORTS_LOST advancing once
for each of its records; the waiting requests and the response are gone, a request in execution is marked, every credit and sequence
count is 0, the monitor goes to TRAIN in lock and else to SEEK, and the reserve is trimmed. REFRESH_TIMER_EXPIRY in UP: CREDIT
pending is set and the timer has run out (R122, R130, R142, R150, R158; log 2, log 18; that NOTICE_LOST is raised for a notice lost
in it, log 34). -/
def Obligations.TimersExpire : Prop :=
  (∀ (hold : HoldTimer) (s : State), s.trunk.link = .suspect → s.trunk.hold = some hold →
    ∃ t, exec .holdTimerExpiry s = .next t ∧
      t.trunk.link = (if s.trunk.rx.lock then .train else .seek) ∧ t.trunk.hold = none ∧ t.trunk.outLimit = 0 ∧
      t.trunk.sent = 0 ∧ t.trunk.nextExpected = 0 ∧ t.trunk.advertised = 0 ∧ t.trunk.creditPending = false ∧
      t.trunk.refresh = none ∧ t.trunk.response = none ∧
      (∀ lane : Priority, t.pool.queues[trunkPort].lanes[lane] = []) ∧
      (∀ r ∈ t.pool.queues[trunkPort].pending, r.mark ≠ none) ∧
      t.custody.reports = [] ∧
      (s.agent.executing = false → t.agent.buffers = []) ∧
      (s.agent.executing = true → t.agent = ⟨s.agent.buffers.take 1, true, true⟩) ∧
      (unfilledCount t = 0 ∨ reservedCount t ≤ s.pool.reserveSize) ∧
      t.trunk.rx = { s.trunk.rx with idleR := 0, idleS := 0 } ∧ t.trunk.suspectHold = s.trunk.suspectHold ∧
      t.trunk.tx = s.trunk.tx ∧ t.trunk.taken = s.trunk.taken ∧
      Kept { s with
        now := max s.now hold.expiresAt, freeCount := t.freeCount, agent := t.agent, trunk := t.trunk } t) ∧
  (∀ (hold : HoldTimer) (s marked flushed : State), s.trunk.link = .suspect → s.trunk.hold = some hold →
    marked = { s with
      now := max s.now hold.expiresAt
      pool := { s.pool with queues := modAt s.pool.queues trunkPort fun Q => { Q with
        lanes := Vector.replicate 8 []
        pending := Q.pending.map fun r => if r.mark = none then { r with mark := some .linkDown } else r } } } →
    flushed = (laneRefs s.pool.queues[trunkPort]).foldl (fun t r => discardRef trunkPort r .linkDown t) marked →
    exec .holdTimerExpiry s = .next (settle (trim { flushed with
      custody := { flushed.custody with reports := [] }
      agent := if s.agent.executing then ⟨s.agent.buffers.take 1, true, true⟩ else { s.agent with buffers := [] }
      trunk := { flushed.trunk with
        link := if s.trunk.rx.lock then .train else .seek
        rx := { s.trunk.rx with idleR := 0, idleS := 0 }
        hold := none, outLimit := 0, sent := 0, nextExpected := 0, advertised := 0, creditPending := false
        refresh := none, response := none
        counters := modAt flushed.trunk.counters TrunkCounter.reportsLost.index
          (saturate · flushed.custody.reports.length) } }))) ∧
  (∀ (at' : Ticks) (s : State), s.trunk.link = .up → s.trunk.refresh = some at' →
    exec .refreshTimerExpiry s =
      .next { s with now := max s.now at', trunk := { s.trunk with creditPending := true, refresh := none } })

/-- A frame sent is a frame heard. For every kind, sequence octet and body of up to 60 octets, a receiver in lock with no frame in
reception hears the envelope's characters as one complete frame of its octets, and no more; the checks pass its CRC-16, and
a frame with another CRC fails it (R143, R151, R152, R188). -/
def Obligations.EnvelopeIsHeardWhole : Prop :=
  ∀ (link : LinkState) (rx : TrunkRx) (kind seq : Octet) (body : List Octet), rx.lock = true → rx.frame = none →
    body.length ≤ 60 →
    (∃ rx' : TrunkRx, rx'.lock = true ∧ rx'.frame = none ∧ rx'.idleR = 0 ∧ rx'.idleS = 0 ∧
      hear link rx (envelope kind seq body) = .event rx' (.frameEnded (.complete (envelopeOctets kind seq body)))) ∧
    (∀ r : Received, receivedOf? kind seq body = some r → checkFrame (envelopeOctets kind seq body) = .good r) ∧
    (receivedOf? kind seq body = none → checkFrame (envelopeOctets kind seq body) = .formatError) ∧
    (∀ hi lo : Octet, word16 hi lo ≠ crc16 (coveredOctets kind seq body) →
      checkFrame (coveredOctets kind seq body ++ [hi, lo]) = .crcError)

/-- The bodies the partner sends are read as they are laid out: every request with its code and arguments, and every DATA frame of
up to 12 payload octets with its flags, direct port and tag, flags bits 3 to 7 ignored; and nothing else is read: a DATA body that
is none of these layouts, a CREDIT body that is not one octet, a MGMT_REQ body of fewer than two, and any other kind, is none; and a
MGMT_REQ whose code and argument octets are those of no request, an unknown code or another length, is a malformed request, to be
refused BAD_REQUEST (11_formats_on_the_wire.md, DATA and MANAGEMENT FRAMES; R152, R167 check 1, R189; a source octet over 127 is
log 27). -/
def Obligations.PartnerBodiesRoundTrip : Prop :=
  (∀ (op : RequestOp) (code : Octet) (args : List Octet), requestOctets op = some (code, args) → requestOf code args = op) ∧
  (∀ (code : Octet) (args : List Octet), (∀ op : RequestOp, requestOctets op ≠ some (code, args)) →
    requestOf code args = .malformed) ∧
  (∀ d : DataFrame, d.frame.payload.length ≤ 12 → dataOf? (dataFrameBody d) = some d) ∧
  (∀ (seq high : Octet) (d : DataFrame), d.frame.payload.length ≤ 12 →
    receivedOf? 1 seq ((dataFrameBody d).set 4 (BitVec.ofNat 8 (dataFlags d) ||| high <<< 3)) = some (.data seq d)) ∧
  (∀ seq limit : Octet, receivedOf? 3 seq [limit] = some (.credit limit)) ∧
  (∀ (seq code id : Octet) (args : List Octet), receivedOf? 4 seq (code :: id :: args) = some (.request ⟨id, requestOf code args⟩)) ∧
  (∀ (kind seq : Octet) (body : List Octet),
    (kind = 1 → (receivedOf? kind seq body ≠ none ↔ ∃ (d : DataFrame) (high : Octet), d.frame.payload.length ≤ 12 ∧
      body = (dataFrameBody d).set 4 (BitVec.ofNat 8 (dataFlags d) ||| high <<< 3))) ∧
    (kind = 3 → (receivedOf? kind seq body ≠ none ↔ body.length = 1)) ∧
    (kind = 4 → (receivedOf? kind seq body ≠ none ↔ 2 ≤ body.length)) ∧
    (kind ≠ 1 → kind ≠ 3 → kind ≠ 4 → receivedOf? kind seq body = none))

/-- TRUNK_FRAME_RECEIVED. At each fault of R152 the frame in reception is discarded and the fault's counter advances, and nothing
else but the receiver's counts changes; a SOF opens a new frame. A whole frame in lock, in UP: a CREDIT sets the outbound limit; a
request is offered to the agent; a DATA frame outside the window is counted in CREDIT_VIOLATIONS and raises that event; one inside
it is counted and fills an unfilled reserved slot, SEQ_GAPS advances by the numbers skipped, next expected passes it, and CREDIT
falls pending unless it came in order. In TRAIN and SUSPECT any frame is counted in FORMAT_ERRORS (R112, R152 to R154, R157, R159,
R165; which unfilled slot is left open, log 9). -/
def Obligations.ReceivedFrameIsDispatched : Prop :=
  (∀ (kind seq : Octet) (body : List Octet) (r : Received) (s : State), s.trunk.rx.lock = true → s.trunk.rx.frame = none →
    body.length ≤ 60 → receivedOf? kind seq body = some r →
    ∃ (rx : TrunkRx) (heardState : State), rx.lock = true ∧ rx.frame = none ∧
      heardState = { s with trunk := { s.trunk with rx := rx } } ∧
      (∀ limit, s.trunk.link = .up → r = .credit limit →
        exec (.trunkFrameReceived (envelope kind seq body)) s =
          .next (countTrunk .framesIn 1
            { heardState with trunk := { heardState.trunk with outLimit := limit } })) ∧
      (∀ req, s.trunk.link = .up → r = .request req → s.agent.buffers.length < 2 →
        exec (.trunkFrameReceived (envelope kind seq body)) s =
          .next (countTrunk .framesIn 1
            { heardState with agent := { s.agent with buffers := s.agent.buffers ++ [req] } })) ∧
      (∀ req, s.trunk.link = .up → r = .request req → 2 ≤ s.agent.buffers.length →
        exec (.trunkFrameReceived (envelope kind seq body)) s =
          .next (countTrunk .requestOverruns 1 (countTrunk .framesIn 1 heardState))) ∧
      (∀ n d, s.trunk.link = .up → r = .data n d →
        (s.trunk.advertised - s.trunk.nextExpected).toNat ≤ (n - s.trunk.nextExpected).toNat →
        exec (.trunkFrameReceived (envelope kind seq body)) s =
          .next (raise .creditViolation .trunk n.toNat (countTrunk .creditViolations 1 heardState))) ∧
      (∀ n d, s.trunk.link = .up → r = .data n d →
        (n - s.trunk.nextExpected).toNat < (s.trunk.advertised - s.trunk.nextExpected).toNat → unfilledCount s ≠ 0 →
        ∃ i : SlotId, s.pool.slots[i].status = .unfilled ∧
          exec (.trunkFrameReceived (envelope kind seq body)) s =
            .next (countTrunk .seqGaps (n - s.trunk.nextExpected).toNat (countTrunk .framesIn 1 { heardState with
              freeCount := s.freeCount + 1
              pool := { s.pool with slots := s.pool.slots.set i { s.pool.slots[i] with
                status := .filled, frame := d.frame, inbound := some d.inbound } }
              trunk := { heardState.trunk with
                taken := s.trunk.taken ++ [i], nextExpected := n + 1
                creditPending := if n = s.trunk.nextExpected then s.trunk.creditPending else true } }))) ∧
      (s.trunk.link = .train ∨ s.trunk.link = .suspect →
        exec (.trunkFrameReceived (envelope kind seq body)) s = .next (countTrunk .formatErrors 1 heardState))) ∧
  (∀ (chars : List TrunkChar) (rx : TrunkRx) (os : List Octet) (c : TrunkChar) (counter : TrunkCounter) (s : State),
    s.trunk.rx.lock = true → hear s.trunk.link s.trunk.rx chars = .quiet rx → rx.frame = some os →
    ReceiveFault rx os c counter →
    ∃ rx' : TrunkRx, rx'.lock = true ∧ rx'.frame = (if c = .sof then some [] else none) ∧
      exec (.trunkFrameReceived (chars ++ [c])) s =
        .next (countTrunk counter 1 { s with trunk := { s.trunk with rx := rx' } }))

/-- TRUNK_DATA_ROUTING takes the oldest taken frame to its next step. With no decision bound: a source that is not located TRUNK is
rejected BAD_SOURCE, its slot released and a tagged frame reported; else a decision is bound with it in its slot, for its direct
port with no lookup, or by the route list. With a decision bound: admission with that decision, whose epoch a commit with purge may
have made stale meanwhile. Admission of a trunk frame: with no target admitted the slot is released and a tagged frame reported with
the reason, RECONFIGURED for a stale epoch; else the slot becomes QUEUED with origin and ingress T, the decision's priority and
epoch, its deadline, the tag, and custody when the mode is CUSTODY and the frame asked for it, an unmarked reference of count 0
joins the tail of its lane in each admitted queue, whose port is due to select (log 10), no other queue changes, and the reserve is
refilled from the head of the free list, which sets CREDIT pending while the link is UP; nothing else changes, no record is made and
nothing counted (R78, R91, R98, R111, R117 to R123, R127, R155 to R157). That a frame takes the command twice
is log 31. -/
def Obligations.TakenDataIsRouted : Prop :=
  (∀ (i : SlotId) (rest : List SlotId) (inb : Inbound) (s routed : State), s.trunk.taken = i :: rest →
    s.pool.slots[i].inbound = some inb → routed = { s with trunk := { s.trunk with taken := rest } } →
    (s.pool.slots[i].decision = none → nodeLocation s.pool.slots[i].frame.source s ≠ .trunk →
      exec .trunkDataRouting s =
        .next ((match inb.tag with
          | some tag => createReport ⟨tag, .badSource, none, 0, false⟩
          | none => id) (releaseSlot i routed))) ∧
    (∀ p : SegPort, s.pool.slots[i].decision = none → nodeLocation s.pool.slots[i].frame.source s = .trunk →
      inb.direct = some p →
      exec .trunkDataRouting s = .next { s with pool := { s.pool with slots := s.pool.slots.set i { s.pool.slots[i] with
        decision := some
          { misplaced := false, entry := .direct, epoch := s.route.epoch, egress := portSingleton p.port
            mode := if inb.custody then .custody else .passive, priority := s.pool.slots[i].frame.priority
            lifetime := inb.lifetime, mirror := false, refusal := none } } } }) ∧
    (∀ (d : Decision) (looked : State), s.pool.slots[i].decision = none →
      nodeLocation s.pool.slots[i].frame.source s = .trunk → inb.direct = none →
      matchFrame trunkPort .drop s.pool.slots[i].frame s = (d, looked) →
      exec .trunkDataRouting s = .next { s with
        route := looked.route
        pool := { s.pool with slots := s.pool.slots.set i { s.pool.slots[i] with decision := some d } } }) ∧
    (∀ d : Decision, s.pool.slots[i].decision = some d →
      exec .trunkDataRouting s = .next (settle (admitTrunk i inb d routed)) ∧
      (d.epoch < s.route.purgeEpoch →
        exec .trunkDataRouting s =
          .next (settle ((match inb.tag with
            | some tag => createReport ⟨tag, .reconfigured, none, 0, false⟩
            | none => id) (releaseSlot i routed)))))) ∧
  (∀ (i : SlotId) (inb : Inbound) (d : Decision) (targets : List PortId) (s t : State),
    targets = (settleTargets s.pool.slots[i].frame.dest d s).admitted → t = admitTrunk i inb d s →
    (∀ reason : Reason, targets = [] → (settleTargets s.pool.slots[i].frame.dest d s).reason = some reason →
      t = (match inb.tag with
        | some tag => createReport ⟨tag, reason, none, 0, false⟩
        | none => id) (releaseSlot i s)) ∧
    (∀ n : Nat, targets ≠ [] → s.pool.slots[i].status = .filled → i ∉ s.pool.free →
      n = min (s.pool.reserveSize - (reservedCount s - 1)) s.pool.free.length →
      t.pool.slots[i] = { s.pool.slots[i] with
        status := .queued, origin := trunkPort, ingress := trunkPort, priority := d.priority, epoch := d.epoch
        deadline := if s.pool.lifetimes[d.lifetime] = 0 then none
          else some (s.now + s.pool.lifetimes[d.lifetime] * millisecond)
        custody := d.mode == .custody && inb.custody, tag := inb.tag, refs := targets.length, inbound := none
        decision := none } ∧
      (∀ j : SlotId, j ≠ i →
        t.pool.slots[j] = if j ∈ s.pool.free.take n then .blank .unfilled else s.pool.slots[j]) ∧
      t.pool.free = s.pool.free.drop n ∧
      (∀ q : PortId, t.pool.queues[q].pending = s.pool.queues[q].pending ∧
        t.pool.queues[q].holder = s.pool.queues[q].holder ∧
        ∀ lane : Priority, t.pool.queues[q].lanes[lane] =
          s.pool.queues[q].lanes[lane] ++ if q ∈ targets ∧ lane = d.priority then [⟨i, .frame, 0, none⟩] else []) ∧
      (∀ p : SegPort, t.ports[p] = { s.ports[p] with due := s.ports[p].due || decide (p.port ∈ targets) }) ∧
      t = { s with
        pool := { s.pool with slots := t.pool.slots, free := t.pool.free, queues := t.pool.queues }, ports := t.ports
        trunk := { s.trunk with creditPending := s.trunk.creditPending || (n != 0 && s.trunk.link == .up) } }))

/-- TRUNK_FRAME_START, in UP with no frame in transmission, at the first character boundary that is not before the clock nor before
the end of the idle character owed: starts the first that is ready: a CREDIT with the current limit; the response; the oldest report
not in transmission; the oldest event; and, with 1 to 128 of credit, the most urgent head of the trunk queue that is not stale, in
DATA or TRAP with the sent count as sequence number, its count and the sent count advanced, after the stale heads before it are
removed PURGED one by one. When nothing is ready, or no head is left, the boundary takes an idle character, and the arbiter chooses
again at the next one, 0.8 us later. The most urgent head is that of the lowest-numbered trunk lane that is not empty. The bodies
are those of the formats (11; R125, R141, R143, R157 to R162, R185, R189; the clock is log 2). -/
def Obligations.ArbiterStartsFirstReady : Prop :=
  (∀ (at' : Ticks) (s begun : State), s.trunk.link = .up → s.trunk.tx = none → OnBoundary s.trunk at' →
    s.now ≤ at' → s.trunk.nextStart ≤ at' →
    (∀ b : Ticks, OnBoundary s.trunk b → s.now ≤ b → s.trunk.nextStart ≤ b → at' ≤ b) → begun = { s with now := at' } →
    (s.trunk.creditPending = true →
      exec .trunkFrameStart s = .next (settle { begun with trunk := { s.trunk with
        cut := none, tx := some ⟨.credit, 0, [s.trunk.nextExpected + BitVec.ofNat 8 (unfilledCount s)], at'⟩
        creditPending := false, refresh := some (at' + 22500) } })) ∧
    (∀ r : Response, s.trunk.creditPending = false → s.trunk.response = some r →
      exec .trunkFrameStart s = .next (settle { begun with trunk := { s.trunk with
        cut := none, tx := some ⟨.mgmtRsp, 0, [r.id, r.status.code] ++ r.results, at'⟩ } })) ∧
    (∀ before r after, s.trunk.creditPending = false → s.trunk.response = none →
      s.custody.reports = before ++ r :: after → r.inTx = false → (∀ x ∈ before, x.inTx = true) →
      exec .trunkFrameStart s = .next (settle { begun with
        custody := { s.custody with reports := before ++ { r with inTx := true } :: after }
        trunk := { s.trunk with
          cut := none
          tx := some ⟨.report, 0, [BitVec.ofNat 8 (r.tag.toNat / 256), BitVec.ofNat 8 r.tag.toNat, r.reason.code,
            (match r.egress with
              | some q => BitVec.ofNat 8 q.val
              | none => 255), BitVec.ofNat 8 r.attempts], at'⟩ } })) ∧
    (∀ e es, s.trunk.creditPending = false → s.trunk.response = none → (∀ r ∈ s.custody.reports, r.inTx = true) →
      s.events.records = e :: es → (∀ x ∈ e :: es, x.inTx = false) →
      exec .trunkFrameStart s = .next (settle { begun with
        events := { s.events with records := { e with inTx := true, further := 0 } :: es }
        trunk := { s.trunk with
          cut := none
          tx := some ⟨.event, 0, [BitVec.ofNat 8 e.kind.code, e.port.code, BitVec.ofNat 8 (e.detail / 256),
            BitVec.ofNat 8 e.detail, BitVec.ofNat 8 e.occurrences], at'⟩ } })) ∧
    (s.trunk.creditPending = false → s.trunk.response = none → (∀ r ∈ s.custody.reports, r.inTx = true) →
      s.events.records = [] →
      ((s.trunk.outLimit - s.trunk.sent).toNat = 0 ∨ 128 < (s.trunk.outLimit - s.trunk.sent).toNat →
        exec .trunkFrameStart s = .next (settle { begun with trunk := { s.trunk with nextStart := at' + 20 } })) ∧
      (∀ purged : State, 1 ≤ (s.trunk.outLimit - s.trunk.sent).toNat → (s.trunk.outLimit - s.trunk.sent).toNat ≤ 128 →
        purged = purgeHeads (laneRefs s.pool.queues[4]).length begun →
        (firstHead trunkPort purged = none →
          exec .trunkFrameStart s =
            .next (settle { purged with trunk := { purged.trunk with nextStart := at' + 20 } })) ∧
        (∀ lane r sl, firstHead trunkPort purged = some (lane, r) → sl = purged.pool.slots[r.slot] →
          s.route.purgeEpoch ≤ sl.epoch ∧
          exec .trunkFrameStart s = .next (settle (modQueue trunkPort (fun Q =>
              { Q with holder := some { r with count := r.count + 1 }, lanes := modAt Q.lanes lane List.tail })
            { purged with trunk := { purged.trunk with
              sent := s.trunk.sent + 1, cut := none
              tx := some ⟨if r.kind = .trap then .trap else .data, s.trunk.sent,
                [BitVec.ofNat 8 sl.ingress.val, BitVec.ofNat 8 sl.priority.val, BitVec.ofNat 8 sl.frame.dest.val,
                  BitVec.ofNat 8 sl.frame.source.val, BitVec.ofNat 8 sl.frame.service.val,
                  (match sl.entry with
                    | .entry i => BitVec.ofNat 8 i.val
                    | .miss | .direct => 255),
                  BitVec.ofNat 8 sl.frame.payload.length] ++ sl.frame.payload, at'⟩ } })))))) ∧
  (∀ (n : Nat) (s : State),
    (∀ lane r, firstHead trunkPort s = some (lane, r) → s.pool.slots[r.slot].epoch < s.route.purgeEpoch →
      purgeHeads (n + 1) s = purgeHeads n (dropRef trunkPort r .purged (popLane trunkPort lane s))) ∧
    ((∀ lane r, firstHead trunkPort s = some (lane, r) → s.route.purgeEpoch ≤ s.pool.slots[r.slot].epoch) →
      purgeHeads n s = s) ∧
    (∀ (lane : Priority) (r : Ref), firstHead trunkPort s = some (lane, r) ↔
      s.pool.queues[4].lanes[lane].head? = some r ∧ ∀ l : Priority, l < lane → s.pool.queues[4].lanes[l] = []) ∧
    (firstHead trunkPort s = none ↔ ∀ l : Priority, s.pool.queues[4].lanes[l] = []))

/-- TRUNK_FRAME_EOF: FRAMES_OUT advances, the line owes an idle character, and by kind the limit carried becomes the advertised
limit, the response holder empties, the report leaves the list, the event's record leaves it or goes to the tail with its further
occurrences, or the reference in transmission is released DELIVERED (R125, R141, R143, R151, R157, R160, R186; log 2). -/
def Obligations.EofEndsFrame : Prop :=
  ∀ (f : TxFrame) (s ended : State), s.trunk.tx = some f →
    ended = countTrunk .framesOut 1 { s with
      now := max s.now (f.startedAt + (f.body.length + 7) * characterTime)
      trunk := { s.trunk with
        tx := none, nextStart := f.startedAt + (f.body.length + 7) * characterTime + characterTime } } →
    (∀ limit rest, f.kind = .credit → f.body = limit :: rest →
      exec .trunkFrameEof s = .next (settle { ended with trunk := { ended.trunk with advertised := limit } })) ∧
    (f.kind = .mgmtRsp →
      exec .trunkFrameEof s = .next (settle { ended with trunk := { ended.trunk with response := none } })) ∧
    (f.kind = .report →
      exec .trunkFrameEof s = .next (settle { ended with
        custody := { s.custody with reports := s.custody.reports.filter fun r => !r.inTx } })) ∧
    (∀ before e after, f.kind = .event → s.events.records = before ++ e :: after → e.inTx = true →
      (∀ x ∈ before ++ after, x.inTx = false) →
      exec .trunkFrameEof s = .next (settle { ended with events := { s.events with
        records := before ++ after ++
          if e.further = 0 then [] else [{ e with
            detail := e.furtherDetail, occurrences := e.further, further := 0, inTx := false }] } })) ∧
    (∀ r : Ref, f.kind = .data ∨ f.kind = .trap → s.pool.queues[trunkPort].holder = some r →
      exec .trunkFrameEof s = .next (settle (dropRef trunkPort r .delivered (setHolder trunkPort none ended))))

/-! ### Invariants -/

/-- Every range stands in every state a step leads to: the epochs, the counters and hit counts, the settings, and the nodes'
failures (R40, R68, R77, R93, R111, R127, R146, R179). -/
def Obligations.RangesAreKept : Prop :=
  KeptByStep fun s => EpochsOk s ∧ CountersOk s ∧ SettingsOk s ∧ NodesOk s

/-- The lists and buffers stay within their capacities, and the event list holds one record of a kind and port, in its ranges, and
at most one in transmission (R133, R164, R181, R182, R185). The frame pool stands as its rules say: every frame slot in one of its
states, the FREE ones on the free list once each, the filled ones those of the DATA frames taken, of which only the oldest has its
decision bound, a QUEUED one with as many references as it counts; an unconfirmed admission has a frame slot and pending references
of its own; attempt holders are in use exactly in attempts and trunk transmission exactly for a DATA or TRAP frame; no queue passes
its limit and a disabled port's is empty; the reserve is short only with the free list empty, and the window stands within the
unfilled slots (R63, R108, R109, R111, R112, R115 to R117, R121, R126, R155, R157). -/
def Obligations.ListsAreKept : Prop :=
  (KeptByStep fun s => CapacityOk s ∧ EventsOk s) ∧ (KeptByStep fun s => PortsOff s ∧ LinkOk s ∧ PoolOk s)

/-- A commit runs exactly while a request is in execution, which is then buffered, with the response holder empty; it has a lane to
sweep or the resync to come, and its purge sweep's lanes left are the last ones of the sweep's order (R87, R89, R90, R160, R166; the
order is log 12). -/
def Obligations.CommitIsKept : Prop := KeptByStep CommitOk

/-- A disabled port is OFF and drives nothing, and an enabled one is not OFF; a transmitter is armed only with its receiver in IDLE, a
talker is inside the frame of its attempt, and a receiver is in IDLE only when the port drives no abort pulse (R1, R20, R22, R41,
R53 to R55, R63, R64). -/
def Obligations.DisabledPortsStayOff : Prop := KeptByStep PortsOff

/-- The link monitor, the lock flag, the hold timer and the credit counts stand together as the link rules say, and a frame in
transmission and a CUT begin on character boundaries (R143 to R150, R158, R161, R163). -/
def Obligations.LinkIsKept : Prop := KeptByStep LinkOk

/-- The state after reset meets every invariant (R40, R68, R93, R109, R110, R133, R146, R164, R179, R181). -/
def Obligations.ResetMeetsInvariants : Prop :=
  (EpochsOk State.reset ∧ CountersOk State.reset ∧ SettingsOk State.reset ∧ NodesOk State.reset) ∧
    (CapacityOk State.reset ∧ EventsOk State.reset) ∧ CommitOk State.reset ∧ PortsOff State.reset ∧ LinkOk State.reset ∧
    PoolOk State.reset
end

