-- ==== Sys2Proof/Laws/State.lean ====
section
/-! SUPPORT. The small lemmas of the state updates: one per field per update, and reading a table after a change. -/

namespace Sys2Proof

/-- Reading a table after one of its entries is changed. -/
@[simp] theorem getElem_modAt {α : Type} {n : Nat} (v : Vector α n) (i : Fin n) (f : α → α) (k : Nat) (h : k < n) :
    (modAt v i f)[k] = if k = i.val then f v[k] else v[k] := by
  simp only [modAt, Fin.getElem_fin, Vector.getElem_set]
  by_cases e : k = i.val
  · subst e; simp
  · simp [e, Ne.symm e]

/-- Reading a table by an index after one of its entries is changed. -/
theorem getElem_modAt_fin {α : Type} {n : Nat} (v : Vector α n) (i j : Fin n) (f : α → α) :
    (modAt v i f)[j] = if j = i then f v[j] else v[j] := by
  simp [Fin.ext_iff]

/-- Reading a table after every entry is changed. -/
@[simp] theorem getElem_modAll {α β : Type} {n : Nat} (v : Vector α n) (f : α → β) (k : Nat) (h : k < n) :
    (modAll v f)[k] = f v[k] := by
  simp [modAll]

end Sys2Proof

namespace Sys2Proof.Machine

variable (s : State)

@[simp] theorem modPort_now (p : SegPort) (f : Port → Port) : (modPort p f s).now = s.now := rfl
@[simp] theorem modPort_freeCount (p : SegPort) (f : Port → Port) : (modPort p f s).freeCount = s.freeCount := rfl
@[simp] theorem modPort_ports (p : SegPort) (f : Port → Port) : (modPort p f s).ports = modAt s.ports p f := rfl
@[simp] theorem modPort_route (p : SegPort) (f : Port → Port) : (modPort p f s).route = s.route := rfl
@[simp] theorem modPort_nodes (p : SegPort) (f : Port → Port) : (modPort p f s).nodes = s.nodes := rfl
@[simp] theorem modPort_pool (p : SegPort) (f : Port → Port) : (modPort p f s).pool = s.pool := rfl
@[simp] theorem modPort_custody (p : SegPort) (f : Port → Port) : (modPort p f s).custody = s.custody := rfl
@[simp] theorem modPort_trunk (p : SegPort) (f : Port → Port) : (modPort p f s).trunk = s.trunk := rfl
@[simp] theorem modPort_agent (p : SegPort) (f : Port → Port) : (modPort p f s).agent = s.agent := rfl
@[simp] theorem modPort_events (p : SegPort) (f : Port → Port) : (modPort p f s).events = s.events := rfl
@[simp] theorem modPort_gateway (p : SegPort) (f : Port → Port) : (modPort p f s).gateway = s.gateway := rfl
@[simp] theorem modPort_pending (p : SegPort) (f : Port → Port) : (modPort p f s).pending = s.pending := rfl

@[simp] theorem modRoute_now (f : RouteList → RouteList) : (modRoute f s).now = s.now := rfl
@[simp] theorem modRoute_freeCount (f : RouteList → RouteList) : (modRoute f s).freeCount = s.freeCount := rfl
@[simp] theorem modRoute_ports (f : RouteList → RouteList) : (modRoute f s).ports = s.ports := rfl
@[simp] theorem modRoute_route (f : RouteList → RouteList) : (modRoute f s).route = f s.route := rfl
@[simp] theorem modRoute_nodes (f : RouteList → RouteList) : (modRoute f s).nodes = s.nodes := rfl
@[simp] theorem modRoute_pool (f : RouteList → RouteList) : (modRoute f s).pool = s.pool := rfl
@[simp] theorem modRoute_custody (f : RouteList → RouteList) : (modRoute f s).custody = s.custody := rfl
@[simp] theorem modRoute_trunk (f : RouteList → RouteList) : (modRoute f s).trunk = s.trunk := rfl
@[simp] theorem modRoute_agent (f : RouteList → RouteList) : (modRoute f s).agent = s.agent := rfl
@[simp] theorem modRoute_events (f : RouteList → RouteList) : (modRoute f s).events = s.events := rfl
@[simp] theorem modRoute_gateway (f : RouteList → RouteList) : (modRoute f s).gateway = s.gateway := rfl
@[simp] theorem modRoute_pending (f : RouteList → RouteList) : (modRoute f s).pending = s.pending := rfl

@[simp] theorem modPool_now (f : Pool → Pool) : (modPool f s).now = s.now := rfl
@[simp] theorem modPool_freeCount (f : Pool → Pool) : (modPool f s).freeCount = s.freeCount := rfl
@[simp] theorem modPool_ports (f : Pool → Pool) : (modPool f s).ports = s.ports := rfl
@[simp] theorem modPool_route (f : Pool → Pool) : (modPool f s).route = s.route := rfl
@[simp] theorem modPool_nodes (f : Pool → Pool) : (modPool f s).nodes = s.nodes := rfl
@[simp] theorem modPool_pool (f : Pool → Pool) : (modPool f s).pool = f s.pool := rfl
@[simp] theorem modPool_custody (f : Pool → Pool) : (modPool f s).custody = s.custody := rfl
@[simp] theorem modPool_trunk (f : Pool → Pool) : (modPool f s).trunk = s.trunk := rfl
@[simp] theorem modPool_agent (f : Pool → Pool) : (modPool f s).agent = s.agent := rfl
@[simp] theorem modPool_events (f : Pool → Pool) : (modPool f s).events = s.events := rfl
@[simp] theorem modPool_gateway (f : Pool → Pool) : (modPool f s).gateway = s.gateway := rfl
@[simp] theorem modPool_pending (f : Pool → Pool) : (modPool f s).pending = s.pending := rfl

@[simp] theorem modCustody_now (f : Custody → Custody) : (modCustody f s).now = s.now := rfl
@[simp] theorem modCustody_freeCount (f : Custody → Custody) : (modCustody f s).freeCount = s.freeCount := rfl
@[simp] theorem modCustody_ports (f : Custody → Custody) : (modCustody f s).ports = s.ports := rfl
@[simp] theorem modCustody_route (f : Custody → Custody) : (modCustody f s).route = s.route := rfl
@[simp] theorem modCustody_nodes (f : Custody → Custody) : (modCustody f s).nodes = s.nodes := rfl
@[simp] theorem modCustody_pool (f : Custody → Custody) : (modCustody f s).pool = s.pool := rfl
@[simp] theorem modCustody_custody (f : Custody → Custody) : (modCustody f s).custody = f s.custody := rfl
@[simp] theorem modCustody_trunk (f : Custody → Custody) : (modCustody f s).trunk = s.trunk := rfl
@[simp] theorem modCustody_agent (f : Custody → Custody) : (modCustody f s).agent = s.agent := rfl
@[simp] theorem modCustody_events (f : Custody → Custody) : (modCustody f s).events = s.events := rfl
@[simp] theorem modCustody_gateway (f : Custody → Custody) : (modCustody f s).gateway = s.gateway := rfl
@[simp] theorem modCustody_pending (f : Custody → Custody) : (modCustody f s).pending = s.pending := rfl

@[simp] theorem modTrunk_now (f : Trunk → Trunk) : (modTrunk f s).now = s.now := rfl
@[simp] theorem modTrunk_freeCount (f : Trunk → Trunk) : (modTrunk f s).freeCount = s.freeCount := rfl
@[simp] theorem modTrunk_ports (f : Trunk → Trunk) : (modTrunk f s).ports = s.ports := rfl
@[simp] theorem modTrunk_route (f : Trunk → Trunk) : (modTrunk f s).route = s.route := rfl
@[simp] theorem modTrunk_nodes (f : Trunk → Trunk) : (modTrunk f s).nodes = s.nodes := rfl
@[simp] theorem modTrunk_pool (f : Trunk → Trunk) : (modTrunk f s).pool = s.pool := rfl
@[simp] theorem modTrunk_custody (f : Trunk → Trunk) : (modTrunk f s).custody = s.custody := rfl
@[simp] theorem modTrunk_trunk (f : Trunk → Trunk) : (modTrunk f s).trunk = f s.trunk := rfl
@[simp] theorem modTrunk_agent (f : Trunk → Trunk) : (modTrunk f s).agent = s.agent := rfl
@[simp] theorem modTrunk_events (f : Trunk → Trunk) : (modTrunk f s).events = s.events := rfl
@[simp] theorem modTrunk_gateway (f : Trunk → Trunk) : (modTrunk f s).gateway = s.gateway := rfl
@[simp] theorem modTrunk_pending (f : Trunk → Trunk) : (modTrunk f s).pending = s.pending := rfl

@[simp] theorem retune_now (f : Trunk → Trunk) : (retune f s).now = s.now := rfl
@[simp] theorem retune_freeCount (f : Trunk → Trunk) : (retune f s).freeCount = s.freeCount := rfl
@[simp] theorem retune_ports (f : Trunk → Trunk) : (retune f s).ports = s.ports := rfl
@[simp] theorem retune_route (f : Trunk → Trunk) : (retune f s).route = s.route := rfl
@[simp] theorem retune_nodes (f : Trunk → Trunk) : (retune f s).nodes = s.nodes := rfl
@[simp] theorem retune_pool (f : Trunk → Trunk) : (retune f s).pool = s.pool := rfl
@[simp] theorem retune_custody (f : Trunk → Trunk) : (retune f s).custody = s.custody := rfl
@[simp] theorem retune_agent (f : Trunk → Trunk) : (retune f s).agent = s.agent := rfl
@[simp] theorem retune_events (f : Trunk → Trunk) : (retune f s).events = s.events := rfl
@[simp] theorem retune_gateway (f : Trunk → Trunk) : (retune f s).gateway = s.gateway := rfl
@[simp] theorem retune_pending (f : Trunk → Trunk) : (retune f s).pending = s.pending := rfl

@[simp] theorem modAgent_now (f : Agent → Agent) : (modAgent f s).now = s.now := rfl
@[simp] theorem modAgent_freeCount (f : Agent → Agent) : (modAgent f s).freeCount = s.freeCount := rfl
@[simp] theorem modAgent_ports (f : Agent → Agent) : (modAgent f s).ports = s.ports := rfl
@[simp] theorem modAgent_route (f : Agent → Agent) : (modAgent f s).route = s.route := rfl
@[simp] theorem modAgent_nodes (f : Agent → Agent) : (modAgent f s).nodes = s.nodes := rfl
@[simp] theorem modAgent_pool (f : Agent → Agent) : (modAgent f s).pool = s.pool := rfl
@[simp] theorem modAgent_custody (f : Agent → Agent) : (modAgent f s).custody = s.custody := rfl
@[simp] theorem modAgent_trunk (f : Agent → Agent) : (modAgent f s).trunk = s.trunk := rfl
@[simp] theorem modAgent_agent (f : Agent → Agent) : (modAgent f s).agent = f s.agent := rfl
@[simp] theorem modAgent_events (f : Agent → Agent) : (modAgent f s).events = s.events := rfl
@[simp] theorem modAgent_gateway (f : Agent → Agent) : (modAgent f s).gateway = s.gateway := rfl
@[simp] theorem modAgent_pending (f : Agent → Agent) : (modAgent f s).pending = s.pending := rfl

@[simp] theorem modEvents_now (f : List Event → List Event) : (modEvents f s).now = s.now := rfl
@[simp] theorem modEvents_freeCount (f : List Event → List Event) : (modEvents f s).freeCount = s.freeCount := rfl
@[simp] theorem modEvents_ports (f : List Event → List Event) : (modEvents f s).ports = s.ports := rfl
@[simp] theorem modEvents_route (f : List Event → List Event) : (modEvents f s).route = s.route := rfl
@[simp] theorem modEvents_nodes (f : List Event → List Event) : (modEvents f s).nodes = s.nodes := rfl
@[simp] theorem modEvents_pool (f : List Event → List Event) : (modEvents f s).pool = s.pool := rfl
@[simp] theorem modEvents_custody (f : List Event → List Event) : (modEvents f s).custody = s.custody := rfl
@[simp] theorem modEvents_trunk (f : List Event → List Event) : (modEvents f s).trunk = s.trunk := rfl
@[simp] theorem modEvents_agent (f : List Event → List Event) : (modEvents f s).agent = s.agent := rfl
@[simp] theorem modEvents_events (f : List Event → List Event) : (modEvents f s).events = { s.events with records := f s.events.records } := rfl
@[simp] theorem modEvents_gateway (f : List Event → List Event) : (modEvents f s).gateway = s.gateway := rfl
@[simp] theorem modEvents_pending (f : List Event → List Event) : (modEvents f s).pending = s.pending := rfl

@[simp] theorem modNode_now (i : Fin 120) (f : NodeEntry → NodeEntry) : (modNode i f s).now = s.now := rfl
@[simp] theorem modNode_freeCount (i : Fin 120) (f : NodeEntry → NodeEntry) : (modNode i f s).freeCount = s.freeCount := rfl
@[simp] theorem modNode_ports (i : Fin 120) (f : NodeEntry → NodeEntry) : (modNode i f s).ports = s.ports := rfl
@[simp] theorem modNode_route (i : Fin 120) (f : NodeEntry → NodeEntry) : (modNode i f s).route = s.route := rfl
@[simp] theorem modNode_nodes (i : Fin 120) (f : NodeEntry → NodeEntry) : (modNode i f s).nodes = { s.nodes with entries := modAt s.nodes.entries i f } := rfl
@[simp] theorem modNode_pool (i : Fin 120) (f : NodeEntry → NodeEntry) : (modNode i f s).pool = s.pool := rfl
@[simp] theorem modNode_custody (i : Fin 120) (f : NodeEntry → NodeEntry) : (modNode i f s).custody = s.custody := rfl
@[simp] theorem modNode_trunk (i : Fin 120) (f : NodeEntry → NodeEntry) : (modNode i f s).trunk = s.trunk := rfl
@[simp] theorem modNode_agent (i : Fin 120) (f : NodeEntry → NodeEntry) : (modNode i f s).agent = s.agent := rfl
@[simp] theorem modNode_events (i : Fin 120) (f : NodeEntry → NodeEntry) : (modNode i f s).events = s.events := rfl
@[simp] theorem modNode_gateway (i : Fin 120) (f : NodeEntry → NodeEntry) : (modNode i f s).gateway = s.gateway := rfl
@[simp] theorem modNode_pending (i : Fin 120) (f : NodeEntry → NodeEntry) : (modNode i f s).pending = s.pending := rfl

@[simp] theorem countGateway_now (c : GatewayCounter) : (countGateway c s).now = s.now := rfl
@[simp] theorem countGateway_freeCount (c : GatewayCounter) : (countGateway c s).freeCount = s.freeCount := rfl
@[simp] theorem countGateway_ports (c : GatewayCounter) : (countGateway c s).ports = s.ports := rfl
@[simp] theorem countGateway_route (c : GatewayCounter) : (countGateway c s).route = s.route := rfl
@[simp] theorem countGateway_nodes (c : GatewayCounter) : (countGateway c s).nodes = s.nodes := rfl
@[simp] theorem countGateway_pool (c : GatewayCounter) : (countGateway c s).pool = s.pool := rfl
@[simp] theorem countGateway_custody (c : GatewayCounter) : (countGateway c s).custody = s.custody := rfl
@[simp] theorem countGateway_trunk (c : GatewayCounter) : (countGateway c s).trunk = s.trunk := rfl
@[simp] theorem countGateway_agent (c : GatewayCounter) : (countGateway c s).agent = s.agent := rfl
@[simp] theorem countGateway_events (c : GatewayCounter) : (countGateway c s).events = s.events := rfl
@[simp] theorem countGateway_gateway (c : GatewayCounter) : (countGateway c s).gateway = modAt s.gateway c.index (saturate · 1) := rfl
@[simp] theorem countGateway_pending (c : GatewayCounter) : (countGateway c s).pending = s.pending := rfl

@[simp] theorem modQueue_now (q : PortId) (f : Queue → Queue) : (modQueue q f s).now = s.now := rfl
@[simp] theorem modQueue_freeCount (q : PortId) (f : Queue → Queue) : (modQueue q f s).freeCount = s.freeCount := rfl
@[simp] theorem modQueue_ports (q : PortId) (f : Queue → Queue) : (modQueue q f s).ports = s.ports := rfl
@[simp] theorem modQueue_route (q : PortId) (f : Queue → Queue) : (modQueue q f s).route = s.route := rfl
@[simp] theorem modQueue_nodes (q : PortId) (f : Queue → Queue) : (modQueue q f s).nodes = s.nodes := rfl
@[simp] theorem modQueue_pool (q : PortId) (f : Queue → Queue) : (modQueue q f s).pool = { s.pool with queues := modAt s.pool.queues q f } := rfl
@[simp] theorem modQueue_custody (q : PortId) (f : Queue → Queue) : (modQueue q f s).custody = s.custody := rfl
@[simp] theorem modQueue_trunk (q : PortId) (f : Queue → Queue) : (modQueue q f s).trunk = s.trunk := rfl
@[simp] theorem modQueue_agent (q : PortId) (f : Queue → Queue) : (modQueue q f s).agent = s.agent := rfl
@[simp] theorem modQueue_events (q : PortId) (f : Queue → Queue) : (modQueue q f s).events = s.events := rfl
@[simp] theorem modQueue_gateway (q : PortId) (f : Queue → Queue) : (modQueue q f s).gateway = s.gateway := rfl
@[simp] theorem modQueue_pending (q : PortId) (f : Queue → Queue) : (modQueue q f s).pending = s.pending := rfl

@[simp] theorem modSlot_now (i : SlotId) (f : FrameSlot → FrameSlot) : (modSlot i f s).now = s.now := rfl
@[simp] theorem modSlot_freeCount (i : SlotId) (f : FrameSlot → FrameSlot) : (modSlot i f s).freeCount = s.freeCount := rfl
@[simp] theorem modSlot_ports (i : SlotId) (f : FrameSlot → FrameSlot) : (modSlot i f s).ports = s.ports := rfl
@[simp] theorem modSlot_route (i : SlotId) (f : FrameSlot → FrameSlot) : (modSlot i f s).route = s.route := rfl
@[simp] theorem modSlot_nodes (i : SlotId) (f : FrameSlot → FrameSlot) : (modSlot i f s).nodes = s.nodes := rfl
@[simp] theorem modSlot_pool (i : SlotId) (f : FrameSlot → FrameSlot) : (modSlot i f s).pool = { s.pool with slots := modAt s.pool.slots i f } := rfl
@[simp] theorem modSlot_custody (i : SlotId) (f : FrameSlot → FrameSlot) : (modSlot i f s).custody = s.custody := rfl
@[simp] theorem modSlot_trunk (i : SlotId) (f : FrameSlot → FrameSlot) : (modSlot i f s).trunk = s.trunk := rfl
@[simp] theorem modSlot_agent (i : SlotId) (f : FrameSlot → FrameSlot) : (modSlot i f s).agent = s.agent := rfl
@[simp] theorem modSlot_events (i : SlotId) (f : FrameSlot → FrameSlot) : (modSlot i f s).events = s.events := rfl
@[simp] theorem modSlot_gateway (i : SlotId) (f : FrameSlot → FrameSlot) : (modSlot i f s).gateway = s.gateway := rfl
@[simp] theorem modSlot_pending (i : SlotId) (f : FrameSlot → FrameSlot) : (modSlot i f s).pending = s.pending := rfl

@[simp] theorem countTrunk_now (c : TrunkCounter) (n : Nat) : (countTrunk c n s).now = s.now := rfl
@[simp] theorem countTrunk_freeCount (c : TrunkCounter) (n : Nat) : (countTrunk c n s).freeCount = s.freeCount := rfl
@[simp] theorem countTrunk_ports (c : TrunkCounter) (n : Nat) : (countTrunk c n s).ports = s.ports := rfl
@[simp] theorem countTrunk_route (c : TrunkCounter) (n : Nat) : (countTrunk c n s).route = s.route := rfl
@[simp] theorem countTrunk_nodes (c : TrunkCounter) (n : Nat) : (countTrunk c n s).nodes = s.nodes := rfl
@[simp] theorem countTrunk_pool (c : TrunkCounter) (n : Nat) : (countTrunk c n s).pool = s.pool := rfl
@[simp] theorem countTrunk_custody (c : TrunkCounter) (n : Nat) : (countTrunk c n s).custody = s.custody := rfl
@[simp] theorem countTrunk_trunk (c : TrunkCounter) (n : Nat) : (countTrunk c n s).trunk = { s.trunk with counters := modAt s.trunk.counters c.index (saturate · n) } := rfl
@[simp] theorem countTrunk_agent (c : TrunkCounter) (n : Nat) : (countTrunk c n s).agent = s.agent := rfl
@[simp] theorem countTrunk_events (c : TrunkCounter) (n : Nat) : (countTrunk c n s).events = s.events := rfl
@[simp] theorem countTrunk_gateway (c : TrunkCounter) (n : Nat) : (countTrunk c n s).gateway = s.gateway := rfl
@[simp] theorem countTrunk_pending (c : TrunkCounter) (n : Nat) : (countTrunk c n s).pending = s.pending := rfl

@[simp] theorem countPort_now (p : SegPort) (c : PortCounter) (n : Nat) : (countPort p c n s).now = s.now := rfl
@[simp] theorem countPort_freeCount (p : SegPort) (c : PortCounter) (n : Nat) : (countPort p c n s).freeCount = s.freeCount := rfl
@[simp] theorem countPort_ports (p : SegPort) (c : PortCounter) (n : Nat) : (countPort p c n s).ports = modAt s.ports p fun pt => { pt with counters := modAt pt.counters c.index (saturate · n) } := rfl
@[simp] theorem countPort_route (p : SegPort) (c : PortCounter) (n : Nat) : (countPort p c n s).route = s.route := rfl
@[simp] theorem countPort_nodes (p : SegPort) (c : PortCounter) (n : Nat) : (countPort p c n s).nodes = s.nodes := rfl
@[simp] theorem countPort_pool (p : SegPort) (c : PortCounter) (n : Nat) : (countPort p c n s).pool = s.pool := rfl
@[simp] theorem countPort_custody (p : SegPort) (c : PortCounter) (n : Nat) : (countPort p c n s).custody = s.custody := rfl
@[simp] theorem countPort_trunk (p : SegPort) (c : PortCounter) (n : Nat) : (countPort p c n s).trunk = s.trunk := rfl
@[simp] theorem countPort_agent (p : SegPort) (c : PortCounter) (n : Nat) : (countPort p c n s).agent = s.agent := rfl
@[simp] theorem countPort_events (p : SegPort) (c : PortCounter) (n : Nat) : (countPort p c n s).events = s.events := rfl
@[simp] theorem countPort_gateway (p : SegPort) (c : PortCounter) (n : Nat) : (countPort p c n s).gateway = s.gateway := rfl
@[simp] theorem countPort_pending (p : SegPort) (c : PortCounter) (n : Nat) : (countPort p c n s).pending = s.pending := rfl

end Sys2Proof.Machine
end

