-- ==== Sys2Proof/Laws/Frame.lean ====
section
/-! SUPPORT. What the shared operations leave alone: `Kept` is the frame of every operation that removes references, hands
records over, reports to the node map or selects, and of `settle`, which ends a step. -/

namespace Sys2Proof.Machine

namespace Kept

variable {s t u : State}

@[refl] theorem refl (s : State) : Kept s s := by constructor <;> intros <;> rfl

theorem trans (a : Kept s t) (b : Kept t u) : Kept s u where
  now := b.now.trans a.now
  freeCount := b.freeCount.trans a.freeCount
  route := b.route.trans a.route
  agent := b.agent.trans a.agent
  pending := b.pending.trans a.pending
  reserveSize := b.reserveSize.trans a.reserveSize
  lifetimes := b.lifetimes.trans a.lifetimes
  threshold := b.threshold.trans a.threshold
  noticeSource := b.noticeSource.trans a.noticeSource
  noticePriority := b.noticePriority.trans a.noticePriority
  mask := b.mask.trans a.mask
  trunk := by rw [b.trunk, a.trunk]
  port p := by rw [b.port p, a.port p]

/-- A fold of operations that keep the frame keeps it. -/
theorem foldl {α : Type} {f : State → α → State} (h : ∀ x a, Kept x (f x a)) (l : List α) (s : State) :
    Kept s (l.foldl f s) := by
  induction l generalizing s with
  | nil => exact refl s
  | cons a as ih => exact (h s a).trans (ih (f s a))

end Kept

/-! ### One lemma per operation -/

theorem modPort_kept (p : SegPort) (f : Port → Port) (s : State)
    (h : f s.ports[p] = { s.ports[p] with tx := (f s.ports[p]).tx, counters := (f s.ports[p]).counters, due := (f s.ports[p]).due }) :
    Kept s (modPort p f s) where
  now := rfl
  freeCount := rfl
  route := rfl
  agent := rfl
  pending := rfl
  reserveSize := rfl
  lifetimes := rfl
  threshold := rfl
  noticeSource := rfl
  noticePriority := rfl
  mask := rfl
  trunk := rfl
  port q := by
    by_cases e : q = p
    · subst e; simpa using h
    · have : (modPort p f s).ports[q] = s.ports[q] := by simp [Fin.val_inj, e]
      rw [this]

theorem countPort_kept (p : SegPort) (c : PortCounter) (n : Nat) (s : State) : Kept s (countPort p c n s) :=
  modPort_kept p _ s rfl

theorem makeDue_kept (p : SegPort) (s : State) : Kept s (makeDue p s) := modPort_kept p _ s rfl

theorem settleTx_kept (p : SegPort) (tx : TxState) (s : State) : Kept s (settleTx p tx s) := modPort_kept p _ s rfl

theorem setTx_kept (p : SegPort) (tx : TxState) (s : State) : Kept s (setTx p tx s) := modPort_kept p _ s rfl

theorem countTrunk_kept (c : TrunkCounter) (n : Nat) (s : State) : Kept s (countTrunk c n s) := by
  constructor <;> intros <;> rfl

theorem countGateway_kept (c : GatewayCounter) (s : State) : Kept s (countGateway c s) := by
  constructor <;> intros <;> rfl

theorem modSlot_kept (i : SlotId) (f : FrameSlot → FrameSlot) (s : State) : Kept s (modSlot i f s) := by
  constructor <;> intros <;> rfl

theorem modQueue_kept (q : PortId) (f : Queue → Queue) (s : State) : Kept s (modQueue q f s) := by
  constructor <;> intros <;> rfl

theorem modNode_kept (i : Fin 120) (f : NodeEntry → NodeEntry) (s : State) : Kept s (modNode i f s) := by
  constructor <;> intros <;> rfl

theorem modEvents_kept (f : List Event → List Event) (s : State) : Kept s (modEvents f s) := by
  constructor <;> intros <;> rfl

/-- A change of the two lists of the custody unit. -/
theorem modCustody_kept (f : Custody → Custody) (s : State) (source : (f s.custody).noticeSource = s.custody.noticeSource)
    (priority : (f s.custody).noticePriority = s.custody.noticePriority) : Kept s (modCustody f s) := by
  constructor <;> intros <;> first | rfl | assumption

/-- A change of the slots, the free list and the queues of the pool. -/
theorem modPool_kept (f : Pool → Pool) (s : State) (size : (f s.pool).reserveSize = s.pool.reserveSize)
    (lifetimes : (f s.pool).lifetimes = s.pool.lifetimes) : Kept s (modPool f s) := by
  constructor <;> intros <;> first | rfl | assumption

theorem noteCredit_kept (s : State) : Kept s (noteCredit s) := by
  unfold noteCredit
  split
  · constructor <;> intros <;> rfl
  · rfl

theorem raise_kept (k : EventKind) (l : Location) (d : Nat) (s : State) : Kept s (raise k l d s) := by
  unfold raise
  split
  · rfl
  · split
    · exact modEvents_kept _ _
    · split
      · exact modEvents_kept _ _
      · exact countGateway_kept _ _

theorem refill_kept (s : State) : Kept s (refill s) := by
  unfold refill
  dsimp only
  split
  · rfl
  · exact (modPool_kept _ _ rfl rfl).trans (noteCredit_kept _)

theorem releaseSlot_kept (i : SlotId) (s : State) : Kept s (releaseSlot i s) := by
  unfold releaseSlot
  dsimp only
  split
  · exact ((modSlot_kept _ _ _).trans (noteCredit_kept _)).trans (refill_kept _)
  · exact ((modSlot_kept _ _ _).trans (modPool_kept _ _ rfl rfl)).trans (refill_kept _)

theorem createNotice_kept (n : Notice) (s : State) : Kept s (createNotice n s) := by
  unfold createNotice
  split
  · exact countGateway_kept _ _
  · split
    · exact countGateway_kept _ _
    · split
      · exact countGateway_kept _ _
      · split
        · exact (countGateway_kept _ _).trans (raise_kept _ _ _ _)
        · exact ((modCustody_kept _ _ rfl rfl).trans (countGateway_kept _ _)).trans (makeDue_kept _ _)

theorem createReport_kept (r : Report) (s : State) : Kept s (createReport r s) := by
  unfold createReport
  split
  · exact countTrunk_kept _ _ _
  · split
    · exact (countTrunk_kept _ _ _).trans (raise_kept _ _ _ _)
    · exact modCustody_kept _ _ rfl rfl

theorem takeEndRecord_kept (sl : FrameSlot) (q : PortId) (n : Nat) (reason : Reason) (s : State) :
    Kept s (takeEndRecord sl q n reason s) := by
  unfold takeEndRecord
  split
  · split
    · rfl
    · exact createNotice_kept _ _
  · split
    · exact createReport_kept _ _
    · rfl

theorem takeRejection_kept (tag : Option (BitVec 16)) (reason : Reason) (s : State) : Kept s (takeRejection tag reason s) := by
  unfold takeRejection
  split
  · exact createReport_kept _ _
  · rfl

theorem dropRef_kept (q : PortId) (r : Ref) (reason : Reason) (s : State) : Kept s (dropRef q r reason s) := by
  have handed : Kept s (if endRecordDue (slotOf r s) r reason then takeEndRecord (slotOf r s) q r.count reason s else s) := by
    split
    · exact takeEndRecord_kept _ _ _ _ _
    · rfl
  unfold dropRef
  dsimp only
  split
  · exact handed.trans (releaseSlot_kept _ _)
  · exact handed.trans (modSlot_kept _ _ _)

theorem discardRef_kept (q : PortId) (r : Ref) (reason : Reason) (s : State) : Kept s (discardRef q r reason s) := by
  unfold discardRef
  split
  · exact (countPort_kept _ _ _ _).trans (dropRef_kept _ _ _ _)
  · exact dropRef_kept _ _ _ _

theorem dueIfGone_kept (q : PortId) (s : State) : Kept s (dueIfGone q s) := by
  unfold dueIfGone
  split
  · split
    · exact makeDue_kept _ _
    · rfl
  · rfl

theorem makeDueQueue_kept (q : PortId) (s : State) : Kept s (makeDueQueue q s) := by
  unfold makeDueQueue
  split
  · exact makeDue_kept _ _
  · rfl

theorem discardAll_kept (q : PortId) (gone : List Ref) (reason : Reason) (s : State) : Kept s (discardAll q gone reason s) :=
  (Kept.foldl (fun x r => discardRef_kept q r reason x) _ _).trans (dueIfGone_kept _ _)

theorem sweepLanes_kept (q : PortId) (hit : Ref → Bool) (reason : Reason) (s : State) : Kept s (sweepLanes q hit reason s) :=
  (modQueue_kept _ _ _).trans (discardAll_kept _ _ _ _)

theorem sweepLane_kept (q : PortId) (lane : Priority) (hit : Ref → Bool) (reason : Reason) (s : State) :
    Kept s (sweepLane q lane hit reason s) := (modQueue_kept _ _ _).trans (discardAll_kept _ _ _ _)

theorem setHolder_kept (q : PortId) (h : Option Ref) (s : State) : Kept s (setHolder q h s) := modQueue_kept _ _ _

theorem markHolder_kept (q : PortId) (hit : Ref → Bool) (m : Mark) (s : State) : Kept s (markHolder q hit m s) :=
  modQueue_kept _ _ _

theorem markPending_kept (q : PortId) (hit : Ref → Bool) (m : Mark) (s : State) : Kept s (markPending q hit m s) :=
  modQueue_kept _ _ _

theorem popLane_kept (q : PortId) (lane : Priority) (s : State) : Kept s (popLane q lane s) := modQueue_kept _ _ _

theorem returnToHead_kept (q : PortId) (r : Ref) (s : State) : Kept s (returnToHead q r s) := modQueue_kept _ _ _

theorem joinTail_kept (q : PortId) (r : Ref) (s : State) : Kept s (joinTail q r s) :=
  (modQueue_kept _ _ _).trans (makeDueQueue_kept _ _)

theorem blockSweepQueue_kept (a : Address) (s : State) (p : SegPort) : Kept s (blockSweepQueue a s p) :=
  ((markPending_kept _ _ _ _).trans (markHolder_kept _ _ _ _)).trans (sweepLanes_kept _ _ _ _)

theorem blockSweep_kept (a : Address) (s : State) : Kept s (blockSweep a s) := Kept.foldl (blockSweepQueue_kept a) _ _

theorem purgeSweepLane_kept (q : PortId) (lane : Priority) (s : State) : Kept s (purgeSweepLane q lane s) := by
  unfold purgeSweepLane
  dsimp only
  split
  · exact sweepLane_kept _ _ _ _ _
  · exact (markHolder_kept _ _ _ _).trans (sweepLane_kept _ _ _ _ _)

theorem nodeFailed_kept (dest : Address) (s : State) : Kept s (nodeFailed dest s) := by
  unfold nodeFailed
  split
  · rfl
  · dsimp only
    split
    · exact ((modNode_kept _ _ _).trans (raise_kept _ _ _ _)).trans (blockSweep_kept _ _)
    · exact modNode_kept _ _ _

theorem nodeDelivered_kept (dest : Address) (s : State) : Kept s (nodeDelivered dest s) := by
  unfold nodeDelivered
  split
  · rfl
  · exact modNode_kept _ _ _

theorem nodePresent_kept (p : SegPort) (source : Address) (s : State) : Kept s (nodePresent p source s) := by
  unfold nodePresent
  split
  · rfl
  · exact modNode_kept _ _ _

theorem failRef_kept (p : SegPort) (r : Ref) (reason : Reason) (report : Bool) (s : State) :
    Kept s (failRef p r reason report s) := by
  have ended := (countPort_kept p .failed 1 s).trans (dropRef_kept p.port r reason (countPort p .failed 1 s))
  unfold failRef
  dsimp only
  split
  · exact ended.trans (nodeFailed_kept _ _)
  · exact ended

theorem deliverRef_kept (p : SegPort) (r : Ref) (s : State) : Kept s (deliverRef p r s) :=
  ((countPort_kept _ _ _ _).trans (nodeDelivered_kept _ _)).trans (dropRef_kept _ _ _ _)

theorem selectOnce_kept (p : SegPort) (s : State) : Kept s (selectOnce p s) := by
  unfold selectOnce
  dsimp only
  split
  · split
    · exact settleTx_kept _ _ _
    · exact settleTx_kept _ _ _
    · split
      · exact (popLane_kept _ _ _).trans (discardRef_kept _ _ _ _)
      · split
        · exact (popLane_kept _ _ _).trans (failRef_kept _ _ _ _ _)
        · exact settleTx_kept _ _ _
  · exact settleTx_kept _ _ _

theorem runSelections_kept (n : Nat) (s : State) : Kept s (runSelections n s) := by
  induction n generalizing s with
  | zero => exact Kept.refl s
  | succ n ih =>
    unfold runSelections
    split
    · rfl
    · exact (selectOnce_kept _ _).trans (ih _)

/-- The selections at the end of a step. -/
theorem settle_kept (s : State) : Kept s (settle s) := runSelections_kept _ s

theorem updateNotice_kept (p : SegPort) (f : Notice → Option Notice) (s : State) : Kept s (updateNotice p f s) :=
  modCustody_kept _ _ rfl rfl

theorem noticeEnded_kept (p : SegPort) (o : TalkerOutcome) (s : State) : Kept s (noticeEnded p o s) := by
  unfold noticeEnded
  split
  · rfl
  · split
    · exact (updateNotice_kept _ _ _).trans (countGateway_kept _ _)
    · exact updateNotice_kept _ _ _
    all_goals
      split
      · exact updateNotice_kept _ _ _
      · exact (updateNotice_kept _ _ _).trans (countGateway_kept _ _)

theorem refEnded_kept (p : SegPort) (o : TalkerOutcome) (s : State) : Kept s (refEnded p o s) := by
  unfold refEnded
  split
  · rfl
  · have freed := setHolder_kept p.port none s
    dsimp only
    split
    · exact freed.trans (deliverRef_kept _ _ _)
    · exact freed.trans (returnToHead_kept _ _ _)
    · exact freed.trans (failRef_kept _ _ _ _ _)
    · split
      · exact freed.trans (returnToHead_kept _ _ _)
      · exact freed.trans (failRef_kept _ _ _ _ _)
    · exact freed.trans (failRef_kept _ _ _ _ _)

/-- The end of an attempt. -/
theorem endAttempt_kept (p : SegPort) (o : TalkerOutcome) (s : State) : Kept s (endAttempt p o s) := by
  unfold endAttempt
  split
  · rfl
  · have counted : Kept s (if o = .lost then countPort p .arbLost 1 s else s) := by
      split
      · exact countPort_kept _ _ _ _
      · rfl
    dsimp only
    split
    · exact (counted.trans (setTx_kept _ _ _)).trans (noticeEnded_kept _ _ _)
    · exact (counted.trans (setTx_kept _ _ _)).trans (refEnded_kept _ _ _)

theorem disarm_kept (p : SegPort) (s : State) : Kept s (disarm p s) := by
  unfold disarm
  split
  · exact setTx_kept _ _ _
  all_goals rfl

theorem confirmQueue_kept (i : SlotId) (s : State) (q : PortId) : Kept s (confirmQueue i s q) := by
  unfold confirmQueue
  refine (modQueue_kept _ _ _).trans (Kept.foldl (fun x r => ?_) _ _)
  split
  · exact joinTail_kept _ _ _
  · exact discardRef_kept _ _ _ _

theorem confirm_kept (p : SegPort) (s : State) : Kept s (confirm p s) := by
  unfold confirm
  split
  · rfl
  · exact (modSlot_kept _ _ _).trans (Kept.foldl (confirmQueue_kept _) _ _)

theorem withdraw_kept (p : SegPort) (s : State) : Kept s (withdraw p s) := by
  unfold withdraw
  split
  · rfl
  · exact (Kept.foldl (fun x q => modQueue_kept q _ x) _ _).trans (releaseSlot_kept _ _)

theorem flushHolder_kept (p : SegPort) (s : State) : Kept s (flushHolder p s) := by
  unfold flushHolder
  split
  · rfl
  · exact (setHolder_kept _ _ _).trans (discardRef_kept _ _ _ _)

theorem rejectTrunk_kept (i : SlotId) (tag : Option (BitVec 16)) (reason : Reason) (s : State) :
    Kept s (rejectTrunk i tag reason s) := (releaseSlot_kept _ _).trans (takeRejection_kept _ _ _)

theorem admitTrunk_kept (i : SlotId) (inb : Inbound) (d : Decision) (s : State) : Kept s (admitTrunk i inb d s) := by
  unfold admitTrunk
  dsimp only
  split
  · exact rejectTrunk_kept _ _ _ _
  · exact ((modSlot_kept _ _ _).trans (Kept.foldl (fun x q => joinTail_kept q _ x) _ _)).trans (refill_kept _)

theorem addPending_kept (r : Ref) (s : State) (q : PortId) : Kept s (addPending r s q) := modQueue_kept _ _ _

theorem takeSlot_kept (p : SegPort) (f : Frame) (d : Decision) (i : SlotId) (ad : List PortId) (m : Bool) (s : State) :
    Kept s (takeSlot p f d i ad m s) := by
  have stored (g : FrameSlot → FrameSlot) :=
    (modPool_kept (fun pl => { pl with free := pl.free.tail }) s rfl rfl).trans (modSlot_kept i g _)
  have queued (g : FrameSlot → FrameSlot) := (stored g).trans (Kept.foldl (addPending_kept (newRef i .frame)) ad _)
  unfold takeSlot
  dsimp only
  split
  · exact (queued _).trans (addPending_kept _ _ _)
  · exact queued _

theorem admitSegment_kept (p : SegPort) (f : Frame) (d : Decision) (s : State) : Kept s (admitSegment p f d s).2 := by
  unfold admitSegment
  dsimp only
  split
  · rfl
  · split
    · exact takeSlot_kept _ _ _ _ _ _ _
    · split <;> exact (raise_kept _ _ _ _).trans (countGateway_kept _ _)

theorem purgeHeads_kept (n : Nat) (s : State) : Kept s (purgeHeads n s) := by
  induction n generalizing s with
  | zero => exact Kept.refl s
  | succ n ih =>
    unfold purgeHeads
    split
    · rfl
    · split
      · exact ((popLane_kept _ _ _).trans (discardRef_kept _ _ _ _)).trans (ih _)
      · rfl

end Sys2Proof.Machine
end

