-- ==== Sys2Proof/Laws/Requests.lean ====
section
/-! SUPPORT. What a request does at the agent. -/

namespace Sys2Proof.Machine

/-- A request that reaches a free agent is executed and answered in its own step, unless it is a commit (R165, R166). -/
theorem submit_free (id : Octet) (op : RequestOp) (s : State) (h : AgentFree s) (hop : ∀ purge, op ≠ .routeCommit purge) :
    submit id op s = .next (respond ⟨id, (runRequest op s).status, (runRequest op s).results⟩ (runRequest op s).state) := by
  obtain ⟨now, freeCount, ports, route, nodes, pool, custody, trunk, ⟨buffers, executing, drop⟩, events, gateway, pending⟩ := s
  obtain ⟨link, rx, hold, susp, out, sent, next, adv, cp, refresh, response, tx, cut, ns, ls, ic, iw, taken, counters⟩ := trunk
  obtain ⟨rfl, rfl, rfl, rfl⟩ : link = .up ∧ executing = false ∧ buffers = [] ∧ response = none := h
  cases op with
  | routeCommit purge => exact absurd rfl (hop purge)
  | _ => rfl

/-- A commit that reaches a free agent (R87, R165, R166). -/
theorem submit_commit_free (id purge : Octet) (s : State) (h : AgentFree s) :
    submit id (.routeCommit purge) s =
      .next (beginCommit id purge [] { s with agent := { s.agent with buffers := [⟨id, .routeCommit purge⟩] } }) := by
  obtain ⟨now, freeCount, ports, route, nodes, pool, custody, trunk, ⟨buffers, executing, drop⟩, events, gateway, pending⟩ := s
  obtain ⟨link, rx, hold, susp, out, sent, next, adv, cp, refresh, response, tx, cut, ns, ls, ic, iw, taken, counters⟩ := trunk
  obtain ⟨rfl, rfl, rfl, rfl⟩ : link = .up ∧ executing = false ∧ buffers = [] ∧ response = none := h
  rfl

end Sys2Proof.Machine
end

