-- ==== Sys2Proof/Laws/Ports.lean ====
section
/-! SUPPORT. The operations on one port: updates fused into one, and what the shared operations do on a port that talks no
frame and has nothing admitted. -/

namespace Sys2Proof.Machine

theorem modAt_modAt {α : Type} {n : Nat} (v : Vector α n) (i : Fin n) (f g : α → α) :
    modAt (modAt v i f) i g = modAt v i (g ∘ f) := by
  ext k hk
  simp only [getElem_modAt]
  split <;> rfl

theorem modPort_modPort (p : SegPort) (f g : Port → Port) (s : State) :
    modPort p g (modPort p f s) = modPort p (g ∘ f) s := by
  simp only [modPort, modAt_modAt]

theorem modQueue_modQueue (q : PortId) (f g : Queue → Queue) (s : State) :
    modQueue q g (modQueue q f s) = modQueue q (g ∘ f) s := by
  simp only [modQueue, modPool, modAt_modAt]

theorem modPort_port (p : SegPort) (f : Port → Port) (s : State) : (modPort p f s).ports[p] = f s.ports[p] := by
  simp

theorem modPort_congr (p : SegPort) (f g : Port → Port) (s : State) (h : f s.ports[p] = g s.ports[p]) :
    modPort p f s = modPort p g s := by
  simp only [modPort, modAt, h]

theorem modPort_id (p : SegPort) (f : Port → Port) (s : State) (h : f s.ports[p] = s.ports[p]) : modPort p f s = s := by
  have : modAt s.ports p f = s.ports := by
    ext k hk
    simp only [getElem_modAt]
    split
    · subst_vars; exact h
    · rfl
  simp only [modPort, this]

@[simp] theorem unarmed_unarmed (tx : TxState) : tx.unarmed.unarmed = tx.unarmed := by
  cases tx <;> rfl

theorem unarmed_isTalker (pt : Port) : isTalker { pt with tx := pt.tx.unarmed } = isTalker pt := by
  unfold isTalker attemptOf TxState.unarmed
  cases pt.tx <;> rfl

theorem unarmed_of_talker (pt : Port) (h : isTalker pt = true) : pt.tx.unarmed = pt.tx := by
  unfold isTalker attemptOf at h
  unfold TxState.unarmed
  cases e : pt.tx <;> first | rfl | (rw [e] at h; simp at h)

/-- A transmitter that is armed drops its candidate. -/
theorem disarm_eq (p : SegPort) (s : State) : disarm p s = modPort p (fun pt => { pt with tx := pt.tx.unarmed }) s := by
  unfold disarm
  split
  all_goals rename_i h
  · exact modPort_congr p _ _ s (by rw [h]; rfl)
  all_goals
    refine (modPort_id p _ s ?_).symm
    have : s.ports[p].tx.unarmed = s.ports[p].tx := by rw [h]; rfl
    rw [this]

/-! ### An admission on a port (R48) -/

/-- Nothing admitted, nothing withdrawn (R48). -/
theorem withdraw_none (p : SegPort) (s : State) (h : s.ports[p].assembly.admission = none) : withdraw p s = s := by
  unfold withdraw admittedSlot
  rw [h]
  rfl

theorem noteCredit_modPort (p : SegPort) (f : Port → Port) (s : State) :
    noteCredit (modPort p f s) = modPort p f (noteCredit s) := by
  unfold noteCredit
  rw [apply_ite (modPort p f)]
  rfl

theorem refill_modPort (p : SegPort) (f : Port → Port) (s : State) : refill (modPort p f s) = modPort p f (refill s) := by
  unfold refill
  dsimp only
  rw [apply_ite (modPort p f), ← noteCredit_modPort]
  rfl

theorem releaseSlot_modPort (i : SlotId) (p : SegPort) (f : Port → Port) (s : State) :
    releaseSlot i (modPort p f s) = modPort p f (releaseSlot i s) := by
  unfold releaseSlot
  dsimp only
  rw [apply_ite (modPort p f), ← refill_modPort, ← refill_modPort, ← noteCredit_modPort]
  rfl

/-- A withdrawal depends on no field of the port but its assembly buffer, and changes none of its fields. -/
theorem withdraw_modPort (p : SegPort) (f : Port → Port) (s : State)
    (h : (f s.ports[p]).assembly = s.ports[p].assembly) : withdraw p (modPort p f s) = modPort p f (withdraw p s) := by
  have e : admittedSlot (modPort p f s).ports[p] = admittedSlot s.ports[p] := by
    rw [modPort_port, admittedSlot, h]; rfl
  unfold withdraw
  rw [e]
  cases admittedSlot s.ports[p] with
  | none => rfl
  | some i =>
    have moved (qs : List PortId) (u : State) :
        qs.foldl (fun t q => modQueue q (fun Q => { Q with pending := Q.pending.filter fun r => !(r.slot == i) }) t)
          (modPort p f u) =
        modPort p f (qs.foldl (fun t q =>
          modQueue q (fun Q => { Q with pending := Q.pending.filter fun r => !(r.slot == i) }) t) u) := by
      induction qs generalizing u with
      | nil => rfl
      | cons q qs ih =>
        rw [List.foldl_cons, List.foldl_cons, ← ih]
        rfl
    dsimp only
    rw [moved, releaseSlot_modPort]

theorem withdraw_port (p q : SegPort) (s : State) : (withdraw p s).ports[q] =
    { s.ports[q] with tx := (withdraw p s).ports[q].tx, counters := (withdraw p s).ports[q].counters,
                      due := (withdraw p s).ports[q].due } := (withdraw_kept p s).port q

/-! ### The end of an attempt and the errors (R18, R19, R32, R58) -/

/-- A port that makes no attempt has none to end (R58). -/
theorem endAttempt_none (p : SegPort) (o : TalkerOutcome) (s : State) (h : isTalker s.ports[p] = false) :
    endAttempt p o s = s := by
  unfold endAttempt
  unfold isTalker at h
  cases h' : attemptOf s.ports[p] with
  | none => rfl
  | some a => rw [h'] at h; simp at h

/-- A signal or format error at a listener (R18, R32). -/
theorem frameError_listener (p : SegPort) (c : PortCounter) (t : Ticks) (s : State) (h : isTalker s.ports[p] = false) :
    frameError p c t s = listenerLeaves p c t s := by
  have ended : endAttempt p .aborted (disarm p (countPort p c 1 s)) = disarm p (countPort p c 1 s) := by
    apply endAttempt_none
    rw [disarm_eq, countPort, modPort_modPort, modPort_port]
    exact (unarmed_isTalker _).trans h
  unfold frameError listenerLeaves leaveFrame
  dsimp only
  rw [ended, h, disarm_eq, countPort, modPort_modPort, withdraw_modPort p _ s rfl]
  simp only [clearAssembly, toFlush, release, driveAbort, countPort, modPort_modPort, Bool.false_or]
  split <;> rfl

/-- A signal or format error at a talker (R19, R32). -/
theorem frameError_talker (p : SegPort) (c : PortCounter) (t : Ticks) (s : State) (h : isTalker s.ports[p] = true) :
    frameError p c t s = talkerLeaves p c t s := by
  have armed : disarm p (countPort p c 1 s) = countPort p c 1 s := by
    rw [disarm_eq]
    apply modPort_id
    rw [unarmed_of_talker]
    rw [countPort, modPort_port]
    exact h
  unfold frameError talkerLeaves
  dsimp only
  rw [h, armed]
  simp only [toFlush, driveAbort, countPort, modPort_modPort, Bool.true_or, ↓reduceIte]
  rfl

/-! ### The swap of a commit (R88) -/

/-- An ARMED transmitter is to select again. -/
theorem dueIfArmed_eq (s : State) (p : SegPort) :
    dueIfArmed s p = modPort p (fun pt => if pt.tx.isArmed then { pt with due := true } else pt) s := by
  unfold dueIfArmed
  split <;> rename_i h
  · exact modPort_congr p _ _ s (by rw [h]; rfl)
  all_goals exact (modPort_id p _ s (by rw [h]; rfl)).symm

/-- All that the swap of a commit does: the route list, and, with purge, selection due on every port that is ARMED (R88). -/
theorem commitSwap_eq (purge : Bool) (s : State) :
    commitSwap purge s = { s with
      route := swapBanks purge s.route
      ports := if purge then modAll s.ports (fun pt => if pt.tx.isArmed then { pt with due := true } else pt) else s.ports } := by
  cases purge with
  | false => rfl
  | true =>
    simp only [commitSwap, allSegPorts, List.foldl, dueIfArmed_eq, if_true, modPort, modRoute]
    congr 1
    ext k hk
    simp only [getElem_modAt, getElem_modAll]
    match k, hk with
    | 0, _ => rfl
    | 1, _ => rfl
    | 2, _ => rfl
    | 3, _ => rfl

end Sys2Proof.Machine
end

