-- ==== Sys2Proof/Laws/Line.lean ====
section
/-! SUPPORT. What a receiver that hears symbols can do, and when its frame ends or a signal error is detected, in the words of the
claims. -/

namespace Sys2Proof.Machine

/-! ### Hearing -/

/-- Hearing changes a port's receiver state, its edges, its pin, and, of its assembly buffer, the bits and the slot in progress. -/
structure HeardFrame (pt q : Port) : Prop where
  port : q = { pt with rx := q.rx, edge := q.edge, lastRise := q.lastRise, pin := q.pin, assembly := q.assembly }
  assembly : q.assembly = { pt.assembly with bits := q.assembly.bits, inSlot := q.assembly.inSlot }
  bits : pt.assembly.bits <+: q.assembly.bits
  slots : q.rx = .slots ↔ pt.rx = .slots

namespace HeardFrame

variable {a b c : Port}

theorem refl (a : Port) : HeardFrame a a := ⟨rfl, rfl, List.prefix_refl _, Iff.rfl⟩

theorem trans (x : HeardFrame a b) (y : HeardFrame b c) : HeardFrame a c where
  port := by rw [y.port, x.port]
  assembly := by rw [y.assembly, x.assembly]
  bits := x.bits.trans y.bits
  slots := y.slots.trans x.slots

theorem tx (x : HeardFrame a b) : b.tx = a.tx := by rw [x.port]
theorem isTalker (x : HeardFrame a b) : isTalker b = isTalker a := by unfold Machine.isTalker attemptOf; rw [x.tx]
theorem pulse (x : HeardFrame a b) : b.pulse = a.pulse := by rw [x.port]
theorem rate (x : HeardFrame a b) : b.rate = a.rate := by rw [x.port]
theorem retryLimit (x : HeardFrame a b) : b.retryLimit = a.retryLimit := by rw [x.port]
theorem abortOnError (x : HeardFrame a b) : b.abortOnError = a.abortOnError := by rw [x.port]
theorem header (x : HeardFrame a b) : b.assembly.header = a.assembly.header := by rw [x.assembly]
theorem control (x : HeardFrame a b) : b.assembly.control = a.assembly.control := by rw [x.assembly]
theorem checkGood (x : HeardFrame a b) : b.assembly.checkGood = a.assembly.checkGood := by rw [x.assembly]
theorem decision (x : HeardFrame a b) : b.assembly.decision = a.assembly.decision := by rw [x.assembly]
theorem admission (x : HeardFrame a b) : b.assembly.admission = a.assembly.admission := by rw [x.assembly]
theorem answer (x : HeardFrame a b) : b.assembly.answer = a.assembly.answer := by rw [x.assembly]
theorem acceptDriven (x : HeardFrame a b) : b.assembly.acceptDriven = a.assembly.acceptDriven := by rw [x.assembly]

end HeardFrame

theorem hearEdge_frame {gap : Ticks} {pt q : Port} (h : hearEdge gap pt = some q) : HeardFrame pt q := by
  unfold hearEdge at h
  split at h
  · cases h
    refine ⟨rfl, rfl, List.prefix_refl _, ?_⟩
    unfold beginSlot
    cases e : pt.rx <;> simp
  · cases h

theorem hearLow_frame {low : Ticks} {pt q : Port} (h : hearLow low pt = some q) : HeardFrame pt q := by
  unfold hearLow at h
  split at h
  · split at h
    · cases h
      exact ⟨rfl, rfl, List.prefix_refl _, by simp_all⟩
    · cases h
  · split at h
    · obtain ⟨bit, -, rfl⟩ := Option.map_eq_some_iff.mp h
      exact ⟨rfl, rfl, List.prefix_append _ _, Iff.rfl⟩
    · cases h

theorem hearSlot_frame {b : BitSlot} {pt q : Port} (h : hearSlot b pt = some q) : HeardFrame pt q := by
  unfold hearSlot at h
  split at h
  · split at h
    · cases h; exact .refl _
    · cases h
  · obtain ⟨begun, he, hl⟩ := Option.bind_eq_some_iff.mp h
    exact (hearEdge_frame he).trans (hearLow_frame hl)

theorem hearSlots_frame {bs : List BitSlot} {pt q : Port} (h : hearSlots bs pt = some q) : HeardFrame pt q := by
  induction bs generalizing pt with
  | nil => cases h; exact .refl _
  | cons b bs ih =>
    obtain ⟨read, hr, h⟩ := Option.bind_eq_some_iff.mp h
    exact (hearSlot_frame hr).trans (ih h)

/-- A low under 0.05 Tb between the lows of a frame is not seen (R4). -/
theorem hearSlot_short {b : BitSlot} {pt : Port} (h : betweenLows pt = true) (short : 100 * b.low < 5 * bitPeriod pt.rate) :
    hearSlot b pt = some pt := by
  have c : classifyLow pt.rate b.low = .notSeen := by
    unfold classifyLow atLeast
    rw [if_pos]
    simpa using short
  rw [hearSlot, if_pos c, if_pos h]

/-- Whole lows are heard one run after another. -/
theorem hearSlots_append (as bs : List BitSlot) (pt : Port) :
    hearSlots (as ++ bs) pt = (hearSlots as pt).bind (hearSlots bs) := by
  induction as generalizing pt with
  | nil => rfl
  | cons a as ih =>
    simp only [List.cons_append, hearSlots, ih]
    cases hearSlot a pt <;> rfl

/-- All that hearing the symbols of a command can do to a port. -/
theorem hearSymbols_frame {sy : Symbols} {pt q : Port} (h : hearSymbols sy pt = some q) : HeardFrame pt q := by
  obtain ⟨low, slots, edge⟩ := sy
  obtain ⟨closed, hc, h⟩ := Option.bind_eq_some_iff.mp h
  obtain ⟨read, hr, h⟩ := Option.bind_eq_some_iff.mp h
  have first : HeardFrame pt closed := by
    cases low with
    | none => cases hc; exact .refl _
    | some low => exact hearLow_frame hc
  have last : HeardFrame read q := by
    cases edge with
    | none => cases h; exact .refl _
    | some gap => exact hearEdge_frame h
  exact (first.trans (hearSlots_frame hr)).trans last

/-- A port hears symbols: the state is as the port then stands. -/
theorem hearOn_of_hears {p : SegPort} {sy : Symbols} {s : State} {pt : Port} (h : Hears p sy s pt) :
    hearOn p sy s = some (withHeard p pt s) := by
  unfold hearOn
  rw [if_pos h.1, h.2]
  rfl

/-- A port that is not inside a frame, or does not accept the symbols, hears nothing. -/
theorem hearOn_none {p : SegPort} {sy : Symbols} {s : State} (h : HearsNone p sy s) : hearOn p sy s = none := by
  unfold hearOn
  rcases h with h | h
  · rw [if_neg (by rw [h]; exact Bool.false_ne_true)]
  · rw [h]; exact ite_self _

@[simp] theorem withHeard_port (p : SegPort) (pt : Port) (s : State) : (withHeard p pt s).ports[p] = pt := modPort_port p _ s

theorem hearOn_cases (p : SegPort) (sy : Symbols) (s : State) :
    (HearsNone p sy s ∧ hearOn p sy s = none) ∨ ∃ pt, Hears p sy s pt ∧ hearOn p sy s = some (withHeard p pt s) := by
  cases hf : following s.ports[p] with
  | false => exact .inl ⟨.inl hf, hearOn_none (.inl hf)⟩
  | true =>
    cases hh : hearSymbols sy s.ports[p] with
    | none => exact .inl ⟨.inr hh, hearOn_none (.inr hh)⟩
    | some pt => exact .inr ⟨pt, ⟨hf, hh⟩, hearOn_of_hears ⟨hf, hh⟩⟩

/-! ### The end of a frame and signal errors -/

theorem slotsOf_eq_some (a : Assembly) (n : Nat) : slotsOf? a = some n ↔ ∃ c, a.control = some c ∧ n = 35 + 8 * c.length := by
  unfold slotsOf? frameSlots
  cases a.control <;> simp [eq_comm]

/-- The frame of a port ends at a moment exactly when `FrameEnds` says so (R6). -/
theorem frameEnd_eq_some (early : Option Ticks) (pt : Port) (t : Ticks) :
    frameEnd? early pt = some t ↔ FrameEnds early pt t := by
  unfold frameEnd? FrameEnds
  rw [← slotsOf_eq_some pt.assembly pt.assembly.bits.length, ← and_assoc]
  by_cases h : slotsOf? pt.assembly = some pt.assembly.bits.length ∧ pt.assembly.inSlot = false
  · rw [if_pos h, and_iff_right h]
    cases early with
    | none => simp [eq_comm (a := t)]
    | some gap => simp [eq_comm (a := t), and_assoc]
  · rw [if_neg h]
    exact ⟨nofun, fun x => absurd x.1 h⟩

theorem slotsRemain_iff (pt : Port) : slotsRemain pt.assembly = true ↔ SlotsRemain pt := by
  unfold slotsRemain SlotsRemain completionAt frameSlots headerBits controlBits
  cases pt.assembly.header <;> cases pt.assembly.control <;> cases pt.assembly.checkGood <;> simp
  omega

theorem sampleAgrees_iff (low : Ticks) (pt : Port) : sampleAgrees low pt = true ↔ SampleAgrees low pt := by
  unfold sampleAgrees SampleAgrees
  cases attemptOf pt with
  | none => simp
  | some a =>
    by_cases h : pt.rx = .bits
    · simp only [h, bne_self_eq_false, Bool.false_or, beq_iff_eq, Option.some.injEq, forall_eq', forall_const]
      rw [Bool.eq_iff_iff, decide_eq_true_eq]
      rfl
    · simp [h]

/-- A signal error is detected exactly when `FaultDetected` says so (R17, R19). -/
theorem faultAt_eq_some (pt : Port) (f : SignalFault) (t : Ticks) (q : Port) :
    faultAt pt f = some (t, q) ↔ FaultDetected f pt t q := by
  unfold faultAt FaultDetected
  cases f with
  | shape low =>
    rw [Option.ite_none_right_eq_some]
    simp only [← sampleAgrees_iff]
    simp [eq_comm (a := t), eq_comm (a := q), and_assoc]
  | period gap =>
    rw [Option.ite_none_right_eq_some]
    simp only [← slotsRemain_iff]
    simp [atLeast, eq_comm (a := t), eq_comm (a := q), and_assoc]
  | stall waited =>
    rw [Option.ite_none_right_eq_some]
    simp only [← slotsRemain_iff]
    simp [atLeast, hundredths, eq_comm (a := t), eq_comm (a := q), and_assoc]
    tauto

end Sys2Proof.Machine
end

