-- ==== Sys2Proof/Laws/Queues.lean ====
section
/-! SUPPORT. What the removal of references does to the queues: nothing beyond the places they are taken from. -/

namespace Sys2Proof.Machine

theorem raise_pool (k : EventKind) (l : Location) (d : Nat) (s : State) : (raise k l d s).pool = s.pool := by
  unfold raise
  repeat' split
  all_goals rfl

theorem noteCredit_pool (s : State) : (noteCredit s).pool = s.pool := by
  unfold noteCredit
  split <;> rfl

theorem refill_queues (s : State) : (refill s).pool.queues = s.pool.queues := by
  unfold refill
  dsimp only
  split
  · rfl
  · rw [noteCredit_pool]; rfl

theorem releaseSlot_queues (i : SlotId) (s : State) : (releaseSlot i s).pool.queues = s.pool.queues := by
  unfold releaseSlot
  dsimp only
  split
  · rw [refill_queues, noteCredit_pool]; rfl
  · rw [refill_queues]; rfl

theorem createNotice_pool (n : Notice) (s : State) : (createNotice n s).pool = s.pool := by
  unfold createNotice
  repeat' split
  all_goals first | rfl | (rw [raise_pool]; rfl)

theorem createReport_pool (r : Report) (s : State) : (createReport r s).pool = s.pool := by
  unfold createReport
  repeat' split
  all_goals first | rfl | (rw [raise_pool]; rfl)

theorem takeEndRecord_pool (sl : FrameSlot) (q : PortId) (n : Nat) (reason : Reason) (s : State) :
    (takeEndRecord sl q n reason s).pool = s.pool := by
  unfold takeEndRecord
  repeat' split
  all_goals first | rfl | exact createNotice_pool _ _ | exact createReport_pool _ _

/-- Removing a reference that has been taken out of its place changes no queue (R126). -/
theorem dropRef_queues (q : PortId) (r : Ref) (reason : Reason) (s : State) :
    (dropRef q r reason s).pool.queues = s.pool.queues := by
  have handed : (if endRecordDue (slotOf r s) r reason then takeEndRecord (slotOf r s) q r.count reason s else s).pool =
      s.pool := by
    split
    · exact takeEndRecord_pool _ _ _ _ _
    · rfl
  unfold dropRef
  dsimp only
  split
  · rw [releaseSlot_queues, handed]
  · show (if _ then _ else _ : State).pool.queues = _
    rw [handed]

theorem discardRef_queues (q : PortId) (r : Ref) (reason : Reason) (s : State) :
    (discardRef q r reason s).pool.queues = s.pool.queues := by
  unfold discardRef
  split
  · rw [dropRef_queues]; rfl
  · exact dropRef_queues _ _ _ _

theorem discardRefs_queues (q : PortId) (reason : Reason) (rs : List Ref) (s : State) :
    (rs.foldl (fun t r => discardRef q r reason t) s).pool.queues = s.pool.queues := by
  induction rs generalizing s with
  | nil => rfl
  | cons r rs ih => rw [List.foldl_cons, ih, discardRef_queues]

theorem dueIfGone_pool (q : PortId) (s : State) : (dueIfGone q s).pool = s.pool := by
  unfold dueIfGone
  repeat' split
  all_goals rfl

/-- Removing references that have been taken out of their lanes changes no queue (R126). -/
theorem discardAll_queues (q : PortId) (gone : List Ref) (reason : Reason) (s : State) :
    (discardAll q gone reason s).pool.queues = s.pool.queues := by
  unfold discardAll
  rw [dueIfGone_pool, discardRefs_queues]

/-- A sweep of one queue keeps, in each lane, exactly the references that it does not select, and nothing else of any queue
changes (R128 to R130). -/
theorem sweepLanes_queues (q : PortId) (hit : Ref → Bool) (reason : Reason) (s : State) :
    (sweepLanes q hit reason s).pool.queues =
      modAt s.pool.queues q fun Q => { Q with lanes := modAll Q.lanes (·.filter fun r => !hit r) } :=
  discardAll_queues _ _ _ _

/-- A sweep of one lane keeps exactly the references that it does not select, and nothing else of any queue changes (R89). -/
theorem sweepLane_queues (q : PortId) (lane : Priority) (hit : Ref → Bool) (reason : Reason) (s : State) :
    (sweepLane q lane hit reason s).pool.queues =
      modAt s.pool.queues q fun Q => { Q with lanes := modAt Q.lanes lane (·.filter fun r => !hit r) } :=
  discardAll_queues _ _ _ _

/-! ### The most urgent head, and all queues at once -/

/-- A search in rising order finds the least index that answers. -/
theorem findSome?_first {n : Nat} {α : Type} (g : Fin n → Option α) (l : List (Fin n)) (h : l.Pairwise (· < ·)) (i : Fin n)
    (r : α) :
    (l.findSome? fun k => (g k).map (k, ·)) = some (i, r) ↔ i ∈ l ∧ g i = some r ∧ ∀ j ∈ l, j < i → g j = none := by
  induction l with
  | nil => simp
  | cons k l ih =>
    obtain ⟨hk, h⟩ := List.pairwise_cons.1 h
    rw [List.findSome?_cons]
    cases e : g k with
    | some x =>
      simp only [Option.map_some, Option.some.injEq, Prod.mk.injEq]
      constructor
      · rintro ⟨rfl, rfl⟩
        refine ⟨by simp, e, fun j hj hlt => ?_⟩
        rcases List.mem_cons.1 hj with rfl | hj
        · exact absurd hlt (lt_irrefl _)
        · exact absurd hlt (lt_asymm (hk j hj))
      · rintro ⟨hi, hg, hall⟩
        rcases List.mem_cons.1 hi with rfl | hi
        · rw [e] at hg; exact ⟨rfl, Option.some.inj hg⟩
        · have := hall k (by simp) (hk i hi); rw [e] at this; cases this
    | none =>
      simp only [Option.map_none]
      rw [ih h]
      constructor
      · rintro ⟨hi, hg, hall⟩
        exact ⟨by simp [hi], hg, fun j hj hlt => (List.mem_cons.1 hj).elim (fun hj => hj ▸ e) (fun hj => hall j hj hlt)⟩
      · rintro ⟨hi, hg, hall⟩
        refine ⟨(List.mem_cons.1 hi).resolve_left (fun hik => ?_), hg, fun j hj => hall j (by simp [hj])⟩
        rw [hik, e] at hg; cases hg

/-- The first head is that of the most urgent lane that is not empty (R54, R125). -/
theorem firstHead_eq_some (q : PortId) (s : State) (lane : Priority) (r : Ref) : firstHead q s = some (lane, r) ↔
    s.pool.queues[q].lanes[lane].head? = some r ∧ ∀ l : Priority, l < lane → s.pool.queues[q].lanes[l] = [] := by
  unfold firstHead laneHead
  rw [findSome?_first (fun lane : Priority => s.pool.queues[q].lanes[lane].head?) _ (by decide)]
  simp

/-- There is no first head exactly when every lane is empty. -/
theorem firstHead_eq_none (q : PortId) (s : State) : firstHead q s = none ↔ ∀ l : Priority, s.pool.queues[q].lanes[l] = [] := by
  simp [firstHead, laneHead, List.findSome?_eq_none_iff]

theorem foldl_modAt {α : Type} {n : Nat} (f : α → α) (is : List (Fin n)) (v : Vector α n) (k : Fin n) (h : is.Nodup) :
    (is.foldl (fun v i => modAt v i f) v)[k] = if k ∈ is then f v[k] else v[k] := by
  induction is generalizing v with
  | nil => simp
  | cons i is ih =>
    obtain ⟨hi, h⟩ := List.nodup_cons.1 h
    rw [List.foldl_cons, ih _ h]
    by_cases hk : k = i
    · subst hk; simp [hi]
    · rw [getElem_modAt_fin, if_neg hk]
      simp [hk]

theorem foldl_modQueue (f : Queue → Queue) (qs : List PortId) (s : State) : qs.foldl (fun t q => modQueue q f t) s =
    { s with pool := { s.pool with queues := qs.foldl (fun v q => modAt v q f) s.pool.queues } } := by
  induction qs generalizing s with
  | nil => rfl
  | cons q qs ih => exact ih _

/-- One change to every queue in turn is that change to all of them. -/
theorem allPorts_modQueue (f : Queue → Queue) (s : State) : allPorts.foldl (fun t q => modQueue q f t) s =
    { s with pool := { s.pool with queues := s.pool.queues.map f } } := by
  rw [foldl_modQueue]
  have e : allPorts.foldl (fun v q => modAt v q f) s.pool.queues = s.pool.queues.map f := by
    ext1 k hk
    have at_k := foldl_modAt f allPorts s.pool.queues ⟨k, hk⟩ (by decide)
    rw [if_pos ((by decide : ∀ q : PortId, q ∈ allPorts) _)] at at_k
    rw [Vector.getElem_map]
    exact at_k
  rw [e]

end Sys2Proof.Machine
end

