-- ==== Sys2Proof/Laws/Trunk.lean ====
section
/-! SUPPORT. The characters of TRK_TX: their boundaries, the kind of the idles between frames, and a choice of the arbiter. -/

namespace Sys2Proof.Machine

variable (s : State)

/-- What a change of the trunk link does: the change itself, and the note of it where the idle character to send changes. -/
theorem retune_trunk (f : Trunk → Trunk) :
    (retune f s).trunk =
      if sendsIdleR (f s.trunk) = sendsIdleR s.trunk then f s.trunk
      else { f s.trunk with idleChanged := s.now, idleWasR := idleIsR s.trunk s.now } := rfl

/-- A change that leaves the idle character to send as it is, is the change alone. -/
theorem retune_of_eq {f : Trunk → Trunk} (h : sendsIdleR (f s.trunk) = sendsIdleR s.trunk) : retune f s = modTrunk f s := by
  simp only [retune, modTrunk, h, if_true]

/-- A choice that starts a frame is the arbiter's alone (R161). -/
theorem choose_starts {f : TxFrame} (h : (arbitrate s).trunk.tx = some f) : choose s = arbitrate s := by
  unfold choose
  dsimp only
  rw [h]
  rfl

/-- A choice that starts none puts the next one a character later (R161). -/
theorem choose_idles (h : (arbitrate s).trunk.tx = none) :
    choose s = modTrunk (fun t => { t with nextStart := s.now + 20 }) (arbitrate s) := by
  unfold choose
  dsimp only
  rw [h]
  rfl

/-- Rounding up to a multiple of 20 after a start. -/
theorem roundUp_spec {a t : Nat} (h : a ≤ t) :
    (a ≤ a + (t - a + 19) / 20 * 20 ∧ (a + (t - a + 19) / 20 * 20 - a) % 20 = 0) ∧ t ≤ a + (t - a + 19) / 20 * 20 ∧
      a + (t - a + 19) / 20 * 20 < t + 20 := by omega

theorem roundUp_le {a t b : Nat} (hb : a ≤ b ∧ (b - a) % 20 = 0) (h : t ≤ b) : a + (t - a + 19) / 20 * 20 ≤ b := by omega

/-- The first boundary from a moment on is a boundary, is not before the moment, and lies less than a character after it. -/
theorem boundaryFrom_spec {k : Trunk} {t : Ticks} (h : k.lineStart ≤ t) :
    OnBoundary k (boundaryFrom k t) ∧ t ≤ boundaryFrom k t ∧ boundaryFrom k t < t + 20 := roundUp_spec h

/-- Every boundary that is not before a moment is at or after the first one. -/
theorem boundaryFrom_le {k : Trunk} {t b : Ticks} (hb : OnBoundary k b) (h : t ≤ b) : boundaryFrom k t ≤ b := roundUp_le hb h

/-- A moment that is a boundary is the first one from itself on. -/
theorem boundaryFrom_self {k : Trunk} {t : Ticks} (h : OnBoundary k t) : boundaryFrom k t = t :=
  Nat.le_antisymm (boundaryFrom_le h (Nat.le_refl t)) (boundaryFrom_spec h.1).2.1

end Sys2Proof.Machine
end

