-- ==== Sys2Proof/Tests/Slice0.lean ====
section
/-! SUPPORT. Tests of the model against the spec's own worked examples, rules and tables, and the witnesses of the
hypotheses of the statements. -/

namespace Sys2Proof.Tests

-- One theorem after another: each is one kernel evaluation, and many at once need a thread each.
set_option Elab.async false

open Sys2Proof.Machine

/-! ### Small states -/

/-- The state a command leads to. -/
def after (c : Instr) (s : State) : State :=
  match exec c s with
  | .next t => t
  | .fault _ => .reset
  | .refused _ => .reset

/-- The state that several commands lead to. -/
def run (s : State) : List Instr → State
  | [] => s
  | c :: cs => run (after c s) cs

/-- A port enabled, with its receiver and its transmitter in given states. -/
def portIn (p : SegPort) (rx : RxState) (tx : TxState) (s : State := .reset) : State :=
  modPort p (fun pt => { pt with enabled := true, rx := rx, tx := tx }) s

/-- The frame of the worked example of 02_segment_frames_and_response_slots.md. -/
def shortFrame : Frame := ⟨2, 37, 71, 3, []⟩

/-- A QUEUED frame slot holding that frame in custody, received on S0, egress priority 2, with one reference. -/
def fullSlot : FrameSlot := ⟨.queued, shortFrame, 0, 0, .entry 3, 2, 0, some 100, true, none, 1, none, none⟩

/-- Frame slot 8 holds the frame. -/
def stored (s : State := .reset) : State :=
  modSlot 8 (fun _ => fullSlot) (modPool (fun p => { p with free := p.free.tail }) s)

/-- The reference to frame slot 8. -/
def ref8 (count : Nat := 0) (mark : Option Mark := none) : Ref := ⟨8, .frame, count, mark⟩

/-- The frame waits in lane 2 of a queue. -/
def waiting (q : PortId) (s : State := .reset) : State :=
  modQueue q (fun Q => { Q with lanes := modAt Q.lanes 2 fun _ => [ref8] }) (stored s)

/-- The frame is in a queue's attempt holder, or in trunk transmission. -/
def heldBy (q : PortId) (r : Ref) (s : State := .reset) : State := setHolder q (some r) (stored s)

/-- The trunk link in one of its states, in lock outside SEEK. -/
def linked (l : LinkState) (s : State := .reset) : State :=
  { s with trunk := { s.trunk with
      link := l, rx := { s.trunk.rx with lock := l != .seek }
      hold := if l = .suspect then some ⟨0, 50000⟩ else none
      refresh := if l = .up then some 22500 else none } }

/-- The header, the control field and the check bits of the worked example, as a talker sends them (R3, TYP; R6). -/
def leadInHeard (bits : List Bool) : Symbols := { low := some 7500, slots := slotsOfBits .standard 400 bits }
def bitsHeard (bits : List Bool) : Symbols := { slots := slotsOfBits .standard 100 bits }
def headerHeard : Symbols := leadInHeard (headerBitsOf ⟨2, 37, 71⟩)
def controlHeard : Symbols := bitsHeard (controlBitsOf ⟨3, 0⟩)
def checkHeard (check : Nat) : Symbols := bitsHeard (bitsOfNat 8 check)

/-- The two response slots from the low of the accept slot on: asserted 0.60 Tb, or 0.25 Tb (R16). -/
def slotLow (asserted : Bool) : Ticks := if asserted then 1500 else 625
def slotsHeard (accept refuse : Bool) : Symbols := { low := some (slotLow accept), slots := [⟨2500, slotLow refuse⟩] }

/-- A port inside a frame with a given assembly buffer. -/
def inFrame (p : SegPort) (rx : RxState) (tx : TxState) (a : Assembly) (s : State := .reset) : State :=
  modAssembly p (fun _ => a) (portIn p rx tx s)

/-- The header and the control field of the worked example, read. -/
def readHeader : Assembly := { bits := headerBitsOf ⟨2, 37, 71⟩, header := some ⟨2, 37, 71⟩ }
def readControl : Assembly := { readHeader with bits := (sentBits shortFrame).take 25, control := some ⟨3, 0⟩ }

/-- All of the worked example read, its check good, the accept slot next. -/
def readAll : Assembly := { readControl with bits := sentBits shortFrame, check := some 63, checkGood := some true }

/-- In the accept slot's low, and in the refuse slot's. -/
def inAccept : Assembly := { readAll with inSlot := true }

/-- A route decision to S3 under CUSTODY. -/
def toS3 : Decision := ⟨false, .entry 3, 0, 8, .custody, 2, 1, false, none⟩

/-- Port 0 has received the header and the control field of the worked example, with a decision. -/
def atCheck (d : Option Decision := some toS3) (s : State := .reset) : State :=
  inFrame 0 .bits .idle { readControl with decision := d } s

/-- Port 0 in the slots of that frame, its check good, admitted in frame slot 8 with one pending reference on S3. -/
def atSlots (answer : Answer := .accept) (mark : Option Mark := none) : State :=
  modQueue 3 (fun Q => { Q with pending := [ref8 0 mark] })
    (inFrame 0 .slots .idle { readAll with
      decision := some toS3, admission := some ⟨.all, none, false, some 8⟩, answer := answer } stored)

/-- An attempt of the frame, and one of a notice. -/
def frameAttempt : Attempt := ⟨false, shortFrame⟩
def noticeAttempt : Attempt := ⟨true, ⟨2, 71, 119, 15, [1, 44, 6, 4, 3]⟩⟩

/-- Record B of the worked example of 07_custody_notices_and_reports.md. -/
def noticeB (inAttempt : Bool) (sendCount : Nat := 0) : Notice := ⟨0, 71, 44, 6, .undeliverable, 4, 3, sendCount, inAttempt⟩

def withNotices (ns : List Notice) (s : State := .reset) : State := { s with custody := { s.custody with notices := ns } }

def withEvents (es : List Event) (s : State := .reset) : State := { s with events := { s.events with records := es } }

/-- A route list in the middle of a commit begun by request 42, with lanes left to its purge sweep. -/
def committing (lanes : List (PortId × Priority)) (resync : Bool) : State :=
  { State.reset with
    route := { RouteList.reset with epoch := 9, purgeEpoch := 9, commit := .running lanes resync }
    agent := ⟨[⟨42, .routeCommit 1⟩], true, false⟩ }

/-- The gateway settings at their reset values (R172). -/
def resetGateway : GatewayArgs := ⟨119, 2, 100, 500, 2550, 0, 4, 8, 0, 2⟩

/-- Entry 0 of the worked example ROUTE MATCHING, as a request carries it. -/
def exampleRoute : RouteArgs := ⟨1, 10, 19, 0, 0, 0, 0xFFFF, 0, 18, 0, 0, 255, 1⟩

/-! ### Well-formedness: each check refuses an ill-formed command -/

def manySlots (n : Nat) : Symbols := { slots := List.replicate n ⟨2500, 625⟩ }
def openSlot : Symbols := { edge := some 2500 }

theorem test_wf_header_slots :
    Instr.wellFormed (.headerCompletion 0 none (manySlots 18).slots) = false := by
  decide
theorem test_wf_control_slots :
    Instr.wellFormed (.controlCompletion 0 (manySlots 9)) = false ∧ Instr.wellFormed (.controlCompletion 0 openSlot) = false := by
  decide
theorem test_wf_check_slots :
    Instr.wellFormed (.checkCompletion 0 (manySlots 105)) = false ∧ Instr.wellFormed (.checkCompletion 0 openSlot) = false := by
  decide +kernel
theorem test_wf_end_slots :
    Instr.wellFormed (.endOfFrame 0 ⟨manySlots 2, none⟩) = false ∧ Instr.wellFormed (.endOfFrame 0 ⟨openSlot, none⟩) = false ∧
      Instr.wellFormed (.attemptEnd 0 none (manySlots 2).slots none) = false := by
  decide +kernel
theorem test_wf_error_slots :
    Instr.wellFormed (.signalError 0 ⟨manySlots 130, .shape 0⟩) = false ∧
      Instr.wellFormed (.abortPulse ⟨0, manySlots 130⟩) = false := by
  decide +kernel
theorem test_wf_arbitration_in_header : Instr.wellFormed (.arbitrationLost 0 (manySlots 17)) = false := by
  decide +kernel
theorem test_wf_overdrive_in_content : Instr.wellFormed (.overdrive 0 (manySlots 129)) = false := by
  decide +kernel
theorem test_wf_trunk_needs_characters :
    Instr.wellFormed (.lockGained []) = false ∧ Instr.wellFormed (.lockLost []) = false ∧
      Instr.wellFormed (.freshUp []) = false ∧ Instr.wellFormed (.enterSuspect []) = false ∧
      Instr.wellFormed (.resume []) = false ∧ Instr.wellFormed (.trunkFrameReceived []) = false := by decide
theorem test_wf_accepts :
    Instr.wellFormed (.headerCompletion 0 headerHeard.low headerHeard.slots) = true ∧ Instr.wellFormed (.checkCompletion 0 (checkHeard 63)) = true ∧
      Instr.wellFormed (.endOfFrame 0 ⟨slotsHeard true false, none⟩) = true ∧
      Instr.wellFormed (.overdrive 0 { manySlots 128 with edge := some 2500 }) = true ∧
      Instr.wellFormed (.attemptEnd 0 none [⟨600, 124⟩, ⟨2500, 625⟩, ⟨700, 499⟩] none) = true := by decide +kernel

/-! ### Words: the table gives no row any bits -/

theorem test_no_word_spells_a_command (nbits w : Nat) : decodeTableWord nbits w = none := rfl

theorem test_withFetchWord_leaves_state (s : State) (nbits w : Nat) : s.withFetchWord nbits w = s := rfl

/-! ### Reading the line (worked example of 02: the check octet of a short frame) -/

/-- "The check octet is 00111111, decimal 63." -/
theorem test_check_octet : checkOctet shortFrame = 63 := by decide +kernel

/-- "A receiver that runs the same register on through the eight check bits finishes at 00000000." -/
theorem test_good_check_leaves_zero : crc8 (sentBits shortFrame) = 0 := by decide +kernel

/-- The register after each field, from the example's table. -/
theorem test_crc_after_fields :
    crc8 (bitsOfNat 3 2) = 0b11100011 ∧ crc8 (bitsOfNat 3 2 ++ bitsOfNat 7 37) = 0b00101011 ∧
      crc8 (headerBitsOf ⟨2, 37, 71⟩) = 0b00111001 := by decide +kernel

/-- The bits of the header, from the example's table: 010 0100101 1000111. -/
theorem test_header_bits :
    headerBitsOf ⟨2, 37, 71⟩ =
      [false, true, false, false, true, false, false, true, false, true, true, false, false, false, true, true, true] := by
  decide

/-- Lows at the ends of the ranges of R4 at STANDARD rate (0.15, 0.40, 0.48, 0.75, 1.6 and 5.0 Tb). -/
theorem test_low_classes :
    [124, 125, 374, 375, 1000, 1001, 1199, 1200, 1875, 1876, 4000, 4001, 12500, 12501].map (classifyLow .standard) =
      [.notSeen, .shapeError, .shapeError, .bit1, .bit1, .shapeError, .shapeError, .bit0, .bit0, .shapeError, .shapeError,
        .abortPulse, .abortPulse, .lineHeld] := by decide

/-- LEADIN, GAP at the lead-in's rising edge, BITS at bit slot 1's falling edge (R42), and the bit of its low (R4). -/
theorem test_hearing_moves_the_receiver :
    let pt := (portIn 0 .leadIn .idle).ports[0]
    ((hearSymbols { low := some 7500 } pt).map (·.rx)) = some .gap ∧
      ((hearSymbols { low := some 7500, edge := some 10000 } pt).map fun q => (q.rx, q.edge, q.assembly.inSlot)) =
        some (.bits, 10000, true) ∧
      ((hearSymbols (leadInHeard [false]) pt).map fun q => (q.rx, q.assembly.bits)) = some (.bits, [false]) := by decide +kernel

/-- The windows of R5 and R6 at their ends: a lead-in of 2.6 to 3.4 Tb, bit slot 1 at 3.8 to 4.4 Tb. -/
theorem test_hearing_windows :
    let pt := (portIn 0 .leadIn .idle).ports[0]
    [6499, 6500, 8500, 8501].map (fun t => (hearSymbols { low := some t } pt).isSome) = [false, true, true, false] ∧
      [9499, 9500, 11000, 11001].map (fun t => (hearSymbols { low := some 7500, edge := some t } pt).isSome) =
        [false, true, true, false] := by decide +kernel

/-- A low under 0.05 Tb, 125 ticks, between the lows of a frame is not seen: the gap to the next bit slot still counts from the last
one, and the bits are those of the frame (R4). From 0.05 Tb on it is a low that no bit is. -/
theorem test_short_low_is_not_seen :
    let pt := (portIn 0 .leadIn .idle).ports[0]
    let heard := fun low : Ticks => hearSymbols ⟨some 7500, [⟨9000, low⟩, ⟨10000, 1500⟩, ⟨1800, low⟩, ⟨2500, 625⟩], none⟩ pt
    (heard 124).map (fun q => (q.rx, q.edge, q.assembly.bits)) = some (.bits, 12500, [false, true]) ∧ (heard 125).isSome = false := by
  decide +kernel

/-- "Node 30's last-talker flag is set", priority 3: Q = 8 Tb; SP1 at priority 2 with a clear flag: 4 Tb (01, worked example). -/
theorem test_quiet_times : quietTime .standard 3 true = 8 * 2500 ∧ quietTime .standard 2 false = 4 * 2500 := by decide

/-- Outcomes of the worked example of 02, cases 1 to 5, by the two readings. -/
theorem test_outcomes :
    outcomeOf 37 true false = .delivered ∧ outcomeOf 37 false true = .refused ∧ outcomeOf 37 false false = .unaccepted ∧
      outcomeOf 37 true true = .refused := by decide

/-! ### Requests -/

/-- R168: model 410, two octets; 2, 64 and 64; the epoch; and the link state, here UP, 2. -/
theorem test_identify : (after (.identify 7) (linked .up)).trunk.response = some ⟨7, .ok, [1, 154, 2, 64, 64, 0, 0, 0, 0, 2]⟩ := by
  decide +kernel

/-- In SEEK a request is not dispatched (R165). -/
theorem test_request_needs_up : after (.identify 7) .reset = .reset := by decide +kernel

/-- A request that waits: with the response holder full it stays buffered (R166; 09, worked example, REQ 41). -/
theorem test_request_waits : (run (linked .up) [.identify 40, .identify 41]).agent.buffers = [⟨41, .identify⟩] := by decide +kernel

/-- "REQ 43 arrives: both full, overrun" (09, worked example). -/
theorem test_request_overrun :
    (run (linked .up) [.identify 40, .identify 41, .identify 42, .identify 43]).trunk.counters[6] = 1 := by decide +kernel

/-- "RSP 40 EOF; 41 executed" (09, worked example): once the response has left, AGENT_BEGIN_REQUEST begins the next. -/
theorem test_agentBeginRequest :
    (after .agentBeginRequest { State.reset with agent := ⟨[⟨41, .gatewayRead⟩], false, false⟩ }).agent.buffers = [] := by
  decide +kernel

theorem test_routeWrite_reads_back :
    (run (linked .up) [.routeWrite 1 0 exampleRoute, .trunkFrameStart]).trunk.response = some ⟨1, .ok, []⟩ ∧
      (runRouteRead 1 0 (after (.routeWrite 1 0 exampleRoute) (linked .up))).results =
        [1, 1, 10, 19, 0, 0, 0, 255, 255, 0, 18, 0, 0, 255, 1, 0, 0, 0, 0] := by decide +kernel

/-- A valid entry with an empty ingress set is refused (R70). -/
theorem test_routeWrite_refuses_empty_ingress :
    (after (.routeWrite 1 0 { exampleRoute with ingress := 0 }) (linked .up)).trunk.response = some ⟨1, .badArgument, []⟩ := by
  decide +kernel

theorem test_routeRead_index_range : (after (.routeRead 1 0 64) (linked .up)).trunk.response = some ⟨1, .badArgument, []⟩ := by
  decide +kernel

theorem test_routeClear_clears :
    (shadowBank (after (.routeClear 2 0 63) (modRoute (fun r => setShadow (Vector.replicate 64
      { RouteEntry.cleared with valid := true }) r) (linked .up))).route)[63] = .cleared := by decide +kernel

theorem test_routeClear_first_above_last : (after (.routeClear 2 5 4) (linked .up)).trunk.response = some ⟨2, .badArgument, []⟩ := by
  decide +kernel

/-- "42 begins: swap ... RUNNING, 9; purge epoch 9" (09, worked example). -/
theorem test_routeCommit_begins :
    let t := after (.routeCommit 42 1) { linked .up with route := { RouteList.reset with epoch := 8 } }
    t.route.epoch = 9 ∧ t.route.purgeEpoch = 9 ∧ t.route.commit = .running sweepOrder true ∧ t.agent.executing = true ∧
      t.trunk.response = none := by decide +kernel

/-- "sweep reaches S3 lane 1", then "resync completes", then "sweep completes; commit completes" (04, worked example A FRAME ON SEG1
ACROSS A COMMIT WITH PURGE): slot 41 in the attempt holder is marked as the sweep reaches its queue's lane. -/
theorem test_sweep_resync_sweep :
    let s := heldBy 3 ref8 (modQueue 3 (fun Q => { Q with lanes := modAt Q.lanes 1 fun _ => [⟨40, .frame, 0, none⟩] })
      (modSlot 40 (fun _ => { fullSlot with priority := 1 }) (committing [(3, 1), (4, 7)] true)))
    let swept := after .purgeSweepStep s
    let copied := after .resyncComplete swept
    let done := after .purgeSweepStep copied
    swept.pool.queues[3].lanes[1] = [] ∧ swept.ports[3].counters[9] = 1 ∧ swept.pool.queues[3].holder = some (ref8 0 (some .purged)) ∧
      copied.route.commit = .running [(4, 7)] false ∧ copied.trunk.response = none ∧
      done.route.commit = .idle ∧ done.trunk.response = some ⟨42, .ok, [0, 0, 0, 9]⟩ := by decide +kernel

/-- An expiry between two lanes of a sweep removes the reference that the sweep has not reached (R128, R129). -/
theorem test_expiry_in_a_sweep :
    let t := run (waiting 3 (portIn 0 .idle .idle (committing [(3, 1), (3, 2)] true)))
      [.purgeSweepStep, .deadlineExpiry 8, .purgeSweepStep]
    t.custody.notices.map (·.reason) = [.expired] ∧ t.ports[3].counters[9] = 1 := by decide +kernel

/-- A stale reference is removed PURGED and counted DISCARDED (R89, R67). -/
theorem test_purge_sweep_removes :
    let t := after .purgeSweepStep (waiting 3 (committing [(3, 2)] true))
    t.pool.queues[3].lanes[2] = [] ∧ t.ports[3].counters[9] = 1 ∧ t.custody.notices = [] ∧ t.gateway[0] = 1 := by
  decide +kernel

/-- The resync copies the active bank, with hit counts 0 (R90). -/
theorem test_resync_copies :
    (shadowBank (after .resyncComplete (modRoute (fun r => setActive (Vector.replicate 64
      { RouteEntry.cleared with valid := true, hits := 5 }) r) (committing sweepOrder true))).route)[7] =
      { RouteEntry.cleared with valid := true } := by decide +kernel

theorem test_nodeWrite : (after (.nodeWrite 40 37 1) (linked .up)).nodes.entries[37] = ⟨.seg 1, 0, false⟩ := by decide +kernel

theorem test_nodeWrite_bad_location : (after (.nodeWrite 40 37 5) (linked .up)).trunk.response = some ⟨40, .badArgument, []⟩ := by
  decide +kernel

theorem test_nodeRead : (after (.nodeRead 1 119) (linked .up)).trunk.response = some ⟨1, .ok, [7, 0, 0]⟩ := by decide +kernel

theorem test_nodeUnblock :
    (after (.nodeUnblock 1 88) (modNode 88 (fun _ => ⟨.seg 2, 4, true⟩) (linked .up))).nodes.entries[88] = ⟨.seg 2, 0, false⟩ := by
  decide +kernel

/-- The reset settings of R40 and the line status OFF. -/
theorem test_portRead : (after (.portRead 1 2) (linked .up)).trunk.response = some ⟨1, .ok, [0, 0, 3, 16, 0, 1, 0]⟩ := by
  decide +kernel

theorem test_portWrite_enables :
    let pt := (after (.portWrite 1 2 ⟨1, 1, 7, 64, 2, 0⟩) (linked .up)).ports[2]
    pt.enabled = true ∧ pt.rx = .flush ∧ pt.tx = .idle ∧ pt.rate = .slow ∧ pt.queueLimit = 64 := by decide +kernel

/-- A disable removes a queued reference PORT_DISABLED and counts it (R63, R67). -/
theorem test_portWrite_disables :
    let t := after (.portWrite 1 3 ⟨0, 0, 3, 16, 0, 1⟩) (waiting 3 (portIn 3 .idle .idle (linked .up)))
    t.ports[3].rx = .off ∧ t.pool.queues[3].lanes[2] = [] ∧ t.ports[3].counters[9] = 1 ∧
      t.pool.slots[8].status = .free := by decide +kernel

/-- The reset values of R172 in their order. -/
theorem test_gatewayRead :
    (after (.gatewayRead 1) (linked .up)).trunk.response =
      some ⟨1, .ok, [119, 2, 0, 100, 1, 244, 9, 246, 0, 0, 4, 8, 0, 0, 2]⟩ := by decide +kernel

/-- A raise of INBOUND_RESERVE refills from the head of the free list (R114). -/
theorem test_gatewayWrite_refills :
    let t := after (.gatewayWrite 1 { resetGateway with inboundReserve := 10 }) (linked .up)
    t.pool.slots[8].status = .unfilled ∧ t.pool.slots[9].status = .unfilled ∧ t.pool.free.head? = some 10 := by
  decide +kernel

/-- A LIFETIME of 15 ms is no step of 10 ms (R173). -/
theorem test_gatewayWrite_bad_lifetime :
    (after (.gatewayWrite 1 { resetGateway with lifetime1 := 15 }) (linked .up)).trunk.response = some ⟨1, .badArgument, []⟩ := by
  decide +kernel

theorem test_countersRead_clears :
    let t := after (.countersRead 43 3 1) (countPort 3 .attempts 258 (linked .up))
    t.ports[3].counters[6] = 0 ∧ (t.trunk.response.map fun r => (r.results.drop 24).take 4) = some [0, 0, 1, 2] := by
  decide +kernel

theorem test_trafficReset :
    let t := after (.trafficReset 1) (waiting 3 (portIn 3 .idle (.armed (.frame 2 8)) (linked .up)))
    t.ports[3].rx = .flush ∧ t.ports[3].tx = .idle ∧ t.ports[3].counters[9] = 1 ∧ t.pool.slots[8].status = .free ∧
      t.ports[3].enabled = true := by decide +kernel

theorem test_fullReset :
    let t := after (.fullReset 1) (waiting 3 (portIn 3 .idle .idle (linked .up)))
    t.ports[3].enabled = false ∧ t.trunk.link = .up ∧ t.pool.slots[8].status = .free ∧ t.trunk.response = some ⟨1, .ok, []⟩ := by
  decide +kernel

theorem test_hardwareReset :
    let t := after .hardwareReset (waiting 3 (portIn 3 .idle .idle (linked .up)))
    t.trunk.link = .seek ∧ t.ports[3].enabled = false ∧ t.pool.free.length = 56 := by decide +kernel

/-! ### The receiver -/

theorem test_headerCompletion :
    let t := after (.headerCompletion 0 headerHeard.low headerHeard.slots) (portIn 0 .leadIn .idle)
    t.ports[0].assembly.header = some ⟨2, 37, 71⟩ ∧ t.ports[0].rx = .bits ∧ t.ports[0].edge = 20 * 2500 := by decide +kernel

/-- A source of 120 is a format error, and an abort pulse of 2.0 Tb follows (R32, R18, R3). -/
theorem test_headerCompletion_bad_source :
    let t := after (.headerCompletion 0 (some 7500) (leadInHeard (headerBitsOf ⟨2, 37, 120⟩)).slots) (portIn 0 .leadIn .idle)
    t.ports[0].counters[3] = 1 ∧ t.ports[0].rx = .flush ∧ t.ports[0].pin.map (fun l => l.rise - l.fall) = [5000] := by
  decide +kernel

/-- No entry matches and MISS_ACTION is DROP: the decision is MISS, NO_ROUTE (R84). -/
theorem test_controlCompletion_miss :
    let t := after (.controlCompletion 0 controlHeard) (inFrame 0 .bits .idle readHeader)
    t.ports[0].assembly.decision = some ⟨false, .miss, 0, 0, .passive, 2, 0, false, some .noRoute⟩ ∧
      t.ports[0].assembly.control = some ⟨3, 0⟩ := by decide +kernel

/-- A good check under CUSTODY to an open port: ALL, accept, and a pending reference on S3 (R46, R49, R121). -/
theorem test_checkCompletion_admits :
    let t := after (.checkCompletion 0 (checkHeard 63)) (atCheck (some toS3) (portIn 3 .idle .idle))
    t.ports[0].assembly.answer = .accept ∧ t.ports[0].rx = .slots ∧ t.pool.queues[3].pending = [ref8] ∧
      t.pool.free.head? = some 9 := by decide +kernel

/-- A check error is answered refuse and routes nothing (02, worked example, case 5). -/
theorem test_checkCompletion_error :
    let t := after (.checkCompletion 0 (checkHeard 62)) (atCheck (some toS3) (portIn 3 .idle .idle))
    t.ports[0].assembly.answer = .refuse ∧ t.ports[0].counters[2] = 1 ∧ t.pool.queues[3].pending = [] := by decide +kernel

/-- Confirmation: the custody flag is set, the reference joins lane 2 of S3, RX_GOOD and INGRESS_ADMITTED count (06, worked
example, event 2), and the frame ends 1.0 Tb after the refuse slot's edge (R6). -/
theorem test_endOfFrame_confirms :
    let t := run atSlots [.acceptSlotEdge ⟨0, 2500⟩, .endOfFrame 0 ⟨slotsHeard true false, none⟩]
    t.pool.queues[3].lanes[2] = [ref8] ∧ t.pool.queues[3].pending = [] ∧ t.ports[0].counters[0] = 1 ∧
      t.ports[0].counters[10] = 1 ∧ t.ports[0].rx = .idle ∧ t.ports[0].idleStart = 7500 ∧ t.pool.slots[8].custody = true := by
  decide +kernel

/-- A responder asserts refuse with 0.60 Tb from the refuse slot's edge (R16, R50, R52). -/
theorem test_endOfFrame_refuses :
    let t := run (atSlots .refuse) [.acceptSlotEdge ⟨0, 2500⟩, .endOfFrame 0 ⟨slotsHeard false true, none⟩]
    t.ports[0].pin = [⟨.refuse, 5000, 6500⟩] ∧ driverAt t.ports[0] 5000 = some .refuse ∧ pinIsLow t.ports[0] 6500 = false := by
  decide +kernel

theorem test_signalError_listener :
    let t := after (.signalError 0 ⟨{}, .shape 200⟩) (inFrame 0 .bits .idle { inSlot := true })
    t.ports[0].counters[1] = 1 ∧ t.ports[0].pin = [⟨.abort, 200, 5200⟩] ∧ t.ports[0].counters[4] = 1 := by decide +kernel

/-- No edge at the gap's end, 4.4 Tb, is a stall, and none is looked for after the refuse slot (R6, R17). -/
theorem test_signalError_stall :
    (after (.signalError 0 ⟨{}, .stall 11000⟩) (portIn 0 .gap .idle)).ports[0].counters[1] = 1 ∧
      (after (.signalError 0 ⟨{}, .stall 11000⟩) (inFrame 0 .slots .idle
        { readAll with bits := readAll.bits ++ [true, true] })).ports[0].counters[1] = 0 := by decide +kernel

/-- An abort pulse undoes an admission (R48): the slot is free again. -/
theorem test_abortPulse_withdraws :
    let t := after (.abortPulse ⟨0, {}⟩) (modAssembly 0 (fun a => { a with inSlot := true }) atSlots)
    t.pool.queues[3].pending = [] ∧ t.pool.slots[8].status = .free ∧ t.ports[0].rx = .flush := by decide +kernel

/-- In the lead-in's own low there is no abort pulse (R5, R20, R42). -/
theorem test_abortPulse_not_in_lead_in : after (.abortPulse ⟨0, {}⟩) (portIn 0 .leadIn .idle) = portIn 0 .leadIn .idle := by
  decide +kernel

theorem test_abortPulseEnd :
    let t := after (.abortPulseEnd ⟨0, false⟩) (driveAbort 0 100 100 (portIn 0 .flush .idle))
    t.ports[0].pin = [] ∧ t.ports[0].rx = .flush ∧ t.ports[0].lastRise = 5100 := by decide +kernel

/-- A low that goes on past the port's own pulse is held 5.0 Tb after its own falling edge at 100, and its length and the idle start
run from there (R9, R23, R66). -/
theorem test_abortPulseEnd_still_low :
    let t := run (driveAbort 0 100 1200 (portIn 0 .flush .idle)) [.abortPulseEnd ⟨0, true⟩, .lineHeld ⟨0, 0⟩]
    t.now = 12600 ∧ (after (.lineReleased 0 20000) t).ports[0].idleStart = 20100 := by decide +kernel

/-- A talker that sends 1 hears no 0 there (R8, R14): the header of a more urgent talker is not its own. -/
theorem test_headerCompletion_not_past_arbitration :
    let s := portIn 0 .leadIn (.sending frameAttempt)
    after (.headerCompletion 0 (some 7500) (leadInHeard (headerBitsOf ⟨2, 36, 71⟩)).slots) s = s ∧
      (after (.headerCompletion 0 headerHeard.low headerHeard.slots) s).ports[0].assembly.header = some ⟨2, 37, 71⟩ := by
  decide +kernel

/-- An error comes after the completion point that its symbols would reach, and not in place of it (R31). -/
theorem test_signalError_not_past_completion :
    let s := portIn 0 .leadIn .idle
    after (.signalError 0 ⟨headerHeard, .period 100⟩) s = s ∧
      (after (.signalError 0 ⟨{}, .period 100⟩) (after (.headerCompletion 0 headerHeard.low headerHeard.slots) s)).ports[0].counters[1] =
        1 := by decide +kernel

/-- A low of 1.0 Tb at idle is no lead-in (R5). -/
theorem test_falseStart :
    let t := after (.falseStart 0 2500) (portIn 0 .leadIn .idle)
    t.ports[0].counters[1] = 1 ∧ t.ports[0].rx = .flush ∧ t.ports[0].pin = [] := by decide +kernel

/-- "SP2 enters HELD while one of its own attempts is under way and raises LINE_HELD, port 2, detail 1" (10, worked example). -/
theorem test_lineHeld :
    let t := after (.lineHeld ⟨2, 0⟩) (portIn 2 .bits (.sending frameAttempt))
    t.ports[2].rx = .held ∧ t.events.records = [⟨.lineHeld, .seg 2, 1, 1, false, 0, 0⟩] := by decide +kernel

/-- "The line is released after 8 Tb, and SP2 raises LINE_RELEASED, port 2, detail 8" (10, worked example). -/
theorem test_lineReleased :
    let t := after (.lineReleased 2 20000) (portIn 2 .held .idle)
    t.ports[2].rx = .flush ∧ t.events.records = [⟨.lineReleased, .seg 2, 8, 1, false, 0, 0⟩] := by decide +kernel

/-- Flush ends after 2.0 Tb of recessive line, 5000 ticks, and not before (R22). -/
theorem test_flushComplete :
    (after (.flushComplete 1 ⟨0, 5000⟩) (portIn 1 .flush .idle)).ports[1].rx = .idle ∧
      (after (.flushComplete 1 ⟨0, 4999⟩) (portIn 1 .flush .idle)).ports[1].rx = .flush := by decide +kernel

/-- After a held line the idle start is the edge that ended it, and a frame missed in the flush moves it (R9, R22, log 28). -/
theorem test_flushComplete_after_held :
    let s := after (.lineReleased 2 20000) (portIn 2 .held .idle)
    (after (.flushComplete 2 ⟨0, 5000⟩) s).ports[2].idleStart = 20000 ∧
      (after (.flushComplete 2 ⟨700, 5000⟩) s).ports[2].idleStart = 20700 := by decide +kernel

/-- "Node 30's Q is not satisfied, so it listens" (01, worked example): Q is 4 Tb here, and 3.9 Tb have passed. A low under 0.05 Tb
is not seen (R4). -/
theorem test_idleFallingEdge_listens :
    let s := waiting 1 (portIn 1 .idle (.armed (.frame 2 8)))
    let t := after (.idleFallingEdge 1 ⟨9750, 2500⟩) s
    t.ports[1].tx = .idle ∧ t.ports[1].rx = .leadIn ∧ after (.idleFallingEdge 1 ⟨9750, 124⟩) s = s := by decide +kernel

/-- With its quiet time satisfied the talker joins the edge it observes (R13). -/
theorem test_idleFallingEdge_joins :
    let t := after (.idleFallingEdge 1 ⟨10250, 2500⟩) (waiting 1 (portIn 1 .idle (.armed (.frame 2 8))))
    t.ports[1].tx = .sending frameAttempt ∧ t.ports[1].edge = 10250 := by decide +kernel

/-- The accept slot's edge sets the talker's flag and clears a listener's (01, worked example, 57.00). -/
theorem test_acceptSlotEdge_talker :
    let t := after (.acceptSlotEdge ⟨1, 2500⟩) (inFrame 1 .slots (.sending frameAttempt) readAll)
    t.ports[1].lastTalker = true ∧ t.ports[1].tx = .slots frameAttempt := by decide +kernel

/-- The responder joins the accept slot's edge with 0.60 Tb (R16, R49). -/
theorem test_acceptSlotEdge_listener :
    let t := after (.acceptSlotEdge ⟨0, 2500⟩) (modPort 0 (fun pt => { pt with lastTalker := true }) atSlots)
    t.ports[0].lastTalker = false ∧ t.ports[0].pin = [⟨.accept, 2500, 4000⟩] := by decide +kernel

/-! ### The transmitter -/

/-- The attempt begins at 4.0 Tb: the reference moves to the attempt holder, ATTEMPTS counts (R57; 01, worked example); the lead-in is
held for 3.0 Tb and bit slot 1, a 0, begins at 4.0 Tb (R3, R6, R12). -/
theorem test_attemptBegin_frame :
    let t := after (.attemptBegin ⟨1, none⟩) (waiting 1 (portIn 1 .idle (.armed (.frame 2 8))))
    t.pool.queues[1].holder = some ref8 ∧ t.ports[1].tx = .sending frameAttempt ∧ t.ports[1].counters[6] = 1 ∧
      t.now = 10000 ∧ t.ports[1].pin = [⟨.leadIn, 10000, 17500⟩, ⟨.bit, 20000, 21500⟩] := by decide +kernel

/-- "The frame on SEG0 is priority 2, destination 71, source 119, service 15, length 5" (07, worked example). -/
theorem test_attemptBegin_notice :
    (after (.attemptBegin ⟨0, none⟩) (withNotices [noticeB false] (portIn 0 .idle (.armed (.notice 2 119))))).ports[0].tx =
      .sending noticeAttempt := by decide +kernel

/-- The header of the worked example sends 1 in bit slot 2: lost there (R14), and the reference is the lane's head again. -/
theorem test_arbitrationLost :
    let t := after (.arbitrationLost 1 { leadInHeard [false] with edge := some 2500 })
      (heldBy 1 (ref8 2) (portIn 1 .leadIn (.sending frameAttempt)))
    t.ports[1].counters[5] = 1 ∧ t.pool.queues[1].lanes[2] = [ref8 2] ∧ t.ports[1].tx = .idle ∧ t.ports[1].rx = .bits := by
  decide +kernel

/-- In bit slot 1 that talker sends 0 and cannot lose (R14). -/
theorem test_arbitration_not_lost_in_a_zero :
    (after (.arbitrationLost 1 { low := some 7500, edge := some 10000 })
      (heldBy 1 (ref8 2) (portIn 1 .leadIn (.sending frameAttempt)))).ports[1].counters[5] = 0 := by decide +kernel

/-- Bit slot 20 carries the first 1 of service 3 (0011): overdriven there, from the sample point of 0.44 Tb (R8, R15). -/
theorem test_overdrive :
    let t := after (.overdrive 1 { bitsHeard [false, false] with edge := some 2500 })
      (heldBy 1 ref8 (inFrame 1 .bits (.sending frameAttempt) readHeader))
    t.ports[1].pin = [⟨.abort, 8600, 13600⟩] ∧ t.ports[1].counters[4] = 1 ∧ t.pool.queues[1].lanes[2] = [ref8 1] := by
  decide +kernel

/-- "SP1 counts DELIVERED, and the node map sets node 44's failures to 0" (06, worked example, event 6), here for node 37. -/
theorem test_attemptEnd_delivered :
    let t := after (.attemptEnd 1 (some (slotLow true)) [⟨2500, slotLow false⟩] none) (modNode 37 (fun _ => ⟨.seg 1, 3, false⟩)
      (heldBy 1 ref8 (inFrame 1 .slots (.slots frameAttempt) inAccept)))
    t.ports[1].counters[7] = 1 ∧ t.nodes.entries[37].failures = 0 ∧ t.pool.slots[8].status = .free := by decide +kernel

/-- "The attempt count becomes 2, which exceeds RETRY_LIMIT 1, so the reference ends FAILED" and the node is blocked at its fourth
failure with NODE_BLOCKED raised (05, worked example, events 1 and 2), here for node 37. -/
theorem test_attemptEnd_failed_blocks :
    let t := after (.attemptEnd 2 (some (slotLow false)) [⟨2500, slotLow false⟩] none) (modNode 37 (fun _ => ⟨.seg 2, 3, false⟩)
      (heldBy 2 (ref8 1) (modPort 2 (fun pt => { pt with retryLimit := 1 }) (inFrame 2 .slots (.slots frameAttempt) inAccept))))
    t.ports[2].counters[8] = 1 ∧ t.nodes.entries[37] = ⟨.seg 2, 4, true⟩ ∧
      t.events.records = [⟨.nodeBlocked, .seg 2, 37, 1, false, 0, 0⟩] := by decide +kernel

/-! ### Routing (04, worked example ROUTE MATCHING, lookups a and h) -/

/-- Entry 0 of the example in the active bank, and node 71 on S0. -/
def exampleTables : State :=
  modNode 71 (fun _ => ⟨.seg 0, 0, false⟩) (modNode 37 (fun _ => ⟨.seg 3, 0, false⟩)
    (modRoute (fun r => setActive ((activeBank r).set 0
      ⟨true, 1, 10, 19, none, 0xFFFF, .forward, 18, .custody, false, none, 1, 0⟩) { r with epoch := 7, purgeEpoch := 5 }) .reset))

theorem test_lookup_a :
    (segmentLookup 0 ⟨3, 12, 71, 3, []⟩ exampleTables).1 = ⟨false, .entry 0, 7, 18, .custody, 3, 1, false, none⟩ ∧
      (activeBank (segmentLookup 0 ⟨3, 12, 71, 3, []⟩ exampleTables).2.route)[0].hits = 1 := by decide +kernel

/-- "HOME on a group": MISS, CUSTODY, NO_HOME under MISS_ACTION HOME_CUSTODY. -/
theorem test_lookup_h :
    (segmentLookup 3 ⟨3, 122, 37, 1, []⟩ (modPort 3 (fun pt => { pt with missAction := .homeCustody }) exampleTables)).1 =
      ⟨false, .miss, 7, 0, .custody, 3, 0, false, some .noHome⟩ := by decide +kernel

/-! ### Pool and trunk link -/

/-- A queued frame whose deadline passes is removed EXPIRED and, in custody, reported to its source (R128, R126). -/
theorem test_deadlineExpiry :
    let t := after (.deadlineExpiry 8) (waiting 3 (portIn 0 .idle .idle))
    t.pool.queues[3].lanes[2] = [] ∧ t.now = 100 ∧ t.custody.notices = [⟨0, 71, 37, 3, .expired, 0, 3, 0, false⟩] := by
  decide +kernel

/-- "16th consecutive valid character: TRAIN" (08, worked example). -/
theorem test_lockGained :
    let t := after (.lockGained (List.replicate 16 .idleS)) .reset
    t.trunk.link = .train ∧ t.trunk.rx.lock = true := by decide +kernel

theorem test_lockLost :
    let t := after (.lockLost (List.replicate 4 .invalid)) (linked .up)
    t.trunk.link = .suspect ∧ t.trunk.rx.lock = false ∧ t.trunk.hold = some ⟨0, 50000⟩ := by decide +kernel

/-- "32nd consecutive IDLE_R: UP, fresh; LINK_UPS 1" and CREDIT pending yes (08, worked example). -/
theorem test_freshUp :
    let t := after (.freshUp (List.replicate 32 .idleR)) (linked .train)
    t.trunk.link = .up ∧ t.trunk.counters[9] = 1 ∧ t.trunk.creditPending = true := by decide +kernel

/-- A frame cut 5 characters and 3 ticks after its SOF sends its sixth character, then the CUT, then idle characters (R143, R163). -/
theorem test_cut_on_the_line :
    let s := { modTrunk (fun k => { k with tx := some ⟨.credit, 0, [8], 0⟩ }) (linked .up) with now := 103 }
    let k := (after (.enterSuspect (List.replicate 8 .idleS)) s).trunk
    [99, 120, 139, 140].map (trunkOut k) = [some (.data 8), some .cut, some .cut, some .idleR] ∧ k.nextStart = 160 := by
  decide +kernel

/-- "between frames it sends idle characters": their kind changes at the first character after lock is gained, and not within the one
in progress at 1003, which began at 1000 (R143). -/
theorem test_idle_kind_changes_at_a_character :
    let k := (after (.lockGained (List.replicate 16 .idleS)) { State.reset with now := 1003 }).trunk
    [1003, 1019, 1020].map (trunkOut k) = [some .idleS, some .idleS, some .idleR] := by decide +kernel

/-- No character while RESET_N is low, and an IDLE_S from its rise (R143, R178). -/
theorem test_no_character_in_reset :
    [49, 50].map (trunkOut { Trunk.reset with lineStart := 50 }) = [none, some .idleS] ∧
      (after .hardwareReset .reset).trunk.lineStart = (after .hardwareReset .reset).now := ⟨by decide +kernel, rfl⟩

/-- Record a's EVENT frame is cut and CUT_FRAMES advances (10, worked example, 2). -/
theorem test_enterSuspect_cuts :
    let s := withEvents [⟨.lineHeld, .seg 2, 1, 1, true, 0, 0⟩] (linked .up)
    let t := after (.enterSuspect (List.replicate 8 .idleS)) (modTrunk (fun k => { k with tx := some ⟨.event, 0, [1, 2, 0, 1, 1], 0⟩ }) s)
    t.trunk.link = .suspect ∧ t.trunk.counters[8] = 1 ∧ t.trunk.tx = none ∧
      t.events.records = [⟨.lineHeld, .seg 2, 1, 1, false, 0, 0⟩] := by decide +kernel

/-- "LINK_RESUMED, port 4, detail 1500" for a resume 1500 us after the entry (10, worked example, 5), here with room. -/
theorem test_resume :
    let t := after (.resume (List.replicate 32 .idleR)) { linked .suspect with now := 37500 }
    t.trunk.link = .up ∧ t.events.records = [⟨.linkResumed, .trunk, 1500, 1, false, 0, 0⟩] := by decide +kernel

/-- The hold timer expires 2 ms after the entry, 50000 ticks (R146, R148). -/
theorem test_holdTimerExpiry :
    let t := after .holdTimerExpiry (linked .suspect)
    t.trunk.link = .train ∧ t.trunk.hold = none ∧ t.now = 50000 := by decide +kernel

theorem test_refreshTimerExpiry : (after .refreshTimerExpiry (linked .up)).trunk.creditPending = true := by decide +kernel

/-- "Partner's CREDIT carrying 4 received" (08, worked example): the outbound limit is 4. -/
theorem test_trunkFrameReceived_credit :
    (after (.trunkFrameReceived (envelope 3 0 [4])) (linked .up)).trunk.outLimit = 4 := by decide +kernel

/-- "Partner DATA seq 1 with bad CRC: CHECK_ERRORS 1" (08, worked example). -/
theorem test_trunkFrameReceived_bad_crc :
    (after (.trunkFrameReceived ([.sof, .data 3, .data 0, .data 1, .data 4, .data 0, .data 0, .eof]))
      (linked .up)).trunk.counters[2] = 1 := by decide +kernel

/-- A filled slot with a source that does not live on the trunk is rejected BAD_SOURCE and its tag reported (R98, R123). -/
theorem test_trunkDataRouting_bad_source :
    let s := modTrunk (fun k => { k with taken := [0] }) (modSlot 0 (fun sl =>
      { sl with status := .filled, frame := shortFrame, inbound := some ⟨true, some 5, none, 1⟩ }) (linked .up))
    let t := after .trunkDataRouting s
    t.custody.reports = [⟨5, .badSource, none, 0, false⟩] ∧ t.pool.slots[0].status = .unfilled := by decide +kernel

/-- A direct DATA frame from a node of the trunk joins its port's queue in custody (R155, R121); one whose decision is bound before a
commit with purge is refused RECONFIGURED at its admission (R91, R117, R123). -/
theorem test_trunkDataRouting_direct :
    let s := modTrunk (fun k => { k with taken := [0] }) (modSlot 0 (fun sl =>
      { sl with status := .filled, frame := shortFrame, inbound := some ⟨true, some 5, some 3, 1⟩ })
      (modNode 71 (fun _ => ⟨.trunk, 0, false⟩) (portIn 3 .idle .idle (linked .up))))
    let t := run s [.trunkDataRouting, .trunkDataRouting]
    let u := run s [.trunkDataRouting, .routeCommit 42 1, .trunkDataRouting]
    (after .trunkDataRouting s).trunk.taken = [0] ∧ t.pool.queues[3].lanes[2] = [⟨0, .frame, 0, none⟩] ∧
      t.pool.slots[0].custody = true ∧ t.pool.slots[0].tag = some 5 ∧ t.ports[3].tx = .armed (.frame 2 0) ∧
      u.custody.reports = [⟨5, .reconfigured, none, 0, false⟩] ∧ u.pool.slots[0].status = .unfilled ∧ u.trunk.taken = [] := by
  decide +kernel

/-- "CREDIT carrying 8" after the bring-up (08, worked example). Its SOF begins at a character boundary: with the idle character after
the last frame over at 180 and the clock at 187, at 200; with nothing ready an idle character goes there and the next choice is at 220
(R143, R161). -/
theorem test_trunkFrameStart_credit :
    let t := after .trunkFrameStart (modTrunk (fun k => { k with creditPending := true, nextStart := 180 })
      { linked .up with now := 187 })
    let u := after .trunkFrameStart { linked .up with now := 187 }
    t.trunk.tx = some ⟨.credit, 0, [8], 200⟩ ∧ t.now = 200 ∧ u.trunk.tx = none ∧ u.now = 200 ∧ u.trunk.nextStart = 220 := by
  decide +kernel

/-- "F1 sent as seq 0" (08, worked example): the body of the DATA frame by its layout in 11. -/
theorem test_trunkFrameStart_data :
    let t := after .trunkFrameStart (waiting 4 (modTrunk (fun k => { k with outLimit := 4 }) (linked .up)))
    t.trunk.tx = some ⟨.data, 0, [0, 2, 37, 71, 3, 3, 0], 0⟩ ∧ t.trunk.sent = 1 ∧ t.pool.queues[4].holder = some (ref8 1) := by
  decide +kernel

/-- "CREDIT carrying 8, EOF sent": the advertised limit is 8, 8 characters after its start (08, worked example; R151). -/
theorem test_trunkFrameEof_credit :
    let t := after .trunkFrameEof (modTrunk (fun k => { k with tx := some ⟨.credit, 0, [8], 0⟩ }) (linked .up))
    t.trunk.advertised = 8 ∧ t.trunk.tx = none ∧ t.trunk.counters[1] = 1 ∧ t.now = 160 := by decide +kernel

/-- "The T reference is released DELIVERED" and no end record is made (06, worked example, event 4). -/
theorem test_trunkFrameEof_data :
    let t := after .trunkFrameEof (heldBy 4 (ref8 1) (modTrunk (fun k => { k with tx := some ⟨.data, 0, [0, 2, 37, 71, 3, 3, 0], 0⟩ }) (linked .up)))
    t.pool.queues[4].holder = none ∧ t.pool.slots[8].status = .free ∧ t.custody.notices = [] := by decide +kernel

/-- An empty queue idles for one tick (log 3). -/
theorem test_step_idles : step .reset = .next { State.reset with now := 1 } := rfl

/-! ### Witnesses: states and operands that meet the hypotheses of the statements, clause by clause -/

/-- RouteFieldsOk at the ends of its ranges. -/
def widestRoute : RouteArgs := ⟨31, 0, 127, 1, 0, 119, 1, 0, 31, 1, 1, 7, 3⟩

/-- The settings of an enabled port at their reset values, and those of a disable. -/
def sameSettings : PortArgs := ⟨1, 0, 7, 16, 2, 0⟩
def disableSettings : PortArgs := ⟨0, 0, 3, 16, 0, 1⟩

/-- A MGMT_REQ in the buffers of the agent. -/
def buffered (rs : List Request) (l : LinkState := .up) : State := { linked l with agent := ⟨rs, false, false⟩ }

/-- The port as it stands once it has heard symbols. -/
def heardPort (p : SegPort) (h : Symbols) (s : State) : Port := (hearSymbols h s.ports[p]).getD s.ports[p]

theorem witness_StepRunsFrontCommand : State.reset.pending = [] := rfl

theorem witness_RequestsQueueAtTheAgent_offered :
    requestOfCommand? (.fullReset 7) = some ⟨7, .reset 2⟩ ∧ (buffered []).trunk.link = .up ∧ State.reset.trunk.link ≠ .up ∧
      (buffered [⟨1, .identify⟩]).agent.buffers.length = 1 ∧
      (buffered [⟨1, .identify⟩, ⟨2, .identify⟩]).agent.buffers.length = 2 := by decide +kernel

theorem witness_RequestsQueueAtTheAgent_waits :
    (committing sweepOrder true).agent.executing = true ∧ (respond ⟨1, .ok, []⟩ .reset).trunk.response ≠ none ∧
      State.reset.agent.buffers = [] := by decide +kernel

theorem witness_RequestsQueueAtTheAgent_begins :
    AgentReady (buffered [⟨1, .malformed⟩] .suspect) ∧ (buffered [⟨1, .malformed⟩]).agent.buffers = [⟨1, .malformed⟩] ∧
      (buffered [⟨1, .identify⟩]).agent.buffers = [⟨1, .identify⟩] := by decide +kernel

theorem witness_RequestsQueueAtTheAgent_no_commit (purge : Octet) : RequestOp.identify ≠ .routeCommit purge := nofun

theorem witness_ReadRequestsAnswer : AgentFree (linked .up) ∧ (63 : Octet).toNat < 64 ∧ (119 : Octet).toNat < 120 := by
  decide +kernel

theorem witness_ShadowBankIsEdited_accepted : RouteFieldsOk exampleRoute ∧ RouteFieldsOk widestRoute := by
  constructor <;> decide

theorem witness_ShadowBankIsEdited_refused : ¬RouteFieldsOk { widestRoute with destHigh := 128 } := by decide

theorem witness_ShadowBankIsEdited_indexes :
    AgentFree (linked .up) ∧ (63 : Octet).toNat < 64 ∧ 64 ≤ (64 : Octet).toNat ∧ (5 : Octet).toNat < (6 : Octet).toNat := by
  decide +kernel

/-- ROUTE_COMMIT 42 below the maximum epoch: the row in UP, and, with another request waiting, AGENT_BEGIN_REQUEST in SUSPECT; with a
port ARMED, and with no selection due. -/
theorem witness_RouteCommitSwaps :
    let s := { portIn 3 .idle (.armed (.frame 2 8)) (linked .up) with route := { RouteList.reset with epoch := epochMax - 1 } }
    Requested (.routeCommit 42 1) (.routeCommit 42 1) ⟨42, .routeCommit 1⟩ [] s ∧
      Requested .agentBeginRequest (.routeCommit 42 0) ⟨42, .routeCommit 0⟩ [⟨43, .identify⟩]
        (buffered [⟨42, .routeCommit 0⟩, ⟨43, .identify⟩] .suspect) ∧
      s.route.epoch < epochMax ∧ s.ports[3].tx.isArmed = true ∧ (∀ p : SegPort, s.ports[p].due = false) ∧
      (2 : Octet) ≠ 0 ∧ (2 : Octet) ≠ 1 := by decide +kernel

theorem witness_RouteCommitSwaps_at_maximum :
    let s := { linked .up with route := { RouteList.reset with epoch := epochMax } }
    Requested (.routeCommit 42 2) (.routeCommit 42 2) ⟨42, .routeCommit 2⟩ [] s ∧ epochMax ≤ s.route.epoch := by decide +kernel

theorem witness_PurgeSweepRemovesStale :
    let s := heldBy 3 ref8 (committing sweepOrder true)
    s.route.commit = .running ((0, 0) :: sweepOrder.tail) true ∧ sweepOrder.tail ≠ [] ∧
      s.pool.queues[(3 : SegPort).port].holder = some ref8 ∧ ref8.mark = none ∧
      (slotOf ref8 s).epoch < s.route.purgeEpoch ∧
      (committing [(4, 7)] true).route.commit = .running ((4, 7) :: []) true ∧
      (committing [(4, 7)] false).route.commit = .running ((4, 7) :: []) false ∧
      (committing [(4, 7)] false).agent.executing = true ∧
      (committing [(4, 7)] false).agent.buffers = ⟨42, .routeCommit 1⟩ :: [] := by decide +kernel

theorem witness_PurgeSweepRemovesStale_no_lane (q : PortId) (lane : Priority) (rest : List (PortId × Priority)) (resync : Bool) :
    State.reset.route.commit ≠ .running ((q, lane) :: rest) resync ∧
      (committing [] true).route.commit ≠ .running ((q, lane) :: rest) resync := ⟨nofun, nofun⟩

theorem witness_ResyncCompletesCommit :
    (committing sweepOrder true).route.commit = .running sweepOrder true ∧ sweepOrder ≠ [] ∧
      (committing [] true).route.commit = .running [] true ∧ (committing [] true).agent.executing = true ∧
      (committing [] true).agent.buffers = [⟨42, .routeCommit 1⟩] := by decide +kernel

theorem witness_NodeRequestsWrite : AgentFree (linked .up) ∧ (119 : Octet).toNat < 120 := by decide +kernel

theorem witness_ArgumentsOutOfRangeRefused :
    AgentFree (linked .up) ∧ 2 ≤ (2 : Octet).toNat ∧ 64 ≤ (64 : Octet).toNat ∧ 120 ≤ (120 : Octet).toNat ∧
      (4 < (5 : Octet).toNat ∧ (5 : Octet).toNat ≠ 7) ∧ (4 < (8 : Octet).toNat ∧ (8 : Octet).toNat ≠ 7) ∧
      4 ≤ (4 : Octet).toNat ∧ 6 ≤ (6 : Octet).toNat := by decide +kernel

theorem witness_PortWriteSettings_written :
    let s := portIn 3 .idle .idle (linked .up)
    AgentFree s ∧ PortFieldsOk sameSettings ∧ s.ports[3].enabled = true ∧ sameSettings.enabled = 1 ∧
      sameSettings.rate = s.ports[3].rate.code ∧ sameSettings.queueLimit.toNat = s.ports[3].queueLimit ∧
      State.reset.ports[3].enabled = false := by decide +kernel

theorem witness_PortWriteSettings_refused :
    let s := portIn 3 .idle .idle (linked .up)
    AgentFree s ∧ s.ports[3].enabled = true ∧ ({ sameSettings with rate := 1 }).rate ≠ s.ports[3].rate.code ∧
      ({ sameSettings with queueLimit := 64 }).queueLimit.toNat ≠ s.ports[3].queueLimit ∧
      ¬PortFieldsOk { sameSettings with queueLimit := 0 } ∧ ¬PortFieldsOk { sameSettings with retryLimit := 8 } ∧
      4 ≤ (4 : Octet).toNat := by decide +kernel

theorem witness_PortDisableEmptiesQueue :
    let s := waiting 3 (portIn 3 .idle .idle (linked .up))
    AgentFree s ∧ PortFieldsOk disableSettings ∧ disableSettings.enabled = 0 ∧ s.ports[3].enabled = true ∧
      disableSettings.rate = s.ports[3].rate.code ∧ disableSettings.queueLimit.toNat = s.ports[3].queueLimit ∧
      s.ports[3].counters[PortCounter.discarded.index] ≤ 4294967295 ∧ MissAction.drop.code = disableSettings.missAction ∧
      s.pool.queues[(3 : SegPort).port].holder = none ∧
      (heldBy 3 ref8 s).pool.queues[(3 : SegPort).port].holder = some ref8 := by decide +kernel

theorem witness_GatewayWriteSettings_values :
    GatewayFieldsOk resetGateway ∧ GatewayFieldsOk { resetGateway with inboundReserve := 2 } ∧
      GatewayFieldsOk { resetGateway with inboundReserve := 16 } := by refine ⟨?_, ?_, ?_⟩ <;> decide

theorem witness_GatewayWriteSettings_refused : ¬GatewayFieldsOk { resetGateway with inboundReserve := 17 } := by decide

/-- A GATEWAY_WRITE as a row in UP, and as the waiting request in SEEK. -/
theorem witness_GatewayWriteSettings_states :
    Requested (.gatewayWrite 1 resetGateway) (.gatewayWrite 1 resetGateway) ⟨1, .gatewayWrite resetGateway⟩ [] (linked .up) ∧
      Requested .agentBeginRequest (.gatewayWrite 1 resetGateway) ⟨1, .gatewayWrite resetGateway⟩ [⟨2, .identify⟩]
        (buffered [⟨1, .gatewayWrite resetGateway⟩, ⟨2, .identify⟩] .seek) ∧
      resetGateway.inboundReserve.toNat = State.reset.pool.reserveSize ∧
      (2 : Octet).toNat < (linked .up).pool.reserveSize ∧ (linked .up).pool.reserveSize < (16 : Octet).toNat ∧
      (linked .up).trunk.link = .up ∧ (buffered [] .seek).trunk.link = .seek := by decide +kernel

/-- Port 3 HELD and enabled, the link UP, and a frame of a kind in transmission or none. -/
def transmitting (tx : Option TxFrame) : State :=
  modTrunk (fun k => { k with tx := tx, creditPending := true }) (waiting 3 (portIn 3 .held .idle (linked .up)))

theorem witness_TrafficResetClearsTraffic :
    let s := transmitting (some ⟨.report, 0, [], 0⟩)
    Requested (.trafficReset 1) (.trafficReset 1) ⟨1, .reset 1⟩ [] s ∧
      Requested .agentBeginRequest (.trafficReset 1) ⟨1, .reset 1⟩ [⟨2, .identify⟩]
        (buffered [⟨1, .reset 1⟩, ⟨2, .identify⟩] .seek) ∧
      s.ports[3].enabled = true ∧ s.ports[2].enabled = false ∧ s.trunk.link = .up ∧ s.pool.slots[7].status = .unfilled ∧
      s.trunk.creditPending = true ∧ s.trunk.tx = some ⟨.report, 0, [], 0⟩ ∧ (transmitting none).trunk.tx = none ∧
      (transmitting (some ⟨.event, 0, [], 0⟩)).trunk.tx = some ⟨.event, 0, [], 0⟩ := by decide +kernel

/-- Eight unfilled slots kept in UP, slot 8 freed to the tail of the free list, and a reserve of 10 refilled by two from its head. -/
theorem witness_PoolFlushed :
    let s := transmitting none
    let kept := fun i : SlotId => s.pool.slots[i].status == .unfilled
    (∀ i : SlotId, kept i = true ↔
      s.pool.slots[i].status = .unfilled ∧ (s.trunk.link = .up ∨ s.trunk.link = .suspect)) ∧
      (List.finRange 64).filter (fun i => !kept i && s.pool.slots[i].status != .free) = [8] ∧
      min (10 - ((List.finRange 64).filter kept).length) (s.pool.free ++ [8]).length = 2 := by decide +kernel

theorem witness_FullResetKeepsLink :
    let s := transmitting (some ⟨.credit, 0, [8], 0⟩)
    Requested (.fullReset 1) (.fullReset 1) ⟨1, .reset 2⟩ [] s ∧
      Requested .agentBeginRequest (.fullReset 1) ⟨1, .reset 2⟩ [⟨2, .identify⟩]
        (buffered [⟨1, .reset 2⟩, ⟨2, .identify⟩] .seek) ∧
      s.trunk.creditPending = true ∧ s.pool.slots[7].status = .unfilled ∧ s.trunk.tx = some ⟨.credit, 0, [8], 0⟩ ∧
      (transmitting none).trunk.tx = none ∧ (transmitting (some ⟨.event, 0, [], 0⟩)).trunk.tx = some ⟨.event, 0, [], 0⟩ := by
  decide +kernel

theorem witness_SegmentFieldsRoundTrip :
    let pt := (portIn 0 .leadIn .idle).ports[0]
    let q := (inFrame 0 .bits .idle readHeader).ports[0]
    let t := (inFrame 0 .bits (.sending frameAttempt) { inSlot := true }).ports[0]
    attemptOf t = some frameAttempt ∧ t.rx = .bits ∧ t.assembly.inSlot = true ∧ (sentBits shortFrame)[0]? = some false ∧
      (sentBits shortFrame)[1]? = some true ∧ attemptOf pt = none ∧
    pt.rx = .leadIn ∧ pt.assembly = {} ∧ (List.replicate 16 true).length < 17 ∧ q.rx = .bits ∧ q.assembly.inSlot = false ∧
      q.assembly.bits.length + 8 ≤ completionAt q.assembly ∧ q.assembly.checkGood = none ∧ isTalker q = false ∧
      (portIn 0 .gap .idle).ports[0].rx = .gap ∧
      (inFrame 0 .slots .idle inAccept).ports[0].assembly.inSlot = true ∧ (⟨3, 15⟩ : Control).length ≤ 15 := by decide +kernel

/-- A talker due to drive bit slot 1, bit slot 2 and its last check bit; the accept slot comes after that. -/
theorem witness_SegmentFieldsRoundTrip_drive :
    let talker := fun (rx : RxState) (a : Assembly) => (inFrame 0 rx (.sending frameAttempt) a).ports[0]
    let first := talker .gap {}
    let second := talker .bits { bits := [false] }
    let last := talker .bits { readControl with bits := (sentBits shortFrame).take 32 }
    attemptOf second = some frameAttempt ∧ first.rx = .gap ∧ first.assembly = {} ∧ (sentBits shortFrame)[0]? = some false ∧
      second.rx = .bits ∧ second.assembly.inSlot = false ∧ (sentBits shortFrame)[1]? = some true ∧ 1 < completionAt second.assembly ∧
      (sentBits shortFrame)[32]? = some true ∧ (sentBits shortFrame)[33]? = none ∧ last.assembly.bits.length = 32 ∧
      32 < completionAt last.assembly ∧ 90 * bitPeriod .standard ≤ 100 * 2250 ∧ 380 * bitPeriod .standard ≤ 100 * 9500 ∧
      (hearLow 625 (talker .bits { bits := [false], inSlot := true })).isSome = true := by decide +kernel

/-- A receiver between two lows of a header, one in GAP, and a low of 124 ticks, under 0.05 Tb. -/
theorem witness_SegmentFieldsRoundTrip_short_low :
    let pt := (portIn 0 .leadIn .idle).ports[0]
    let read := heardPort 0 (leadInHeard [false]) (portIn 0 .leadIn .idle)
    let gap := heardPort 0 ⟨some 7500, [], none⟩ (portIn 0 .leadIn .idle)
    hearSymbols ⟨some 7500, slotsOfBits .standard 400 [false], none⟩ pt = some read ∧ betweenLows read = true ∧
      hearSymbols ⟨some 7500, [], none⟩ pt = some gap ∧ betweenLows gap = true ∧ gap.rx = .gap ∧
      100 * (⟨1800, 124⟩ : BitSlot).low < 5 * bitPeriod pt.rate := by decide +kernel

theorem witness_HeaderCompletionTakesHeader :
    let s := portIn 0 .leadIn .idle
    let t := portIn 0 .leadIn (.sending ⟨false, { shortFrame with source := 120 }⟩)
    let bad := leadInHeard (headerBitsOf ⟨2, 37, 120⟩)
    headerHeard = ⟨some 7500, headerHeard.slots, none⟩ ∧ s.ports[0].assembly.header = none ∧ HearsNone 0 headerHeard .reset ∧
      HearsNone 0 { slots := [⟨10000, 2500⟩] } s ∧
      Hears 0 { low := some 7500 } s (heardPort 0 { low := some 7500 } s) ∧
      Hears 0 headerHeard s (heardPort 0 headerHeard s) ∧ (heardPort 0 headerHeard s).assembly.bits.length = 17 ∧
      (headerOfBits (headerBitsOf ⟨2, 37, 119⟩)).source.val < 120 ∧ Hears 0 bad s (heardPort 0 bad s) ∧
      120 ≤ (headerOfBits (heardPort 0 bad s).assembly.bits).source.val ∧ isTalker s.ports[0] = false ∧
      Hears 0 bad t (heardPort 0 bad t) ∧ isTalker t.ports[0] = true := by decide +kernel

theorem witness_ControlCompletionBindsDecision :
    let s := inFrame 0 .bits .idle readHeader
    let t := inFrame 0 .bits (.sending frameAttempt) readHeader
    let u := inFrame 0 .bits (.sending ⟨false, { shortFrame with payload := List.replicate 13 0 }⟩) readHeader
    let long := bitsHeard (controlBitsOf ⟨3, 13⟩)
    s.ports[0].assembly.header = some ⟨2, 37, 71⟩ ∧ s.ports[0].assembly.control = none ∧
      Hears 0 controlHeard s (heardPort 0 controlHeard s) ∧ (heardPort 0 controlHeard s).assembly.bits.length = 25 ∧
      (heardPort 0 {} s).assembly.bits.length ≠ 25 ∧ Hears 0 {} s (heardPort 0 {} s) ∧
      (controlOfBits (controlBitsOf ⟨3, 12⟩)).length ≤ 12 ∧ Hears 0 long s (heardPort 0 long s) ∧
      12 < (controlOfBits ((heardPort 0 long s).assembly.bits.drop 17)).length ∧ isTalker s.ports[0] = false ∧
      Hears 0 controlHeard t (heardPort 0 controlHeard t) ∧ isTalker t.ports[0] = true ∧
      Hears 0 long u (heardPort 0 long u) ∧ isTalker u.ports[0] = true := by decide +kernel

theorem witness_CheckCompletion_read :
    let s := atCheck
    let t := inFrame 0 .bits (.sending frameAttempt) readControl
    s.ports[0].assembly.header = some ⟨2, 37, 71⟩ ∧ s.ports[0].assembly.control = some ⟨3, 0⟩ ∧
      s.ports[0].assembly.checkGood = none ∧ Hears 0 (checkHeard 63) s (heardPort 0 (checkHeard 63) s) ∧
      (heardPort 0 (checkHeard 63) s).assembly.bits.length = 33 ∧ Hears 0 {} s (heardPort 0 {} s) ∧
      (heardPort 0 {} s).assembly.bits.length ≠ 33 ∧ isTalker s.ports[0] = false ∧
      s.ports[0].assembly.decision = some toS3 ∧ toS3.misplaced = false ∧
      Hears 0 (checkHeard 63) t (heardPort 0 (checkHeard 63) t) ∧ isTalker t.ports[0] = true := by decide +kernel

theorem witness_CheckCompletionActs_clauses :
    (checkOctet shortFrame == BitVec.ofNat 8 (natOfBits (bitsOfNat 8 63))) = true ∧
      (checkOctet shortFrame == BitVec.ofNat 8 (natOfBits (bitsOfNat 8 62))) = false ∧
      (atCheck (some { toS3 with misplaced := true })).ports[0].assembly.decision = some { toS3 with misplaced := true } ∧
      (admitSegment 0 shortFrame toS3 (portIn 3 .idle .idle)).1 = ⟨.all, none, false, some 8⟩ := by decide +kernel

/-- Node 71 BLOCKED and located S0; node 71 OPEN; and a group, which no entry has. -/
theorem witness_CheckCompletionActs_presence :
    let s := modNode 71 (fun _ => ⟨.seg 0, 4, true⟩) .reset
    (71 : Address).val = (71 : Fin 120).val ∧ s.nodes.entries[71].blocked = true ∧ s.nodes.entries[71].location = .seg 0 ∧
      State.reset.nodes.entries[71].blocked = false ∧ s.nodes.entries[71].location ≠ .seg 1 ∧
      (∀ i : Fin 120, (120 : Address).val ≠ i.val) := by decide +kernel

/-- Port 0 in the accept slot's low of another talker's frame. -/
def listening : State := after (.acceptSlotEdge ⟨0, 2500⟩) atSlots

theorem witness_EndOfFrameConfirms :
    listening.ports[0].rx = .slots ∧ isTalker listening.ports[0] = false ∧
      Hears 0 (slotsHeard true false) listening (heardPort 0 (slotsHeard true false) listening) ∧
      Hears 0 { low := some 1500 } listening (heardPort 0 { low := some 1500 } listening) := by decide +kernel

theorem witness_EndOfFrameConfirms_ends :
    FrameEnds none (heardPort 0 (slotsHeard true false) listening) 7500 ∧
      FrameEnds (some 2499) (heardPort 0 (slotsHeard true false) listening) 7499 :=
  ⟨(frameEnd_eq_some _ _ _).1 (by decide +kernel), (frameEnd_eq_some _ _ _).1 (by decide +kernel)⟩

theorem witness_EndOfFrameConfirms_goes_on (t : Ticks) :
    ¬FrameEnds none (heardPort 0 { low := some 1500 } listening) t := by
  rw [← frameEnd_eq_some, show frameEnd? none (heardPort 0 { low := some 1500 } listening) = none by decide +kernel]
  exact nofun

theorem witness_ConfirmationJoinsLanes :
    admittedSlot atSlots.ports[0] = some 8 ∧
      (∀ q : PortId, ∀ r ∈ atSlots.pool.queues[q].pending, r.slot = 8 → r.mark = none) ∧
      atSlots.pool.queues[3].pending = [] ++ ref8 :: [] ∧ ref8.mark = none ∧
      (atSlots .accept (some .expired)).pool.queues[3].pending = [] ++ ref8 0 (some .expired) :: [] := by decide +kernel

theorem witness_SignalErrorLeavesFrame :
    let s := inFrame 0 .bits .idle { inSlot := true }
    let g := portIn 0 .gap .idle
    HearsNone 0 {} .reset ∧ Hears 0 {} s (heardPort 0 {} s) ∧ Hears 0 {} g (heardPort 0 {} g) ∧ isTalker s.ports[0] = false ∧
      Hears 0 {} (inFrame 0 .bits (.sending frameAttempt) { inSlot := true })
        (inFrame 0 .bits (.sending frameAttempt) { inSlot := true }).ports[0] ∧
      isTalker (inFrame 0 .bits (.sending frameAttempt) { inSlot := true }).ports[0] = true := by decide +kernel

/-- The faults at the ends of their ranges. -/
theorem witness_SignalErrorLeavesFrame_faults :
    let inLow := (inFrame 0 .bits .idle { inSlot := true }).ports[0]
    let gap := (portIn 0 .gap .idle).ports[0]
    let high := (inFrame 0 .bits .idle readHeader).ports[0]
    FaultDetected (.shape 125) inLow 125 { inLow with lastRise := 125 } ∧
      FaultDetected (.period 9499) gap 9499 { gap with edge := 9499 } ∧
      FaultDetected (.period 2249) high 2249 { high with edge := 2249 } ∧
      FaultDetected (.stall 11000) gap 11000 gap ∧ FaultDetected (.stall 3250) high 3250 high := by
  refine ⟨?_, ?_, ?_, ?_, ?_⟩ <;> exact (faultAt_eq_some _ _ _ _).1 (by decide +kernel)

theorem witness_SignalErrorLeavesFrame_none (t : Ticks) (q : Port) :
    ¬FaultDetected (.stall 3249) (inFrame 0 .bits .idle readHeader).ports[0] t q := by
  rw [← faultAt_eq_some, show faultAt (inFrame 0 .bits .idle readHeader).ports[0] (.stall 3249) = none by decide +kernel]
  exact nofun

theorem witness_AbortsAndFalseStartsFlush :
    let s := inFrame 0 .bits .idle { inSlot := true }
    let t := inFrame 0 .bits (.sending frameAttempt) { inSlot := true }
    HearsNone 0 {} .reset ∧ Hears 0 {} s (heardPort 0 {} s) ∧ insideLow (heardPort 0 {} s) = true ∧
      isTalker s.ports[0] = false ∧ Hears 0 {} t (heardPort 0 {} t) ∧ insideLow (heardPort 0 {} t) = true ∧
      isTalker t.ports[0] = true ∧ insideLow (heardPort 0 {} (portIn 0 .gap .idle)) = false ∧
      Hears 0 {} (portIn 0 .gap .idle) (heardPort 0 {} (portIn 0 .gap .idle)) := by decide +kernel

/-- In bit slot 1 that talker sends 0, in bit slot 2 it sends 1. -/
theorem witness_AbortsAndFalseStartsFlush_samples :
    let t := inFrame 0 .bits (.sending frameAttempt) { inSlot := true }
    let u := inFrame 0 .bits (.sending frameAttempt) { bits := [false], inSlot := true }
    SampleAgrees (160 * bitPeriod .standard / 100) (heardPort 0 {} t) ∧
      Hears 0 {} u (heardPort 0 {} u) ∧ ¬SampleAgrees (160 * bitPeriod .standard / 100) (heardPort 0 {} u) := by
  simp only [← sampleAgrees_iff]
  decide +kernel

theorem witness_AbortsAndFalseStartsFlush_pulse_and_lows :
    (driveAbort 0 100 100 .reset).ports[0].pulse = some 5100 ∧ State.reset.ports[0].pulse = none ∧
      (portIn 0 .leadIn .idle).ports[0].rx = .leadIn ∧ isTalker (portIn 0 .leadIn .idle).ports[0] = false ∧
      isTalker (portIn 0 .leadIn (.sending frameAttempt)).ports[0] = true ∧ isFalseStart .standard 125 = true ∧
      isFalseStart .standard 6499 = true ∧ isFalseStart .standard 8501 = true ∧ isFalseStart .standard 12500 = true := by
  decide +kernel

theorem witness_AbortedAdmissionIsWithdrawn :
    Hears 0 {} listening (heardPort 0 {} listening) ∧ insideLow (heardPort 0 {} listening) = true ∧
      isTalker listening.ports[0] = false ∧ admittedSlot listening.ports[0] = some 8 ∧
      admittedSlot State.reset.ports[0] = none := by decide +kernel

theorem witness_LineHeldAndReleased :
    let released := after (.lineReleased 2 20000) (portIn 2 .held .idle)
    (portIn 2 .bits .idle).ports[2].rx = .bits ∧ (portIn 2 .leadIn .idle).ports[2].rx = .leadIn ∧
      isTalker (portIn 2 .bits .idle).ports[2] = false ∧ isTalker (portIn 2 .bits (.sending frameAttempt)).ports[2] = true ∧
      (portIn 2 .held .idle).ports[2].rx = .held ∧ State.reset.ports[2].rx = .off ∧
      (portIn 2 .bits .idle).ports[2].lastRise ≤ (portIn 2 .bits .idle).ports[2].edge + 0 ∧
      released.ports[2].edge + 0 < released.ports[2].lastRise := by decide +kernel

theorem witness_IdleIsEnteredAndLeft :
    let s := waiting 1 (portIn 1 .idle (.armed (.frame 2 8)))
    (portIn 1 .flush .idle).ports[1].rx = .flush ∧ (portIn 1 .flush .idle).ports[1].pulse = none ∧
      2 * bitPeriod .standard ≤ 5000 ∧ 4999 < 2 * bitPeriod .standard ∧
      (portIn 1 .flush .idle).ports[1].edge ≤ (portIn 1 .flush .idle).ports[1].lastRise + 0 ∧
      (driveAbort 1 7 7 (portIn 1 .flush .idle)).ports[1].lastRise + 0 < (driveAbort 1 7 7 (portIn 1 .flush .idle)).ports[1].edge ∧
      (driveAbort 1 0 0 (portIn 1 .flush .idle)).ports[1].pulse ≠ none ∧ s.ports[1].rx = .idle ∧
      s.ports[1].tx = .armed (.frame 2 8) ∧ candidateGone 1 s = false ∧ candidateQuiet s.ports[1] (.frame 2 8) = 10000 ∧
      5 * bitPeriod .standard ≤ 100 * 125 ∧ 100 * 124 < 5 * bitPeriod .standard ∧ (portIn 1 .idle .idle).ports[1].tx = .idle := by
  decide +kernel

theorem witness_SelectionArmsBestCandidate_nothing :
    let s := makeDue 1 (portIn 1 .idle .idle)
    (∀ q : SegPort, s.ports[q].due = true ↔ q = 1) ∧ maySelect s.ports[1] = true ∧
      firstHead (1 : SegPort).port s = none ∧ (∀ n ∈ s.custody.notices, n.port ≠ 1) := by decide +kernel

theorem witness_SelectionArmsBestCandidate_notice :
    let s := makeDue 0 (withNotices [noticeB false] (waiting 0 (portIn 0 .idle .idle)))
    (∀ q : SegPort, s.ports[q].due = true ↔ q = 0) ∧ maySelect s.ports[0] = true ∧ s.custody.notices = [noticeB false] ∧
      (noticeB false).port = 0 ∧ firstHead (0 : SegPort).port s = some (2, ref8) ∧ s.custody.noticePriority = 2 := by
  decide +kernel

theorem witness_SelectionArmsBestCandidate_frame :
    let s := makeDue 1 (waiting 1 (portIn 1 .idle .idle))
    (∀ q : SegPort, s.ports[q].due = true ↔ q = 1) ∧ maySelect s.ports[1] = true ∧
      firstHead (1 : SegPort).port s = some (2, ref8) ∧ (∀ n ∈ s.custody.notices, n.port = 1 → 2 < s.custody.noticePriority) ∧
      s.route.purgeEpoch ≤ (slotOf ref8 s).epoch ∧ ref8.count ≤ s.ports[1].retryLimit := by decide +kernel

theorem witness_SelectionArmsBestCandidate_removed :
    let stale := makeDue 1 (waiting 1 (portIn 1 .idle .idle (committing sweepOrder true)))
    let worn := makeDue 1 (modQueue 1 (fun Q => { Q with lanes := modAt Q.lanes 2 fun _ => [ref8 4] })
      (stored (portIn 1 .idle .idle)))
    (slotOf ref8 stale).epoch < stale.route.purgeEpoch ∧ firstHead (1 : SegPort).port worn = some (2, ref8 4) ∧
      worn.route.purgeEpoch ≤ (slotOf (ref8 4) worn).epoch ∧ worn.ports[1].retryLimit < (ref8 4).count := by decide +kernel

/-- Selection due on S1, which may select, and on S3, and on S0, whose receiver is in a frame; and due nowhere. -/
theorem witness_SelectionArmsBestCandidate_order :
    let two := makeDue 3 (makeDue 1 (waiting 1 (portIn 1 .idle .idle (portIn 3 .idle .idle))))
    let busy := makeDue 0 (portIn 0 .bits .idle two)
    two.ports[1].due = true ∧ two.ports[3].due = true ∧ (∀ q : SegPort, q < 1 → two.ports[q].due = false) ∧
      maySelect two.ports[1] = true ∧ firstHead (1 : SegPort).port two = some (2, ref8) ∧
      busy.ports[0].due = true ∧ (∀ q : SegPort, q < 0 → busy.ports[q].due = false) ∧ maySelect busy.ports[0] = false ∧
      (∀ q : SegPort, State.reset.ports[q].due = false) := by decide +kernel

theorem witness_AttemptBeginsWithCandidate :
    let s := waiting 1 (portIn 1 .idle (.armed (.frame 2 8)))
    let n := withNotices [noticeB false] (portIn 0 .idle (.armed (.notice 2 119)))
    s.ports[1].rx = .idle ∧ s.ports[1].tx = .armed (.frame 2 8) ∧ laneHead (1 : SegPort).port 2 s = some ref8 ∧
      quietTime s.ports[1].rate 2 s.ports[1].lastTalker ≤ 10000 ∧ 9999 < candidateQuiet s.ports[1] (.frame 2 8) ∧
      n.ports[0].rx = .idle ∧ n.ports[0].tx = .armed (.notice 2 119) ∧ n.custody.notices = [] ++ noticeB false :: [] ∧
      (noticeB false).port = 0 ∧ (portIn 1 .leadIn .idle).ports[1].rx ≠ .idle ∧ (portIn 1 .idle .idle).ports[1].tx.isArmed = false := by
  decide +kernel

/-- Port 1 sends the frame and the low of a bit slot is in progress, `k` bits classified. -/
def sendingFrame (k : Nat) (r : Ref) : State :=
  heldBy 1 r (inFrame 1 .bits (.sending frameAttempt) { bits := (sentBits shortFrame).take k, inSlot := true })

theorem witness_LostAndOverdrivenAttempts :
    let s := sendingFrame 16 ref8
    let o := sendingFrame 19 ref8
    Hears 1 {} s (heardPort 1 {} s) ∧ s.ports[1].tx = .sending ⟨false, shortFrame⟩ ∧
      s.pool.queues[(1 : SegPort).port].holder = some ref8 ∧ ref8.mark = none ∧ insideLow (heardPort 1 {} s) = true ∧
      (heardPort 1 {} s).assembly.bits.length = 16 ∧ (sentBits shortFrame)[16]? = some true ∧
      Hears 1 {} o (heardPort 1 {} o) ∧ (heardPort 1 {} o).assembly.bits.length = 19 ∧
      (sentBits shortFrame)[19]? = some true ∧ (sentBits shortFrame)[32]? = some true ∧
      ref8.count + 1 ≤ o.ports[1].retryLimit ∧ o.ports[1].retryLimit < (ref8 3).count + 1 ∧
      (sendingFrame 16 (ref8 0 (some .expired))).pool.queues[(1 : SegPort).port].holder = some (ref8 0 (some .expired)) ∧
      ref8.count + 1 ≤ s.ports[1].retryLimit ∧ s.ports[1].retryLimit < (ref8 3).count + 1 := by
  decide +kernel

theorem witness_AcceptSlotEdgeSetsFlag :
    let t := inFrame 1 .slots (.sending frameAttempt) readAll
    let r := (inFrame 0 .slots .idle { readAll with bits := readAll.bits ++ [true], answer := .refuse }).ports[0]
    following t.ports[1] = true ∧ t.ports[1].tx = .sending frameAttempt ∧ following atSlots.ports[0] = true ∧
      isTalker atSlots.ports[0] = false ∧ atSlots.ports[0].rx = .slots ∧ atSlots.ports[0].assembly.inSlot = false ∧
      atSlots.ports[0].assembly.control = some ⟨3, 0⟩ ∧ atSlots.ports[0].assembly.bits.length = 33 ∧
      90 * bitPeriod .standard ≤ 100 * 2250 ∧ 100 * 3250 ≤ 130 * bitPeriod .standard ∧ r.rx = .slots ∧
      r.assembly.checkGood ≠ none ∧ r.assembly.header ≠ none ∧ r.assembly.bits.length = 34 ∧ r.assembly.answer = .refuse := by
  decide +kernel

/-- Port 1 in the accept slot's low of its own frame, with a reference in hand. -/
def ending (r : Ref) : State := heldBy 1 r (inFrame 1 .slots (.slots frameAttempt) inAccept)

theorem witness_LostAndOverdrivenAttempts_aborted :
    (ending ref8).ports[1].tx = .slots ⟨false, shortFrame⟩ ∧ (ending ref8).pool.queues[(1 : SegPort).port].holder = some ref8 := by
  decide +kernel

theorem witness_AttemptEndTakesOutcome :
    let s := ending ref8
    slotsHeard true false = ⟨some (slotLow true), [⟨2500, slotLow false⟩], none⟩ ∧ Hears 1 (slotsHeard true false) s (heardPort 1 (slotsHeard true false) s) ∧ s.ports[1].rx = .slots ∧
      s.ports[1].tx = .slots ⟨false, shortFrame⟩ ∧ s.pool.queues[(1 : SegPort).port].holder = some ref8 ∧
      (heardPort 1 (slotsHeard true false) s).assembly.bits = sentBits shortFrame ++ [!true, !false] ∧ ref8.mark = none ∧
      shortFrame.dest.val < 120 ∧ 120 ≤ ({ shortFrame with dest := 120 }).dest.val ∧ (ref8 2).count + 1 ≤ s.ports[1].retryLimit ∧
      s.ports[1].retryLimit < (ref8 3).count + 1 ∧
      (ending (ref8 0 (some .purged))).pool.queues[(1 : SegPort).port].holder = some (ref8 0 (some .purged)) ∧
      (slotOf ref8 s).frame.dest.val = (37 : Fin 120).val ∧
      120 ≤ (slotOf ref8 (modSlot 8 (fun sl => { sl with frame := { shortFrame with dest := 120 } }) s)).frame.dest.val := by
  decide +kernel

theorem witness_AttemptEndTakesOutcome_ends :
    FrameEnds none (heardPort 1 (slotsHeard true false) (ending ref8)) 5000 :=
  (frameEnd_eq_some _ _ _).1 (by decide +kernel)

theorem witness_AttemptEndTakesOutcome_goes_on (t : Ticks) : ¬FrameEnds none (ending ref8).ports[1] t := by
  rw [← frameEnd_eq_some, show frameEnd? none (ending ref8).ports[1] = none by decide +kernel]
  exact nofun

/-- Port 0 in the accept slot's low of a notice's frame, and in a header bit's. -/
def noticeEnding : State :=
  withNotices [noticeB true] (inFrame 0 .slots (.slots noticeAttempt)
    { bits := sentBits noticeAttempt.frame, inSlot := true, header := some ⟨2, 71, 119⟩, control := some ⟨15, 5⟩, checkGood := some true })
def noticeSending : State :=
  withNotices [noticeB true] (inFrame 0 .bits (.sending noticeAttempt) { bits := [false], inSlot := true })

theorem witness_NoticeAttemptEnds :
    let s := noticeEnding
    slotsHeard true false = ⟨some (slotLow true), [⟨2500, slotLow false⟩], none⟩ ∧ Hears 0 (slotsHeard true false) s (heardPort 0 (slotsHeard true false) s) ∧ s.ports[0].rx = .slots ∧
      s.ports[0].tx = .slots ⟨true, noticeAttempt.frame⟩ ∧ noticeAttempt.frame.dest.val < 120 ∧
      (heardPort 0 (slotsHeard true false) s).assembly.bits = sentBits noticeAttempt.frame ++ [!true, !false] ∧
      s.custody.notices = [] ++ noticeB true :: [] ∧ (noticeB true).port = 0 ∧ (noticeB true).inAttempt = true ∧
      (noticeB true 2).sendCount + 1 ≤ s.ports[0].retryLimit ∧ s.ports[0].retryLimit < (noticeB true 3).sendCount + 1 := by
  decide +kernel

theorem witness_NoticeAttemptEnds_ends : FrameEnds none (heardPort 0 (slotsHeard true false) noticeEnding) 5000 :=
  (frameEnd_eq_some _ _ _).1 (by decide +kernel)

theorem witness_NoticeAttemptEnds_lost :
    Hears 0 {} noticeSending (heardPort 0 {} noticeSending) ∧ noticeSending.ports[0].tx = .sending ⟨true, noticeAttempt.frame⟩ ∧
      insideLow (heardPort 0 {} noticeSending) = true ∧ (heardPort 0 {} noticeSending).assembly.bits.length = 1 ∧
      (sentBits noticeAttempt.frame)[1]? = some true := by decide +kernel

/-- A notice's attempt in bit slot 18, its first control bit and a 1: overdriven there, and heard as it is sent in bit slot 1. -/
theorem witness_NoticeAttemptEnds_aborted :
    let o := modAssembly 0 (fun a => { a with bits := (sentBits noticeAttempt.frame).take 17, header := some ⟨2, 71, 119⟩ })
      noticeSending
    let s := modAssembly 0 (fun a => { a with bits := [] }) noticeSending
    Hears 0 {} o (heardPort 0 {} o) ∧ insideLow (heardPort 0 {} o) = true ∧
      o.ports[0].tx = .sending ⟨true, noticeAttempt.frame⟩ ∧ (heardPort 0 {} o).assembly.bits.length = 17 ∧
      17 < 33 + 8 * noticeAttempt.frame.payload.length ∧ (sentBits noticeAttempt.frame)[17]? = some true ∧
      Hears 0 {} s (heardPort 0 {} s) ∧ insideLow (heardPort 0 {} s) = true ∧
      SampleAgrees (160 * bitPeriod .standard / 100) (heardPort 0 {} s) ∧
      noticeSending.ports[0].tx = .sending ⟨true, noticeAttempt.frame⟩ := by
  simp only [← sampleAgrees_iff]
  decide +kernel

/-- A low of 0.05 Tb in bit slot 2, a 1. -/
theorem witness_NoticeAttemptEnds_fault :
    FaultDetected (.shape 125) (heardPort 0 {} noticeSending) 125 { heardPort 0 {} noticeSending with lastRise := 125 } :=
  (faultAt_eq_some _ _ _ _).1 (by decide +kernel)

theorem witness_LookupTakesFirstMatch :
    isMisplaced 1 71 exampleTables = true ∧ isMisplaced 0 71 exampleTables = false ∧
      entryMatches (0 : SegPort).port 12 71 3 (activeBank exampleTables.route)[0] = true ∧
      (activeBank exampleTables.route)[0].action = .forward ∧
      (∀ j : RouteIndex, j < 0 → entryMatches (0 : SegPort).port 12 71 3 (activeBank exampleTables.route)[j] = false) ∧
      (∀ j : RouteIndex, entryMatches (0 : SegPort).port 20 71 3 (activeBank exampleTables.route)[j] = false) := by
  decide +kernel

/-- The other actions and the miss actions: a banks' entry may have any, and a node any location. -/
theorem witness_LookupTakesFirstMatch_cases :
    let s := modNode 20 (fun _ => ⟨.trunk, 0, false⟩) exampleTables
    let b := modRoute (fun r => setActive ((activeBank r).set 0 { (activeBank r)[0] with action := .home }) r) exampleTables
    let d := modRoute (fun r => setActive ((activeBank r).set 0 { (activeBank r)[0] with action := .drop }) r) exampleTables
    (activeBank b.route)[0].action = .home ∧ entryMatches (0 : SegPort).port 12 71 3 (activeBank b.route)[0] = true ∧
      (activeBank d.route)[0].action = .drop ∧ MissAction.homeCustody ≠ .drop ∧ (0 : SegPort).port ≠ trunkPort ∧
      s.nodes.entries[20].location = .trunk ∧ s.nodes.entries[37].location = .seg 3 ∧
      s.nodes.entries[38].location = .unassigned ∧ 120 ≤ (120 : Address).val := by decide +kernel

/-- Port 3 is enabled, port 2 is not: a decision to one, or to both. -/
def toPorts (egress : PortSet) (mode : Mode) : Decision := { toS3 with egress := egress, mode := mode }

theorem witness_AdmissionSettlesTargets :
    let s := portIn 3 .idle .idle
    toS3.epoch < (committing sweepOrder true).route.purgeEpoch ∧ s.route.purgeEpoch ≤ toS3.epoch ∧
      ({ toS3 with refusal := some .noRoute }).refusal = some .noRoute ∧ (toPorts 0 .custody).egress = 0 ∧
      (∀ q : PortId, (toPorts 8 .custody).egress.getLsbD q.val = true → targetFailure 37 s q = none) ∧
      (∃ q : PortId, (toPorts 12 .passive).egress.getLsbD q.val = true ∧ targetFailure 37 s q ≠ none) ∧
      (∃ q : PortId, (toPorts 12 .passive).egress.getLsbD q.val = true ∧ targetFailure 37 s q = none) ∧
      (settleTargets 37 (toPorts 12 .custody) s).result = .none ∧
      (∀ q : PortId, (toPorts 4 .passive).egress.getLsbD q.val = true → targetFailure 37 s q ≠ none) := by decide +kernel

theorem witness_SegmentAdmissionTakesSlot :
    let s := portIn 3 .idle .idle
    (settleTargets 37 toS3 s).admitted = [3] ∧ mirrorDue toS3 s = false ∧ s.pool.free = 8 :: allSlots.drop 9 ∧
      (settleTargets 37 toS3 (modPool (fun p => { p with free := [] }) s)).admitted = [3] := by decide +kernel

/-- The trunk queue with a number of references. -/
def trunkHolds (n : Nat) : State := modQueue 4 (fun Q => { Q with lanes := modAt Q.lanes 0 fun _ => List.replicate n ref8 }) stored

/-- A mirror copy as the only reference, of a LOCAL frame and of a refused one; and none due with 48 references in T. -/
theorem witness_SegmentAdmissionTakesSlot_mirror :
    let loc := { toPorts 0 .custody with mirror := true }
    let refused := { loc with refusal := some .noRoute }
    (settleTargets 37 loc (trunkHolds 47)).admitted = [] ∧ (settleTargets 37 loc (trunkHolds 47)).result = .loc ∧
      (settleTargets 37 refused (trunkHolds 47)).admitted = [] ∧ (trunkHolds 47).route.purgeEpoch ≤ loc.epoch ∧
      loc.mirror = true ∧ (((trunkHolds 47).pool.queues[4].lanes.toList.map List.length).sum +
        (if (trunkHolds 47).pool.queues[4].holder.isSome then 1 else 0) + (trunkHolds 47).pool.queues[4].pending.length) = 47 ∧
      mirrorDue loc (trunkHolds 47) = true ∧ mirrorDue loc (trunkHolds 48) = false ∧
      (trunkHolds 47).pool.free = 9 :: allSlots.drop 10 ∧
      (modPool (fun p => { p with free := [] }) (trunkHolds 47)).pool.free = [] := by decide +kernel

theorem witness_ReleasedSlotGoesToReserveOrTail :
    stored.pool.slots[8].status = .queued ∧ reservedCount stored = 8 ∧ stored.pool.reserveSize = 8 ∧
      (modSlot 0 (fun sl => { sl with status := .filled }) stored).pool.slots[0].status = .filled ∧
      reservedCount (modSlot 0 (fun sl => { sl with status := .filled }) stored) - 1 = 7 := by decide +kernel

theorem witness_DeliveryClearsFailures :
    (slotOf ref8 stored).frame.dest.val = (37 : Fin 120).val ∧ (slotOf ref8 stored).frame.dest.val ≠ (38 : Fin 120).val := by
  decide +kernel

theorem witness_DeliveryFailureBlocksNode :
    let s := modNode 88 (fun _ => ⟨.seg 2, 3, false⟩) .reset
    (88 : Address).val = (88 : Fin 120).val ∧ s.nodes.threshold ≠ 0 ∧ s.nodes.threshold ≤ min (s.nodes.entries[88].failures + 1) 15 ∧
      s.nodes.entries[88].blocked = false ∧
      (modNode 88 (fun e => { e with blocked := true }) s).nodes.entries[88].blocked = true ∧
      min (State.reset.nodes.entries[88].failures + 1) 15 < s.nodes.threshold := by
  decide +kernel

theorem witness_NoticeIsCreatedOrLost :
    let s := portIn 0 .idle .idle
    let full := withNotices (List.replicate 8 (noticeB false)) s
    ({ noticeB false with service := 15 }).service = 15 ∧ (noticeB false).service ≠ 15 ∧ nodeBlocked 71 s = false ∧
      nodeBlocked 71 (modNode 71 (fun _ => ⟨.seg 0, 4, true⟩) s) = true ∧ s.ports[0].enabled = true ∧
      State.reset.ports[0].enabled = false ∧ full.custody.notices.length = 8 ∧ s.custody.notices.length < 8 := by
  decide +kernel

/-- The report list empty and full, in a state of the link that keeps reports and in one that does not. -/
theorem witness_NoticeIsCreatedOrLost_reports :
    let full := { linked .up with custody := { State.reset.custody with reports := List.replicate 16 ⟨5, .expired, none, 0, false⟩ } }
    (linked .train).trunk.link = .train ∧ (linked .suspect).trunk.link = .suspect ∧ full.custody.reports.length = 16 ∧
      (linked .up).custody.reports.length < 16 := by decide +kernel

/-- Frame slot 8 of a segment frame in custody; of a tagged trunk frame; with a second reference; and with no custody. -/
theorem witness_NoticeIsCreatedOrLost_removal :
    fullSlot.custody = true ∧ (ref8 1).kind = .frame ∧ fullSlot.origin = (0 : SegPort).port ∧ fullSlot.ingress = (0 : SegPort).port ∧
      fullSlot.refs ≤ 1 ∧ 1 < ({ fullSlot with refs := 2 }).refs ∧ ({ fullSlot with custody := false }).custody = false ∧
      ({ fullSlot with origin := trunkPort, tag := some 5 }).origin = trunkPort ∧
      ({ fullSlot with origin := trunkPort, tag := some 5 }).tag ≠ none ∧ fullSlot.tag = none ∧
      stored.pool.slots[ref8.slot] = fullSlot := by decide +kernel

/-- An event record of SP2's, in transmission or not, and a list of sixteen others. -/
def heldEvent (inTx : Bool) : Event := ⟨.lineHeld, .seg 2, 1, 1, inTx, 0, 0⟩
def sixteenEvents : List Event := List.replicate 16 ⟨.poolEmpty, .seg 0, 0, 1, false, 0, 0⟩

theorem witness_EventIsTaken :
    (⟨[], 1⟩ : EventList).mask.getLsbD 0 = true ∧ (⟨[], 0x80⟩ : EventList).mask.getLsbD 7 = true ∧
      (withEvents [heldEvent true]).events.mask.getLsbD 0 = false ∧
      (withEvents [heldEvent true]).events.records = [] ++ heldEvent true :: [] ∧ (heldEvent true).kind = .lineHeld ∧
      (heldEvent true).port = .seg 2 ∧ (heldEvent false).inTx = false ∧
      (∀ x ∈ sixteenEvents, ¬(x.kind = .lineHeld ∧ x.port = .seg 2)) ∧ sixteenEvents.length = 16 := by decide +kernel

theorem witness_DeadlineExpiryRemovesReferences :
    let s := heldBy 3 ref8
    s.pool.slots[8].status = .queued ∧ s.pool.slots[8].deadline = some 100 ∧
      s.pool.queues[(3 : SegPort).port].holder = some ref8 ∧ ref8.mark = none ∧ ref8.slot = 8 ∧
      State.reset.pool.slots[8].status ≠ .queued ∧
      (modSlot 8 (fun sl => { sl with deadline := none }) s).pool.slots[8].deadline = none := by decide +kernel

theorem witness_LockIsGainedAndLost :
    State.reset.trunk.rx.lock = false ∧ TrunkChar.invalid ∉ List.replicate 16 TrunkChar.idleS ∧
      (List.replicate 16 TrunkChar.idleS).length + State.reset.trunk.rx.run = 16 ∧ (linked .up).trunk.rx.lock = true ∧
      (linked .up).trunk.link ≠ .seek ∧ 3 + 1 + (linked .up).trunk.rx.invalid = 4 ∧ (linked .up).trunk.rx.frame = none ∧
      (linked .train).trunk.link = .train ∧ (linked .suspect).trunk.link = .suspect ∧ (linked .up).trunk.link = .up ∧
      (linked .up).trunk.tx = none ∧ (transmitting (some ⟨.credit, 0, [8], 0⟩)).trunk.tx ≠ none ∧
      List.replicate 16 TrunkChar.idleS ≠ [] := by decide +kernel

/-- In lock with three invalid characters counted and a frame in reception, the next invalid one loses lock. -/
theorem witness_LockIsGainedAndLost_in_frame :
    let s := modTrunk (fun k => { k with rx := ⟨true, 0, 3, 0, 0, some [1]⟩ }) (linked .up)
    s.trunk.rx.lock = true ∧ 0 + 1 + s.trunk.rx.invalid = 4 ∧ s.trunk.rx.frame ≠ none := by decide +kernel

/-- The trunk link before and after lock is gained at 1003. -/
theorem witness_LockIsGainedAndLost_idles :
    let before := Trunk.reset
    let k := (after (.lockGained (List.replicate 16 .idleS)) { State.reset with now := 1003 }).trunk
    before.tx = none ∧ before.cut = none ∧ k.tx = none ∧ k.cut = none ∧ k.lineStart = before.lineStart ∧ k.idleChanged = 1003 ∧
      k.idleWasR = idleIsR before 1003 ∧ (k.rx.lock && k.link != .seek) = true ∧ before.lineStart ≤ 1003 := by decide +kernel

theorem witness_IdleRunBringsLinkUp :
    (linked .train).trunk.rx.lock = true ∧ (linked .train).trunk.rx.frame = none ∧
      31 + 1 + (linked .train).trunk.rx.idleR = 32 ∧ (linked .train).trunk.link = .train ∧
      (linked .suspect).trunk.rx.lock = true ∧ (linked .suspect).trunk.rx.frame = none ∧
      31 + 1 + (linked .suspect).trunk.rx.idleR = 32 ∧ (linked .suspect).trunk.hold = some ⟨0, 50000⟩ := by decide +kernel

theorem witness_EighthIdleEntersSuspect :
    let s := heldBy 4 (ref8 1) (modTrunk (fun k => { k with tx := some ⟨.data, 0, [], 0⟩ }) (linked .up))
    s.trunk.link = .up ∧ s.trunk.rx.lock = true ∧ s.trunk.rx.frame = none ∧ 7 + 1 + s.trunk.rx.idleS = 8 ∧
      s.trunk.tx = some ⟨.data, 0, [], 0⟩ ∧ s.pool.queues[trunkPort].holder = some (ref8 1) ∧
      (linked .up).trunk.tx = none ∧ s.trunk.tx ≠ none ∧ (slotOf (ref8 1) s).deadline = some 100 ∧
      (transmitting (some ⟨.report, 0, [], 0⟩)).trunk.tx = some ⟨.report, 0, [], 0⟩ ∧
      (transmitting (some ⟨.mgmtRsp, 0, [], 0⟩)).trunk.tx = some ⟨.mgmtRsp, 0, [], 0⟩ ∧
      (withEvents [heldEvent true] (transmitting (some ⟨.event, 0, [], 0⟩))).events.records = [] ++ heldEvent true :: [] ∧
      (heldEvent true).inTx = true := by decide +kernel

theorem witness_TimersExpire :
    (linked .suspect).trunk.link = .suspect ∧ (linked .suspect).trunk.hold = some ⟨0, 50000⟩ ∧
      (linked .up).trunk.refresh = some 22500 ∧
      (linked .suspect (committing sweepOrder true)).agent.executing = true := by decide +kernel

theorem witness_EnvelopeIsHeardWhole :
    (linked .up).trunk.rx.lock = true ∧ (linked .up).trunk.rx.frame = none ∧ (List.replicate 60 (0 : Octet)).length ≤ 60 ∧
      receivedOf? 3 0 [4] = some (.credit 4) ∧ receivedOf? 2 0 [4] = none ∧
      word16 0 0 ≠ crc16 (coveredOctets 3 0 [4]) := by decide +kernel

/-- A DATA frame of 12 payload octets. -/
def longData : DataFrame := ⟨⟨2, 37, 20, 3, List.replicate 12 7⟩, ⟨true, some 5, some 3, 1⟩⟩

/-- No request has code 15, or code 1 with an argument octet. -/
theorem witness_PartnerBodiesRoundTrip_malformed (op : RequestOp) :
    requestOctets op ≠ some (15, []) ∧ requestOctets op ≠ some (1, [0]) := by
  cases op <;> simp [requestOctets]

theorem witness_PartnerBodiesRoundTrip :
    requestOctets (.nodeWrite 37 1) = some (7, [37, 1]) ∧ longData.frame.payload.length = 12 := by decide

/-- An in-order DATA frame with one slot of credit advertised. -/
def oneCredit : State := modTrunk (fun k => { k with advertised := 1 }) (linked .up)

theorem witness_ReceivedFrameIsDispatched :
    oneCredit.trunk.rx.lock = true ∧ oneCredit.trunk.rx.frame = none ∧ oneCredit.trunk.link = .up ∧
      receivedOf? 3 0 [4] = some (.credit 4) ∧ receivedOf? 4 0 [1, 7] = some (.request ⟨7, .identify⟩) ∧
      receivedOf? 1 0 (dataFrameBody longData) = some (.data 0 longData) ∧ (dataFrameBody longData).length ≤ 60 ∧
      (linked .train).trunk.link = .train := by decide +kernel

theorem witness_ReceivedFrameIsDispatched_window :
    ((0 : BitVec 8) - oneCredit.trunk.nextExpected).toNat < (oneCredit.trunk.advertised - oneCredit.trunk.nextExpected).toNat ∧
      (oneCredit.trunk.advertised - oneCredit.trunk.nextExpected).toNat ≤ ((1 : BitVec 8) - oneCredit.trunk.nextExpected).toNat ∧
      unfilledCount oneCredit ≠ 0 ∧ oneCredit.agent.buffers.length < 2 ∧
      2 ≤ ({ oneCredit with agent := ⟨[⟨1, .identify⟩, ⟨2, .identify⟩], false, false⟩ }).agent.buffers.length := by
  decide +kernel

/-- A receiver in the middle of a frame whose octets so far are given. -/
def receiving (os : List Octet) : TrunkRx := ⟨true, 0, 2, 0, 0, some os⟩

/-- The octets of a CREDIT, and of one with a body of two octets. -/
def creditOctets : List Octet := envelopeOctets 3 0 [4]
def longCredit : List Octet := envelopeOctets 3 0 [4, 4]

theorem witness_ReceivedFrameIsDispatched_faults (os : List Octet) :
    hear .up (receiving os) [] = .quiet (receiving os) ∧ (receiving os).frame = some os ∧
      ReceiveFault (receiving os) os .invalid .checkErrors ∧ ReceiveFault (receiving os) os .sof .formatErrors ∧
      ReceiveFault (receiving os) os .idleS .formatErrors ∧ ReceiveFault (receiving os) os .cut .cutFrames := by
  refine ⟨rfl, rfl, ?_, ?_, ?_, ?_⟩ <;> simp [ReceiveFault, receiving]

/-- A length of 61; data and EOF out of place; a CRC that is wrong; and a layout that is. -/
theorem witness_ReceivedFrameIsDispatched_octets :
    ReceiveFault (receiving [3, 0]) [3, 0] (.data 61) .formatErrors ∧
      ReceiveFault (receiving creditOctets) creditOctets (.data 0) .formatErrors ∧
      ReceiveFault (receiving [3, 0, 1, 4, 0]) [3, 0, 1, 4, 0] .eof .formatErrors ∧
      ReceiveFault (receiving [3, 0, 1, 4, 0, 0]) ([3, 0, 1, 4] ++ [0, 0]) .eof .checkErrors ∧
      ReceiveFault (receiving longCredit) longCredit .eof .formatErrors := by
  refine ⟨.inr (.inr (.inl ⟨61, rfl, ?_, rfl⟩)), .inr (.inr (.inl ⟨0, rfl, ?_, rfl⟩)), .inr (.inr (.inr (.inl ⟨rfl, ?_, rfl⟩))),
    .inr (.inr (.inr (.inr (.inr (.inl ⟨[3, 0, 1, 4], 0, 0, rfl, ?_, rfl, ?_, rfl⟩))))),
    .inr (.inr (.inr (.inr (.inr (.inr ⟨3, 0, 2, [4, 4], (octets2 (crc16 [3, 0, 2, 4, 4]).toNat)[0]!,
      (octets2 (crc16 [3, 0, 2, 4, 4]).toNat)[1]!, rfl, ?_, ?_, ?_, ?_, rfl⟩)))))⟩ <;> decide +kernel

/-- A DATA frame taken in slot 0 waits to be routed. -/
def takenData (direct : Option SegPort) (source : Location) : State :=
  modTrunk (fun k => { k with taken := [0] }) (modSlot 0 (fun sl =>
    { sl with status := .filled, frame := shortFrame, inbound := some ⟨true, some 5, direct, 1⟩ })
    (modNode 71 (fun _ => ⟨source, 0, false⟩) (linked .up)))

theorem witness_TakenDataIsRouted :
    (takenData none .trunk).trunk.taken = 0 :: [] ∧
      (takenData none .trunk).pool.slots[(0 : SlotId)].inbound = some ⟨true, some 5, none, 1⟩ ∧
      nodeLocation 71 (takenData none .trunk) = .trunk ∧ nodeLocation 71 (takenData none (.seg 0)) ≠ .trunk ∧
      (takenData (some 3) .trunk).pool.slots[(0 : SlotId)].inbound = some ⟨true, some 5, some 3, 1⟩ ∧
      (takenData none .trunk).pool.slots[(0 : SlotId)].decision = none ∧
      (after .trunkDataRouting (takenData none .trunk)).pool.slots[(0 : SlotId)].decision ≠ none ∧
      (after .trunkDataRouting (takenData none .trunk)).trunk.taken = 0 :: [] := by decide +kernel

/-- A decision bound before a commit with purge, and admitted after it. -/
theorem witness_TakenDataIsRouted_stale :
    let s := run (takenData (some 3) .trunk) [.trunkDataRouting, .routeCommit 42 1]
    (s.pool.slots[(0 : SlotId)].decision.map (·.epoch)) = some 0 ∧ s.route.purgeEpoch = 1 := by decide +kernel

/-- Admission of that frame with a target admitted, and with none. -/
theorem witness_TakenDataIsRouted_admission :
    let s := portIn 3 .idle .idle (takenData none .trunk)
    (settleTargets s.pool.slots[(0 : SlotId)].frame.dest toS3 s).admitted = [3] ∧ s.pool.slots[(0 : SlotId)].status = .filled ∧
      (0 : SlotId) ∉ s.pool.free ∧ (settleTargets s.pool.slots[(0 : SlotId)].frame.dest toS3 .reset).admitted = [] ∧
      (settleTargets s.pool.slots[(0 : SlotId)].frame.dest toS3 .reset).reason = some .portDisabled := by decide +kernel

/-- A report record, and an event of it. -/
def aReport (inTx : Bool) : Report := ⟨5, .delivered, some 3, 1, inTx⟩

theorem witness_ArbiterStartsFirstReady :
    (linked .up).trunk.link = .up ∧ (linked .up).trunk.tx = none ∧ (linked .up).trunk.creditPending = false ∧
      (modTrunk (fun k => { k with creditPending := true }) (linked .up)).trunk.creditPending = true ∧
      (respond ⟨1, .ok, []⟩ (linked .up)).trunk.response = some ⟨1, .ok, []⟩ ∧ (linked .up).trunk.response = none ∧
      [aReport true, aReport false] = [aReport true] ++ aReport false :: [] ∧ (aReport false).inTx = false ∧
      (∀ x ∈ [aReport true], x.inTx = true) ∧ (∀ x ∈ heldEvent false :: [], x.inTx = false) ∧
      (linked .up).events.records = [] ∧ (linked .up).custody.reports = [] := by decide +kernel

/-- The next boundary is 200 for a clock at 187 and a next start at 180, and 180 for a clock at 180. -/
theorem witness_ArbiterStartsFirstReady_boundary :
    let k := { (linked .up).trunk with nextStart := 180 }
    (OnBoundary k 200 ∧ 187 ≤ 200 ∧ k.nextStart ≤ 200 ∧ ∀ b : Ticks, OnBoundary k b → 187 ≤ b → k.nextStart ≤ b → 200 ≤ b) ∧
      (OnBoundary k 180 ∧ 180 ≤ 180 ∧ ∀ b : Ticks, OnBoundary k b → 180 ≤ b → k.nextStart ≤ b → 180 ≤ b) :=
  ⟨⟨by decide, by decide, by decide, fun _ hb h _ => boundaryFrom_le (t := 187) hb h⟩, by decide, by decide, fun _ _ h _ => h⟩

/-- A stale head before one that is not, and the queue once it is removed. -/
theorem witness_ArbiterStartsFirstReady_stale :
    let s := modQueue 4 (fun Q => { Q with lanes := modAt Q.lanes 1 fun _ => [⟨40, .frame, 0, none⟩] })
      (modSlot 40 (fun _ => { fullSlot with priority := 1 }) (modSlot 8 (fun sl => { sl with epoch := 9 })
        (waiting 4 (modTrunk (fun k => { k with outLimit := 1 }) (linked .up (committing [] true))))))
    firstHead trunkPort s = some (1, ⟨40, .frame, 0, none⟩) ∧ s.pool.slots[(40 : SlotId)].epoch < s.route.purgeEpoch ∧
      firstHead trunkPort (purgeHeads 2 s) = some (2, ref8) ∧ s.route.purgeEpoch ≤ s.pool.slots[(8 : SlotId)].epoch := by
  decide +kernel

theorem witness_ArbiterStartsFirstReady_credit :
    let s := fun limit : BitVec 8 => waiting 4 (modTrunk (fun k => { k with outLimit := limit }) (linked .up))
    ((s 0).trunk.outLimit - (s 0).trunk.sent).toNat = 0 ∧ 128 < ((s 129).trunk.outLimit - (s 129).trunk.sent).toNat ∧
      ((s 128).trunk.outLimit - (s 128).trunk.sent).toNat = 128 ∧ firstHead trunkPort (s 1) = some (2, ref8) ∧
      firstHead trunkPort (linked .up) = none ∧ (s 1).route.purgeEpoch ≤ (slotOf ref8 (s 1)).epoch := by decide +kernel

theorem witness_EofEndsFrame :
    let s := fun (kind : TxKind) (body : List Octet) => modTrunk (fun k => { k with tx := some ⟨kind, 0, body, 0⟩ }) (linked .up)
    (s .credit [8]).trunk.tx = some ⟨.credit, 0, [8], 0⟩ ∧ (s .mgmtRsp []).trunk.tx = some ⟨.mgmtRsp, 0, [], 0⟩ ∧
      (s .report []).trunk.tx = some ⟨.report, 0, [], 0⟩ ∧
      (withEvents [heldEvent true] (s .event [])).events.records = [] ++ heldEvent true :: [] ∧ (heldEvent true).inTx = true ∧
      (heldBy 4 (ref8 1) (s .trap [])).pool.queues[trunkPort].holder = some (ref8 1) := by decide +kernel

/-- A state in the middle of its work: an enabled port with a frame queued, the link UP with a CREDIT due, an event, a notice,
and a command waiting. -/
def working : State :=
  { withEvents [heldEvent false] (withNotices [noticeB false] (waiting 3 (portIn 3 .idle (.armed (.frame 2 8))
      (portIn 0 .bits .idle (modTrunk (fun k => { k with creditPending := true }) (linked .up)))))) with
    pending := [.trunkFrameStart] }

theorem witness_RangesAreKept : (EpochsOk working ∧ CountersOk working) ∧ (SettingsOk working ∧ NodesOk working) := by
  refine ⟨⟨?_, ?_⟩, ?_, ?_⟩ <;> decide +kernel
theorem witness_ListsAreKept : CapacityOk working ∧ EventsOk working := by constructor <;> decide +kernel
theorem witness_ListsAreKept_slots : SlotsOk working ∧ AdmissionsOk working := by constructor <;> decide +kernel
theorem witness_ListsAreKept_queues : HoldersOk working ∧ QueuesOk working ∧ ReserveOk working := by
  refine ⟨?_, ?_, ?_⟩ <;> decide +kernel
theorem witness_CommitIsKept : CommitOk working := by decide +kernel
theorem witness_DisabledPortsStayOff : PortsOff working := by decide +kernel
theorem witness_LinkIsKept : LinkOk working := by decide +kernel

/-- The step from it is a next state. -/
theorem witness_kept_invariants_step :
    (match step working with
      | .next t => t.trunk.tx
      | .fault _ => none
      | .refused _ => none) = some ⟨.credit, 0, [8], 0⟩ := by decide +kernel

end Sys2Proof.Tests
end

