-- ==== Sys2Proof/Proofs/CheckCompletion.lean ====
section
/-! PROOFS. CHECK_COMPLETION compares the CRC-8 with the check octet (R29, R30): reading bits into octets and back, the CRC
register over a check octet, and the check that the receiver notes. -/

namespace Sys2Proof.Machine

/-! ### Bits and octets (R24) -/

theorem natOfBits_concat (bits : List Bool) (b : Bool) : natOfBits (bits ++ [b]) = 2 * natOfBits bits + b.toNat := by
  simp [natOfBits]

theorem natOfBits_lt (bits : List Bool) : natOfBits bits < 2 ^ bits.length := by
  induction bits using List.reverseRecOn with
  | nil => decide
  | append_singleton bits b ih =>
    have := b.toNat_le
    rw [natOfBits_concat, List.length_append, List.length_singleton, Nat.pow_succ]
    omega

/-- The lowest bits of a number end with its bit 0. -/
theorem bitsOfNat_succ_concat (w n : Nat) : bitsOfNat (w + 1) n = bitsOfNat w (n / 2) ++ [n.testBit 0] := by
  induction w with
  | zero => rfl
  | succ w ih => rw [bitsOfNat, ih, bitsOfNat, Nat.testBit_succ, List.cons_append]

theorem bitsOfNat_natOfBits (bits : List Bool) : bitsOfNat bits.length (natOfBits bits) = bits := by
  induction bits using List.reverseRecOn with
  | nil => rfl
  | append_singleton bits b ih =>
    have half : (2 * natOfBits bits + b.toNat) / 2 = natOfBits bits := by have := b.toNat_lt; omega
    have low : (2 * natOfBits bits + b.toNat).testBit 0 = b := by cases b <;> simp [Nat.testBit_zero]
    rw [List.length_append, List.length_singleton, natOfBits_concat, bitsOfNat_succ_concat, half, low, ih]

/-- Eight bits are the bits of the octet they spell. -/
theorem bitsOfNat_octet {bits : List Bool} (h : bits.length = 8) :
    bitsOfNat 8 (BitVec.ofNat 8 (natOfBits bits)).toNat = bits := by
  have fits : natOfBits bits < 2 ^ 8 := h ▸ natOfBits_lt bits
  rw [BitVec.toNat_ofNat, Nat.mod_eq_of_lt fits, ← h, bitsOfNat_natOfBits]

theorem octetsOfBits_length (n : Nat) (bits : List Bool) : (octetsOfBits n bits).length = n := by
  induction n generalizing bits with
  | zero => rfl
  | succ n ih => rw [octetsOfBits, List.length_cons, ih]

/-- The octets read from a run of bits have those bits. -/
theorem octetBits_octetsOfBits (n : Nat) (bits : List Bool) (h : 8 * n ≤ bits.length) :
    octetBits (octetsOfBits n bits) = bits.take (8 * n) := by
  induction n generalizing bits with
  | zero => rfl
  | succ n ih =>
    have first : (bits.take 8).length = 8 := by rw [List.length_take]; omega
    have rest : 8 * n ≤ (bits.drop 8).length := by rw [List.length_drop]; omega
    calc octetBits (octetsOfBits (n + 1) bits)
        = bitsOfNat 8 (BitVec.ofNat 8 (natOfBits (bits.take 8))).toNat ++ octetBits (octetsOfBits n (bits.drop 8)) := rfl
      _ = bits.take 8 ++ (bits.drop 8).take (8 * n) := by rw [bitsOfNat_octet first, ih _ rest]
      _ = bits.take (8 * (n + 1)) := by rw [← List.take_add, Nat.mul_succ, Nat.add_comm]

/-! ### The CRC-8 register over a check octet (R29, R30) -/

/-- A step leads to a register with 0 in its lowest place only where the input bit is the top bit, since the polynomial has a 1
there; such a step is a plain shift, and with the bit given it goes back to one register only. -/
theorem crc8Step_eq_shiftLeft_iff (r v : BitVec 8) : crc8Step r (v.getLsbD 7) = v <<< 1 ↔ r = v := by
  constructor
  · intro h
    have low : (crc8Step r (v.getLsbD 7)).getLsbD 0 = false := by rw [h]; simp
    have top : r.getLsbD 7 = v.getLsbD 7 := by
      by_contra differ
      have one : (r.getLsbD 7 ^^ v.getLsbD 7) = true := by simpa using differ
      rw [crc8Step, if_pos one] at low
      simp at low
    have shifted : r <<< 1 = v <<< 1 := by
      rwa [crc8Step, top, Bool.xor_self, if_neg Bool.false_ne_true] at h
    rw [BitVec.getLsbD_eq_getElem (by decide), BitVec.getLsbD_eq_getElem (by decide)] at top
    ext i hi
    by_cases last : i = 7
    · subst last; exact top
    · have := congrArg (fun x => x.getLsbD (i + 1)) shifted
      simpa [show i + 1 < 8 by omega, hi] using this
  · rintro rfl
    simp [crc8Step]

/-- The lowest `w` bits of an octet leave the register at zero exactly when they stand at its top, with zeros below. -/
theorem crc8_bitsOfNat_eq_zero_iff (v r : BitVec 8) (w : Nat) (h : w ≤ 8) :
    (bitsOfNat w v.toNat).foldl crc8Step r = 0 ↔ r = v <<< (8 - w) := by
  induction w generalizing r with
  | zero => simp [bitsOfNat]
  | succ w ih =>
    have shift : v <<< (8 - w) = (v <<< (8 - (w + 1))) <<< 1 := by
      rw [← BitVec.shiftLeft_add]; congr 1; omega
    have top : v.toNat.testBit w = (v <<< (8 - (w + 1))).getLsbD 7 := by
      have place : 7 - (8 - (w + 1)) = w := by omega
      rw [BitVec.getLsbD_shiftLeft, place, BitVec.testBit_toNat]
      simp
    rw [bitsOfNat, List.foldl_cons, ih _ (by omega), shift, top, crc8Step_eq_shiftLeft_iff]

/-- The register that a run of bits leaves is the octet that follows exactly when it is zero after that octet too (R30). -/
theorem crc8_eq_octet_iff (covered : List Bool) {check : List Bool} (h : check.length = 8) :
    crc8 covered = BitVec.ofNat 8 (natOfBits check) ↔ crc8 (covered ++ check) = 0 := by
  have whole := crc8_bitsOfNat_eq_zero_iff (BitVec.ofNat 8 (natOfBits check)) (crc8 covered) 8 (Nat.le_refl 8)
  rw [bitsOfNat_octet h, Nat.sub_self, BitVec.shiftLeft_zero] at whole
  rw [← whole, crc8, crc8, List.foldl_append]

/-! ### The check octet of a frame in reception -/

/-- The check octet of the frame that the bits spell is the CRC of R29 over header, control and payload bits as they came. -/
theorem checkOctet_assembledFrame (h : Header) (c : Control) (bits : List Bool) (enough : 25 + 8 * c.length ≤ bits.length) :
    checkOctet (assembledFrame h c (payloadOf c.length bits)) =
      crc8 (headerBitsOf h ++ controlBitsOf c ++ (bits.drop 25).take (8 * c.length)) := by
  have fits : 8 * c.length ≤ (bits.drop 25).length := by rw [List.length_drop]; omega
  have payload : octetBits (payloadOf c.length bits) = (bits.drop 25).take (8 * c.length) := octetBits_octetsOfBits _ _ fits
  have length : (payloadOf c.length bits).length = c.length := octetsOfBits_length _ _
  simp only [checkOctet, coveredBits, assembledFrame, payload, length]

theorem checkOf_eq (n : Nat) (bits : List Bool) :
    checkOf n bits = BitVec.ofNat 8 (natOfBits ((bits.drop 25).drop (8 * n))) := by
  rw [List.drop_drop]; rfl

theorem atAcceptSlot_iff (a : Assembly) (c : Control) (h : a.control = some c) :
    atAcceptSlot a = true ↔ a.bits.length = 33 + 8 * c.length := by
  rw [atAcceptSlot, beq_iff_eq, slotsOf_eq_some]
  constructor
  · rintro ⟨c', hc', length⟩
    obtain rfl : c = c' := Option.some.inj (h.symm.trans hc')
    omega
  · exact fun length => ⟨c, h, by omega⟩

/-! ### What the receiver notes of the check -/

theorem Kept.assembly {s t : State} (k : Kept s t) (p : SegPort) : t.ports[p].assembly = s.ports[p].assembly := by
  rw [k.port p]

theorem modAssembly_assembly (p : SegPort) (f : Assembly → Assembly) (s : State) :
    (modAssembly p f s).ports[p].assembly = f s.ports[p].assembly := by
  rw [modAssembly, modPort_port]

theorem setRx_assembly (p : SegPort) (rx : RxState) (s : State) : (setRx p rx s).ports[p].assembly = s.ports[p].assembly := by
  rw [setRx, modPort_port]

/-- What a good check begins leaves the check itself as noted. -/
theorem goodCheck_checkGood (p : SegPort) (f : Frame) (d : Decision) (s : State) :
    (goodCheck p f d s).ports[p].assembly.checkGood = s.ports[p].assembly.checkGood := by
  have admitted := ((nodePresent_kept p f.source s).trans (admitSegment_kept p f d _)).assembly p
  unfold goodCheck
  dsimp only
  split
  · rw [(countPort_kept _ _ _ _).assembly]
  · split
    · rw [(countPort_kept _ _ _ _).assembly, modAssembly_assembly, admitted]
    · rw [modAssembly_assembly, admitted]

/-- CHECK_COMPLETION with 33 + 8n bits classified notes whether the check octet is the frame's own (R30), whatever follows. -/
theorem checkCompletion_checkGood (p : SegPort) (sy : Symbols) (h : Header) (c : Control) (pt : Port) (s : State)
    (header : s.ports[p].assembly.header = some h) (control : s.ports[p].assembly.control = some c)
    (unchecked : s.ports[p].assembly.checkGood = none) (hears : Hears p sy s pt)
    (length : pt.assembly.bits.length = 33 + 8 * c.length) :
    ∃ t, exec (.checkCompletion p sy) s = .next t ∧
      t.ports[p].assembly.checkGood = some (checkOctet (assembledFrame h c (payloadOf c.length pt.assembly.bits)) ==
        checkOf c.length pt.assembly.bits) := by
  have slot : atAcceptSlot pt.assembly = true :=
    (atAcceptSlot_iff _ c ((hearSymbols_frame hears.2).control.trans control)).mpr length
  change ∃ t, execCheckCompletion p sy s = .next t ∧ _
  simp only [execCheckCompletion, header, control, unchecked, hearOn_of_hears hears, withHeard_port, slot, if_true]
  split
  · exact ⟨_, rfl, by rw [setRx_assembly, modAssembly_assembly]⟩
  · split
    · exact ⟨_, rfl, by rw [(countPort_kept _ _ _ _).assembly, modAssembly_assembly, setRx_assembly, modAssembly_assembly]⟩
    · split
      · exact ⟨_, rfl, by rw [goodCheck_checkGood, setRx_assembly, modAssembly_assembly]⟩
      · exact ⟨_, rfl, by rw [setRx_assembly, modAssembly_assembly]⟩

/-- Settles O21. The receiver's comparison is of the CRC over the bits as they came with the octet after them, and the register
run on over that octet is zero in the same case. -/
theorem checkCompletionComparesCrc : Obligations.CheckCompletionComparesCrc := by
  intro p sy h c pt bits s header control unchecked hears length hbits
  obtain ⟨t, next, good⟩ := checkCompletion_checkGood p sy h c pt s header control unchecked hears length
  have checkLength : (bits.drop (8 * c.length)).length = 8 := by
    rw [hbits, List.length_drop, List.length_drop]; omega
  refine ⟨t, next, ?_, ?_⟩
  · rw [good, checkOctet_assembledFrame h c _ (by omega), checkOf_eq, ← hbits, beq_eq_decide]
  · rw [crc8_eq_octet_iff _ checkLength, List.append_assoc, List.take_append_drop]

end Sys2Proof.Machine
end

