-- ==== Sys2Proof/Proofs/NodeDelivery.lean ====
section
/-! PROOFS. A delivery and the node map (R103): removing a reference never writes the node map, so the report of the delivery
is all that a reference released DELIVERED does to it. -/

namespace Sys2Proof.Machine

/-! ### The removal of a reference leaves the node map alone (R113, R126, R136, R140) -/

theorem raise_nodes (k : EventKind) (l : Location) (d : Nat) (s : State) : (raise k l d s).nodes = s.nodes := by
  unfold raise
  split
  · rfl
  · split
    · rfl
    · split <;> rfl

theorem noteCredit_nodes (s : State) : (noteCredit s).nodes = s.nodes := by
  unfold noteCredit
  split <;> rfl

theorem refill_nodes (s : State) : (refill s).nodes = s.nodes := by
  unfold refill
  dsimp only
  split
  · rfl
  · rw [noteCredit_nodes, modPool_nodes]

theorem releaseSlot_nodes (i : SlotId) (s : State) : (releaseSlot i s).nodes = s.nodes := by
  unfold releaseSlot
  dsimp only
  split
  · rw [refill_nodes, noteCredit_nodes, modSlot_nodes]
  · rw [refill_nodes, modPool_nodes, modSlot_nodes]

theorem createNotice_nodes (n : Notice) (s : State) : (createNotice n s).nodes = s.nodes := by
  unfold createNotice
  split
  · rfl
  · split
    · rfl
    · split
      · rfl
      · split
        · rw [raise_nodes, countGateway_nodes]
        · rfl

theorem createReport_nodes (r : Report) (s : State) : (createReport r s).nodes = s.nodes := by
  unfold createReport
  split
  · rfl
  · split
    · rw [raise_nodes, countTrunk_nodes]
    · rfl

theorem takeEndRecord_nodes (sl : FrameSlot) (q : PortId) (attempts : Nat) (reason : Reason) (s : State) :
    (takeEndRecord sl q attempts reason s).nodes = s.nodes := by
  unfold takeEndRecord
  split
  · split
    · rfl
    · exact createNotice_nodes _ _
  · split
    · exact createReport_nodes _ _
    · rfl

theorem dropRef_nodes (q : PortId) (r : Ref) (reason : Reason) (s : State) : (dropRef q r reason s).nodes = s.nodes := by
  have handed : (if endRecordDue (slotOf r s) r reason then takeEndRecord (slotOf r s) q r.count reason s else s).nodes =
      s.nodes := by
    split
    · exact takeEndRecord_nodes _ _ _ _ _
    · rfl
  unfold dropRef
  dsimp only
  split
  · rw [releaseSlot_nodes, handed]
  · rw [modSlot_nodes, handed]

/-! ### The report of a delivery (R93, R103) -/

theorem nodeIndex?_node {a : Address} {i : Fin 120} (h : a.val = i.val) : nodeIndex? a = some i := by
  rw [nodeIndex?, dif_pos (h ▸ i.isLt)]
  exact congrArg some (Fin.ext h)

theorem val_of_nodeIndex?_eq_some {a : Address} {i : Fin 120} (h : nodeIndex? a = some i) : a.val = i.val := by
  unfold nodeIndex? at h
  split at h
  · cases h; rfl
  · cases h

theorem nodeDelivered_node {dest : Address} {i : Fin 120} (h : dest.val = i.val) (s : State) :
    (nodeDelivered dest s).nodes.entries[i] = { s.nodes.entries[i] with failures := 0 } := by
  simp only [nodeDelivered, nodeIndex?_node h, modNode_nodes]
  rw [getElem_modAt_fin, if_pos rfl]

/-- A destination that is another node, or no node at all. -/
theorem nodeDelivered_of_ne {dest : Address} {i : Fin 120} (h : dest.val ≠ i.val) (s : State) :
    (nodeDelivered dest s).nodes.entries[i] = s.nodes.entries[i] := by
  unfold nodeDelivered
  split
  · rfl
  · next j found =>
    have other : i ≠ j := fun e => h (e ▸ val_of_nodeIndex?_eq_some found)
    rw [modNode_nodes, getElem_modAt_fin, if_neg other]

/-- Of all that releasing a reference DELIVERED does, the node map sees the report alone. -/
theorem deliverRef_nodes (p : SegPort) (r : Ref) (s : State) :
    (deliverRef p r s).nodes = (nodeDelivered (slotOf r s).frame.dest (countPort p .delivered 1 s)).nodes :=
  dropRef_nodes _ _ _ _

/-- Settles O40. The slot is freed and its record handed over after the report, and neither writes the node map. -/
theorem deliveryClearsFailures : Obligations.DeliveryClearsFailures := by
  intro p r s
  constructor
  · intro i h
    rw [deliverRef_nodes, nodeDelivered_node h, countPort_nodes]
  · intro i h
    rw [deliverRef_nodes, nodeDelivered_of_ne h, countPort_nodes]

end Sys2Proof.Machine
end

