-- ==== Sys2Proof/Proofs/SlotRelease.lean ====
section
/-! PROOFS. Where a released frame slot goes (R111, R113, R157): what writing one slot does to the number of RESERVED slots, what
a refill and CREDIT pending change, and the two branches of the release. -/

namespace Sys2Proof.Machine

/-! ### The number of RESERVED slots when one slot is written (R111) -/

/-- The slots in a given state, counted over the table instead of over the slot numbers. -/
theorem slotsIn_length (st : SlotStatus) (s : State) :
    (slotsIn st s).length = s.pool.slots.toList.countP (·.status == st) := by
  have table : s.pool.slots.toList = allSlots.map (s.pool.slots[·]) := by
    refine List.ext_getElem ?_ fun k _ _ => ?_ <;> simp [allSlots]
  rw [table, List.countP_map, List.countP_eq_length_filter]
  rfl

/-- What one slot adds to the number of RESERVED slots. -/
def FrameSlot.reserves (sl : FrameSlot) : Nat :=
  (if sl.status = .unfilled then 1 else 0) + (if sl.status = .filled then 1 else 0)

theorem slotsIn_length_modSlot (st : SlotStatus) (i : SlotId) (f : FrameSlot → FrameSlot) (s : State) :
    (slotsIn st (modSlot i f s)).length + (if s.pool.slots[i].status = st then 1 else 0) =
      (slotsIn st s).length + (if (f s.pool.slots[i]).status = st then 1 else 0) := by
  have here : i.val < s.pool.slots.toList.length := by simp
  have before : (if s.pool.slots[i].status = st then 1 else 0) ≤ s.pool.slots.toList.countP (·.status == st) := by
    split
    · next h => exact List.countP_pos_iff.mpr ⟨s.pool.slots[i], by simp, by simpa using h⟩
    · exact Nat.zero_le _
  rw [slotsIn_length, slotsIn_length, modSlot_pool]
  simp only [modAt, Vector.toList_set, List.countP_set here, Vector.getElem_toList, beq_iff_eq, Fin.getElem_fin] at before ⊢
  omega

/-- Writing a slot takes what it added to the reserve out of the count and puts in what it adds now. -/
theorem reservedCount_modSlot (i : SlotId) (f : FrameSlot → FrameSlot) (s : State) :
    reservedCount (modSlot i f s) + s.pool.slots[i].reserves = reservedCount s + (f s.pool.slots[i]).reserves := by
  have unfilled := slotsIn_length_modSlot .unfilled i f s
  have filled := slotsIn_length_modSlot .filled i f s
  simp only [reservedCount, unfilledCount, FrameSlot.reserves]
  omega

/-- A QUEUED slot is no RESERVED one, and a filled slot is one of them. -/
theorem reserves_of_released {sl : FrameSlot} (h : sl.status = .queued ∨ sl.status = .filled) :
    sl.reserves = if sl.status = .filled then 1 else 0 := by
  rcases h with h | h <;> simp [FrameSlot.reserves, h]

theorem reservedCount_emptied {i : SlotId} {s : State}
    (h : s.pool.slots[i].status = .queued ∨ s.pool.slots[i].status = .filled) :
    reservedCount (modSlot i (fun _ => .blank .free) s) =
      reservedCount s - (if s.pool.slots[i].status = .filled then 1 else 0) := by
  have count := reservedCount_modSlot i (fun _ => .blank .free) s
  have free : (FrameSlot.blank .free).reserves = 0 := rfl
  rw [← reserves_of_released h]
  omega

/-- A slot that joins the reserve counts once more than one that leaves it. -/
theorem reservedCount_unfilled (i : SlotId) (s : State) :
    reservedCount (modSlot i (fun _ => .blank .unfilled) s) = reservedCount (modSlot i (fun _ => .blank .free) s) + 1 := by
  have joined := reservedCount_modSlot i (fun _ => .blank .unfilled) s
  have left := reservedCount_modSlot i (fun _ => .blank .free) s
  have unfilled : (FrameSlot.blank .unfilled).reserves = 1 := rfl
  have free : (FrameSlot.blank .free).reserves = 0 := rfl
  omega

/-! ### CREDIT pending and the refill (R111, R157) -/

theorem noteCredit_eq (s : State) : noteCredit s =
    { s with trunk := { s.trunk with creditPending := s.trunk.creditPending || s.trunk.link == .up } } := by
  unfold noteCredit
  split
  · next up => simp only [modTrunk, up, beq_self_eq_true, Bool.or_true]
  · next down => simp only [beq_eq_false_iff_ne.mpr down, Bool.or_false]

theorem noteCredit_modPool_noteCredit (f : Pool → Pool) (s : State) :
    noteCredit (modPool f (noteCredit s)) = noteCredit (modPool f s) := by
  simp only [noteCredit_eq, modPool, Bool.or_assoc, Bool.or_self]

/-- The first `n` slots of the free list become unfilled reserved slots. -/
def Pool.takeIn (n : Nat) (p : Pool) : Pool :=
  { p with
    slots := (p.free.take n).foldl (fun v i => modAt v i fun _ => .blank .unfilled) p.slots
    free := p.free.drop n }

theorem refill_of_le {s : State} (full : s.pool.reserveSize ≤ reservedCount s) : refill s = s := by
  simp [refill, Nat.sub_eq_zero_of_le full]

/-- With CREDIT pending noted, a refill by no slot needs no case of its own. -/
theorem refill_noteCredit (s : State) : refill (noteCredit s) =
    noteCredit (modPool (·.takeIn (min (s.pool.reserveSize - reservedCount s) s.pool.free.length)) s) := by
  have count : reservedCount (noteCredit s) = reservedCount s := by
    simp only [reservedCount, unfilledCount, slotsIn, noteCredit_pool]
  simp only [refill, count, noteCredit_pool]
  split
  · next nothing => rw [nothing]; rfl
  · exact noteCredit_modPool_noteCredit _ s

/-- Giving every slot of a list the same value needs no condition on the list: a slot named twice gets it twice. -/
theorem getElem_foldl_modAt_const {α : Type} {n : Nat} (a : α) (is : List (Fin n)) (v : Vector α n) (k : Fin n) :
    (is.foldl (fun v i => modAt v i fun _ => a) v)[k] = if k ∈ is then a else v[k] := by
  induction is generalizing v with
  | nil => simp
  | cons i is ih =>
    rw [List.foldl_cons, ih, getElem_modAt_fin]
    by_cases here : k = i <;> simp [here]

/-! ### The release (R113) -/

/-- A slot released with the reserve short: the reserve takes it, and then the head of the free list as far as it is still short. -/
theorem releaseSlot_of_short {i : SlotId} {s : State}
    (short : reservedCount (modSlot i (fun _ => .blank .free) s) < s.pool.reserveSize) :
    releaseSlot i s = noteCredit (modPool
      (·.takeIn (min (s.pool.reserveSize - (reservedCount (modSlot i (fun _ => .blank .free) s) + 1)) s.pool.free.length))
      (modSlot i (fun _ => .blank .unfilled) s)) := by
  have branch : releaseSlot i s = refill (noteCredit (modSlot i (fun _ => .blank .unfilled) s)) := if_pos short
  rw [branch, refill_noteCredit, reservedCount_unfilled]
  rfl

/-- A slot released with the reserve full: the tail of the free list takes it, and nothing is refilled. -/
theorem releaseSlot_of_full {i : SlotId} {s : State}
    (full : s.pool.reserveSize ≤ reservedCount (modSlot i (fun _ => .blank .free) s)) :
    releaseSlot i s = modPool (fun p => { p with free := p.free ++ [i] }) (modSlot i (fun _ => .blank .free) s) := by
  calc releaseSlot i s
      = refill (modPool (fun p => { p with free := p.free ++ [i] }) (modSlot i (fun _ => .blank .free) s)) :=
        if_neg (Nat.not_lt.mpr full)
    _ = modPool (fun p => { p with free := p.free ++ [i] }) (modSlot i (fun _ => .blank .free) s) := refill_of_le full

/-- Settles O39, by the two branches of the release: the number that R113 compares is the count with the slot emptied. -/
theorem releasedSlotGoesToReserveOrTail : Obligations.ReleasedSlotGoesToReserveOrTail := by
  intro i n s released count
  rw [← reservedCount_emptied released] at count
  subst count
  constructor
  · rintro m short rfl
    rw [releaseSlot_of_short short]
    constructor
    · rw [noteCredit_eq]; rfl
    · intro j
      rw [noteCredit_pool]
      simp only [modPool_pool, modSlot_pool, Pool.takeIn]
      rw [getElem_foldl_modAt_const, getElem_modAt_fin]
      by_cases h : j = i <;> simp [h]
  · intro full
    exact releaseSlot_of_full full

end Sys2Proof.Machine
end

