-- ==== Sys2Proof/Proofs/Safe.lean ====
section
/-! PROOFS. What a change of the state does to the invariants of O55 to O59 and to the lists of O56: `Safe` says that it keeps each
of them, and `Touched` is the frame of the operations that remove references, hand records over or report to the node map, none of
which writes a port but for its counters and whether selection is due. -/

-- One theorem after another: many at once need a thread each.
set_option Elab.async false

namespace Sys2Proof.Machine

/-- A change of the state keeps each invariant by itself, that of the ports left aside. -/
structure SafeRest (s t : State) : Prop where
  epochs : EpochsOk s → EpochsOk t
  counters : CountersOk s → CountersOk t
  settings : SettingsOk s → SettingsOk t
  nodes : NodesOk s → NodesOk t
  capacity : CapacityOk s → CapacityOk t
  events : EventsOk s → EventsOk t
  commit : CommitOk s → CommitOk t
  link : LinkOk s → LinkOk t

/-- A change of the state keeps each invariant by itself. -/
structure Safe (s t : State) : Prop extends SafeRest s t where
  ports : PortsOff s → PortsOff t

variable {s t u : State}

theorem SafeRest.trans (a : SafeRest s t) (b : SafeRest t u) : SafeRest s u where
  epochs h := b.epochs (a.epochs h)
  counters h := b.counters (a.counters h)
  settings h := b.settings (a.settings h)
  nodes h := b.nodes (a.nodes h)
  capacity h := b.capacity (a.capacity h)
  events h := b.events (a.events h)
  commit h := b.commit (a.commit h)
  link h := b.link (a.link h)

@[refl] theorem Safe.refl (s : State) : Safe s s := ⟨⟨id, id, id, id, id, id, id, id⟩, id⟩

theorem Safe.trans (a : Safe s t) (b : Safe t u) : Safe s u where
  toSafeRest := a.toSafeRest.trans b.toSafeRest
  ports h := b.ports (a.ports h)

/-! ### The primitive changes -/

/-- What `PortsOff` says of one port. -/
abbrev PortOff (pt : Port) : Prop :=
  (pt.enabled = false → pt.rx = .off ∧ pt.tx = .off ∧ pt.assembly = {} ∧ pt.pin = [] ∧ pt.pulse = none) ∧
    (pt.enabled = true → pt.rx ≠ .off ∧ pt.tx ≠ .off) ∧ (pt.tx.isArmed = true → pt.rx = .idle) ∧
    (isTalker pt = true → following pt = true) ∧ (pt.rx = .idle → pt.pulse = none)

theorem saturate_le (c n : Nat) : saturate c n ≤ counterMax := Nat.min_le_right _ _

/-- A bound on every entry of a table stands when one entry is changed within it. -/
theorem forall_modAt {α : Type} {n : Nat} {P : α → Prop} {v : Vector α n} {i : Fin n} {f : α → α} (h : ∀ j : Fin n, P v[j])
    (hf : P v[i] → P (f v[i])) (j : Fin n) : P (modAt v i f)[j] := by
  rw [getElem_modAt_fin]
  split
  · subst_vars; exact hf (h _)
  · exact h j

/-- A change of one port that keeps its limits, its counters' range and what `PortsOff` says of it. -/
structure PortMove (pt q : Port) : Prop where
  retryLimit : q.retryLimit = pt.retryLimit
  queueLimit : q.queueLimit = pt.queueLimit
  counters : (∀ c : Fin 12, pt.counters[c] ≤ counterMax) → ∀ c : Fin 12, q.counters[c] ≤ counterMax
  off : PortOff pt → PortOff q

/-- The limits of a port's settings (R40). -/
abbrev PortLimits (pt : Port) : Prop := pt.retryLimit ≤ 7 ∧ 1 ≤ pt.queueLimit ∧ pt.queueLimit ≤ 64

/-- The range of a port's counters (R179). -/
abbrev PortCounts (pt : Port) : Prop := ∀ c : Fin 12, pt.counters[c] ≤ counterMax

theorem modPort_safeRest {p : SegPort} {f : Port → Port} {s : State} (limits : PortLimits s.ports[p] → PortLimits (f s.ports[p]))
    (counts : PortCounts s.ports[p] → PortCounts (f s.ports[p])) : SafeRest s (modPort p f s) where
  epochs := id
  counters := fun ⟨ports, trunk, gateway, hits⟩ => ⟨forall_modAt (P := PortCounts) ports counts, trunk, gateway, hits⟩
  settings := fun ⟨ports, rest⟩ => ⟨forall_modAt (P := PortLimits) ports limits, rest⟩
  nodes := id
  capacity := id
  events := id
  commit := id
  link := id

theorem modPort_safe {p : SegPort} {f : Port → Port} {s : State} (h : PortMove s.ports[p] (f s.ports[p])) :
    Safe s (modPort p f s) where
  toSafeRest := modPort_safeRest (by unfold PortLimits; rw [h.retryLimit, h.queueLimit]; exact id) h.counters
  ports := fun off => forall_modAt (P := PortOff) off h.off

/-- A change of a port that leaves its settings and counters. -/
theorem PortMove.of_off {pt q : Port} (off : PortOff pt → PortOff q) (retryLimit : q.retryLimit = pt.retryLimit := by rfl)
    (queueLimit : q.queueLimit = pt.queueLimit := by rfl) (counters : q.counters = pt.counters := by rfl) : PortMove pt q where
  retryLimit := retryLimit
  queueLimit := queueLimit
  counters := by rw [counters]; exact id
  off := off

theorem countPort_safe (p : SegPort) (c : PortCounter) (n : Nat) (s : State) : Safe s (countPort p c n s) :=
  modPort_safe {
    retryLimit := rfl
    queueLimit := rfl
    counters := fun h => forall_modAt (P := (· ≤ counterMax)) h fun _ => saturate_le _ _
    off := id }

theorem makeDue_safe (p : SegPort) (s : State) : Safe s (makeDue p s) := modPort_safe (.of_off id)

theorem countTrunk_safe (c : TrunkCounter) (n : Nat) (s : State) : Safe s (countTrunk c n s) where
  epochs := id
  counters := fun ⟨ports, trunk, gateway, hits⟩ =>
    ⟨ports, forall_modAt (P := (· ≤ counterMax)) trunk fun _ => saturate_le _ _, gateway, hits⟩
  settings := id
  nodes := id
  capacity := id
  events := id
  commit := id
  ports := id
  link := id

theorem countGateway_safe (c : GatewayCounter) (s : State) : Safe s (countGateway c s) where
  epochs := id
  counters := fun ⟨ports, trunk, gateway, hits⟩ =>
    ⟨ports, trunk, forall_modAt (P := (· ≤ counterMax)) gateway fun _ => saturate_le _ _, hits⟩
  settings := id
  nodes := id
  capacity := id
  events := id
  commit := id
  ports := id
  link := id

/-- A change of the slots, the free list and the queues of the pool. -/
theorem modPool_safe (f : Pool → Pool) (s : State) (size : (f s.pool).reserveSize = s.pool.reserveSize)
    (lifetimes : (f s.pool).lifetimes = s.pool.lifetimes) : Safe s (modPool f s) where
  epochs := id
  counters := id
  settings := by
    rintro ⟨ports, threshold, low, high, lives, hold⟩
    exact ⟨ports, threshold, by rw [modPool_pool, size]; exact low, by rw [modPool_pool, size]; exact high,
      by rw [modPool_pool, lifetimes]; exact lives, hold⟩
  nodes := id
  capacity := id
  events := id
  commit := id
  ports := id
  link := id

theorem modSlot_safe (i : SlotId) (f : FrameSlot → FrameSlot) (s : State) : Safe s (modSlot i f s) := modPool_safe _ _ rfl rfl

theorem modQueue_safe (q : PortId) (f : Queue → Queue) (s : State) : Safe s (modQueue q f s) := modPool_safe _ _ rfl rfl

theorem modNode_safe (i : Fin 120) (f : NodeEntry → NodeEntry) (s : State)
    (h : s.nodes.entries[i].failures ≤ 15 → (f s.nodes.entries[i]).failures ≤ 15) : Safe s (modNode i f s) where
  epochs := id
  counters := id
  settings := id
  nodes := fun ok => forall_modAt (P := fun e : NodeEntry => e.failures ≤ 15) ok h
  capacity := id
  events := id
  commit := id
  ports := id
  link := id

/-- A change of the two lists of the custody unit that keeps them in their capacities. -/
theorem modCustody_safe (f : Custody → Custody) (s : State)
    (notices : s.custody.notices.length ≤ 8 → (f s.custody).notices.length ≤ 8)
    (reports : s.custody.reports.length ≤ 16 → (f s.custody).reports.length ≤ 16) : Safe s (modCustody f s) where
  epochs := id
  counters := id
  settings := id
  nodes := id
  capacity := fun ⟨n, r, rest⟩ => ⟨notices n, reports r, rest⟩
  events := id
  commit := id
  ports := id
  link := id

theorem noteCredit_safe (s : State) : Safe s (noteCredit s) := by
  unfold noteCredit
  split
  next up =>
    exact {
      epochs := id
      counters := id
      settings := id
      nodes := id
      capacity := id
      events := id
      commit := id
      ports := id
      link := fun ⟨seek, train, hold, down, _, rest⟩ =>
        ⟨seek, train, hold, fun h => absurd up h, fun _ => .inl rfl, rest⟩ }
  · rfl

/-- A change of the event records alone. -/
theorem modEvents_safe (f : List Event → List Event) (s : State)
    (capacity : s.events.records.length ≤ 16 → (f s.events.records).length ≤ 16) (events : EventsOk s → EventsOk (modEvents f s)) :
    Safe s (modEvents f s) where
  epochs := id
  counters := id
  settings := id
  nodes := id
  capacity := fun ⟨n, r, e, b⟩ => ⟨n, r, capacity e, b⟩
  events := events
  commit := id
  ports := id
  link := id

/-! ### The event list (R181, R182) -/

/-- What an occurrence more leaves of a record, but for its counts (R182). -/
theorem coalesce_ok {e : Event} {d : Nat} (hd : d ≤ detailMax) (h : EventOk e) : EventOk (e.coalesce d) := by
  obtain ⟨o1, o2, det, f1, f2, quiet⟩ := h
  unfold Event.coalesce
  split
  · refine ⟨o1, o2, det, Nat.min_le_right _ _, ?_, fun c => ?_⟩
    · show (if _ then _ else _) ≤ _
      split <;> assumption
    · simp_all
  · exact ⟨by simp only; omega, Nat.min_le_right _ _, det, f1, f2, quiet⟩

@[simp] theorem coalesce_kind (d : Nat) (e : Event) : (e.coalesce d).kind = e.kind := by unfold Event.coalesce; split <;> rfl
@[simp] theorem coalesce_port (d : Nat) (e : Event) : (e.coalesce d).port = e.port := by unfold Event.coalesce; split <;> rfl
@[simp] theorem coalesce_inTx (d : Nat) (e : Event) : (e.coalesce d).inTx = e.inTx := by unfold Event.coalesce; split <;> rfl

/-- A change of every record in its place keeps the list as R182 says, when it keeps each record in its ranges, and its kind, port
and place in transmission. -/
theorem eventsOk_map {s : State} (g : Event → Event) (ok : ∀ e, EventOk e → EventOk (g e)) (kind : ∀ e, (g e).kind = e.kind)
    (port : ∀ e, (g e).port = e.port) (inTx : ∀ e, (g e).inTx = true → e.inTx = true) (h : EventsOk s) :
    EventsOk (modEvents (·.map g) s) := by
  obtain ⟨each, pair, one⟩ := h
  refine ⟨?_, ?_, ?_⟩
  · intro e he
    obtain ⟨x, hx, rfl⟩ := List.mem_map.1 he
    exact ok x (each x hx)
  · refine List.pairwise_map.2 (pair.imp fun {a b} h => ?_)
    rw [kind, kind, port, port]; exact h
  · refine le_trans ?_ one
    show (List.filter _ (List.map g _)).length ≤ _
    rw [List.filter_map, List.length_map, ← List.countP_eq_length_filter, ← List.countP_eq_length_filter]
    exact List.countP_mono_left fun e _ h => inTx e h

theorem raise_eventsOk (k : EventKind) (l : Location) (d : Nat) (s : State) (h : EventsOk s) : EventsOk (raise k l d s) := by
  have range : min d detailMax ≤ detailMax := Nat.min_le_right _ _
  unfold raise
  split
  · exact h
  · split
    · refine eventsOk_map _ (fun e ok => ?_) (fun e => ?_) (fun e => ?_) (fun e => ?_) h
      all_goals split
      · exact coalesce_ok range ok
      · exact ok
      · exact coalesce_kind _ e
      · rfl
      · exact coalesce_port _ e
      · rfl
      · rw [coalesce_inTx]; exact id
      · exact id
    · next fresh =>
      split
      · obtain ⟨each, pair, one⟩ := h
        refine ⟨?_, ?_, ?_⟩
        · intro e he
          rcases List.mem_append.1 he with he | he
          · exact each e he
          · rw [List.mem_singleton.1 he]
            exact ⟨Nat.le_refl _, Nat.le_of_ble_eq_true rfl, range, Nat.zero_le _, Nat.zero_le _, fun _ => rfl⟩
        · refine List.pairwise_append.2 ⟨pair, List.pairwise_singleton _ _, fun a ha b hb => ?_⟩
          rw [List.mem_singleton.1 hb]
          rintro ⟨rfl, rfl⟩
          exact fresh (List.any_eq_true.2 ⟨a, ha, by simp [Event.isFor]⟩)
        · show (List.filter _ (_ ++ _)).length ≤ 1
          rw [List.filter_append]
          simpa using one
      · exact h

theorem raise_safe (k : EventKind) (l : Location) (d : Nat) (s : State) : Safe s (raise k l d s) := by
  have events := raise_eventsOk k l d s
  revert events
  unfold raise
  split
  · intro; rfl
  · split
    · exact modEvents_safe _ _ (by rw [List.length_map]; exact id)
    · split
      next room => exact modEvents_safe _ _ fun _ => by rw [List.length_append, List.length_singleton]; exact room
      · intro; exact countGateway_safe _ _

end Sys2Proof.Machine
end

