-- ==== Sys2Proof/Proofs/Touched.lean ====
section
/-! PROOFS. `Touched`, the frame of the operations that remove references, hand records over or report to the node map: they keep
every invariant of `Safe`, and of a port they change at most its counters and whether selection is due. -/

-- One theorem after another: many at once need a thread each.
set_option Elab.async false

namespace Sys2Proof.Machine

/-- What the operations that remove references or admit frames leave, without a selection. -/
structure Touched (s t : State) : Prop where
  safe : Safe s t
  kept : Kept s t
  port : ∀ p : SegPort, t.ports[p] = { s.ports[p] with counters := t.ports[p].counters, due := t.ports[p].due }

namespace Touched

variable {s t u : State}

@[refl] theorem refl (s : State) : Touched s s := ⟨.refl s, .refl s, fun _ => rfl⟩

theorem trans (a : Touched s t) (b : Touched t u) : Touched s u where
  safe := a.safe.trans b.safe
  kept := a.kept.trans b.kept
  port p := by rw [b.port p, a.port p]

/-- A change that leaves the ports. -/
theorem of_ports (safe : Safe s t) (kept : Kept s t) (ports : t.ports = s.ports) : Touched s t :=
  ⟨safe, kept, fun p => by rw [ports]⟩

theorem foldl {α : Type} {f : State → α → State} (h : ∀ x a, Touched x (f x a)) (l : List α) (s : State) :
    Touched s (l.foldl f s) := by
  induction l generalizing s with
  | nil => exact refl s
  | cons a as ih => exact (h s a).trans (ih (f s a))

theorem tx (h : Touched s t) (p : SegPort) : t.ports[p].tx = s.ports[p].tx := by rw [h.port]
theorem rx (h : Touched s t) (p : SegPort) : t.ports[p].rx = s.ports[p].rx := by rw [h.port]
theorem enabled (h : Touched s t) (p : SegPort) : t.ports[p].enabled = s.ports[p].enabled := by rw [h.port]
theorem assembly (h : Touched s t) (p : SegPort) : t.ports[p].assembly = s.ports[p].assembly := by rw [h.port]
theorem pulse (h : Touched s t) (p : SegPort) : t.ports[p].pulse = s.ports[p].pulse := by rw [h.port]
theorem attemptOf (h : Touched s t) (p : SegPort) : attemptOf t.ports[p] = attemptOf s.ports[p] := by rw [h.port]; rfl

end Touched

/-! ### One lemma per operation -/

/-- A change of one port's counters and of whether selection is due on it. -/
theorem modPort_touched (p : SegPort) (f : Port → Port) (s : State) (safe : Safe s (modPort p f s))
    (h : f s.ports[p] = { s.ports[p] with counters := (f s.ports[p]).counters, due := (f s.ports[p]).due }) :
    Touched s (modPort p f s) where
  safe := safe
  kept := modPort_kept p f s (by rw [h])
  port q := by
    by_cases e : q = p
    · subst e; rw [modPort_port]; exact h
    · have : (modPort p f s).ports[q] = s.ports[q] := by rw [modPort_ports, getElem_modAt_fin, if_neg e]
      rw [this]

theorem countPort_touched (p : SegPort) (c : PortCounter) (n : Nat) (s : State) : Touched s (countPort p c n s) :=
  modPort_touched p _ s (countPort_safe p c n s) rfl

theorem makeDue_touched (p : SegPort) (s : State) : Touched s (makeDue p s) := modPort_touched p _ s (makeDue_safe p s) rfl

theorem countTrunk_touched (c : TrunkCounter) (n : Nat) (s : State) : Touched s (countTrunk c n s) :=
  .of_ports (countTrunk_safe c n s) (countTrunk_kept c n s) rfl

theorem countGateway_touched (c : GatewayCounter) (s : State) : Touched s (countGateway c s) :=
  .of_ports (countGateway_safe c s) (countGateway_kept c s) rfl

theorem modPool_touched (f : Pool → Pool) (s : State) (size : (f s.pool).reserveSize = s.pool.reserveSize)
    (lifetimes : (f s.pool).lifetimes = s.pool.lifetimes) : Touched s (modPool f s) :=
  .of_ports (modPool_safe f s size lifetimes) (modPool_kept f s size lifetimes) rfl

theorem modSlot_touched (i : SlotId) (f : FrameSlot → FrameSlot) (s : State) : Touched s (modSlot i f s) :=
  modPool_touched _ _ rfl rfl

theorem modQueue_touched (q : PortId) (f : Queue → Queue) (s : State) : Touched s (modQueue q f s) := modPool_touched _ _ rfl rfl

theorem modNode_touched (i : Fin 120) (f : NodeEntry → NodeEntry) (s : State)
    (h : s.nodes.entries[i].failures ≤ 15 → (f s.nodes.entries[i]).failures ≤ 15) : Touched s (modNode i f s) :=
  .of_ports (modNode_safe i f s h) (modNode_kept i f s) rfl

theorem noteCredit_ports (s : State) : (noteCredit s).ports = s.ports := by unfold noteCredit; split <;> rfl

theorem noteCredit_touched (s : State) : Touched s (noteCredit s) :=
  .of_ports (noteCredit_safe s) (noteCredit_kept s) (noteCredit_ports s)

theorem raise_ports (k : EventKind) (l : Location) (d : Nat) (s : State) : (raise k l d s).ports = s.ports := by
  unfold raise
  split
  · rfl
  · split
    · rfl
    · split <;> rfl

theorem raise_touched (k : EventKind) (l : Location) (d : Nat) (s : State) : Touched s (raise k l d s) :=
  .of_ports (raise_safe k l d s) (raise_kept k l d s) (raise_ports k l d s)

theorem refill_touched (s : State) : Touched s (refill s) := by
  unfold refill
  dsimp only
  split
  · rfl
  · exact (modPool_touched _ _ rfl rfl).trans (noteCredit_touched _)

theorem releaseSlot_touched (i : SlotId) (s : State) : Touched s (releaseSlot i s) := by
  unfold releaseSlot
  dsimp only
  split
  · exact ((modSlot_touched _ _ _).trans (noteCredit_touched _)).trans (refill_touched _)
  · exact ((modSlot_touched _ _ _).trans (modPool_touched _ _ rfl rfl)).trans (refill_touched _)

/-- A notice joins a list of fewer than 8 (R136). -/
theorem appendNotice_touched (n : Notice) (s : State) (room : s.custody.notices.length < 8) :
    Touched s (modCustody (fun c => { c with notices := c.notices ++ [n] }) s) :=
  .of_ports (modCustody_safe _ _ (fun _ => by rw [List.length_append, List.length_singleton]; exact room) id)
    (modCustody_kept _ _ rfl rfl) rfl

/-- A report joins a list of fewer than 16 (R140). -/
theorem appendReport_touched (r : Report) (s : State) (room : s.custody.reports.length < 16) :
    Touched s (modCustody (fun c => { c with reports := c.reports ++ [r] }) s) :=
  .of_ports (modCustody_safe _ _ id fun _ => by rw [List.length_append, List.length_singleton]; exact room)
    (modCustody_kept _ _ rfl rfl) rfl

theorem createNotice_touched (n : Notice) (s : State) : Touched s (createNotice n s) := by
  unfold createNotice
  split
  · exact countGateway_touched _ _
  · split
    · exact countGateway_touched _ _
    · split
      · exact countGateway_touched _ _
      · split
        · exact (countGateway_touched _ _).trans (raise_touched _ _ _ _)
        next room =>
          exact ((appendNotice_touched _ _ (Nat.lt_of_not_le room)).trans (countGateway_touched _ _)).trans (makeDue_touched _ _)

theorem createReport_touched (r : Report) (s : State) : Touched s (createReport r s) := by
  unfold createReport
  split
  · exact countTrunk_touched _ _ _
  · split
    · exact (countTrunk_touched _ _ _).trans (raise_touched _ _ _ _)
    next room => exact appendReport_touched _ _ (Nat.lt_of_not_le room)

theorem takeEndRecord_touched (sl : FrameSlot) (q : PortId) (n : Nat) (reason : Reason) (s : State) :
    Touched s (takeEndRecord sl q n reason s) := by
  unfold takeEndRecord
  split
  · split
    · rfl
    · exact createNotice_touched _ _
  · split
    · exact createReport_touched _ _
    · rfl

theorem takeRejection_touched (tag : Option (BitVec 16)) (reason : Reason) (s : State) :
    Touched s (takeRejection tag reason s) := by
  unfold takeRejection
  split
  · exact createReport_touched _ _
  · rfl

theorem dropRef_touched (q : PortId) (r : Ref) (reason : Reason) (s : State) : Touched s (dropRef q r reason s) := by
  have handed : Touched s (if endRecordDue (slotOf r s) r reason then takeEndRecord (slotOf r s) q r.count reason s else s) := by
    split
    · exact takeEndRecord_touched _ _ _ _ _
    · rfl
  unfold dropRef
  dsimp only
  split
  · exact handed.trans (releaseSlot_touched _ _)
  · exact handed.trans (modSlot_touched _ _ _)

theorem discardRef_touched (q : PortId) (r : Ref) (reason : Reason) (s : State) : Touched s (discardRef q r reason s) := by
  unfold discardRef
  split
  · exact (countPort_touched _ _ _ _).trans (dropRef_touched _ _ _ _)
  · exact dropRef_touched _ _ _ _

theorem dueIfGone_touched (q : PortId) (s : State) : Touched s (dueIfGone q s) := by
  unfold dueIfGone
  split
  · split
    · exact makeDue_touched _ _
    · rfl
  · rfl

theorem makeDueQueue_touched (q : PortId) (s : State) : Touched s (makeDueQueue q s) := by
  unfold makeDueQueue
  split
  · exact makeDue_touched _ _
  · rfl

theorem discardAll_touched (q : PortId) (gone : List Ref) (reason : Reason) (s : State) :
    Touched s (discardAll q gone reason s) :=
  (Touched.foldl (fun x r => discardRef_touched q r reason x) _ _).trans (dueIfGone_touched _ _)

theorem sweepLanes_touched (q : PortId) (hit : Ref → Bool) (reason : Reason) (s : State) :
    Touched s (sweepLanes q hit reason s) := (modQueue_touched _ _ _).trans (discardAll_touched _ _ _ _)

theorem sweepLane_touched (q : PortId) (lane : Priority) (hit : Ref → Bool) (reason : Reason) (s : State) :
    Touched s (sweepLane q lane hit reason s) := (modQueue_touched _ _ _).trans (discardAll_touched _ _ _ _)

theorem markHolder_touched (q : PortId) (hit : Ref → Bool) (m : Mark) (s : State) : Touched s (markHolder q hit m s) :=
  modQueue_touched _ _ _

theorem markPending_touched (q : PortId) (hit : Ref → Bool) (m : Mark) (s : State) : Touched s (markPending q hit m s) :=
  modQueue_touched _ _ _

theorem setHolder_touched (q : PortId) (h : Option Ref) (s : State) : Touched s (setHolder q h s) := modQueue_touched _ _ _

theorem popLane_touched (q : PortId) (lane : Priority) (s : State) : Touched s (popLane q lane s) := modQueue_touched _ _ _

theorem returnToHead_touched (q : PortId) (r : Ref) (s : State) : Touched s (returnToHead q r s) := modQueue_touched _ _ _

theorem joinTail_touched (q : PortId) (r : Ref) (s : State) : Touched s (joinTail q r s) :=
  (modQueue_touched _ _ _).trans (makeDueQueue_touched _ _)

theorem blockSweep_touched (a : Address) (s : State) : Touched s (blockSweep a s) :=
  Touched.foldl (fun _ _ => ((markPending_touched _ _ _ _).trans (markHolder_touched _ _ _ _)).trans (sweepLanes_touched _ _ _ _))
    _ _

theorem purgeSweepLane_touched (q : PortId) (lane : Priority) (s : State) : Touched s (purgeSweepLane q lane s) := by
  unfold purgeSweepLane
  dsimp only
  split
  · exact sweepLane_touched _ _ _ _ _
  · exact (markHolder_touched _ _ _ _).trans (sweepLane_touched _ _ _ _ _)

theorem expireQueue_touched (i : SlotId) (s : State) (q : PortId) : Touched s (expireQueue i s q) := by
  unfold expireQueue
  dsimp only
  split
  · exact sweepLanes_touched _ _ _ _
  · exact (markHolder_touched _ _ _ _).trans (sweepLanes_touched _ _ _ _)

theorem nodeFailed_touched (dest : Address) (s : State) : Touched s (nodeFailed dest s) := by
  unfold nodeFailed
  split
  · rfl
  · dsimp only
    split
    · exact ((modNode_touched _ _ _ fun _ => Nat.min_le_right _ _).trans (raise_touched _ _ _ _)).trans (blockSweep_touched _ _)
    · exact modNode_touched _ _ _ fun _ => Nat.min_le_right _ _

theorem nodeDelivered_touched (dest : Address) (s : State) : Touched s (nodeDelivered dest s) := by
  unfold nodeDelivered
  split
  · rfl
  · exact modNode_touched _ _ _ fun _ => Nat.zero_le _

theorem nodePresent_touched (p : SegPort) (source : Address) (s : State) : Touched s (nodePresent p source s) := by
  unfold nodePresent
  split
  · rfl
  · refine modNode_touched _ _ _ fun h => ?_
    split
    · exact Nat.zero_le _
    · exact h

theorem failRef_touched (p : SegPort) (r : Ref) (reason : Reason) (report : Bool) (s : State) :
    Touched s (failRef p r reason report s) := by
  have ended := (countPort_touched p .failed 1 s).trans (dropRef_touched p.port r reason (countPort p .failed 1 s))
  unfold failRef
  dsimp only
  split
  · exact ended.trans (nodeFailed_touched _ _)
  · exact ended

theorem deliverRef_touched (p : SegPort) (r : Ref) (s : State) : Touched s (deliverRef p r s) :=
  ((countPort_touched _ _ _ _).trans (nodeDelivered_touched _ _)).trans (dropRef_touched _ _ _ _)

theorem updateFirst_length {α : Type} (test : α → Bool) (f : α → Option α) (l : List α) :
    (updateFirst test f l).length ≤ l.length := by
  induction l with
  | nil => exact Nat.le_refl _
  | cons a as ih =>
    unfold updateFirst
    split
    · cases f a <;> simp
    · simpa using ih

/-- The first notice or report that a test selects is changed or removed. -/
theorem updateCustody_touched {f : Custody → Custody} {s : State}
    (notices : (f s.custody).notices.length ≤ s.custody.notices.length)
    (reports : (f s.custody).reports.length ≤ s.custody.reports.length)
    (source : (f s.custody).noticeSource = s.custody.noticeSource := by rfl)
    (priority : (f s.custody).noticePriority = s.custody.noticePriority := by rfl) : Touched s (modCustody f s) :=
  .of_ports (modCustody_safe f s notices.trans reports.trans) (modCustody_kept f s source priority) rfl

theorem updateNotice_touched (p : SegPort) (f : Notice → Option Notice) (s : State) : Touched s (updateNotice p f s) :=
  updateCustody_touched (updateFirst_length _ _ _) (Nat.le_refl _)

theorem noticeEnded_touched (p : SegPort) (o : TalkerOutcome) (s : State) : Touched s (noticeEnded p o s) := by
  unfold noticeEnded
  split
  · rfl
  · split
    · exact (updateNotice_touched _ _ _).trans (countGateway_touched _ _)
    · exact updateNotice_touched _ _ _
    all_goals
      split
      · exact updateNotice_touched _ _ _
      · exact (updateNotice_touched _ _ _).trans (countGateway_touched _ _)

theorem refEnded_touched (p : SegPort) (o : TalkerOutcome) (s : State) : Touched s (refEnded p o s) := by
  unfold refEnded
  split
  · rfl
  · have freed := setHolder_touched p.port none s
    dsimp only
    split
    · exact freed.trans (deliverRef_touched _ _ _)
    · exact freed.trans (returnToHead_touched _ _ _)
    · exact freed.trans (failRef_touched _ _ _ _ _)
    · split
      · exact freed.trans (returnToHead_touched _ _ _)
      · exact freed.trans (failRef_touched _ _ _ _ _)
    · exact freed.trans (failRef_touched _ _ _ _ _)

theorem confirmQueue_touched (i : SlotId) (s : State) (q : PortId) : Touched s (confirmQueue i s q) := by
  unfold confirmQueue
  refine (modQueue_touched _ _ _).trans (Touched.foldl (fun x r => ?_) _ _)
  split
  · exact joinTail_touched _ _ _
  · exact discardRef_touched _ _ _ _

theorem confirm_touched (p : SegPort) (s : State) : Touched s (confirm p s) := by
  unfold confirm
  split
  · rfl
  · exact (modSlot_touched _ _ _).trans (Touched.foldl (confirmQueue_touched _) _ _)

theorem withdraw_touched (p : SegPort) (s : State) : Touched s (withdraw p s) := by
  unfold withdraw
  split
  · rfl
  · exact (Touched.foldl (fun x q => modQueue_touched q _ x) _ _).trans (releaseSlot_touched _ _)

theorem flushHolder_touched (p : SegPort) (s : State) : Touched s (flushHolder p s) := by
  unfold flushHolder
  split
  · rfl
  · exact (setHolder_touched _ _ _).trans (discardRef_touched _ _ _ _)

theorem rejectTrunk_touched (i : SlotId) (tag : Option (BitVec 16)) (reason : Reason) (s : State) :
    Touched s (rejectTrunk i tag reason s) := (releaseSlot_touched _ _).trans (takeRejection_touched _ _ _)

theorem admitTrunk_touched (i : SlotId) (inb : Inbound) (d : Decision) (s : State) : Touched s (admitTrunk i inb d s) := by
  unfold admitTrunk
  dsimp only
  split
  · exact rejectTrunk_touched _ _ _ _
  · exact ((modSlot_touched _ _ _).trans (Touched.foldl (fun x q => joinTail_touched q _ x) _ _)).trans (refill_touched _)

theorem addPending_touched (r : Ref) (s : State) (q : PortId) : Touched s (addPending r s q) := modQueue_touched _ _ _

theorem takeSlot_touched (p : SegPort) (f : Frame) (d : Decision) (i : SlotId) (ad : List PortId) (m : Bool) (s : State) :
    Touched s (takeSlot p f d i ad m s) := by
  have queued (g : FrameSlot → FrameSlot) :=
    ((modPool_touched (fun pl => { pl with free := pl.free.tail }) s rfl rfl).trans (modSlot_touched i g _)).trans
      (Touched.foldl (addPending_touched (newRef i .frame)) ad _)
  unfold takeSlot
  dsimp only
  split
  · exact (queued _).trans (addPending_touched _ _ _)
  · exact queued _

theorem admitSegment_touched (p : SegPort) (f : Frame) (d : Decision) (s : State) : Touched s (admitSegment p f d s).2 := by
  unfold admitSegment
  dsimp only
  split
  · rfl
  · split
    · exact takeSlot_touched _ _ _ _ _ _ _
    · split <;> exact (raise_touched _ _ _ _).trans (countGateway_touched _ _)

theorem purgeHeads_touched (n : Nat) (s : State) : Touched s (purgeHeads n s) := by
  induction n generalizing s with
  | zero => exact Touched.refl s
  | succ n ih =>
    unfold purgeHeads
    split
    · rfl
    · split
      · exact ((popLane_touched _ _ _).trans (discardRef_touched _ _ _ _)).trans (ih _)
      · rfl

theorem cutReference_touched (s : State) : Touched s (cutReference s) := by
  unfold cutReference
  split
  · rfl
  · have freed := setHolder_touched trunkPort none s
    dsimp only
    split
    · split
      · exact freed.trans (dropRef_touched _ _ _ _)
      · exact freed.trans (returnToHead_touched _ _ _)
    · exact freed.trans (returnToHead_touched _ _ _)

theorem dataSent_touched (s : State) : Touched s (dataSent s) := by
  unfold dataSent
  split
  · rfl
  · exact (setHolder_touched _ _ _).trans (dropRef_touched _ _ _ _)

/-! ### Selection and the end of an attempt -/

/-- A transmitter that is not OFF may take a state: IDLE, or ARMED with its receiver in IDLE. -/
theorem settleTx_safe {p : SegPort} {tx : TxState} {s : State}
    (h : tx = s.ports[p].tx ∨ (s.ports[p].tx ≠ .off ∧ (tx = .idle ∨ (∃ c, tx = .armed c) ∧ s.ports[p].rx = .idle))) :
    Safe s (settleTx p tx s) := by
  refine modPort_safe (.of_off fun ⟨off, on, armed, talks, quiet⟩ => ?_)
  rcases h with rfl | ⟨live, rfl | ⟨⟨c, rfl⟩, idle⟩⟩
  · exact ⟨off, on, armed, talks, quiet⟩
  · exact ⟨fun e => absurd (off e).2.1 live, fun e => ⟨(on e).1, nofun⟩, nofun, nofun, quiet⟩
  · exact ⟨fun e => absurd (off e).2.1 live, fun e => ⟨(on e).1, nofun⟩, fun _ => idle, nofun, quiet⟩

theorem candidateGone_armed {p : SegPort} {s : State} (h : candidateGone p s = true) : ∃ c, s.ports[p].tx = .armed c := by
  unfold candidateGone at h
  cases e : s.ports[p].tx with
  | armed c => exact ⟨c, rfl⟩
  | _ => rw [e] at h; cases h

theorem maySelect_iff {pt : Port} : maySelect pt = true ↔ pt.rx = .idle ∧ (pt.tx = .idle ∨ ∃ c, pt.tx = .armed c) := by
  unfold maySelect
  cases pt.tx <;> simp

theorem maySelect_live {pt : Port} (h : maySelect pt = true) : pt.tx ≠ .off := by
  rcases (maySelect_iff.1 h).2 with e | ⟨c, e⟩ <;> rw [e] <;> nofun

theorem selectOnce_safe (p : SegPort) (s : State) : Safe s (selectOnce p s) := by
  unfold selectOnce
  dsimp only
  split
  next may =>
    have live := maySelect_live may
    split
    · exact settleTx_safe (.inr ⟨live, .inl rfl⟩)
    · exact settleTx_safe (.inr ⟨live, .inr ⟨⟨_, rfl⟩, (maySelect_iff.1 may).1⟩⟩)
    · split
      · exact (popLane_touched _ _ _).safe.trans (discardRef_touched _ _ _ _).safe
      · split
        · exact (popLane_touched _ _ _).safe.trans (failRef_touched _ _ _ _ _).safe
        · exact settleTx_safe (.inr ⟨live, .inr ⟨⟨_, rfl⟩, (maySelect_iff.1 may).1⟩⟩)
  · refine settleTx_safe ?_
    split
    next gone =>
      obtain ⟨c, e⟩ := candidateGone_armed gone
      exact .inr ⟨by rw [e]; nofun, .inl rfl⟩
    · exact .inl rfl

theorem runSelections_safe (n : Nat) (s : State) : Safe s (runSelections n s) := by
  induction n generalizing s with
  | zero => exact Safe.refl s
  | succ n ih =>
    unfold runSelections
    split
    · rfl
    · exact (selectOnce_safe _ _).trans (ih _)

/-- The selections that end a step keep every invariant. -/
theorem settle_safe (s : State) : Safe s (settle s) := runSelections_safe _ s

/-- A transmitter that is not OFF goes to IDLE. -/
theorem setTx_idle_safe {p : SegPort} {s : State} (h : s.ports[p].tx ≠ .off) : Safe s (setTx p .idle s) :=
  modPort_safe (.of_off fun ⟨off, on, _, _, quiet⟩ =>
    ⟨fun e => absurd (off e).2.1 h, fun e => ⟨(on e).1, nofun⟩, nofun, nofun, quiet⟩)

theorem disarm_safe (p : SegPort) (s : State) : Safe s (disarm p s) := by
  unfold disarm
  split
  next e => exact setTx_idle_safe (by rw [e]; nofun)
  all_goals rfl

theorem attemptOf_live {pt : Port} {a : Attempt} (h : attemptOf pt = some a) : pt.tx ≠ .off := by
  intro e; unfold attemptOf at h; rw [e] at h; cases h

theorem endAttempt_safe (p : SegPort) (o : TalkerOutcome) (s : State) : Safe s (endAttempt p o s) := by
  unfold endAttempt
  split
  · rfl
  next a e =>
    have counted : Touched s (if o = .lost then countPort p .arbLost 1 s else s) := by
      split
      · exact countPort_touched _ _ _ _
      · rfl
    have idled := counted.safe.trans (setTx_idle_safe (by rw [counted.tx]; exact attemptOf_live e))
    dsimp only
    split
    · exact idled.trans (noticeEnded_touched _ _ _).safe
    · exact idled.trans (refEnded_touched _ _ _).safe

end Sys2Proof.Machine
end

