-- ==== Sys2Proof/Proofs/SafeSegment.lean ====
section
/-! PROOFS. The commands of the segment ports keep the invariants: what each of them makes of its own port, step by step. -/

-- One theorem after another: many at once need a thread each.
set_option Elab.async false

namespace Sys2Proof.Machine

/-- A command that answers a state keeps every invariant of `Safe`. -/
def SafeStep (s : State) (o : Host.Outcome State Fault Refusal) : Prop := ∀ t, o = .next t → Safe s t

theorem SafeStep.next {s t : State} (h : Safe s t) : SafeStep s (.next t) := by
  intro u e; cases e; exact h

theorem SafeStep.stay (s : State) : SafeStep s (.next s) := .next (.refl s)

/-! ### The clock and the port's own operations -/

theorem clock_safe {n : Ticks} {s : State} (h : s.now ≤ n) : Safe s { s with now := n } where
  epochs := id
  counters := id
  settings := id
  nodes := id
  capacity := id
  events := id
  commit := id
  ports := id
  link := fun ⟨a, b, c, d, e, f, g, run, inv, ir, is, line, idle, rest⟩ =>
    ⟨a, b, c, d, e, f, g, run, inv, ir, is, line.trans h, idle.trans h, rest⟩

theorem advance_safe (t : Ticks) (s : State) : Safe s (advance t s) := clock_safe (Nat.le_max_left _ _)

/-- A port with its receiver not OFF keeps what `PortsOff` says when it stays enabled, its transmitter stays out of OFF, and its
receiver's new state suits its transmitter and its abort pulse. -/
theorem portOff_of_live {pt q : Port} (live : pt.rx ≠ .off) (enabled : q.enabled = pt.enabled) (rx : q.rx ≠ .off)
    (tx : pt.tx ≠ .off → q.tx ≠ .off) (armed : q.tx.isArmed = true → q.rx = .idle)
    (talks : isTalker q = true → following q = true) (quiet : q.rx = .idle → q.pulse = none) : PortOff pt → PortOff q := by
  rintro ⟨off, on, -⟩
  refine ⟨fun e => absurd (off (enabled ▸ e)).1 live, fun e => ⟨rx, tx (on (enabled ▸ e)).2⟩, armed, talks, quiet⟩

theorem following_iff {pt : Port} :
    following pt = true ↔ pt.pulse = none ∧ (pt.rx = .leadIn ∨ pt.rx = .gap ∨ pt.rx = .bits ∨ pt.rx = .slots) := by
  simp [following, or_assoc]

theorem following_live {pt : Port} (h : following pt = true) : pt.rx ≠ .off := by
  rcases (following_iff.1 h).2 with e | e | e | e <;> rw [e] <;> nofun

theorem following_busy {pt : Port} (h : following pt = true) : pt.rx ≠ .idle := by
  rcases (following_iff.1 h).2 with e | e | e | e <;> rw [e] <;> nofun

/-- A transmitter that neither is ARMED nor makes an attempt. -/
def Retired (pt : Port) : Prop := isTalker pt = false ∧ pt.tx.isArmed = false

theorem Retired.of_tx {pt q : Port} (h : Retired pt) (e : q.tx = pt.tx) : Retired q := by
  unfold Retired isTalker attemptOf at *
  rw [e]; exact h

theorem clearAssembly_safe (p : SegPort) (s : State) : Safe s (clearAssembly p s) :=
  modPort_safe (.of_off fun ⟨off, rest⟩ => ⟨fun e => ⟨(off e).1, (off e).2.1, rfl, (off e).2.2.2⟩, rest⟩)

theorem release_safe (p : SegPort) (s : State) : Safe s (release p s) := by
  refine modPort_safe (.of_off fun ⟨off, on, armed, talks, quiet⟩ => ?_)
  refine ⟨fun e => ⟨(off e).1, (off e).2.1, (off e).2.2.1, rfl, rfl⟩, on, armed, fun h => ?_, fun _ => rfl⟩
  exact following_iff.2 ⟨rfl, (following_iff.1 (talks h)).2⟩

/-- The receiver of a port that is not OFF enters a state of no frame, its transmitter retired. -/
theorem enterRx_safe {p : SegPort} {s : State} (f : Port → Port) (live : s.ports[p].rx ≠ .off)
    (retired : PortOff s.ports[p] → Retired s.ports[p]) (enabled : (f s.ports[p]).enabled = s.ports[p].enabled) (rx : (f s.ports[p]).rx ≠ .off)
    (tx : (f s.ports[p]).tx = s.ports[p].tx) (quiet : (f s.ports[p]).rx = .idle → (f s.ports[p]).pulse = none)
    (retryLimit : (f s.ports[p]).retryLimit = s.ports[p].retryLimit := by rfl)
    (queueLimit : (f s.ports[p]).queueLimit = s.ports[p].queueLimit := by rfl)
    (counters : (f s.ports[p]).counters = s.ports[p].counters := by rfl) : Safe s (modPort p f s) := by
  refine modPort_safe (.of_off (fun off => ?_) retryLimit queueLimit counters)
  obtain ⟨silent, unarmed⟩ := (retired off).of_tx tx
  exact portOff_of_live live enabled rx (by rw [tx]; exact id) (by rw [unarmed]; nofun) (by rw [silent]; nofun) quiet off

theorem toFlush_safe {p : SegPort} {s : State} (live : s.ports[p].rx ≠ .off) (retired : Retired s.ports[p]) :
    Safe s (toFlush p s) := enterRx_safe _ live (fun _ => retired) rfl nofun rfl nofun

theorem setRx_held_safe {p : SegPort} {s : State} (live : s.ports[p].rx ≠ .off) (retired : Retired s.ports[p]) :
    Safe s (setRx p .held s) := enterRx_safe _ live (fun _ => retired) rfl nofun rfl nofun

theorem leaveFrame_safe (p : SegPort) (s : State) : Safe s (leaveFrame p s) :=
  (withdraw_touched p s).safe.trans (clearAssembly_safe p _)

theorem leaveFrame_rx (p : SegPort) (s : State) : (leaveFrame p s).ports[p].rx = s.ports[p].rx := by
  unfold leaveFrame clearAssembly
  rw [modPort_port, ← (withdraw_touched p s).rx]

theorem leaveFrame_tx (p : SegPort) (s : State) : (leaveFrame p s).ports[p].tx = s.ports[p].tx := by
  unfold leaveFrame clearAssembly
  rw [modPort_port, ← (withdraw_touched p s).tx]

theorem leaveFrame_pulse (p : SegPort) (s : State) : (leaveFrame p s).ports[p].pulse = s.ports[p].pulse := by
  unfold leaveFrame clearAssembly
  rw [modPort_port, ← (withdraw_touched p s).pulse]

/-! ### The end of an attempt on its port -/

/-- A port that has been armed is armed no more. -/
theorem disarm_unarmed (p : SegPort) (s : State) : (disarm p s).ports[p].tx.isArmed = false := by
  rw [disarm_eq, modPort_port]
  cases h : s.ports[p].tx <;> rfl

theorem setTx_tx (p : SegPort) (tx : TxState) (s : State) : (setTx p tx s).ports[p].tx = tx := by
  unfold setTx; rw [modPort_port]

/-- The transmitter at the end of an attempt (R58). -/
theorem endAttempt_tx (p : SegPort) (o : TalkerOutcome) (s : State) :
    (endAttempt p o s).ports[p].tx = if isTalker s.ports[p] then .idle else s.ports[p].tx := by
  unfold endAttempt isTalker
  split
  next e => rw [e]; rfl
  next a e =>
    rw [e]
    dsimp only
    split
    · rw [(noticeEnded_touched _ _ _).tx, setTx_tx]; rfl
    · rw [(refEnded_touched _ _ _).tx, setTx_tx]; rfl

theorem endAttempt_rx (p : SegPort) (o : TalkerOutcome) (s : State) : (endAttempt p o s).ports[p].rx = s.ports[p].rx := by
  rw [(endAttempt_kept p o s).port p]

theorem endAttempt_pulse (p : SegPort) (o : TalkerOutcome) (s : State) :
    (endAttempt p o s).ports[p].pulse = s.ports[p].pulse := by rw [(endAttempt_kept p o s).port p]

/-- Once its attempt is over, a port that was not ARMED has retired. -/
theorem endAttempt_retired (p : SegPort) (o : TalkerOutcome) {s : State} (h : s.ports[p].tx.isArmed = false) :
    Retired (endAttempt p o s).ports[p] := by
  have tx := endAttempt_tx p o s
  split at tx
  · exact Retired.of_tx (pt := { s.ports[p] with tx := .idle }) ⟨rfl, rfl⟩ tx
  next quiet => exact Retired.of_tx (pt := s.ports[p]) ⟨Bool.eq_false_iff.2 quiet, h⟩ tx

theorem disarm_rx (p : SegPort) (s : State) : (disarm p s).ports[p].rx = s.ports[p].rx := by
  rw [disarm_eq, modPort_port]

/-- A talker is inside its frame, so a receiver that neither follows a frame nor is in IDLE has no transmitter at work. -/
theorem retired_of_off {pt : Port} (h : PortOff pt) (out : following pt = false) (busy : pt.rx ≠ .idle) : Retired pt := by
  obtain ⟨-, -, armed, talks, -⟩ := h
  refine ⟨?_, ?_⟩
  · by_contra c
    exact absurd (talks (Bool.eq_true_of_not_eq_false c)) (by rw [out]; nofun)
  · by_contra c
    exact busy (armed (Bool.eq_true_of_not_eq_false c))

/-- In FLUSH and in HELD a transmitter has retired, where `PortOff` holds. -/
theorem quiet_retired {pt : Port} (rx : pt.rx = .flush ∨ pt.rx = .held) (off : PortOff pt) : pt.rx ≠ .off ∧ Retired pt := by
  have out : following pt = false := by rcases rx with e | e <;> simp [following, e]
  refine ⟨?_, retired_of_off off out ?_⟩ <;> rcases rx with e | e <;> rw [e] <;> nofun

/-- What ends the port's part in a frame: an armed candidate is dropped, an attempt ends, the frame is left. -/
theorem leaving {p : SegPort} (o : TalkerOutcome) {s : State} (live : s.ports[p].rx ≠ .off) :
    let left := leaveFrame p (endAttempt p o (disarm p s))
    Safe s left ∧ left.ports[p].rx ≠ .off ∧ Retired left.ports[p] := by
  refine ⟨((disarm_safe p s).trans (endAttempt_safe p o _)).trans (leaveFrame_safe p _), ?_, ?_⟩
  · rw [leaveFrame_rx, endAttempt_rx, disarm_rx]; exact live
  · exact (endAttempt_retired p o (disarm_unarmed p s)).of_tx (leaveFrame_tx p _)

theorem release_rx (p : SegPort) (s : State) : (release p s).ports[p].rx = s.ports[p].rx := by
  unfold release; rw [modPort_port]

theorem release_tx (p : SegPort) (s : State) : (release p s).ports[p].tx = s.ports[p].tx := by
  unfold release; rw [modPort_port]

/-- A port leaves its frame, releases the line and enters FLUSH. -/
theorem leaveToFlush_safe {p : SegPort} (o : TalkerOutcome) {s : State} (live : s.ports[p].rx ≠ .off) :
    Safe s (toFlush p (release p (leaveFrame p (endAttempt p o (disarm p s))))) := by
  obtain ⟨safe, rx, retired⟩ := leaving o live
  exact (safe.trans (release_safe p _)).trans
    (toFlush_safe (by rw [release_rx]; exact rx) (retired.of_tx (release_tx p _)))

theorem driveAbort_safe {p : SegPort} (fall t : Ticks) {s : State} (live : s.ports[p].rx ≠ .off) (busy : s.ports[p].rx ≠ .idle)
    (retired : Retired s.ports[p]) : Safe s (driveAbort p fall t s) := by
  have counted := countPort_touched p .abortsSent 1 s
  refine counted.safe.trans (enterRx_safe _ ?_ (fun _ => retired.of_tx (counted.tx p)) rfl ?_ rfl fun e => absurd e ?_) <;>
    simp only [counted.rx] <;> assumption

theorem frameError_safe {p : SegPort} (c : PortCounter) (t : Ticks) {s : State} (live : s.ports[p].rx ≠ .off) :
    Safe s (frameError p c t s) := by
  have counted := countPort_touched p c 1 s
  obtain ⟨safe, rx, retired⟩ := leaving .aborted (s := countPort p c 1 s) (p := p) (by rw [counted.rx]; exact live)
  have left := (counted.safe.trans safe).trans (toFlush_safe rx retired)
  have flush (u : State) : (toFlush p u).ports[p].rx = .flush := by unfold toFlush; rw [modPort_port]
  have tx (u : State) : (toFlush p u).ports[p].tx = u.ports[p].tx := by unfold toFlush; rw [modPort_port]
  unfold frameError
  dsimp only
  split
  · exact left.trans (driveAbort_safe _ _ (by rw [flush]; nofun) (by rw [flush]; nofun) (retired.of_tx (tx _)))
  · exact left.trans (release_safe p _)

theorem modAssembly_safe {p : SegPort} (f : Assembly → Assembly) {s : State} (live : s.ports[p].rx ≠ .off) :
    Safe s (modAssembly p f s) :=
  modPort_safe (.of_off fun ⟨off, rest⟩ => ⟨fun e => absurd (off e).1 live, rest⟩)

/-! ### Hearing (R4 to R7) -/

theorem hearEdge_following {gap : Ticks} {pt q : Port} (h : hearEdge gap pt = some q) (f : following pt = true) :
    following q = true := by
  obtain ⟨pulse, rx⟩ := following_iff.1 f
  unfold hearEdge at h
  split at h
  · cases h
    refine following_iff.2 ⟨pulse, ?_⟩
    unfold beginSlot
    dsimp only
    split
    · simp
    · exact rx
  · cases h

theorem hearLow_following {low : Ticks} {pt q : Port} (h : hearLow low pt = some q) (f : following pt = true) :
    following q = true := by
  obtain ⟨pulse, rx⟩ := following_iff.1 f
  unfold hearLow at h
  split at h
  · split at h
    · cases h; exact following_iff.2 ⟨pulse, .inr (.inl rfl)⟩
    · cases h
  · split at h
    · obtain ⟨bit, -, rfl⟩ := Option.map_eq_some_iff.mp h
      exact following_iff.2 ⟨pulse, rx⟩
    · cases h

theorem hearSlot_following {b : BitSlot} {pt q : Port} (h : hearSlot b pt = some q) (f : following pt = true) :
    following q = true := by
  unfold hearSlot at h
  split at h
  · split at h
    · cases h; exact f
    · cases h
  · obtain ⟨begun, he, hl⟩ := Option.bind_eq_some_iff.mp h
    exact hearLow_following hl (hearEdge_following he f)

theorem hearSlots_following {bs : List BitSlot} {pt q : Port} (h : hearSlots bs pt = some q) (f : following pt = true) :
    following q = true := by
  induction bs generalizing pt with
  | nil => cases h; exact f
  | cons b bs ih =>
    obtain ⟨read, hr, h⟩ := Option.bind_eq_some_iff.mp h
    exact ih h (hearSlot_following hr f)

/-- A port that hears symbols inside a frame is still inside one. -/
theorem hearSymbols_following {sy : Symbols} {pt q : Port} (h : hearSymbols sy pt = some q) (f : following pt = true) :
    following q = true := by
  obtain ⟨low, slots, edge⟩ := sy
  obtain ⟨closed, hc, h⟩ := Option.bind_eq_some_iff.mp h
  obtain ⟨read, hr, h⟩ := Option.bind_eq_some_iff.mp h
  have first : following closed = true := by
    cases low with
    | none => cases hc; exact f
    | some low => exact hearLow_following hc f
  cases edge with
  | none => cases h; exact hearSlots_following hr first
  | some gap => exact hearEdge_following h (hearSlots_following hr first)

/-- Hearing symbols keeps the invariants, and leaves the port inside its frame with its transmitter as it was. -/
theorem hearOn_safe {p : SegPort} {sy : Symbols} {s t : State} (h : hearOn p sy s = some t) :
    Safe s t ∧ following t.ports[p] = true ∧ t.ports[p].tx = s.ports[p].tx := by
  rcases hearOn_cases p sy s with ⟨-, none⟩ | ⟨pt, ⟨inside, hears⟩, heard⟩
  · rw [none] at h; cases h
  · rw [heard] at h
    cases h
    have frame := hearSymbols_frame hears
    have stays := hearSymbols_following hears inside
    rw [withHeard_port]
    refine ⟨?_, stays, frame.tx⟩
    refine Safe.trans (t := modPort p (fun _ => pt) s) (modPort_safe (.of_off ?_ ?_ ?_ ?_)) (clock_safe (Nat.le_max_left _ _))
    · intro off
      refine portOff_of_live (following_live inside) (by rw [frame.port]) (following_live stays) (by rw [frame.tx]; exact id)
        (fun armed => ?_) (fun _ => stays) (fun idle => absurd idle (following_busy stays)) off
      rw [frame.tx] at armed
      exact absurd (off.2.2.1 armed) (following_busy inside)
    · rw [frame.port]
    · rw [frame.port]
    · rw [frame.port]

/-! ### The commands of the receiver -/

theorem execFalseStart_safe (p : SegPort) (low : Ticks) (s : State) : SafeStep s (execFalseStart p low s) := by
  unfold execFalseStart
  dsimp only
  split
  next h =>
    refine .next (Safe.trans ?_ (settle_safe _))
    have seen : Safe s (modPort p (fun q => { q with lastRise := q.edge + low }) (advance (s.ports[p].edge + low) s)) :=
      (advance_safe _ _).trans (modPort_safe (.of_off id))
    refine (seen.trans (countPort_safe p .rxSignalErrors 1 _)).trans (leaveToFlush_safe .aborted ?_)
    rw [(countPort_touched p .rxSignalErrors 1 _).rx, modPort_port]
    exact h.1 ▸ (nofun : RxState.leadIn ≠ .off)
  · exact .stay s

theorem modAssembly_rx (p : SegPort) (f : Assembly → Assembly) (s : State) :
    (modAssembly p f s).ports[p].rx = s.ports[p].rx := by
  unfold modAssembly; rw [modPort_port]

theorem execHeaderCompletion_safe (p : SegPort) (low : Option Ticks) (slots : List BitSlot) (s : State) :
    SafeStep s (execHeaderCompletion p low slots s) := by
  unfold execHeaderCompletion
  split
  next t _ heard =>
    obtain ⟨safe, inside, -⟩ := hearOn_safe heard
    have live := following_live inside
    dsimp only
    split
    · have read := safe.trans (modAssembly_safe
        (fun a => { a with header := some (headerOfBits t.ports[p].assembly.bits) }) live)
      split
      · exact .next read
      · exact .next ((read.trans (frameError_safe _ _ (by rw [modAssembly_rx]; exact live))).trans (settle_safe _))
    · exact .next safe
  · exact .stay s

/-- A hit is counted, saturating (R77). -/
theorem countHit_safe (i : RouteIndex) (s : State) : Safe s (countHit i s) where
  epochs := by
    unfold countHit setActive EpochsOk
    rw [modRoute_route]
    split <;> exact id
  counters := by
    rintro ⟨ports, trunk, gateway, hits⟩
    refine ⟨ports, trunk, gateway, fun j => ?_⟩
    have within {b : Vector RouteEntry 64} (h : ∀ j : RouteIndex, b[j].hits ≤ counterMax) (j : RouteIndex) :
        (modAt b i fun e => { e with hits := saturate e.hits 1 })[j].hits ≤ counterMax :=
      forall_modAt (P := fun e : RouteEntry => e.hits ≤ counterMax) h (fun _ => saturate_le _ _) j
    unfold countHit setActive activeBank
    rw [modRoute_route]
    split
    · exact ⟨(hits j).1, within (fun j => (hits j).2) j⟩
    · exact ⟨within (fun j => (hits j).1) j, (hits j).2⟩
  settings := id
  nodes := id
  capacity := id
  events := id
  commit := by
    have same : (countHit i s).route.commit = s.route.commit := by
      unfold countHit setActive
      rw [modRoute_route]
      split <;> rfl
    unfold CommitOk
    rw [same]
    exact id
  ports := id
  link := id

theorem matchFrame_safe (ingress : PortId) (miss : MissAction) (f : Frame) (s : State) :
    Safe s (matchFrame ingress miss f s).2 := by
  unfold matchFrame
  split
  · exact countHit_safe _ _
  · rfl

theorem segmentLookup_safe (p : SegPort) (f : Frame) (s : State) : Safe s (segmentLookup p f s).2 := by
  unfold segmentLookup
  split
  · rfl
  · exact matchFrame_safe _ _ _ _

theorem segmentLookup_ports (p : SegPort) (f : Frame) (s : State) : (segmentLookup p f s).2.ports = s.ports := by
  unfold segmentLookup matchFrame
  split
  · rfl
  · split <;> rfl

theorem execControlCompletion_safe (p : SegPort) (h : Symbols) (s : State) : SafeStep s (execControlCompletion p h s) := by
  unfold execControlCompletion
  split
  next header t _ _ heard =>
    obtain ⟨safe, inside, -⟩ := hearOn_safe heard
    have live := following_live inside
    dsimp only
    split
    · have read := safe.trans (modAssembly_safe
        (fun a => { a with control := some (controlOfBits (t.ports[p].assembly.bits.drop headerBits)) }) live)
      split
      · exact .next ((read.trans (frameError_safe _ _ (by rw [modAssembly_rx]; exact live))).trans (settle_safe _))
      · split
        · exact .next read
        · refine .next ((read.trans (segmentLookup_safe p _ _)).trans (modAssembly_safe _ ?_))
          rw [segmentLookup_ports, modAssembly_rx]; exact live
    · exact .next safe
  · exact .stay s

theorem goodCheck_safe {p : SegPort} (f : Frame) (d : Decision) {s : State} (live : s.ports[p].rx ≠ .off) :
    Safe s (goodCheck p f d s) := by
  unfold goodCheck
  split
  · exact countPort_safe _ _ _ _
  · have admitted := (nodePresent_touched p f.source s).trans (admitSegment_touched p f d _)
    have answered := admitted.safe.trans (modAssembly_safe
      (fun a => { a with
        admission := some (admitSegment p f d (nodePresent p f.source s)).1
        answer := answerOf f.dest d (admitSegment p f d (nodePresent p f.source s)).1 }) (by rw [admitted.rx]; exact live))
    dsimp only
    split
    · exact answered.trans (countPort_safe _ _ _ _)
    · exact answered

/-- The receiver of a frame goes on to SLOTS. -/
theorem setRx_slots_safe {p : SegPort} {s : State} (inside : following s.ports[p] = true) : Safe s (setRx p .slots s) := by
  refine modPort_safe (.of_off fun off => portOff_of_live (following_live inside) rfl nofun id (fun armed => ?_) (fun _ => ?_)
    nofun off)
  · exact absurd (off.2.2.1 armed) (following_busy inside)
  · exact following_iff.2 ⟨(following_iff.1 inside).1, .inr (.inr (.inr rfl))⟩

theorem modAssembly_following (p : SegPort) (f : Assembly → Assembly) (s : State) :
    following (modAssembly p f s).ports[p] = following s.ports[p] := by
  unfold modAssembly; rw [modPort_port]; rfl

theorem execCheckCompletion_safe (p : SegPort) (h : Symbols) (s : State) : SafeStep s (execCheckCompletion p h s) := by
  unfold execCheckCompletion
  split
  next header c t _ _ _ heard =>
    obtain ⟨safe, inside, -⟩ := hearOn_safe heard
    have read (f : Assembly → Assembly) : Safe s (setRx p .slots (modAssembly p f t)) :=
      (safe.trans (modAssembly_safe f (following_live inside))).trans
        (setRx_slots_safe (by rw [modAssembly_following]; exact inside))
    have live (u : State) : (setRx p .slots u).ports[p].rx ≠ .off := by unfold setRx; rw [modPort_port]; nofun
    dsimp only
    split
    · split
      · exact .next (read _)
      · split
        · exact .next (((read _).trans (modAssembly_safe _ (live _))).trans (countPort_safe _ _ _ _))
        · split
          · exact .next ((read _).trans (goodCheck_safe _ _ (live _)))
          · exact .next (read _)
    · exact .next safe
  · exact .stay s

/-- The end of a frame takes the receiver to IDLE or to LEADIN, its transmitter retired and no abort pulse driven. -/
theorem endFrame_safe {p : SegPort} (early : Bool) (t : Ticks) {s : State} (inside : following s.ports[p] = true)
    (retired : PortOff s.ports[p] → Retired s.ports[p]) : Safe s (endFrame p early t s) := by
  refine ((advance_safe t s).trans (enterRx_safe _ (following_live inside) retired rfl ?_ rfl fun _ =>
    (following_iff.1 inside).1)).trans (makeDue_safe p _)
  dsimp only
  split <;> nofun

/-- A listener inside a frame is not ARMED, where `PortOff` holds; so its transmitter has retired. -/
theorem listener_retired {pt : Port} (inside : following pt = true) (listens : isTalker pt = false) (off : PortOff pt) :
    Retired pt :=
  ⟨listens, Bool.eq_false_iff.2 fun armed => following_busy inside (off.2.2.1 armed)⟩

theorem following_congr {pt q : Port} (rx : q.rx = pt.rx) (pulse : q.pulse = pt.pulse) : following q = following pt := by
  unfold following; rw [rx, pulse]

theorem isTalker_congr {pt q : Port} (tx : q.tx = pt.tx) : isTalker q = isTalker pt := by
  unfold isTalker attemptOf; rw [tx]

theorem Touched.following {s t : State} (h : Touched s t) (p : SegPort) : following t.ports[p] = following s.ports[p] :=
  following_congr (h.rx p) (h.pulse p)

theorem Touched.isTalker {s t : State} (h : Touched s t) (p : SegPort) : isTalker t.ports[p] = isTalker s.ports[p] :=
  isTalker_congr (h.tx p)

/-- What END_OF_FRAME counts before the confirmation (R47). -/
theorem countEnd_touched (p : SegPort) (t : State) (good : Prop) [Decidable good] (adm : Option Admission) :
    Touched t (match adm with
      | some adm => if adm.result = .all ∨ adm.result = .some then
          countPort p .ingressAdmitted 1 (if good then countPort p .rxGood 1 t else t)
        else if good then countPort p .rxGood 1 t else t
      | none => if good then countPort p .rxGood 1 t else t) := by
  have counted : Touched t (if good then countPort p .rxGood 1 t else t) := by
    split
    · exact countPort_touched _ _ _ _
    · rfl
  split
  · split
    · exact counted.trans (countPort_touched _ _ _ _)
    · exact counted
  · exact counted

theorem execEndOfFrame_safe (p : SegPort) (e : FrameEnding) (s : State) : SafeStep s (execEndOfFrame p e s) := by
  unfold execEndOfFrame
  dsimp only
  split
  next listens =>
    split
    · exact .stay s
    next t heard =>
      obtain ⟨safe, inside, tx⟩ := hearOn_safe heard
      split
      · exact .next safe
      next at' _ =>
        have confirmed := (countEnd_touched p t (t.ports[p].assembly.checkGood = some true) t.ports[p].assembly.admission).trans
          (confirm_touched p _)
        refine .next (((safe.trans confirmed.safe).trans (endFrame_safe _ at' ?_ (listener_retired ?_ ?_))).trans
          (settle_safe _))
        · exact (confirmed.following p).trans inside
        · exact (confirmed.following p).trans inside
        · exact (confirmed.isTalker p).trans ((isTalker_congr tx).trans listens.2)
  · exact .stay s

theorem execSignalError_safe (p : SegPort) (e : SignalEvidence) (s : State) : SafeStep s (execSignalError p e s) := by
  unfold execSignalError
  dsimp only
  split
  · exact .stay s
  next t heard =>
    obtain ⟨safe, inside, -⟩ := hearOn_safe heard
    split
    · exact .stay s
    next at' seen fault =>
      have same : seen = { t.ports[p] with edge := seen.edge, lastRise := seen.lastRise } := by
        rcases (faultAt_eq_some _ _ _ _).1 fault with ⟨_, _, _, _, _, _, rfl⟩ | ⟨_, _, _, _, _, _, rfl⟩ | ⟨_, _, _, _, _, _, _, rfl⟩ <;>
          rfl
      have moved : Safe t (modPort p (fun _ => seen) (advance at' t)) := by
        refine (advance_safe at' t).trans (modPort_safe (.of_off ?_ ?_ ?_ ?_)) <;> rw [same]
        · exact id
        all_goals rfl
      refine .next (((safe.trans moved).trans (frameError_safe _ _ ?_)).trans (settle_safe _))
      rw [modPort_port, same]
      exact following_live inside

theorem execAbortPulse_safe (line : PortSymbols) (s : State) : SafeStep s (execAbortPulse line s) := by
  unfold execAbortPulse
  dsimp only
  split
  · exact .stay s
  next t heard =>
    obtain ⟨safe, inside, -⟩ := hearOn_safe heard
    split
    · exact .next (((safe.trans (advance_safe _ _)).trans
        (leaveToFlush_safe (s := advance _ t) .aborted (following_live inside))).trans (settle_safe _))
    · exact .stay s

/-- A port that drives an abort pulse is enabled, and its transmitter has retired, where `PortOff` holds. -/
theorem pulse_retired {pt : Port} {t : Ticks} (pulse : pt.pulse = some t) (off : PortOff pt) :
    pt.enabled = true ∧ pt.tx ≠ .off ∧ Retired pt := by
  have quiet : pt.pulse ≠ none := by rw [pulse]; nofun
  obtain ⟨disabled, on, armed, talks, idle⟩ := off
  have enabled : pt.enabled = true := by
    by_contra c
    exact quiet (disabled (Bool.eq_false_iff.2 c)).2.2.2.2
  refine ⟨enabled, (on enabled).2, Bool.eq_false_iff.2 fun c => ?_, Bool.eq_false_iff.2 fun c => ?_⟩
  · exact quiet (following_iff.1 (talks c)).1
  · exact quiet (idle (armed c))

theorem execAbortPulseEnd_safe (pulse : PulseEnd) (s : State) : SafeStep s (execAbortPulseEnd pulse s) := by
  unfold execAbortPulseEnd
  dsimp only
  split
  · exact .stay s
  next t driven =>
    simp only [toFlush, release, clearAssembly, modPort_modPort]
    refine .next ((advance_safe t s).trans (modPort_safe (.of_off fun off => ?_)))
    obtain ⟨enabled, live, silent, unarmed⟩ := pulse_retired driven off
    refine ⟨fun e => absurd (enabled.symm.trans e) nofun, fun _ => ⟨nofun, live⟩, fun c => ?_, fun c => ?_, nofun⟩
    · exact absurd (c.symm.trans unarmed) nofun
    · exact absurd (c.symm.trans silent) nofun

theorem execLineHeld_safe (e : PortEdge) (s : State) : SafeStep s (execLineHeld e s) := by
  unfold execLineHeld
  dsimp only
  split
  · exact .stay s
  next h =>
    have live : s.ports[e.port].rx ≠ .off := fun c => h (.inl c)
    have moved : Safe s (modPort e.port (fun q => { q with edge := s.ports[e.port].edge + e.gap })
        (advance (s.ports[e.port].edge + e.gap + 5 * bitPeriod s.ports[e.port].rate) s)) :=
      (advance_safe _ _).trans (modPort_safe (.of_off id))
    have raised := moved.trans (raise_safe .lineHeld (.seg e.port) (isTalker s.ports[e.port]).toNat _)
    have left := leaving .aborted (p := e.port) (s := raise .lineHeld (.seg e.port) (isTalker s.ports[e.port]).toNat
        (modPort e.port (fun q => { q with edge := s.ports[e.port].edge + e.gap })
          (advance (s.ports[e.port].edge + e.gap + 5 * bitPeriod s.ports[e.port].rate) s)))
      (by rw [(raise_touched _ _ _ _).rx, modPort_port]; exact live)
    obtain ⟨safe, rx, retired⟩ := left
    exact .next ((((raised.trans safe).trans (release_safe e.port _)).trans
      (setRx_held_safe (by rw [release_rx]; exact rx) (retired.of_tx (release_tx _ _)))).trans (settle_safe _))

/-- A port in FLUSH or in HELD whose receiver moves on, where no frame is in reception, or in IDLE with no abort pulse. -/
theorem moveOn_safe {p : SegPort} {s : State} (f : Port → Port) (rx : s.ports[p].rx = .flush ∨ s.ports[p].rx = .held)
    (same : f s.ports[p] = { s.ports[p] with
      rx := (f s.ports[p]).rx, lastRise := (f s.ports[p]).lastRise, idleStart := (f s.ports[p]).idleStart
      heldFlush := (f s.ports[p]).heldFlush }) (live : (f s.ports[p]).rx ≠ .off)
    (quiet : (f s.ports[p]).rx = .idle → s.ports[p].pulse = none) : Safe s (modPort p f s) := by
  refine enterRx_safe f ?_ (fun off => (quiet_retired rx off).2) ?_ live ?_ ?_ ?_ ?_ ?_
  · rcases rx with e | e <;> rw [e] <;> nofun
  · rw [same]
  · rw [same]
  · rw [same]; exact quiet
  · rw [same]
  · rw [same]
  · rw [same]

theorem execLineReleased_safe (p : SegPort) (low : Ticks) (s : State) : SafeStep s (execLineReleased p low s) := by
  unfold execLineReleased
  dsimp only
  split
  next held =>
    refine .next (((advance_safe _ s).trans (moveOn_safe _ (.inr held) rfl ?_ ?_)).trans (raise_safe _ _ _ _)) <;> nofun
  · exact .stay s

theorem execFlushComplete_safe (p : SegPort) (quiet : Quiet) (s : State) : SafeStep s (execFlushComplete p quiet s) := by
  unfold execFlushComplete
  dsimp only
  split
  next h =>
    obtain ⟨flush, pulse, -⟩ := h
    refine .next ((((advance_safe _ s).trans (moveOn_safe _ (.inl flush) rfl ?_ fun _ => pulse)).trans
      (makeDue_safe p _)).trans (settle_safe _))
    nofun
  · exact .stay s

/-! ### The commands of the transmitter -/

theorem takeCandidate_touched {p : SegPort} {c : Candidate} {s t : State} {a : Attempt}
    (h : takeCandidate p c s = some (a, t)) : Touched s t := by
  unfold takeCandidate at h
  split at h
  · obtain ⟨r, -, e⟩ := Option.map_eq_some_iff.mp h
    cases e
    exact (popLane_touched _ _ _).trans (setHolder_touched _ _ _)
  · obtain ⟨n, -, e⟩ := Option.map_eq_some_iff.mp h
    cases e
    exact updateCustody_touched (updateFirst_length _ _ _) (Nat.le_refl _)

theorem beginAttempt_safe {p : SegPort} {c : Candidate} {edge : Ticks} {s t : State} (idle : s.ports[p].rx = .idle)
    (h : beginAttempt p c edge s = some t) : Safe s t := by
  obtain ⟨⟨a, taken⟩, hand, rfl⟩ := Option.map_eq_some_iff.mp h
  have touched := takeCandidate_touched hand
  refine touched.safe.trans (((modPort_safe (.of_off fun off => ?_)).trans (countPort_safe _ _ _ _)).trans (advance_safe _ _))
  have rx : taken.ports[p].rx = .idle := (touched.rx p).trans idle
  have quiet : taken.ports[p].pulse = none := off.2.2.2.2 rx
  exact portOff_of_live (pt := taken.ports[p]) (by rw [rx]; nofun) rfl nofun (fun _ => nofun) nofun
    (fun _ => following_iff.2 ⟨quiet, .inl rfl⟩) nofun off

theorem execAttemptBegin_safe (start : PortStart) (s : State) : SafeStep s (execAttemptBegin start s) := by
  unfold execAttemptBegin
  dsimp only
  split
  next c armed idle =>
    split
    next t begun =>
      obtain ⟨edge, -, begun⟩ := Option.bind_eq_some_iff.mp begun
      exact .next (beginAttempt_safe idle begun)
    · exact .stay s
  · exact .stay s

theorem listenFrom_safe {p : SegPort} (edge : Ticks) {s : State} (idle : s.ports[p].rx = .idle) :
    Safe s (listenFrom p edge s) := by
  unfold listenFrom
  rw [disarm_eq, modPort_modPort]
  refine (advance_safe edge s).trans (modPort_safe (.of_off fun off => ?_))
  have quiet : s.ports[p].pulse = none := off.2.2.2.2 idle
  refine portOff_of_live (pt := s.ports[p]) (by rw [idle]; nofun) rfl nofun (fun live => ?_) (fun c => ?_) (fun _ => ?_) nofun off
  · show s.ports[p].tx.unarmed ≠ .off
    cases e : s.ports[p].tx with
    | off => exact absurd e live
    | idle | armed _ | sending _ | slots _ => nofun
  · change s.ports[p].tx.unarmed.isArmed = true at c
    cases e : s.ports[p].tx <;> rw [e] at c <;> cases c
  · exact following_iff.2 ⟨quiet, .inl rfl⟩

theorem execIdleFallingEdge_safe (p : SegPort) (e : IdleEdge) (s : State) : SafeStep s (execIdleFallingEdge p e s) := by
  unfold execIdleFallingEdge
  dsimp only
  split
  next idle =>
    split
    next t joins =>
      cases armed : s.ports[p].tx with
      | armed c =>
        rw [armed] at joins
        obtain ⟨edge, -, begun⟩ := Option.bind_eq_some_iff.mp joins
        exact .next (beginAttempt_safe idle begun)
      | _ => rw [armed] at joins; cases joins
    · split
      · exact .next (listenFrom_safe _ idle)
      · exact .stay s
  · exact .stay s

theorem execArbitrationLost_safe (p : SegPort) (h : Symbols) (s : State) : SafeStep s (execArbitrationLost p h s) := by
  unfold execArbitrationLost
  split
  next a t _ heard =>
    obtain ⟨safe, -, -⟩ := hearOn_safe heard
    dsimp only
    split
    · exact .next ((((safe.trans (advance_safe _ _)).trans (endAttempt_safe _ _ _)).trans (release_safe _ _)).trans (settle_safe _))
    · exact .stay s
  · exact .stay s

theorem execOverdrive_safe (p : SegPort) (h : Symbols) (s : State) : SafeStep s (execOverdrive p h s) := by
  unfold execOverdrive
  split
  next a t sending heard =>
    obtain ⟨safe, inside, tx⟩ := hearOn_safe heard
    dsimp only
    split
    · have retired := endAttempt_retired p .aborted (s := advance (sampleAt t.ports[p]) t)
        (by show t.ports[p].tx.isArmed = false; rw [tx, sending]; rfl)
      refine .next ((((safe.trans (advance_safe _ _)).trans (endAttempt_safe _ _ _)).trans
        (driveAbort_safe _ _ ?_ ?_ retired)).trans (settle_safe _)) <;> rw [endAttempt_rx]
      · exact following_live inside
      · exact following_busy inside
    · exact .stay s
  · exact .stay s

/-- Inside a frame a port may go on in SLOTS, its transmitter as it was or in its own attempt's slots. -/
theorem inSlots_off {pt q : Port} (inside : following pt = true) (enabled : q.enabled = pt.enabled) (rx : q.rx = .slots)
    (pulse : q.pulse = pt.pulse) (tx : q.tx = pt.tx ∨ ∃ a, q.tx = .slots a) (off : PortOff pt) : PortOff q := by
  have unarmed : pt.tx.isArmed ≠ true := fun c => following_busy inside (off.2.2.1 c)
  refine portOff_of_live (following_live inside) enabled (by rw [rx]; nofun) (fun live => ?_) (fun c => ?_) (fun _ => ?_)
    (fun c => ?_) off
  · rcases tx with e | ⟨a, e⟩ <;> rw [e]
    · exact live
    · nofun
  · rcases tx with e | ⟨a, e⟩ <;> rw [e] at c
    · exact absurd c unarmed
    · cases c
  · exact following_iff.2 ⟨pulse.trans (following_iff.1 inside).1, .inr (.inr (.inr rx))⟩
  · rw [rx] at c; cases c

theorem beginSlot_slots {gap : Ticks} {pt : Port} (h : pt.rx = .slots) : (beginSlot gap pt).rx = .slots := by
  simp [beginSlot, h]

theorem execAcceptSlotEdge_safe (e : PortEdge) (s : State) : SafeStep s (execAcceptSlotEdge e s) := by
  unfold execAcceptSlotEdge
  dsimp only
  split
  next h =>
    obtain ⟨inside, slots, -⟩ := h
    refine .next (Safe.trans (modPort_safe ?_) (advance_safe _ _))
    split
    · exact .of_off (inSlots_off inside rfl (beginSlot_slots (gap := e.gap) slots) rfl (.inr ⟨_, rfl⟩))
    · exact .of_off (inSlots_off inside rfl (beginSlot_slots (gap := e.gap) slots) rfl (.inr ⟨_, rfl⟩))
    all_goals exact .of_off (inSlots_off inside rfl (beginSlot_slots (gap := e.gap) slots) rfl (.inl rfl))
  · exact .stay s

theorem execAttemptEnd_safe (p : SegPort) (low : Option Ticks) (slots : List BitSlot) (early : Option Ticks) (s : State) :
    SafeStep s (execAttemptEnd p low slots early s) := by
  unfold execAttemptEnd
  split
  next a t sending _ heard =>
    obtain ⟨safe, inside, tx⟩ := hearOn_safe heard
    dsimp only
    split
    · exact .next safe
    next at' _ =>
      set o := outcomeOf a.frame.dest (readings t.ports[p].assembly).1 (readings t.ports[p].assembly).2
      have retired := endAttempt_retired p o (s := t) (by rw [tx, sending]; rfl)
      refine .next (((safe.trans (endAttempt_safe p o t)).trans (endFrame_safe _ at' ?_ fun _ => retired)).trans (settle_safe _))
      rw [following_congr (endAttempt_rx p o t) (endAttempt_pulse p o t)]; exact inside
  · exact .stay s

theorem execDeadlineExpiry_safe (i : SlotId) (s : State) : SafeStep s (execDeadlineExpiry i s) := by
  unfold execDeadlineExpiry
  split
  · exact .next (((clock_safe (Nat.le_max_left _ _)).trans (Touched.foldl (expireQueue_touched i) _ _).safe).trans (settle_safe _))
  · exact .stay s

end Sys2Proof.Machine
end

