-- ==== Sys2Proof/Proofs/SafeTrunk.lean ====
section
/-! PROOFS. The commands of the trunk link keep the invariants: what a run of characters leaves of the receiver, what the monitor and
a cut do to the link, and each command step by step. -/

-- One theorem after another: many at once need a thread each.
set_option Elab.async false

namespace Sys2Proof.Machine

/-! ### The link's invariant by its parts -/

/-- What `LinkOk` says of the trunk receiver alone (R144, R145). -/
structure RxOk (rx : TrunkRx) : Prop where
  frame : rx.frame.isSome = true → rx.lock = true
  run : rx.run ≤ 15
  invalid : rx.invalid ≤ 3
  idleR : rx.idleR ≤ 32
  idleS : rx.idleS ≤ 8

/-- What `LinkOk` says at a moment, the monitor's state left aside. -/
structure LineAt (now : Ticks) (k : Trunk) : Prop where
  rx : RxOk k.rx
  line : k.lineStart ≤ now
  idle : k.idleChanged ≤ now
  tx : ∀ f ∈ k.tx, OnBoundary k f.startedAt
  cut : ∀ c ∈ k.cut, OnBoundary k c.startsAt

/-- What `LinkOk` says at a moment, a frame in transmission outside UP left aside: what an entry to SUSPECT makes before the cut. -/
structure LinkBeforeCut (now : Ticks) (k : Trunk) : Prop extends LineAt now k where
  seek : k.link = .seek → k.rx.lock = false
  locked : k.link = .train ∨ k.link = .up → k.rx.lock = true
  hold : k.hold.isSome = true ↔ k.link = .suspect
  down : k.link ≠ .up → k.creditPending = false ∧ k.refresh = none
  credit : k.link = .up → k.creditPending = true ∨ k.refresh.isSome = true
  counts : k.link = .seek ∨ k.link = .train → k.outLimit = 0 ∧ k.sent = 0 ∧ k.nextExpected = 0 ∧ k.advertised = 0

/-- What `LinkOk` says at a moment. -/
structure LinkAt (now : Ticks) (k : Trunk) : Prop extends LinkBeforeCut now k where
  silent : k.link ≠ .up → k.tx = none

theorem linkOk_iff (s : State) : LinkOk s ↔ LinkAt s.now s.trunk where
  mp := fun ⟨seek, locked, hold, down, credit, counts, frame, run, inv, ir, is, line, idle, tx, cut⟩ =>
    ⟨⟨⟨⟨frame, run, inv, ir, is⟩, line, idle, tx, cut⟩, seek, locked, hold, fun h => ⟨(down h).1, (down h).2.1⟩, credit, counts⟩,
      fun h => (down h).2.2⟩
  mpr := fun ⟨⟨⟨⟨frame, run, inv, ir, is⟩, line, idle, tx, cut⟩, seek, locked, hold, down, credit, counts⟩, silent⟩ =>
    ⟨seek, locked, hold, fun h => ⟨(down h).1, (down h).2, silent h⟩, credit, counts, frame, run, inv, ir, is, line, idle, tx, cut⟩

/-- The range of the trunk counters (R179). -/
abbrev TrunkCounts (k : Trunk) : Prop := ∀ c : Fin 10, k.counters[c] ≤ counterMax

/-- A change of the trunk link that keeps what each invariant says of it. -/
theorem modTrunk_safe {f : Trunk → Trunk} {s : State} (hold : (f s.trunk).suspectHold = s.trunk.suspectHold)
    (counters : TrunkCounts s.trunk → TrunkCounts (f s.trunk))
    (response : (f s.trunk).response = s.trunk.response ∨ (f s.trunk).response = none)
    (link : LinkAt s.now s.trunk → LinkAt s.now (f s.trunk)) : Safe s (modTrunk f s) where
  epochs := id
  counters := fun ⟨ports, trunk, rest⟩ => ⟨ports, counters trunk, rest⟩
  settings := by unfold SettingsOk; rw [modTrunk_trunk, hold]; exact id
  nodes := id
  capacity := id
  events := id
  commit := by
    rintro ⟨runs, due, lanes, busy, drop⟩
    refine ⟨runs, due, lanes, fun e => ⟨(busy e).1, ?_⟩, drop⟩
    rw [modTrunk_trunk]
    rcases response with h | h
    · rw [h]; exact (busy e).2
    · exact h
  link := by rw [linkOk_iff, linkOk_iff]; exact link
  ports := id

/-- A change of the trunk link that leaves all that `LinkOk` reads, but for what is not limited there. -/
theorem LinkAt.of_eq {now : Ticks} {k l : Trunk} (h : LinkAt now k) (link : l.link = k.link) (rx : l.rx = k.rx)
    (hold : l.hold = k.hold) (credit : l.creditPending = k.creditPending) (refresh : l.refresh = k.refresh)
    (counts : l.outLimit = k.outLimit ∧ l.sent = k.sent ∧ l.nextExpected = k.nextExpected ∧ l.advertised = k.advertised)
    (start : l.lineStart = k.lineStart) (idle : l.idleChanged = k.idleChanged) (tx : l.tx = k.tx) (cut : l.cut = k.cut) :
    LinkAt now l := by
  obtain ⟨o, n, x, a⟩ := counts
  refine ⟨⟨⟨?_, ?_, ?_, ?_, ?_⟩, ?_, ?_, ?_, ?_, ?_, ?_⟩, ?_⟩
  · rw [rx]; exact h.rx
  · rw [start]; exact h.line
  · rw [idle]; exact h.idle
  · rw [tx]; unfold OnBoundary; rw [start]; exact h.tx
  · rw [cut]; unfold OnBoundary; rw [start]; exact h.cut
  · rw [link, rx]; exact h.seek
  · rw [link, rx]; exact h.locked
  · rw [link, hold]; exact h.hold
  · rw [link, credit, refresh]; exact h.down
  · rw [link, credit, refresh]; exact h.credit
  · rw [link, o, n, x, a]; exact h.counts
  · rw [link, tx]; exact h.silent

/-- `retune` is the change of the trunk link, and of the two fields that keep the kind of the idle character in progress. -/
theorem retune_eq (f : Trunk → Trunk) (s : State) : ∃ (changed : Ticks) (wasR : Bool),
    (changed = (f s.trunk).idleChanged ∨ changed = s.now) ∧
      retune f s = modTrunk (fun t => { f t with idleChanged := changed, idleWasR := wasR }) s := by
  unfold retune
  by_cases h : sendsIdleR (f s.trunk) = sendsIdleR s.trunk
  · exact ⟨_, (f s.trunk).idleWasR, .inl rfl, by simp only [modTrunk, h, if_true]⟩
  · exact ⟨s.now, idleIsR s.trunk s.now, .inr rfl, by simp only [modTrunk, h, if_false]⟩

/-- The note of a change of the idles keeps the link's invariant. -/
theorem LineAt.retuned {now : Ticks} {k : Trunk} (h : LineAt now k) {changed : Ticks} (wasR : Bool)
    (e : changed = k.idleChanged ∨ changed = now) : LineAt now { k with idleChanged := changed, idleWasR := wasR } where
  rx := h.rx
  line := h.line
  idle := by
    rcases e with rfl | rfl
    · exact h.idle
    · exact Nat.le_refl _
  tx := h.tx
  cut := h.cut

theorem LinkAt.retuned {now : Ticks} {k : Trunk} (h : LinkAt now k) {changed : Ticks} (wasR : Bool)
    (e : changed = k.idleChanged ∨ changed = now) : LinkAt now { k with idleChanged := changed, idleWasR := wasR } where
  toLineAt := h.toLineAt.retuned wasR e
  seek := h.seek
  locked := h.locked
  hold := h.hold
  down := h.down
  credit := h.credit
  counts := h.counts
  silent := h.silent

theorem retune_safe {f : Trunk → Trunk} {s : State} (hold : (f s.trunk).suspectHold = s.trunk.suspectHold)
    (counters : TrunkCounts s.trunk → TrunkCounts (f s.trunk))
    (response : (f s.trunk).response = s.trunk.response ∨ (f s.trunk).response = none)
    (link : LinkAt s.now s.trunk → LinkAt s.now (f s.trunk)) : Safe s (retune f s) := by
  obtain ⟨changed, wasR, e, eq⟩ := retune_eq f s
  rw [eq]
  exact modTrunk_safe hold counters response fun h => (link h).retuned wasR e

/-! ### What a run of characters leaves of the receiver (R144, R145, R152) -/

theorem RxOk.clearIdles {rx : TrunkRx} (h : RxOk rx) : RxOk (clearIdles rx) :=
  ⟨h.frame, h.run, h.invalid, Nat.zero_le _, Nat.zero_le _⟩

theorem RxOk.advanceRun {rx : TrunkRx} (h : RxOk rx) : RxOk (advanceRun rx) := by
  obtain ⟨frame, run, invalid, ir, is⟩ := h
  unfold Machine.advanceRun
  split
  · exact ⟨frame, Nat.zero_le _, Nat.zero_le _, ir, is⟩
  · exact ⟨frame, by simp only; omega, invalid, ir, is⟩

theorem advanceRun_lock (rx : TrunkRx) : (advanceRun rx).lock = rx.lock := by unfold advanceRun; split <;> rfl

theorem advanceRun_frame (rx : TrunkRx) : (advanceRun rx).frame = rx.frame := by unfold advanceRun; split <;> rfl

/-- A receiver in lock may hold any octets of a frame. -/
theorem RxOk.frame_of_lock {rx : TrunkRx} (h : RxOk rx) (lock : rx.lock = true) (os : Option (List Octet)) :
    RxOk { rx with frame := os } := ⟨fun _ => lock, h.run, h.invalid, h.idleR, h.idleS⟩

theorem RxOk.no_frame {rx : TrunkRx} (h : RxOk rx) : RxOk { rx with frame := none } := ⟨nofun, h.run, h.invalid, h.idleR, h.idleS⟩

theorem idleChar_ok (link : LinkState) (ready : Bool) {rx : TrunkRx} (h : RxOk rx) :
    RxOk (idleChar link ready rx).1 ∧ (idleChar link ready rx).1.lock = rx.lock := by
  obtain ⟨frame, run, invalid, ir, is⟩ := h
  have left : RxOk { rx with idleR := min (rx.idleR + 1) 32, idleS := 0 } :=
    ⟨frame, run, invalid, Nat.min_le_right _ _, Nat.zero_le _⟩
  have right : RxOk { rx with idleR := 0, idleS := min (rx.idleS + 1) 8 } :=
    ⟨frame, run, invalid, Nat.zero_le _, Nat.min_le_right _ _⟩
  unfold idleChar
  cases ready <;> dsimp only <;> split
  · exact ⟨right.no_frame, rfl⟩
  · exact ⟨right, rfl⟩
  · exact ⟨left.no_frame, rfl⟩
  · exact ⟨left, rfl⟩

theorem frameChar_ok (link : LinkState) (c : TrunkChar) {rx : TrunkRx} (h : RxOk rx) (lock : rx.lock = true) :
    RxOk (frameChar link c rx).1 ∧ (frameChar link c rx).1.lock = true := by
  have clear := h.clearIdles
  have any (os : Option (List Octet)) : RxOk { clearIdles rx with frame := os } ∧ { clearIdles rx with frame := os }.lock = true :=
    ⟨clear.frame_of_lock lock os, lock⟩
  unfold frameChar
  split
  · rw [← lock]; exact idleChar_ok _ _ h
  · rw [← lock]; exact idleChar_ok _ _ h
  · exact any _
  · exact any _
  · split
    · exact any _
    · dsimp only
      split
      · split <;> exact any _
      · exact any _
  · exact any _
  · exact any _
  · exact ⟨clear, lock⟩
  · exact ⟨clear, lock⟩
  · exact ⟨clear, lock⟩
  · exact ⟨h, lock⟩

/-- What an event says of lock: gained from no lock, lost with every count gone, or any other in lock. -/
def LockAfter (rx : TrunkRx) : RxEvent → TrunkRx → Prop
  | .lockGained, rx' => rx.lock = false ∧ rx'.lock = true
  | .lockLost _, rx' => rx.lock = true ∧ rx' = ⟨false, 0, 0, 0, 0, none⟩
  | .idleR32, rx' | .idleS8, rx' | .frameEnded _, rx' => rx.lock = true ∧ rx'.lock = true

theorem lockAfter_of_frame {rx rx' : TrunkRx} {e : RxEvent} (a : rx.lock = true) (b : rx'.lock = true) (gained : e ≠ .lockGained)
    (lost : ∀ x, e ≠ .lockLost x) : LockAfter rx e rx' := by
  cases e with
  | lockGained => exact absurd rfl gained
  | lockLost x => exact absurd rfl (lost x)
  | idleR32 | idleS8 | frameEnded _ => exact ⟨a, b⟩

theorem idleChar_event (link : LinkState) (ready : Bool) (rx : TrunkRx) (e : RxEvent) (h : (idleChar link ready rx).2 = some e) :
    e ≠ .lockGained ∧ ∀ x, e ≠ .lockLost x := by
  unfold idleChar at h
  dsimp only at h
  repeat' split at h
  all_goals cases h <;> exact ⟨nofun, nofun⟩

theorem frameChar_event (link : LinkState) (c : TrunkChar) (rx : TrunkRx) (e : RxEvent) (h : (frameChar link c rx).2 = some e) :
    e ≠ .lockGained ∧ ∀ x, e ≠ .lockLost x := by
  unfold frameChar at h
  split at h
  · exact idleChar_event _ _ _ _ h
  · exact idleChar_event _ _ _ _ h
  all_goals
    dsimp only at h
    repeat' split at h
    all_goals cases h <;> exact ⟨nofun, nofun⟩

/-- One character keeps the receiver's ranges; lock changes only with its event (R144). -/
theorem rxChar_ok (link : LinkState) (c : TrunkChar) {rx : TrunkRx} (h : RxOk rx) :
    RxOk (rxChar link c rx).1 ∧ ((rxChar link c rx).2 = none → (rxChar link c rx).1.lock = rx.lock) ∧
      ∀ e, (rxChar link c rx).2 = some e → LockAfter rx e (rxChar link c rx).1 := by
  have run := h.run
  have invalid := h.invalid
  unfold rxChar
  split
  next lock =>
    split
    · split
      · refine ⟨⟨nofun, Nat.zero_le _, Nat.zero_le _, Nat.zero_le _, Nat.zero_le _⟩, nofun, ?_⟩
        rintro e ⟨⟩
        exact ⟨lock, rfl⟩
      · refine ⟨⟨nofun, Nat.zero_le _, ?_, Nat.zero_le _, Nat.zero_le _⟩, fun _ => rfl, fun e he => ?_⟩
        · show rx.invalid + 1 ≤ 3; omega
        · dsimp only at he
          split at he
          · cases he; exact ⟨lock, lock⟩
          · cases he
    · have frame := frameChar_ok link c h.advanceRun ((advanceRun_lock rx).trans lock)
      refine ⟨frame.1, fun _ => frame.2.trans lock.symm, fun e he => ?_⟩
      obtain ⟨gained, lost⟩ := frameChar_event _ _ _ _ he
      exact lockAfter_of_frame lock frame.2 gained lost
  next out =>
    have open' : rx.lock = false := Bool.eq_false_iff.2 out
    split
    · exact ⟨⟨h.frame, Nat.zero_le _, invalid, h.idleR, h.idleS⟩, fun _ => rfl, nofun⟩
    · split
      · refine ⟨⟨fun _ => rfl, Nat.zero_le _, Nat.zero_le _, h.idleR, h.idleS⟩, nofun, ?_⟩
        rintro e ⟨⟩
        exact ⟨open', rfl⟩
      · refine ⟨⟨h.frame, ?_, invalid, h.idleR, h.idleS⟩, fun _ => rfl, nofun⟩
        show rx.run + 1 ≤ 15; omega

theorem LockAfter.of_lock {rx rx₀ rx' : TrunkRx} {e : RxEvent} (h : LockAfter rx e rx') (lock : rx.lock = rx₀.lock) :
    LockAfter rx₀ e rx' := by
  cases e <;> exact ⟨lock ▸ h.1, h.2⟩

/-- A run of characters keeps the receiver's ranges; without an event it keeps lock, and an event says what it does to lock. -/
theorem hear_ok (link : LinkState) (cs : List TrunkChar) {rx : TrunkRx} (h : RxOk rx) :
    (∀ rx', hear link rx cs = .quiet rx' → RxOk rx' ∧ rx'.lock = rx.lock) ∧
      ∀ rx' e, hear link rx cs = .event rx' e → RxOk rx' ∧ LockAfter rx e rx' := by
  induction cs generalizing rx with
  | nil => exact ⟨by rintro rx' ⟨⟩; exact ⟨h, rfl⟩, nofun⟩
  | cons c cs ih =>
    obtain ⟨ok, same, event⟩ := rxChar_ok link c h
    unfold hear
    split
    next rx₁ e₁ =>
      rw [e₁] at ok same
      obtain ⟨quiet, ends⟩ := ih ok
      refine ⟨fun rx' hq => ?_, fun rx' e he => ?_⟩
      · exact ⟨(quiet rx' hq).1, (quiet rx' hq).2.trans (same rfl)⟩
      · exact ⟨(ends rx' e he).1, (ends rx' e he).2.of_lock (same rfl)⟩
    next rx₁ e e₁ =>
      rw [e₁] at ok event
      split
      · refine ⟨nofun, ?_⟩
        rintro rx' e' ⟨⟩
        exact ⟨ok, event e rfl⟩
      · exact ⟨nofun, nofun⟩

/-- A receiver with other counts, in lock as it was. -/
theorem LinkAt.hears {now : Ticks} {k : Trunk} (h : LinkAt now k) {rx : TrunkRx} (ok : RxOk rx) (lock : rx.lock = k.rx.lock) :
    LinkAt now { k with rx := rx } where
  seek := by rw [lock]; exact h.seek
  locked := by rw [lock]; exact h.locked
  hold := h.hold
  down := h.down
  credit := h.credit
  counts := h.counts
  rx := ok
  line := h.line
  idle := h.idle
  tx := h.tx
  cut := h.cut
  silent := h.silent

/-- Characters without lock's change, where the receiver's ranges held before. -/
theorem setTrunkRx_safe {rx : TrunkRx} {s : State} (ok : RxOk s.trunk.rx → RxOk rx ∧ rx.lock = s.trunk.rx.lock) :
    Safe s (setTrunkRx rx s) :=
  retune_safe rfl id (.inl rfl) fun h => h.hears (ok h.rx).1 (ok h.rx).2

theorem heardOther_safe (chars : List TrunkChar) (s : State) : SafeStep s (heardOther (heard chars s) s) := by
  unfold heardOther
  split
  next rx quiet => exact .next (setTrunkRx_safe fun h => (hear_ok _ chars h).1 rx quiet)
  · exact .stay s
  · exact .stay s

/-! ### The link monitor (R145 to R150) -/

/-- The monitor changes state after a change of the link, in one change of the link. -/
theorem setLink_modTrunk (l : LinkState) (f : Trunk → Trunk) (s : State) : ∃ (changed : Ticks) (wasR : Bool),
    (changed = (f s.trunk).idleChanged ∨ changed = s.now) ∧
      setLink l (modTrunk f s) =
        modTrunk (fun t => { f t with link := l, rx := clearIdles (f t).rx, idleChanged := changed, idleWasR := wasR }) s :=
  retune_eq (fun t => { t with link := l, rx := clearIdles t.rx }) (modTrunk f s)

theorem setLink_modTrunk_safe {l : LinkState} {f : Trunk → Trunk} {s : State}
    (hold : (f s.trunk).suspectHold = s.trunk.suspectHold) (counters : TrunkCounts s.trunk → TrunkCounts (f s.trunk))
    (response : (f s.trunk).response = s.trunk.response ∨ (f s.trunk).response = none)
    (link : LinkAt s.now s.trunk → LinkAt s.now { f s.trunk with link := l, rx := clearIdles (f s.trunk).rx }) :
    Safe s (setLink l (modTrunk f s)) := by
  obtain ⟨changed, wasR, e, eq⟩ := setLink_modTrunk l f s
  rw [eq]
  exact modTrunk_safe hold counters response fun h => (link h).retuned wasR e

theorem setTrunkRx_eq (rx : TrunkRx) (s : State) : ∃ (changed : Ticks) (wasR : Bool),
    (changed = s.trunk.idleChanged ∨ changed = s.now) ∧
      setTrunkRx rx s = modTrunk (fun t => { t with rx := rx, idleChanged := changed, idleWasR := wasR }) s :=
  retune_eq (fun t => { t with rx := rx }) s

/-- The line goes on with another receiver. -/
theorem LineAt.hears {now : Ticks} {k : Trunk} (h : LineAt now k) {rx : TrunkRx} (ok : RxOk rx) : LineAt now { k with rx := rx } :=
  ⟨ok, h.line, h.idle, h.tx, h.cut⟩

/-- The frame in transmission, if there is one, ended with CUT (R163). -/
def cutTrunk (now : Ticks) (k : Trunk) : Trunk :=
  match k.tx with
  | none => k
  | some f =>
    { k with
      tx := none, cut := some ⟨f, nextCharacter f.startedAt now⟩, nextStart := nextCharacter f.startedAt now + 2 * characterTime
      counters := modAt k.counters TrunkCounter.cutFrames.index (saturate · 1) }

theorem cutFrame_eq (s : State) : cutFrame s = modTrunk (cutTrunk s.now) s := by
  unfold cutFrame
  cases h : s.trunk.tx with
  | none => simp only [modTrunk, cutTrunk, h]
  | some f => simp only [countTrunk, modTrunk, cutTrunk, h]

theorem cutTrunk_hold (now : Ticks) (k : Trunk) : (cutTrunk now k).suspectHold = k.suspectHold := by
  unfold cutTrunk; split <;> rfl

theorem cutTrunk_response (now : Ticks) (k : Trunk) : (cutTrunk now k).response = k.response := by
  unfold cutTrunk; split <;> rfl

theorem cutTrunk_counts (now : Ticks) {k : Trunk} (h : TrunkCounts k) : TrunkCounts (cutTrunk now k) := by
  unfold cutTrunk
  split
  · exact h
  · exact forall_modAt (P := (· ≤ counterMax)) h fun _ => saturate_le _ _

/-- A whole number of characters after a boundary there is a boundary. -/
theorem add_boundary {a b : Nat} (n : Nat) (h : a ≤ b ∧ (b - a) % 20 = 0) : a ≤ b + n * 20 ∧ (b + n * 20 - a) % 20 = 0 := by omega

theorem nextCharacter_boundary {k : Trunk} {start : Ticks} (now : Ticks) (h : OnBoundary k start) :
    OnBoundary k (nextCharacter start now) := add_boundary _ h

/-- With the frame in transmission cut, the link's invariant is whole (R163). -/
theorem LinkBeforeCut.cutTrunk {now : Ticks} {k : Trunk} (h : LinkBeforeCut now k) : LinkAt now (cutTrunk now k) := by
  unfold Machine.cutTrunk
  split
  next none => exact ⟨h, fun _ => none⟩
  next f some =>
    refine ⟨⟨⟨h.rx, h.line, h.idle, nofun, ?_⟩, h.seek, h.locked, h.hold, h.down, h.credit, h.counts⟩, fun _ => rfl⟩
    intro c hc
    cases hc
    exact nextCharacter_boundary now (h.tx f some)

theorem cutFrame_safe (s : State) : Safe s (cutFrame s) := by
  rw [cutFrame_eq]
  exact modTrunk_safe (cutTrunk_hold _ _) (cutTrunk_counts _) (.inl (cutTrunk_response _ _)) fun h => h.toLinkBeforeCut.cutTrunk

/-- What becomes of what a frame carried, by its kind, once it is cut at entry to SUSPECT (R125, R141, R163, R186). -/
def afterCut (tx : Option TxFrame) (s : State) : State :=
  match tx.map TxFrame.kind with
  | some .data | some .trap => cutReference s
  | some .report => unmarkReport s
  | some .event => eventCut s
  | some .credit | some .mgmtRsp | none => s

theorem cutForSuspect_eq (s : State) : cutForSuspect s = afterCut s.trunk.tx (modTrunk (cutTrunk s.now) s) := by
  rw [← cutFrame_eq]
  unfold cutForSuspect afterCut
  cases h : s.trunk.tx with
  | none => unfold cutFrame; rw [h]; rfl
  | some f => cases hk : f.kind <;> simp only [Option.map_some, hk]

theorem unmarkReport_touched (s : State) : Touched s (unmarkReport s) :=
  updateCustody_touched (Nat.le_refl _) (List.length_map _).le

theorem eventCut_safe (s : State) : Safe s (eventCut s) := by
  refine modEvents_safe _ _ (by rw [List.length_map]; exact id) fun h => ?_
  refine eventsOk_map _ (fun e ok => ?_) (fun e => ?_) (fun e => ?_) (fun e => ?_) h
  · obtain ⟨o1, o2, det, f1, f2, quiet⟩ := ok
    split
    · exact ⟨by simp only; omega, Nat.min_le_right _ _, det, Nat.zero_le _, f2, fun _ => rfl⟩
    · exact ⟨o1, o2, det, f1, f2, quiet⟩
  all_goals split
  · rfl
  · rfl
  · rfl
  · rfl
  · nofun
  · exact id

theorem afterCut_safe (tx : Option TxFrame) (s : State) : Safe s (afterCut tx s) := by
  unfold afterCut
  split
  · exact (cutReference_touched s).safe
  · exact (cutReference_touched s).safe
  · exact (unmarkReport_touched s).safe
  · exact eventCut_safe s
  all_goals rfl

/-- Entry to SUSPECT after a change of the link, in one change of the link and what becomes of the frame in transmission (R148). -/
theorem enterSuspect_modTrunk (f : Trunk → Trunk) (s : State) : ∃ (changed : Ticks) (wasR : Bool),
    (changed = (f s.trunk).idleChanged ∨ changed = s.now) ∧
      enterSuspect (modTrunk f s) = afterCut (f s.trunk).tx (modTrunk (fun t => cutTrunk s.now { f t with
        link := .suspect, rx := clearIdles { (f t).rx with frame := none }
        hold := some ⟨s.now, s.now + (f t).suspectHold * millisecond⟩, creditPending := false, refresh := none
        idleChanged := changed, idleWasR := wasR }) s) := by
  obtain ⟨changed, wasR, e, eq⟩ := setLink_modTrunk .suspect (fun t => { f t with
    hold := some ⟨s.now, s.now + (f t).suspectHold * millisecond⟩
    creditPending := false, refresh := none, rx := { (f t).rx with frame := none } }) s
  refine ⟨changed, wasR, e, ?_⟩
  show cutForSuspect (setLink .suspect _) = _
  rw [cutForSuspect_eq]
  erw [eq]
  rfl

theorem enterSuspect_modTrunk_safe {f : Trunk → Trunk} {s : State} (hold : (f s.trunk).suspectHold = s.trunk.suspectHold)
    (counters : TrunkCounts s.trunk → TrunkCounts (f s.trunk))
    (response : (f s.trunk).response = s.trunk.response ∨ (f s.trunk).response = none)
    (line : LinkAt s.now s.trunk → LineAt s.now (f s.trunk)) : Safe s (enterSuspect (modTrunk f s)) := by
  obtain ⟨changed, wasR, e, eq⟩ := enterSuspect_modTrunk f s
  rw [eq]
  refine Safe.trans ?_ (afterCut_safe _ _)
  refine modTrunk_safe ?_ ?_ ?_ fun h => LinkBeforeCut.cutTrunk ?_
  · rw [cutTrunk_hold]; exact hold
  · exact fun h => cutTrunk_counts _ (counters h)
  · rw [cutTrunk_response]; exact response
  · have l := (line h).retuned wasR e
    exact {
      rx := l.rx.no_frame.clearIdles
      line := l.line
      idle := l.idle
      tx := l.tx
      cut := l.cut
      seek := nofun
      locked := by rintro (h | h) <;> cases h
      hold := ⟨fun _ => rfl, fun _ => rfl⟩
      down := fun _ => ⟨rfl, rfl⟩
      credit := nofun
      counts := by rintro (h | h) <;> cases h }

/-! ### The commands of the receiver and the monitor -/

/-- What the characters of a command leave, where they end with an event. -/
theorem heard_event {chars : List TrunkChar} {s : State} {rx : TrunkRx} {e : RxEvent} (h : heard chars s = .event rx e)
    (ok : RxOk s.trunk.rx) : RxOk rx ∧ LockAfter s.trunk.rx e rx := (hear_ok _ chars ok).2 rx e h

theorem execLockGained_safe (chars : List TrunkChar) (s : State) : SafeStep s (execLockGained chars s) := by
  unfold execLockGained
  split
  next rx gained =>
    obtain ⟨changed, wasR, e, eq⟩ := setTrunkRx_eq rx s
    rw [eq]
    refine .next ?_
    split
    next seek =>
      refine setLink_modTrunk_safe rfl id (.inl rfl) fun h => ?_
      obtain ⟨ok, -, lock⟩ := heard_event gained h.rx
      have silent : s.trunk.link ≠ .up := by rw [seek]; nofun
      have noHold : s.trunk.hold.isSome ≠ true := fun c => by cases seek.symm.trans (h.hold.1 c)
      have line := (h.toLineAt.hears ok.clearIdles).retuned wasR e
      exact {
        toLineAt := ⟨line.rx, line.line, line.idle, line.tx, line.cut⟩
        seek := nofun
        locked := fun _ => lock
        hold := ⟨fun c => absurd c noHold, nofun⟩
        down := fun _ => h.down silent
        credit := nofun
        counts := fun _ => h.counts (.inl seek)
        silent := fun _ => h.silent silent }
    next other =>
      refine modTrunk_safe rfl id (.inl rfl) fun h => ?_
      obtain ⟨ok, -, lock⟩ := heard_event gained h.rx
      have line := (h.toLineAt.hears ok).retuned wasR e
      exact {
        toLineAt := ⟨line.rx, line.line, line.idle, line.tx, line.cut⟩
        seek := fun c => absurd c other
        locked := fun _ => lock
        hold := h.hold
        down := h.down
        credit := h.credit
        counts := h.counts
        silent := h.silent }
  · exact heardOther_safe chars s

theorem execLockLost_safe (chars : List TrunkChar) (s : State) : SafeStep s (execLockLost chars s) := by
  unfold execLockLost
  split
  next rx abandoned lostLock =>
    obtain ⟨changed, wasR, e, eq⟩ := setTrunkRx_eq rx s
    rw [eq]
    have counts (h : TrunkCounts s.trunk) (n : Nat) :
        TrunkCounts { s.trunk with counters := modAt s.trunk.counters TrunkCounter.checkErrors.index (saturate · n) } :=
      forall_modAt (P := (· ≤ counterMax)) h fun _ => saturate_le _ _
    have line (h : LinkAt s.now s.trunk) :
        LineAt s.now { s.trunk with rx := rx, idleChanged := changed, idleWasR := wasR } :=
      (h.toLineAt.hears (heard_event lostLock h.rx).1).retuned wasR e
    have fell (h : LinkAt s.now s.trunk) : s.trunk.rx.lock = true ∧ rx.lock = false := by
      obtain ⟨-, lock, rfl⟩ := heard_event lostLock h.rx
      exact ⟨lock, rfl⟩
    refine .next ?_
    split
    next train =>
      refine setLink_modTrunk_safe (f := fun t =>
        { t with rx := rx, idleChanged := changed, idleWasR := wasR
                 counters := modAt t.counters TrunkCounter.checkErrors.index (saturate · abandoned.toNat) })
        rfl (counts · _) (.inl rfl) fun h => ?_
      have silent : s.trunk.link ≠ .up := by rw [train]; nofun
      have noHold : s.trunk.hold.isSome ≠ true := fun c => by cases train.symm.trans (h.hold.1 c)
      exact {
        toLineAt := ⟨(line h).rx.clearIdles, (line h).line, (line h).idle, (line h).tx, (line h).cut⟩
        seek := fun _ => (fell h).2
        locked := by rintro (c | c) <;> cases c
        hold := ⟨fun c => absurd c noHold, nofun⟩
        down := fun _ => h.down silent
        credit := nofun
        counts := fun _ => h.counts (.inr train)
        silent := fun _ => h.silent silent }
    next up =>
      refine Safe.trans (enterSuspect_modTrunk_safe (f := fun t =>
        { t with rx := rx, idleChanged := changed, idleWasR := wasR
                 counters := modAt t.counters TrunkCounter.checkErrors.index (saturate · abandoned.toNat) })
        rfl (counts · _) (.inl rfl) fun h => ?_) (settle_safe _)
      exact ⟨(line h).rx, (line h).line, (line h).idle, (line h).tx, (line h).cut⟩
    all_goals
      next other =>
        refine (modTrunk_safe rfl id (.inl rfl) fun h => ?_).trans (countTrunk_safe _ _ _)
        exact {
          toLineAt := ⟨(line h).rx, (line h).line, (line h).idle, (line h).tx, (line h).cut⟩
          seek := fun _ => (fell h).2
          locked := by rw [other]; rintro (c | c) <;> cases c
          hold := h.hold
          down := h.down
          credit := h.credit
          counts := h.counts
          silent := h.silent }
  · exact heardOther_safe chars s

theorem execFreshUp_safe (chars : List TrunkChar) (s : State) : SafeStep s (execFreshUp chars s) := by
  unfold execFreshUp
  split
  next rx ready train =>
    refine .next ((setLink_modTrunk_safe rfl id (.inl rfl) fun h => ?_).trans (countTrunk_safe _ _ _))
    obtain ⟨ok, -, lock⟩ := heard_event ready h.rx
    have noHold : s.trunk.hold.isSome ≠ true := fun c => by cases train.symm.trans (h.hold.1 c)
    exact {
      toLineAt := ⟨ok.clearIdles, h.line, h.idle, h.tx, h.cut⟩
      seek := nofun
      locked := fun _ => lock
      hold := ⟨fun c => absurd c noHold, nofun⟩
      down := fun c => absurd rfl c
      credit := fun _ => .inl rfl
      counts := by rintro (c | c) <;> cases c
      silent := fun c => absurd rfl c }
  · exact heardOther_safe chars s

theorem execEnterSuspect_safe (chars : List TrunkChar) (s : State) : SafeStep s (execEnterSuspect chars s) := by
  unfold execEnterSuspect
  split
  next rx idles =>
    obtain ⟨changed, wasR, e, eq⟩ := setTrunkRx_eq rx s
    rw [eq]
    exact .next ((enterSuspect_modTrunk_safe rfl id (.inl rfl) fun h =>
      (h.toLineAt.hears (heard_event idles h.rx).1).retuned wasR e).trans (settle_safe _))
  · exact heardOther_safe chars s

theorem execResume_safe (chars : List TrunkChar) (s : State) : SafeStep s (execResume chars s) := by
  unfold execResume
  split
  next rx _ ready suspect _ =>
    refine .next ((setLink_modTrunk_safe rfl id (.inl rfl) fun h => ?_).trans (raise_safe _ _ _ _))
    obtain ⟨ok, -, lock⟩ := heard_event ready h.rx
    exact {
      toLineAt := ⟨ok.clearIdles, h.line, h.idle, h.tx, h.cut⟩
      seek := nofun
      locked := fun _ => lock
      hold := ⟨nofun, nofun⟩
      down := fun c => absurd rfl c
      credit := fun _ => .inl rfl
      counts := by rintro (c | c) <;> cases c
      silent := fun c => absurd rfl c }
  · exact heardOther_safe chars s

/-- Trimming moves frame slots, and makes free choices (R114). -/
theorem trimBy_safe (n : Nat) (s : State) : Safe s (trimBy n s) := by
  induction n generalizing s with
  | zero => exact Safe.refl s
  | succ n ih =>
    unfold trimBy
    split
    · rfl
    · have chosen : Safe s { s with freeCount := s.freeCount + 1 } := ⟨⟨id, id, id, id, id, id, id, id⟩, id⟩
      exact ((chosen.trans (modSlot_safe _ _ _)).trans (modPool_safe _ _ rfl rfl)).trans (ih _)

theorem trim_safe (s : State) : Safe s (trim s) := trimBy_safe _ s

/-- The waiting requests are discarded, and the request in execution is marked (R150). -/
theorem discardRequests_safe (s : State) : Safe s (modAgent (fun a =>
    if a.executing then { a with buffers := a.buffers.take 1, dropMark := true } else { a with buffers := [] }) s) where
  epochs := id
  counters := id
  settings := id
  nodes := id
  capacity := by
    rintro ⟨n, r, e, b⟩
    refine ⟨n, r, e, ?_⟩
    rw [modAgent_agent]
    split
    · exact (List.length_take_le _ _).trans (by omega)
    · exact Nat.zero_le _
  events := id
  commit := by
    rintro ⟨runs, due, lanes, busy, drop⟩
    unfold CommitOk
    rw [modAgent_agent]
    split
    next executing =>
      refine ⟨runs, due, lanes, fun e => ⟨?_, (busy e).2⟩, fun _ => executing⟩
      rw [Ne, List.take_eq_nil_iff, not_or]
      exact ⟨nofun, (busy executing).1⟩
    next free => exact ⟨runs, due, lanes, fun e => absurd e free, drop⟩
  ports := id
  link := id

theorem downProcessing_safe {s : State} (suspect : s.trunk.link = .suspect) : Safe s (downProcessing s) := by
  have marked := markPending_touched trunkPort (fun _ => true) .linkDown s
  have flushed := marked.trans (sweepLanes_touched trunkPort (fun _ => true) .linkDown _)
  unfold downProcessing
  dsimp only
  generalize sweepLanes trunkPort (fun _ => true) .linkDown (markPending trunkPort (fun _ => true) .linkDown s) = u at *
  have link : u.trunk.link = .suspect := by rw [flushed.kept.trunk]; exact suspect
  have reports := (flushed.safe.trans (updateCustody_touched (f := fun c => { c with reports := [] }) (s := u) (Nat.le_refl _)
    (Nat.zero_le _)).safe).trans (countTrunk_safe .reportsLost u.custody.reports.length _)
  refine ((reports.trans (discardRequests_safe _)).trans (setLink_modTrunk_safe rfl id (.inr rfl) fun h => ?_)).trans (trim_safe _)
  have down := h.down (by rw [modAgent_trunk]; erw [link]; nofun)
  have silent := h.silent (by rw [modAgent_trunk]; erw [link]; nofun)
  refine {
    toLineAt := ⟨h.rx.clearIdles, h.line, h.idle, h.tx, h.cut⟩
    seek := ?_
    locked := ?_
    hold := ⟨nofun, ?_⟩
    down := fun _ => ⟨rfl, rfl⟩
    credit := ?_
    counts := fun _ => ⟨rfl, rfl, rfl, rfl⟩
    silent := fun _ => silent }
  · dsimp only
    split
    · nofun
    next out => exact fun _ => Bool.eq_false_iff.2 out
  · dsimp only
    split
    next lock => exact fun _ => lock
    · rintro (c | c) <;> cases c
  all_goals
    dsimp only
    split <;> nofun

theorem execHoldTimerExpiry_safe (s : State) : SafeStep s (execHoldTimerExpiry s) := by
  unfold execHoldTimerExpiry
  split
  next suspect _ =>
    exact .next (((clock_safe (Nat.le_max_left _ _)).trans (downProcessing_safe suspect)).trans (settle_safe _))
  · exact .stay s

theorem execRefreshTimerExpiry_safe (s : State) : SafeStep s (execRefreshTimerExpiry s) := by
  unfold execRefreshTimerExpiry
  split
  next up _ =>
    refine .next ((clock_safe (Nat.le_max_left _ _)).trans (modTrunk_safe rfl id (.inl rfl) fun h => ?_))
    exact { h with
      down := fun c => absurd up c
      credit := fun _ => .inl rfl }
  · exact .stay s

end Sys2Proof.Machine
end

