-- ==== Sys2Proof/Proofs/SafeFrames.lean ====
section
/-! PROOFS. The commands that receive, route and send trunk frames, and the commands of a commit, keep the invariants. -/

-- One theorem after another: many at once need a thread each.
set_option Elab.async false

namespace Sys2Proof.Machine

/-! ### Received frames (R152 to R155) -/

/-- A request joins the buffers while one is empty (R165). -/
theorem offerRequest_safe (r : Request) (s : State) : Safe s (offerRequest r s) := by
  unfold offerRequest
  split
  next room =>
    exact {
      epochs := id
      counters := id
      settings := id
      nodes := id
      capacity := fun ⟨n, l, e, _⟩ => ⟨n, l, e, by rw [modAgent_agent, List.length_append, List.length_singleton]; exact room⟩
      events := id
      commit := fun ⟨runs, due, lanes, busy, drop⟩ =>
        ⟨runs, due, lanes, fun e => ⟨List.append_ne_nil_of_left_ne_nil (busy e).1 _, (busy e).2⟩, drop⟩
      ports := id
      link := id }
  · exact countTrunk_safe _ _ _

/-- In UP the counts of the link may take any value. -/
theorem LinkAt.counted {now : Ticks} {k : Trunk} (h : LinkAt now k) (up : k.link = .up) (out sent next adv : BitVec 8) :
    LinkAt now { k with outLimit := out, sent := sent, nextExpected := next, advertised := adv } :=
  { h with counts := by rw [up]; rintro (c | c) <;> cases c }

theorem takeData_safe {seq : BitVec 8} {d : DataFrame} {s : State} (up : s.trunk.link = .up) : Safe s (takeData seq d s) := by
  have counted : Safe s (countTrunk .seqGaps (seq - s.trunk.nextExpected).toNat (countTrunk .framesIn 1
      (modTrunk (fun t => { t with nextExpected := seq + 1 }) s))) :=
    ((modTrunk_safe rfl id (.inl rfl) fun h => h.counted up _ _ _ _).trans (countTrunk_safe _ _ _)).trans (countTrunk_safe _ _ _)
  have noted : Safe s (if (seq - s.trunk.nextExpected).toNat = 0
      then countTrunk .seqGaps (seq - s.trunk.nextExpected).toNat (countTrunk .framesIn 1
        (modTrunk (fun t => { t with nextExpected := seq + 1 }) s))
      else noteCredit (countTrunk .seqGaps (seq - s.trunk.nextExpected).toNat (countTrunk .framesIn 1
        (modTrunk (fun t => { t with nextExpected := seq + 1 }) s)))) := by
    split
    · exact counted
    · exact counted.trans (noteCredit_safe _)
  unfold takeData
  dsimp only
  split
  · exact noted
  · refine ((noted.trans ?_).trans (modSlot_safe _ _ _)).trans (modTrunk_safe rfl id (.inl rfl) fun h => { h with })
    exact ⟨⟨id, id, id, id, id, id, id, id⟩, id⟩

theorem dispatch_safe (r : Received) (s : State) : Safe s (dispatch r s) := by
  unfold dispatch
  split
  next up =>
    split
    · unfold receiveData
      split
      · exact takeData_safe up
      · exact (countTrunk_safe _ _ _).trans (raise_safe _ _ _ _)
    · exact (modTrunk_safe rfl id (.inl rfl) fun h => h.counted up _ _ _ _).trans (countTrunk_safe _ _ _)
    · exact (countTrunk_safe _ _ _).trans (offerRequest_safe _ _)
  · exact countTrunk_safe _ _ _
  · exact countTrunk_safe _ _ _
  · rfl

theorem frameEnd_safe (e : FrameEnd) (s : State) : Safe s (frameEnd e s) := by
  unfold frameEnd
  split
  · exact countTrunk_safe _ _ _
  · exact countTrunk_safe _ _ _
  · exact countTrunk_safe _ _ _
  · split
    · exact countTrunk_safe _ _ _
    · exact countTrunk_safe _ _ _
    · exact dispatch_safe _ _

theorem execTrunkFrameReceived_safe (chars : List TrunkChar) (s : State) : SafeStep s (execTrunkFrameReceived chars s) := by
  unfold execTrunkFrameReceived
  split
  next rx e ended =>
    refine .next ((setTrunkRx_safe fun ok => ?_).trans (frameEnd_safe _ _))
    obtain ⟨rxOk, before, after⟩ := heard_event ended ok
    exact ⟨rxOk, after.trans before.symm⟩
  · exact heardOther_safe chars s

theorem trunkDecision_safe (f : Frame) (inb : Inbound) (s : State) : Safe s (trunkDecision f inb s).2 := by
  unfold trunkDecision
  split
  · rfl
  · exact matchFrame_safe _ _ _ _

theorem execTrunkDataRouting_safe (s : State) : SafeStep s (execTrunkDataRouting s) := by
  unfold execTrunkDataRouting
  split
  · exact .stay s
  next i rest _ =>
    have routed : Safe s (modTrunk (fun t => { t with taken := rest }) s) := modTrunk_safe rfl id (.inl rfl) fun h => { h with }
    dsimp only
    split
    · exact .next routed
    · exact .next ((routed.trans (admitTrunk_touched _ _ _ _).safe).trans (settle_safe _))
    · split
      · exact .next (routed.trans (rejectTrunk_touched _ _ _ _).safe)
      · exact .next ((trunkDecision_safe _ _ _).trans (modSlot_safe _ _ _))

/-! ### The arbiter and the end of a frame (R151, R161) -/

/-- The link is UP and the clock stands on a character boundary, where the line began before it. -/
def OnClock (s : State) : Prop := s.trunk.link = .up ∧ (s.trunk.lineStart ≤ s.now → OnBoundary s.trunk s.now)

theorem transmit_safe (kind : TxKind) (seq : BitVec 8) (body : List Octet) {s : State} (clock : OnClock s) :
    Safe s (transmit kind seq body s) := by
  refine modTrunk_safe rfl id (.inl rfl) fun h => ?_
  exact { h with
    tx := by rintro f ⟨⟩; exact clock.2 h.line
    cut := nofun
    silent := fun c => absurd clock.1 c }

theorem OnClock.of_eq {s t : State} (h : OnClock s) (link : t.trunk.link = s.trunk.link)
    (start : t.trunk.lineStart = s.trunk.lineStart) (now : t.now = s.now) : OnClock t := by
  unfold OnClock OnBoundary at *
  rw [link, start, now]; exact h

theorem Touched.onClock {s t : State} (touched : Touched s t) (h : OnClock s) : OnClock t :=
  h.of_eq (by rw [touched.kept.trunk]) (by rw [touched.kept.trunk]) touched.kept.now

theorem startCredit_safe {s : State} (clock : OnClock s) : Safe s (startCredit s) := by
  refine Safe.trans (modTrunk_safe rfl id (.inl rfl) fun h => ?_) (transmit_safe _ _ _ (by exact clock.of_eq rfl rfl rfl))
  exact { h with
    down := fun c => absurd clock.1 c
    credit := fun _ => .inr rfl }

theorem startReport_safe (r : Report) {s : State} (clock : OnClock s) : Safe s (startReport r s) :=
  (updateCustody_touched (Nat.le_refl _) (updateFirst_length _ _ _)).safe.trans
    (transmit_safe _ _ _ (by exact clock.of_eq rfl rfl rfl))

/-- The oldest record goes into transmission while none is there (R185). -/
theorem offerEvent_safe {e : Event} {s : State} (offered : offeredEvent s = some e) :
    Safe s (modEvents (fun es =>
      match es with
      | [] => []
      | x :: xs => { x with inTx := true, further := 0 } :: xs) s) := by
  unfold offeredEvent at offered
  split at offered
  · cases offered
  next none =>
    refine modEvents_safe _ _ ?_ fun ⟨each, pair, _⟩ => ?_
    · cases s.events.records <;> exact id
    · unfold EventsOk
      rw [modEvents_events]
      cases h : s.events.records with
      | nil => exact ⟨nofun, .nil, Nat.zero_le _⟩
      | cons x xs =>
        rw [h] at each pair none
        obtain ⟨o1, o2, det, f1, f2, quiet⟩ := each x List.mem_cons_self
        refine ⟨?_, ?_, ?_⟩
        · intro y hy
          rcases List.mem_cons.1 hy with rfl | hy
          · exact ⟨o1, o2, det, Nat.zero_le _, f2, nofun⟩
          · exact each y (List.mem_cons_of_mem _ hy)
        · exact List.pairwise_cons.2 (List.pairwise_cons.1 pair)
        · have rest : xs.filter (·.inTx) = [] := List.filter_eq_nil_iff.2 fun y hy c =>
            none (List.any_eq_true.2 ⟨y, List.mem_cons_of_mem _ hy, c⟩)
          simp [rest]

theorem startEvent_safe {e : Event} {s : State} (clock : OnClock s) (offered : offeredEvent s = some e) :
    Safe s (startEvent e s) :=
  (offerEvent_safe offered).trans (transmit_safe _ _ _ (by exact clock.of_eq rfl rfl rfl))

theorem startData_safe (lane : Priority) (r : Ref) {s : State} (clock : OnClock s) : Safe s (startData lane r s) :=
  (((popLane_touched _ _ _).trans (setHolder_touched _ _ _)).safe.trans
    (modTrunk_safe rfl id (.inl rfl) fun h => h.counted clock.1 _ _ _ _)).trans
      (transmit_safe _ _ _ (by exact clock.of_eq rfl rfl rfl))

theorem handOff_safe {s : State} (clock : OnClock s) : Safe s (handOff s) := by
  have purged := purgeHeads_touched (laneRefs s.pool.queues[trunkPort]).length s
  unfold handOff
  dsimp only
  split
  · exact purged.safe
  · exact purged.safe.trans (startData_safe _ _ (purged.onClock clock))

theorem arbitrate_safe {s : State} (clock : OnClock s) : Safe s (arbitrate s) := by
  unfold arbitrate
  split
  · exact startCredit_safe clock
  · split
    · exact transmit_safe _ _ _ clock
    · split
      · exact startReport_safe _ clock
      · split
        next offered => exact startEvent_safe clock offered
        · split
          · exact handOff_safe clock
          · rfl

theorem choose_safe {s : State} (clock : OnClock s) : Safe s (choose s) := by
  unfold choose
  dsimp only
  split
  · exact (arbitrate_safe clock).trans (modTrunk_safe rfl id (.inl rfl) fun h => { h with })
  · exact arbitrate_safe clock

theorem le_boundary {a t : Nat} : t ≤ a + (t - a + 19) / 20 * 20 := by omega

theorem execTrunkFrameStart_safe (s : State) : SafeStep s (execTrunkFrameStart s) := by
  unfold execTrunkFrameStart
  split
  next up _ =>
    have later : s.now ≤ boundaryFrom s.trunk (max s.now s.trunk.nextStart) := (Nat.le_max_left _ _).trans le_boundary
    refine .next (((clock_safe later).trans (choose_safe ⟨up, fun _ => ?_⟩)).trans (settle_safe _))
    exact add_boundary _ ⟨Nat.le_refl _, by rw [Nat.sub_self]⟩
  · exact .stay s

theorem eventSent_safe (s : State) : Safe s (eventSent s) := by
  refine modEvents_safe _ _ (fun h => ?_) fun ⟨each, pair, one⟩ => ?_
  · rw [List.length_append, List.length_map]
    have split := List.length_eq_length_filter_add (l := s.events.records) (·.inTx)
    have fewer : (s.events.records.filter fun e => e.inTx && e.further != 0).length ≤ (s.events.records.filter (·.inTx)).length := by
      rw [← List.countP_eq_length_filter, ← List.countP_eq_length_filter]
      exact List.countP_mono_left fun e _ c => (Bool.and_eq_true _ _ ▸ c).1
    omega
  · refine ⟨fun e he => ?_, List.pairwise_append.2 ⟨pair.filter _, List.pairwise_map.2 (pair.filter _), ?_⟩, ?_⟩
    · rcases List.mem_append.1 he with he | he
      · exact each e (List.mem_of_mem_filter he)
      · obtain ⟨x, hx, rfl⟩ := List.mem_map.1 he
        obtain ⟨mem, c⟩ := List.mem_filter.1 hx
        obtain ⟨-, further⟩ := Bool.and_eq_true _ _ ▸ c
        obtain ⟨o1, o2, det, f1, f2, quiet⟩ := each x mem
        exact ⟨Nat.one_le_iff_ne_zero.2 (bne_iff_ne.1 further), f1, f2, Nat.zero_le _, f2, fun _ => rfl⟩
    · intro a ha b hb
      obtain ⟨x, hx, rfl⟩ := List.mem_map.1 hb
      obtain ⟨memA, outA⟩ := List.mem_filter.1 ha
      obtain ⟨memX, inX⟩ := List.mem_filter.1 hx
      have symm : Std.Symm fun a b : Event => ¬(a.kind = b.kind ∧ a.port = b.port) := ⟨fun _ _ h c => h ⟨c.1.symm, c.2.symm⟩⟩
      have differ : a ≠ x := by
        rintro rfl
        simp_all
      have apart : ¬(a.kind = x.kind ∧ a.port = x.port) := pair.forall memA memX differ
      exact apart
    · show (List.filter _ (_ ++ _)).length ≤ 1
      rw [List.filter_append, List.filter_filter, List.filter_map]
      simp [Function.comp_def]

/-- What the EOF of a frame other than a CREDIT brings about. -/
theorem frameSent_safe {f : TxFrame} (s : State) (h : f.kind ≠ .credit) : Safe s (frameSent f s) := by
  unfold frameSent
  split
  next credit => exact absurd credit h
  · exact modTrunk_safe rfl id (.inr rfl) fun h => { h with }
  · exact (updateCustody_touched (Nat.le_refl _) (List.length_filter_le _ _)).safe
  · exact eventSent_safe s
  · exact (dataSent_touched s).safe
  · exact (dataSent_touched s).safe

/-- The line is free after a frame. -/
theorem LinkAt.ended {now : Ticks} {k : Trunk} (h : LinkAt now k) : LinkAt now { k with tx := none } :=
  { h with
    tx := nofun
    silent := fun _ => rfl }

theorem execTrunkFrameEof_safe (s : State) : SafeStep s (execTrunkFrameEof s) := by
  unfold execTrunkFrameEof
  split
  · exact .stay s
  next f sending =>
    -- The line is free, and the limit that a CREDIT carried is advertised: a frame is in transmission in UP only.
    have ended (limit : BitVec 8) : Safe s (modTrunk (fun t => { t with
        tx := none, nextStart := f.startedAt + frameTime f.body + characterTime, advertised := limit
        counters := modAt t.counters TrunkCounter.framesOut.index (saturate · 1) })
          { s with now := max s.now (f.startedAt + frameTime f.body) }) := by
      refine (clock_safe (Nat.le_max_left _ _)).trans (modTrunk_safe rfl (fun h => ?_) (.inl rfl) fun h => ?_)
      · exact forall_modAt (P := (· ≤ counterMax)) h fun _ => saturate_le _ _
      · have up : s.trunk.link = .up := by
          by_contra c
          cases sending.symm.trans (h.silent c)
        exact { (h.counted up _ _ _ limit).ended with }
    refine .next (Safe.trans ?_ (settle_safe _))
    by_cases credit : f.kind = .credit
    · unfold frameSent creditSent
      rw [credit]
      dsimp only
      split
      next limit _ _ => exact ended limit
      · exact ended s.trunk.advertised
    · exact (ended s.trunk.advertised).trans (frameSent_safe _ credit)

/-! ### The commands of a commit (R89, R90) -/

/-- A commit that is not at its end goes on. -/
theorem commitComplete_of_ne {s : State} (h : s.route.commit ≠ .running [] false) : commitComplete s = s := by
  unfold commitComplete
  split
  next c => exact absurd c h
  all_goals rfl

/-- A commit at its end, its request in execution, completes (R90, R166). -/
theorem commitComplete_of_eq {s : State} {req : Request} {rest : List Request} (h : s.route.commit = .running [] false)
    (executing : s.agent.executing = true) (buffers : s.agent.buffers = req :: rest) :
    commitComplete s = { s with
      route := { s.route with commit := .idle }, agent := { buffers := rest, executing := false, dropMark := false }
      trunk := if s.agent.dropMark then s.trunk
        else { s.trunk with response := some ⟨req.id, .ok, octets4 s.route.epoch⟩ } } := by
  unfold commitComplete
  rw [h, executing, buffers]
  dsimp only
  split <;> rfl

theorem respond_link (r : Response) {s : State} (h : LinkOk s) : LinkOk (respond r s) := h

theorem commitComplete_safe (s : State) : Safe s (commitComplete s) := by
  by_cases h : s.route.commit = .running [] false
  · have commit : CommitOk s → CommitOk (commitComplete s) := fun ok => absurd h ok.2.1
    revert commit
    unfold commitComplete
    rw [h]
    dsimp only
    split
    next req rest _ buffers =>
      intro commit
      have capacity (ok : CapacityOk s) : rest.length ≤ 2 := by
        have two := ok.2.2.2
        rw [buffers, List.length_cons] at two
        omega
      split
      · exact ⟨⟨id, id, id, id, fun ok => ⟨ok.1, ok.2.1, ok.2.2.1, capacity ok⟩, id, by simp_all, id⟩, id⟩
      · exact ⟨⟨id, id, id, id, fun ok => ⟨ok.1, ok.2.1, ok.2.2.1, capacity ok⟩, id, by simp_all, id⟩, id⟩
    · intro commit
      exact ⟨⟨id, id, id, id, id, id, by simp_all, id⟩, id⟩
  · rw [commitComplete_of_ne h]

/-- A commit whose lanes left go on as the last ones of the order, and that completes where nothing of it is left. -/
theorem advanceCommit_safe {f : RouteList → RouteList} {s : State} (epochs : EpochsOk s → EpochsOk (modRoute f s))
    (counters : CountersOk s → CountersOk (modRoute f s)) (runs : s.route.commit ≠ .idle)
    (goes : (f s.route).commit ≠ .idle) (lanes : (f s.route).commit.lanesLeft <:+ s.route.commit.lanesLeft) :
    Safe s (commitComplete (modRoute f s)) where
  epochs h := (commitComplete_safe _).epochs (epochs h)
  counters h := (commitComplete_safe _).counters (counters h)
  settings := (commitComplete_safe (modRoute f s)).settings
  nodes := (commitComplete_safe (modRoute f s)).nodes
  capacity := (commitComplete_safe (modRoute f s)).capacity
  events := (commitComplete_safe (modRoute f s)).events
  link := (commitComplete_safe (modRoute f s)).link
  ports := (commitComplete_safe (modRoute f s)).ports
  commit := by
    rintro ⟨running, -, order, busy, drop⟩
    have executing : s.agent.executing = true := running.2 runs
    obtain ⟨some', silent⟩ := busy executing
    by_cases h : (f s.route).commit = .running [] false
    · obtain ⟨req, rest, buffers⟩ := List.exists_cons_of_ne_nil some'
      rw [commitComplete_of_eq (s := modRoute f s) h executing buffers]
      exact ⟨⟨nofun, fun c => absurd rfl c⟩, nofun, List.nil_suffix, nofun, nofun⟩
    · rw [commitComplete_of_ne (s := modRoute f s) h]
      exact ⟨⟨fun _ => goes, fun _ => executing⟩, h, lanes.trans order, fun _ => ⟨some', silent⟩, drop⟩

theorem execPurgeSweepStep_safe (s : State) : SafeStep s (execPurgeSweepStep s) := by
  unfold execPurgeSweepStep
  split
  next q lane rest resync running =>
    have swept := purgeSweepLane_touched q lane s
    have route : (purgeSweepLane q lane s).route.commit = .running ((q, lane) :: rest) resync := by
      rw [swept.kept.route]; exact running
    refine .next ((swept.safe.trans (advanceCommit_safe id id ?_ ?_ ?_)).trans (settle_safe _))
    · rw [route]; nofun
    · nofun
    · rw [route]; exact List.suffix_cons _ _
  all_goals exact .stay s

theorem withoutHits_hits (b : Vector RouteEntry 64) (i : RouteIndex) : (withoutHits b)[i].hits = 0 := by
  unfold withoutHits
  rw [Fin.getElem_fin, getElem_modAll]

/-- Another shadow bank, its hit counts in their range (R73). -/
theorem setShadow_counters {b : RouteList → Vector RouteEntry 64} {s : State}
    (h : CountersOk s → ∀ i : RouteIndex, (b s.route)[i].hits ≤ counterMax) :
    CountersOk s → CountersOk (modRoute (fun r => setShadow (b r) r) s) := by
  intro ok
  obtain ⟨ports, trunk, gateway, hits⟩ := ok
  refine ⟨ports, trunk, gateway, fun i => ?_⟩
  rw [modRoute_route]
  unfold setShadow
  split
  · exact ⟨h ⟨ports, trunk, gateway, hits⟩ i, (hits i).2⟩
  · exact ⟨(hits i).1, h ⟨ports, trunk, gateway, hits⟩ i⟩

theorem setShadow_epochs (b : Vector RouteEntry 64) (r : RouteList) :
    (setShadow b r).epoch = r.epoch ∧ (setShadow b r).purgeEpoch = r.purgeEpoch ∧ (setShadow b r).commit = r.commit := by
  unfold setShadow
  split <;> exact ⟨rfl, rfl, rfl⟩

theorem execResyncComplete_safe (s : State) : SafeStep s (execResyncComplete s) := by
  unfold execResyncComplete
  split
  next lanesLeft running =>
    refine .next (advanceCommit_safe ?_ ?_ ?_ nofun ?_)
    · unfold EpochsOk
      rw [modRoute_route]
      obtain ⟨epoch, purge, -⟩ := setShadow_epochs (withoutHits (activeBank s.route)) s.route
      dsimp only
      rw [epoch, purge]
      exact id
    · exact setShadow_counters (b := fun r => withoutHits (activeBank r)) fun _ i => by rw [withoutHits_hits]; exact Nat.zero_le _
    · rw [running]; nofun
    · rw [running]; exact List.suffix_rfl
  all_goals exact .stay s

end Sys2Proof.Machine
end

