-- ==== Sys2Proof/Proofs/SafeManagement.lean ====
section
/-! PROOFS. Every request, every reset and so every step keeps the invariants of O55, O57 to O59 and the lists of O56. -/

-- One theorem after another: many at once need a thread each.
set_option Elab.async false

namespace Sys2Proof.Machine

/-! ### The resets (R65, R175 to R178) -/

/-- Settles O60. -/
theorem resetMeetsInvariants : Obligations.ResetMeetsInvariants := by
  refine ⟨⟨?_, ?_, ?_, ?_⟩, ⟨?_, ?_⟩, ?_, ?_, ?_, ⟨?_, ?_, ?_, ?_, ?_⟩⟩ <;> decide +kernel

/-- The hardware reset meets every invariant, whenever RESET_N rises. -/
theorem execHardwareReset_safe (s : State) : SafeStep s (execHardwareReset s) := by
  obtain ⟨⟨epochs, counters, settings, nodes⟩, ⟨capacity, events⟩, commit, ports, link, -⟩ := resetMeetsInvariants
  refine .next {
    epochs := fun _ => epochs
    counters := fun _ => counters
    settings := fun _ => settings
    nodes := fun _ => nodes
    capacity := fun _ => capacity
    events := fun _ => events
    commit := fun _ => commit
    ports := fun _ => ports
    link := fun _ => ?_ }
  rw [linkOk_iff] at link ⊢
  exact { link with
    line := Nat.le_refl _
    idle := Nat.zero_le _
    tx := nofun
    cut := nofun }

theorem cutIf_safe (cuts : TxKind → Bool) (s : State) : Safe s (cutIf cuts s) := by
  unfold cutIf
  split
  · split
    · exact cutFrame_safe s
    · rfl
  · rfl

theorem trafficPort_safe (s : State) (p : SegPort) : Safe s (trafficPort s p) := by
  refine (countPort_safe p .discarded (queueLength s.pool.queues[p.port]) s).trans (modPort_safe ?_)
  split
  next enabled =>
    refine .of_off fun ⟨off, on, _, _, _⟩ => ⟨fun e => absurd (enabled.symm.trans e) nofun, fun e => ⟨?_, nofun⟩, nofun, nofun, ?_⟩
    all_goals
      dsimp only
      split <;> nofun
  · exact .of_off id

theorem trafficPool_touched (s : State) : Touched s (trafficPool s) := by
  unfold trafficPool
  exact modPool_touched _ _ rfl rfl

theorem trafficReset_safe (s : State) : Safe s (trafficReset s) := by
  have ports : Safe s (allSegPorts.foldl trafficPort s) := by
    simp only [allSegPorts, List.foldl]
    exact (((trafficPort_safe _ _).trans (trafficPort_safe _ _)).trans (trafficPort_safe _ _)).trans (trafficPort_safe _ _)
  unfold trafficReset
  refine Safe.trans ?_ (refill_touched _).safe
  refine Safe.trans ?_ (modTrunk_safe rfl id (.inl rfl) fun h => { h with })
  refine Safe.trans ?_ (trafficPool_touched _).safe
  refine Safe.trans ?_ (updateCustody_touched (Nat.zero_le _) (Nat.zero_le _)).safe
  exact ports.trans (cutIf_safe trafficCuts _)

theorem cutIf_now (cuts : TxKind → Bool) (s : State) : (cutIf cuts s).now = s.now := by
  unfold cutIf cutFrame
  repeat' split
  all_goals rfl

theorem fullReset_safe (s : State) : Safe s (fullReset s) := by
  obtain ⟨⟨epochs, counters, settings, nodes⟩, ⟨capacity, events⟩, commit, ports, -, -⟩ := resetMeetsInvariants
  unfold fullReset
  dsimp only
  refine Safe.trans ?_ (refill_touched _).safe
  exact {
    epochs := fun _ => epochs
    counters := fun _ => counters
    settings := fun _ => settings
    nodes := fun _ => nodes
    capacity := fun _ => capacity
    events := fun _ => events
    commit := fun _ => ⟨commit.1, commit.2.1, commit.2.2.1, nofun, nofun⟩
    ports := fun _ => ports
    link := fun h => by
      have cut := (cutIf_safe fullCuts s).link h
      rw [linkOk_iff, cutIf_now] at cut
      exact (linkOk_iff _).2 { cut with } }

/-! ### Ports (R63, R64, R171) -/

theorem portSettings_range {a : PortArgs} {v : PortSettings} (h : portSettings? a = some v) :
    v.retryLimit ≤ 7 ∧ 1 ≤ v.queueLimit ∧ v.queueLimit ≤ 64 := by
  unfold portSettings? at h
  split at h
  · split at h
    · cases h; assumption
    · cases h
  · cases h

theorem enablePort_safe (p : SegPort) (s : State) : Safe s (enablePort p s) :=
  modPort_safe (.of_off fun _ => ⟨nofun, fun _ => ⟨nofun, nofun⟩, nofun, nofun, nofun⟩)

/-- A port that is disabled (R63). -/
def Port.disabled (pt : Port) : Port :=
  { pt with enabled := false, rx := .off, tx := .off, assembly := {}, pin := [], pulse := none }

/-- What a disable makes of the ports: its own is OFF, and every port keeps the rest but its counters and whether selection is
due. -/
theorem disablePort_port (p q : SegPort) (s : State) : (disablePort p s).ports[q] =
    { (if q = p then s.ports[q].disabled else s.ports[q]) with
      counters := (disablePort p s).ports[q].counters, due := (disablePort p s).ports[q].due } := by
  have cut := (markPending_touched p.port (fun _ => true) .portDisabled
    (release p (modPort p (fun pt => { pt with enabled := false, tx := .off }) s))).trans (flushHolder_touched p _)
  have left := cut.trans (withdraw_touched p _)
  have ended (u : State) := (sweepLanes_touched p.port (fun _ => true) .portDisabled u).trans
    (updateCustody_touched (f := fun c => { c with notices := c.notices.filter fun n => !(n.port == p) })
      (List.length_filter_le _ _) (Nat.le_refl _))
  have last := (ended (setRx p .off (leaveFrame p (flushHolder p (markPending p.port (fun _ => true) .portDisabled
    (release p (modPort p (fun pt => { pt with enabled := false, tx := .off }) s))))))).port q
  change (disablePort p s).ports[q] = _ at last
  rw [last]
  by_cases e : q = p
  · subst e
    simp only [if_true, setRx, leaveFrame, clearAssembly, modPort_port, Port.disabled]
    rw [left.port]
    simp only [release, modPort_port]
  · simp only [if_neg e, setRx, leaveFrame, clearAssembly, modPort_ports, getElem_modAt_fin]
    rw [left.port]
    simp only [release, modPort_ports, getElem_modAt_fin, if_neg e]

theorem disablePort_safe (p : SegPort) (s : State) : Safe s (disablePort p s) where
  toSafeRest := by
    have off : SafeRest s (release p (modPort p (fun pt => { pt with enabled := false, tx := .off }) s)) :=
      (modPort_safeRest id id).trans (release_safe p _).toSafeRest
    have cut := off.trans ((markPending_touched p.port (fun _ => true) .portDisabled _).trans (flushHolder_touched p _)).safe.toSafeRest
    have left := (cut.trans (leaveFrame_safe p _).toSafeRest).trans (modPort_safeRest (p := p) (f := fun pt => { pt with rx := .off }) id id)
    exact left.trans ((sweepLanes_touched p.port (fun _ => true) .portDisabled _).trans
      (updateCustody_touched (f := fun c => { c with notices := c.notices.filter fun n => !(n.port == p) })
        (List.length_filter_le _ _) (Nat.le_refl _))).safe.toSafeRest
  ports off q := by
    show PortOff _
    rw [disablePort_port]
    split
    · exact ⟨fun _ => ⟨rfl, rfl, rfl, rfl, rfl⟩, nofun, nofun, nofun, nofun⟩
    · exact off q

theorem writePort_safe {p : SegPort} {v : PortSettings} (s : State) (h : v.retryLimit ≤ 7 ∧ 1 ≤ v.queueLimit ∧ v.queueLimit ≤ 64) :
    Safe s (writePort p v s) := by
  have written : Safe s (modPort p (fun pt =>
      { pt with rate := v.rate, queueLimit := v.queueLimit, retryLimit := v.retryLimit, missAction := v.missAction
                abortOnError := v.abortOnError }) s) :=
    ⟨modPort_safeRest (fun _ => h) id, fun off => forall_modAt (P := PortOff) off id⟩
  unfold writePort
  dsimp only
  split
  · exact written
  · split
    · exact written.trans (enablePort_safe _ _)
    · exact (written.trans (disablePort_safe _ _)).trans (settle_safe _)

/-! ### Settings, counters and routes (R71, R72, R173, R180) -/

theorem gatewayOk_fields {a : GatewayArgs} (h : gatewayOk a = true) :
    (∀ c : LifetimeClass, lifetimeOk (#v[a.lifetime0.toNat, a.lifetime1.toNat, a.lifetime2.toNat, a.lifetime3.toNat])[c] = true) ∧
      a.blockThreshold.toNat ≤ 15 ∧ 2 ≤ a.inboundReserve.toNat ∧ a.inboundReserve.toNat ≤ 16 ∧
      1 ≤ a.suspectHold.toNat ∧ a.suspectHold.toNat ≤ 15 := by
  simp only [gatewayOk, Bool.and_eq_true, decide_eq_true_eq] at h
  obtain ⟨⟨⟨⟨⟨⟨⟨⟨⟨⟨⟨-, -⟩, l0⟩, l1⟩, l2⟩, l3⟩, threshold⟩, low⟩, high⟩, -⟩, short⟩, long⟩ := h
  refine ⟨fun c => ?_, threshold, low, high, short, long⟩
  match c with
  | 0 => exact l0
  | 1 => exact l1
  | 2 => exact l2
  | 3 => exact l3

theorem writeGateway_safe {a : GatewayArgs} (s : State) (h : gatewayOk a = true) : Safe s (writeGateway a s) := by
  obtain ⟨lifetimes, threshold, low, high, short, long⟩ := gatewayOk_fields h
  have written : Safe s (modPool (fun p => { p with reserveSize := a.inboundReserve.toNat }) { s with
      custody := { s.custody with
        noticeSource := Fin.ofNat 120 a.noticeSource.toNat, noticePriority := Fin.ofNat 8 a.noticePriority.toNat }
      nodes := { s.nodes with threshold := a.blockThreshold.toNat }
      pool := { s.pool with
        lifetimes := ⟨#[a.lifetime0.toNat, a.lifetime1.toNat, a.lifetime2.toNat, a.lifetime3.toNat], rfl⟩ }
      events := { s.events with mask := a.eventMask.setWidth 8 }
      trunk := { s.trunk with suspectHold := a.suspectHold.toNat } }) :=
    ⟨⟨id, id, fun ok => ⟨ok.1, threshold, low, high, lifetimes, short, long⟩, id, id, id, id, id⟩, id⟩
  unfold writeGateway setReserveSize
  dsimp only
  split
  · exact written.trans (refill_touched _).safe
  · split
    · exact written.trans (trim_safe _)
    · exact written

theorem clearGroup_safe (g : CounterGroup) (s : State) : Safe s (clearGroup g s) := by
  have zero {n : Nat} (c : Fin n) : (Vector.replicate n 0 : Vector Nat n)[c] ≤ counterMax := by simp
  unfold clearGroup
  split
  · exact ⟨modPort_safeRest id fun _ c => zero c, fun off => forall_modAt (P := PortOff) off id⟩
  · exact modTrunk_safe rfl (fun _ c => zero c) (.inl rfl) fun h => { h with }
  · exact ⟨⟨id, fun ⟨p, t, _, r⟩ => ⟨p, t, fun c => zero c, r⟩, id, id, id, id, id, id⟩, id⟩

/-- The shadow bank is written, its hit counts in their range (R71, R72). -/
theorem writeShadow_safe {b : RouteList → Vector RouteEntry 64} {s : State}
    (h : CountersOk s → ∀ i : RouteIndex, (b s.route)[i].hits ≤ counterMax) :
    Safe s (modRoute (fun r => setShadow (b r) r) s) where
  epochs := by
    obtain ⟨epoch, purge, -⟩ := setShadow_epochs (b s.route) s.route
    unfold EpochsOk
    rw [modRoute_route, epoch, purge]
    exact id
  counters := setShadow_counters h
  settings := id
  nodes := id
  capacity := id
  events := id
  commit := by
    unfold CommitOk
    rw [modRoute_route, (setShadow_epochs (b s.route) s.route).2.2]
    exact id
  ports := id
  link := id

theorem shadow_hits {s : State} (h : CountersOk s) (i : RouteIndex) : (shadowBank s.route)[i].hits ≤ counterMax := by
  unfold shadowBank
  split
  · exact (h.2.2.2 i).1
  · exact (h.2.2.2 i).2

theorem entryOfArgs_hits {a : RouteArgs} {e : RouteEntry} (h : entryOfArgs? a = some e) : e.hits = 0 := by
  unfold entryOfArgs? at h
  split at h
  · dsimp only at h
    split at h
    · cases h; rfl
    · cases h
  · cases h

/-! ### The requests leave the agent (R164 to R167) -/

theorem trimBy_agent (n : Nat) (s : State) : (trimBy n s).agent = s.agent := by
  induction n generalizing s with
  | zero => rfl
  | succ n ih =>
    unfold trimBy
    split
    · rfl
    · rw [ih]; rfl

theorem disablePort_agent (p : SegPort) (s : State) : (disablePort p s).agent = s.agent := by
  unfold disablePort
  dsimp only
  rw [modCustody_agent, (sweepLanes_kept _ _ _ _).agent]
  unfold setRx leaveFrame clearAssembly
  rw [modPort_agent, modPort_agent, (withdraw_kept _ _).agent, (flushHolder_kept _ _).agent, (markPending_kept _ _ _ _).agent]
  rfl

theorem writePort_agent (p : SegPort) (v : PortSettings) (s : State) : (writePort p v s).agent = s.agent := by
  unfold writePort
  dsimp only
  split
  · rfl
  · split
    · rfl
    · rw [(settle_kept _).agent, disablePort_agent, modPort_agent]

theorem writeGateway_agent (a : GatewayArgs) (s : State) : (writeGateway a s).agent = s.agent := by
  unfold writeGateway setReserveSize
  dsimp only
  split
  · rw [(refill_kept _).agent]; rfl
  · split
    · unfold trim; rw [trimBy_agent]; rfl
    · rfl

theorem cutIf_agent (cuts : TxKind → Bool) (s : State) : (cutIf cuts s).agent = s.agent := by
  unfold cutIf cutFrame
  repeat' split
  all_goals rfl

theorem trafficReset_agent (s : State) : (trafficReset s).agent = s.agent := by
  unfold trafficReset
  dsimp only
  rw [(refill_kept _).agent, modTrunk_agent, (trafficPool_touched _).kept.agent, modCustody_agent, cutIf_agent]
  rfl

theorem fullReset_agent (s : State) : (fullReset s).agent = .reset := by
  unfold fullReset
  dsimp only
  rw [(refill_kept _).agent]
  rfl

/-- A request that is answered at once keeps the invariants, and none is in execution after it. -/
structure AnswerSafe (s : State) (r : Reply) : Prop where
  safe : Safe s r.state
  free : r.state.agent.executing = false

theorem refuse_safe {s : State} (status : Status) (free : s.agent.executing = false) : AnswerSafe s (refuse status s) :=
  ⟨.refl s, free⟩

theorem accept_safe {s t : State} (results : List Octet) (safe : Safe s t) (agent : t.agent.executing = false) :
    AnswerSafe s (accept results t) := ⟨safe, agent⟩

section
variable {s : State} (free : s.agent.executing = false)
include free

theorem accept_same (results : List Octet) : AnswerSafe s (accept results s) := ⟨.refl s, free⟩

theorem runRouteRead_safe (bank index : Octet) : AnswerSafe s (runRouteRead bank index s) := by
  unfold runRouteRead
  split
  · exact refuse_safe _ free
  · split
    · exact accept_same free _
    · split
      · exact accept_same free _
      · exact refuse_safe _ free

theorem runRouteWrite_safe (index : Octet) (a : RouteArgs) : AnswerSafe s (runRouteWrite index a s) := by
  unfold runRouteWrite
  split
  next i e _ written =>
    refine accept_safe _ (writeShadow_safe (b := fun r => (shadowBank r).set i e) fun ok j => ?_) free
    rw [Fin.getElem_fin, Vector.getElem_set]
    split
    · rw [entryOfArgs_hits written]; exact Nat.zero_le _
    · exact shadow_hits ok j
  · exact refuse_safe _ free

theorem runRouteClear_safe (first last : Octet) : AnswerSafe s (runRouteClear first last s) := by
  unfold runRouteClear
  split
  · exact refuse_safe _ free
  · refine accept_safe _ (writeShadow_safe (b := fun r => clearRange first.toNat last.toNat (shadowBank r)) fun ok j => ?_) free
    unfold clearRange
    rw [Fin.getElem_fin, Vector.getElem_ofFn]
    split
    · exact Nat.zero_le _
    · exact shadow_hits ok j

theorem runNodeRead_safe (address : Octet) : AnswerSafe s (runNodeRead address s) := by
  unfold runNodeRead
  split
  · exact refuse_safe _ free
  · exact accept_same free _

theorem runNodeWrite_safe (address location : Octet) : AnswerSafe s (runNodeWrite address location s) := by
  unfold runNodeWrite
  split
  · exact accept_safe _ (modNode_safe _ _ _ fun _ => Nat.zero_le _) free
  · exact refuse_safe _ free

theorem runNodeUnblock_safe (address : Octet) : AnswerSafe s (runNodeUnblock address s) := by
  unfold runNodeUnblock
  split
  · exact refuse_safe _ free
  · exact accept_safe _ (modNode_safe _ _ _ fun _ => Nat.zero_le _) free

theorem runPortRead_safe (port : Octet) : AnswerSafe s (runPortRead port s) := by
  unfold runPortRead
  split
  · exact refuse_safe _ free
  · exact accept_same free _

theorem runPortWrite_safe (port : Octet) (a : PortArgs) : AnswerSafe s (runPortWrite port a s) := by
  unfold runPortWrite
  split
  · exact refuse_safe _ free
  · split
    · exact refuse_safe _ free
    · split
      · exact refuse_safe _ free
      next settings => exact accept_safe _ (writePort_safe s (portSettings_range settings)) (by rw [writePort_agent]; exact free)

theorem runGatewayWrite_safe (a : GatewayArgs) : AnswerSafe s (runGatewayWrite a s) := by
  unfold runGatewayWrite
  split
  next ok => exact accept_safe _ (writeGateway_safe s ok) (by rw [writeGateway_agent]; exact free)
  · exact refuse_safe _ free

theorem runCountersRead_safe (group clear : Octet) : AnswerSafe s (runCountersRead group clear s) := by
  unfold runCountersRead
  split
  next g c _ _ =>
    cases c
    · exact accept_same free _
    · refine accept_safe _ (clearGroup_safe g s) ?_
      cases g <;> exact free
  · exact refuse_safe _ free

theorem runReset_safe (kind : Octet) : AnswerSafe s (runReset kind s) := by
  unfold runReset
  split
  · exact accept_safe _ (trafficReset_safe s) (by rw [trafficReset_agent]; exact free)
  · split
    · exact accept_safe _ (fullReset_safe s) (by rw [fullReset_agent]; rfl)
    · exact refuse_safe _ free

theorem runRequest_safe (op : RequestOp) : AnswerSafe s (runRequest op s) := by
  cases op with
  | malformed => exact refuse_safe _ free
  | identify => exact accept_same free _
  | routeRead bank index => exact runRouteRead_safe free bank index
  | routeWrite index fields => exact runRouteWrite_safe free index fields
  | routeClear first last => exact runRouteClear_safe free first last
  | routeCommit purge => exact refuse_safe _ free
  | nodeRead address => exact runNodeRead_safe free address
  | nodeWrite address location => exact runNodeWrite_safe free address location
  | nodeUnblock address => exact runNodeUnblock_safe free address
  | portRead port => exact runPortRead_safe free port
  | portWrite port settings => exact runPortWrite_safe free port settings
  | gatewayRead => exact accept_same free _
  | gatewayWrite settings => exact runGatewayWrite_safe free settings
  | countersRead group clear => exact runCountersRead_safe free group clear
  | reset kind => exact runReset_safe free kind

/-- The oldest request's buffer is freed while none is in execution. -/
theorem freeBuffer_safe {r : Request} {rest : List Request} (buffers : s.agent.buffers = r :: rest) :
    Safe s (modAgent (fun a => { a with buffers := rest }) s) where
  epochs := id
  counters := id
  settings := id
  nodes := id
  capacity := fun ⟨n, l, e, b⟩ => ⟨n, l, e, by
    rw [buffers, List.length_cons] at b
    rw [modAgent_agent]
    dsimp only
    omega⟩
  events := id
  commit := fun ⟨runs, due, lanes, _, drop⟩ => ⟨runs, due, lanes, fun e => absurd (e.symm.trans free) nofun, drop⟩
  ports := id
  link := id

end

/-- A response goes to the holder while no request is in execution. -/
theorem respond_safe (r : Response) {s : State} (free : s.agent.executing = false) : Safe s (respond r s) where
  epochs := id
  counters := id
  settings := id
  nodes := id
  capacity := id
  events := id
  commit := fun ⟨runs, due, lanes, _, drop⟩ => ⟨runs, due, lanes, fun e => absurd (e.symm.trans free) nofun, drop⟩
  ports := id
  link := id

theorem AnswerSafe.answered {s : State} {r : Reply} (h : AnswerSafe s r) (id : Octet) : Safe s (answerNow id r) :=
  h.safe.trans (respond_safe _ h.free)

theorem swapBanks_runs (purge : Bool) (r : RouteList) : (swapBanks purge r).commit ≠ .idle := nofun

/-- The swap of a commit, its request now in execution (R87, R88). -/
theorem startCommit_safe (purge : Bool) {s : State} (below : s.route.epoch < epochMax) (silent : s.trunk.response = none)
    (waits : s.agent.buffers ≠ []) : Safe s (commitSwap purge (modAgent (fun a => { a with executing := true }) s)) := by
  rw [commitSwap_eq]
  have within {P : Port → Prop} (same : ∀ pt : Port, P pt → P { pt with due := true }) (h : ∀ p : SegPort, P s.ports[p])
      (p : SegPort) : P (if purge then modAll s.ports (fun pt => if pt.tx.isArmed then { pt with due := true } else pt)
        else s.ports)[p] := by
    split
    · rw [Fin.getElem_fin, getElem_modAll]
      split
      · exact same _ (h p)
      · exact h p
    · exact h p
  exact {
    epochs := fun ⟨purged, _⟩ => by
      refine ⟨?_, below⟩
      show (if purge then s.route.epoch + 1 else s.route.purgeEpoch) ≤ s.route.epoch + 1
      split
      · exact Nat.le_refl _
      · exact purged.trans (Nat.le_succ _)
    counters := fun ⟨ports, trunk, gateway, _⟩ => ⟨within (P := PortCounts) (fun _ h => h) ports, trunk, gateway, fun i =>
      ⟨by show (withoutHits s.route.bankA)[i].hits ≤ _; rw [withoutHits_hits]; exact Nat.zero_le _,
        by show (withoutHits s.route.bankB)[i].hits ≤ _; rw [withoutHits_hits]; exact Nat.zero_le _⟩⟩
    settings := fun ⟨ports, rest⟩ => ⟨within (P := PortLimits) (fun _ h => h) ports, rest⟩
    nodes := id
    capacity := id
    events := id
    commit := fun ⟨_, _, _, _, _⟩ => by
      refine ⟨⟨fun _ => swapBanks_runs purge s.route, fun _ => rfl⟩, ?_, ?_, fun _ => ⟨waits, silent⟩, fun _ => rfl⟩
      · show Commit.running (if purge then sweepOrder else []) true ≠ .running [] false
        simp
      show (if purge then sweepOrder else []) <:+ sweepOrder
      split
      · exact List.suffix_rfl
      · exact List.nil_suffix
    ports := within (P := PortOff) (fun _ h => h)
    link := id }

theorem beginRequest_safe (s : State) : Safe s (beginRequest s) := by
  unfold beginRequest
  split
  · rfl
  next may =>
    obtain ⟨free, silent⟩ : s.agent.executing = false ∧ s.trunk.response = none := by simpa using may
    split
    · rfl
    next r rest buffers =>
      have freed := freeBuffer_safe free buffers
      split
      next purge _ =>
        unfold beginCommit
        dsimp only
        split
        · exact freed.trans ((refuse_safe (s := modAgent (fun a => { a with buffers := rest }) s) .notNow free).answered _)
        next below =>
          split
          · exact freed.trans ((refuse_safe (s := modAgent (fun a => { a with buffers := rest }) s) .badArgument free).answered _)
          · exact (startCommit_safe _ (Nat.lt_of_not_le below) silent (by rw [buffers]; nofun)).trans (settle_safe _)
      · exact freed.trans ((runRequest_safe (s := modAgent (fun a => { a with buffers := rest }) s) free _).answered _)

theorem submit_safe (id : Octet) (op : RequestOp) (s : State) : SafeStep s (submit id op s) := by
  unfold submit
  split
  · exact .next ((offerRequest_safe _ _).trans (beginRequest_safe _))
  · exact .stay s

/-! ### The step -/

/-- Every command keeps the invariants. -/
theorem exec_safe (c : Instr) (s : State) : SafeStep s (exec c s) := by
  cases c with
  | hardwareReset => exact execHardwareReset_safe s
  | purgeSweepStep => exact execPurgeSweepStep_safe s
  | resyncComplete => exact execResyncComplete_safe s
  | agentBeginRequest => exact .next (beginRequest_safe s)
  | falseStart p low => exact execFalseStart_safe p low s
  | headerCompletion p low slots => exact execHeaderCompletion_safe p low slots s
  | controlCompletion p heard => exact execControlCompletion_safe p heard s
  | checkCompletion p heard => exact execCheckCompletion_safe p heard s
  | endOfFrame p ending => exact execEndOfFrame_safe p ending s
  | signalError p evidence => exact execSignalError_safe p evidence s
  | abortPulse line => exact execAbortPulse_safe line s
  | lineHeld edge => exact execLineHeld_safe edge s
  | lineReleased p low => exact execLineReleased_safe p low s
  | flushComplete p quiet => exact execFlushComplete_safe p quiet s
  | attemptBegin start => exact execAttemptBegin_safe start s
  | arbitrationLost p heard => exact execArbitrationLost_safe p heard s
  | overdrive p heard => exact execOverdrive_safe p heard s
  | attemptEnd p low slots early => exact execAttemptEnd_safe p low slots early s
  | deadlineExpiry slot => exact execDeadlineExpiry_safe slot s
  | lockGained chars => exact execLockGained_safe chars s
  | lockLost chars => exact execLockLost_safe chars s
  | freshUp chars => exact execFreshUp_safe chars s
  | enterSuspect chars => exact execEnterSuspect_safe chars s
  | resume chars => exact execResume_safe chars s
  | holdTimerExpiry => exact execHoldTimerExpiry_safe s
  | trunkFrameReceived chars => exact execTrunkFrameReceived_safe chars s
  | trunkDataRouting => exact execTrunkDataRouting_safe s
  | trunkFrameStart => exact execTrunkFrameStart_safe s
  | trunkFrameEof => exact execTrunkFrameEof_safe s
  | refreshTimerExpiry => exact execRefreshTimerExpiry_safe s
  | idleFallingEdge p edge => exact execIdleFallingEdge_safe p edge s
  | acceptSlotEdge edge => exact execAcceptSlotEdge_safe edge s
  | abortPulseEnd pulse => exact execAbortPulseEnd_safe pulse s
  | _ => exact submit_safe _ _ s

/-- Every step keeps each invariant by itself. -/
theorem step_safe {s t : State} (h : step s = .next t) : Safe s t := by
  unfold step at h
  split at h
  · cases h
    exact clock_safe (Nat.le_succ _)
  next c rest _ =>
    have waiting : Safe s { s with pending := rest } := ⟨⟨id, id, id, id, id, id, id, id⟩, id⟩
    exact waiting.trans (exec_safe c _ t h)

/-- Settles O55. -/
theorem rangesAreKept : Obligations.RangesAreKept := by
  rintro s t ⟨epochs, counters, settings, nodes⟩ h
  have safe := step_safe h
  exact ⟨safe.epochs epochs, safe.counters counters, safe.settings settings, safe.nodes nodes⟩

/-- Settles O57. -/
theorem commitIsKept : Obligations.CommitIsKept := fun _ _ ok h => (step_safe h).commit ok

/-- Settles O58. -/
theorem disabledPortsStayOff : Obligations.DisabledPortsStayOff := fun _ _ ok h => (step_safe h).ports ok

/-- Settles O59. -/
theorem linkIsKept : Obligations.LinkIsKept := fun _ _ ok h => (step_safe h).link ok

end Sys2Proof.Machine
end

