-- ==== Sys2Proof/Proofs/Agent.lean ====
section
/-! PROOFS. The step itself, the hardware reset, and how a request reaches the agent and is answered
(09_in_band_management.md, THE AGENT AND ITS BUFFERS). -/

-- One theorem after another: many at once need a thread each.
set_option Elab.async false

namespace Sys2Proof.Machine

/-- Settles O1: both branches of `step` are its definition. -/
theorem stepRunsFrontCommand : Obligations.StepRunsFrontCommand := by
  refine ⟨fun c rest s => rfl, fun s h => ?_⟩
  simp only [step, h]

/-- Settles O2: requests and resets are answered outright; a command with conditions answers a next state in each branch. -/
theorem everyCommandGoesOn : Obligations.EveryCommandGoesOn := fun c s => by
  cases c with
  | hardwareReset | agentBeginRequest | trafficReset | fullReset => exact ⟨_, rfl⟩
  | identify | routeRead | routeWrite | routeClear | routeCommit | nodeRead | nodeWrite | nodeUnblock => exact ⟨_, rfl⟩
  | portRead | portWrite | gatewayRead | gatewayWrite | countersRead => exact ⟨_, rfl⟩
  | purgeSweepStep | resyncComplete | deadlineExpiry =>
    simp only [exec, execPurgeSweepStep, execResyncComplete, execDeadlineExpiry]
    split <;> exact ⟨_, rfl⟩
  | falseStart | headerCompletion | controlCompletion | checkCompletion | endOfFrame | signalError | abortPulse | abortPulseEnd =>
    simp only [exec, execFalseStart, execHeaderCompletion, execControlCompletion, execCheckCompletion, execEndOfFrame,
      execSignalError, execAbortPulse, execAbortPulseEnd]
    repeat' split
    all_goals exact ⟨_, rfl⟩
  | lineHeld | lineReleased | flushComplete | attemptBegin | arbitrationLost | overdrive | attemptEnd | idleFallingEdge
  | acceptSlotEdge =>
    simp only [exec, execLineHeld, execLineReleased, execFlushComplete, execAttemptBegin, execArbitrationLost, execOverdrive,
      execAttemptEnd, execIdleFallingEdge, execAcceptSlotEdge]
    repeat' split
    all_goals exact ⟨_, rfl⟩
  | lockGained | lockLost | freshUp | enterSuspect | resume | trunkFrameReceived =>
    simp only [exec, execLockGained, execLockLost, execFreshUp, execEnterSuspect, execResume, execTrunkFrameReceived, heardOther]
    repeat' split
    all_goals exact ⟨_, rfl⟩
  | holdTimerExpiry | refreshTimerExpiry | trunkDataRouting | trunkFrameStart | trunkFrameEof =>
    simp only [exec, execHoldTimerExpiry, execRefreshTimerExpiry, execTrunkDataRouting, execTrunkFrameStart, execTrunkFrameEof]
    repeat' split
    all_goals exact ⟨_, rfl⟩

/-- Before the transmitter's first character and with nothing of a frame on the line, no character is sent. -/
theorem trunkOut_before {k : Trunk} {t : Ticks} (tx : k.tx = none) (cut : k.cut = none) (before : t < k.lineStart) :
    trunkOut k t = none := by
  simp only [trunkOut, tx, cut]
  simp [before]

/-- Settles O3: the reset state is written out, and the line begins at the rise of RESET_N. -/
theorem hardwareResetValues : Obligations.HardwareResetValues := by
  intro s
  refine ⟨_, rfl, rfl, ?_, rfl, fun t before => trunkOut_before rfl rfl before, ?_, ?_, ?_, rfl, rfl, rfl, rfl, ?_, rfl,
    ?_, rfl, ?_, rfl, rfl, rfl, rfl, rfl, rfl, rfl⟩
  · show s.now + 50 ≤ s.now + resetLowTime + Config.resetHold s.freeCount
    exact Nat.le_add_right (s.now + 50) _
  · simp [trunkOut, idleAt, idleIsR, charStart, sendsIdleR, Trunk.reset]
  · exact fun p => by simp [State.reset, Port.reset]
  · exact fun i => by simp [State.reset, RouteList.reset, activeBank, shadowBank]
  · exact fun i => by simp [State.reset, NodeMap.reset]
  · exact fun i => by simp [State.reset, Pool.reset]
  · exact fun q => by simp [State.reset, Pool.reset]

/-! ### A request and its answer -/

section
variable {c : Instr} {r : Request} {s : State}

/-- A request row submits its request. -/
theorem exec_submit (h : requestOfCommand? c = some r) (s : State) : exec c s = submit r.id r.op s := by
  cases c <;> first | (injection h with h; subst h; rfl) | nomatch h

theorem submit_up (id : Octet) (op : RequestOp) (up : s.trunk.link = .up) :
    submit id op s = .next (beginRequest (offerRequest ⟨id, op⟩ s)) := by
  simp only [submit, up, if_true]

theorem submit_elsewhere (id : Octet) (op : RequestOp) (notUp : s.trunk.link ≠ .up) : submit id op s = .next s := by
  simp only [submit, notUp, if_false]

/-- The agent that may not begin, or has nothing to begin, does nothing. -/
theorem beginRequest_idle (h : s.agent.executing = true ∨ s.trunk.response ≠ none ∨ s.agent.buffers = []) : beginRequest s = s := by
  unfold beginRequest
  split
  · rfl
  next busy =>
    obtain ⟨executing, response⟩ : s.agent.executing = false ∧ s.trunk.response = none := by simpa using busy
    have empty : s.agent.buffers = [] := by simpa [executing, response] using h
    simp only [empty]

/-- The agent that may begin answers its oldest request at once, unless that is a commit. -/
theorem beginRequest_answers {rest : List Request} (ready : AgentReady s) (buffers : s.agent.buffers = r :: rest)
    (op : ∀ purge, r.op ≠ .routeCommit purge) :
    beginRequest s = answerNow r.id (runRequest r.op { s with agent := { s.agent with buffers := rest } }) := by
  obtain ⟨executing, response⟩ := ready
  simp only [beginRequest, executing, response, buffers, Option.isSome_none, Bool.or_false, Bool.false_eq_true, if_false]
  cases code : r.op with
  | routeCommit purge => exact absurd code (op purge)
  | _ => simp only [modAgent, executing]

theorem beginRequest_commits {id purge : Octet} {rest : List Request} (ready : AgentReady s)
    (buffers : s.agent.buffers = ⟨id, .routeCommit purge⟩ :: rest) : beginRequest s = beginCommit id purge rest s := by
  obtain ⟨executing, response⟩ := ready
  simp only [beginRequest, executing, response, buffers, Option.isSome_none, Bool.or_false, Bool.false_eq_true, if_false]

/-- A request that is executed, as a row or from the buffers, is answered on the state with its buffer freed. -/
theorem exec_requested {row : Instr} {rest : List Request} (h : Requested c row r rest s) (isRow : requestOfCommand? row = some r)
    (op : ∀ purge, r.op ≠ .routeCommit purge) :
    exec c s = .next (answerNow r.id (runRequest r.op { s with agent := { s.agent with buffers := rest } })) := by
  obtain ⟨rfl, free, rfl⟩ | ⟨rfl, ready, buffers⟩ := h
  · rw [exec_submit isRow, submit_free _ _ _ free op]
    have same : { s with agent := { s.agent with buffers := [] } } = s := by rw [← free.2.2.1]
    rw [same]
    rfl
  · exact congrArg _ (beginRequest_answers ready buffers op)

/-- A row that finds the agent free is answered on the state as it is. -/
theorem exec_free (isRow : requestOfCommand? c = some r) (free : AgentFree s) (op : ∀ purge, r.op ≠ .routeCommit purge) :
    exec c s = .next (answerNow r.id (runRequest r.op s)) := by
  rw [exec_submit isRow, submit_free _ _ _ free op]
  rfl

end

/-- Settles O4: by the state of the link, then of the buffers. -/
theorem requestsQueueAtTheAgent : Obligations.RequestsQueueAtTheAgent := by
  refine ⟨fun c r s isRow => ⟨fun up room => ?_, fun up full => ?_, fun notUp => ?_⟩, fun s h => ?_, fun id rest s ready buffers => ?_,
    fun r rest s ready buffers op => ?_⟩
  · rw [exec_submit isRow, submit_up _ _ up, offerRequest, if_pos room]
    rfl
  · rw [exec_submit isRow, submit_up _ _ up, offerRequest, if_neg (by omega)]
    rfl
  · rw [exec_submit isRow, submit_elsewhere _ _ notUp]
  · exact congrArg _ (beginRequest_idle h)
  · exact congrArg _ (beginRequest_answers ready buffers nofun)
  · exact congrArg _ (beginRequest_answers ready buffers op)

/-! ### The requests that read, write a node entry, or are refused -/

theorem routeIndex?_of_lt {o : Octet} (h : o.toNat < 64) : routeIndex? o = some ⟨o.toNat, h⟩ := dif_pos h

theorem routeIndex?_of_ge {o : Octet} (h : 64 ≤ o.toNat) : routeIndex? o = none := dif_neg (by omega)

theorem nodeAddress?_of_lt {o : Octet} (h : o.toNat < 120) : nodeAddress? o = some ⟨o.toNat, h⟩ := dif_pos h

theorem nodeAddress?_of_ge {o : Octet} (h : 120 ≤ o.toNat) : nodeAddress? o = none := dif_neg (by omega)

theorem segPort?_of_ge {o : Octet} (h : 4 ≤ o.toNat) : segPort? o = none := dif_neg (by omega)

/-- The octet of a segment port's number names that port. -/
theorem segPort?_port (p : SegPort) : segPort? (BitVec.ofNat 8 p.val) = some p := by
  have number : (BitVec.ofNat 8 p.val).toNat = p.val := by simp only [BitVec.toNat_ofNat]; omega
  simp [segPort?, number]

theorem counterGroup?_port (p : SegPort) : counterGroup? (BitVec.ofNat 8 p.val) = some (.port p) := by
  simp only [counterGroup?, segPort?_port]

/-- A flag octet that is yes or no is read as that. -/
theorem yesNo?_flag {o : Octet} (h : o = 0 ∨ o = 1) : yesNo? o = some (o == 1) := by
  obtain rfl | rfl := h <;> rfl

theorem yesNo?_none {o : Octet} (no : o ≠ 0) (yes : o ≠ 1) : yesNo? o = none := by
  simp only [yesNo?, no, yes, if_false]

theorem locationOf?_code (l : Location) : locationOf? l.code = some l := by
  cases l with
  | seg p => revert p; decide
  | trunk => decide
  | unassigned => decide

theorem locationOf?_none {o : Octet} (high : 4 < o.toNat) (notUnassigned : o.toNat ≠ 7) : locationOf? o = none := by
  unfold locationOf?
  have notTrunk : o ≠ 4 := fun h => by rw [h] at high; exact absurd high (by decide)
  have named : o ≠ 7 := fun h => notUnassigned (by rw [h]; rfl)
  rw [dif_neg (by omega), if_neg notTrunk, if_neg named]

/-- A clear flag given as 0 or 1 clears a counter group or leaves it. -/
theorem runCountersRead_group {group clear : Octet} {g : CounterGroup} (s : State) (named : counterGroup? group = some g)
    (flag : clear = 0 ∨ clear = 1) :
    runCountersRead group clear s = accept ((groupValues g s).flatMap octets4) (if clear = 1 then clearGroup g s else s) := by
  simp only [runCountersRead, named, yesNo?_flag flag, beq_iff_eq]

theorem runRouteRead_active (s : State) {index : Octet} (h : index.toNat < 64) :
    runRouteRead 0 index s = accept ([yesNo (activeBank s.route)[index.toNat].valid] ++
      entryOctets (activeBank s.route)[index.toNat] ++ octets4 (activeBank s.route)[index.toNat].hits) s := by
  simp only [runRouteRead, routeIndex?_of_lt h]
  rfl

theorem runRouteRead_shadow (s : State) {index : Octet} (h : index.toNat < 64) :
    runRouteRead 1 index s = accept ([yesNo (shadowBank s.route)[index.toNat].valid] ++
      entryOctets (shadowBank s.route)[index.toNat] ++ [0, 0, 0, 0]) s := by
  simp only [runRouteRead, routeIndex?_of_lt h]
  rfl

theorem runRouteRead_refused {bank index : Octet} (s : State) (h : 2 ≤ bank.toNat ∨ 64 ≤ index.toNat) :
    runRouteRead bank index s = refuse .badArgument s := by
  unfold runRouteRead
  obtain bankHigh | indexHigh := h
  · have notActive : bank ≠ 0 := by rintro rfl; exact absurd bankHigh (by decide)
    have notShadow : bank ≠ 1 := by rintro rfl; exact absurd bankHigh (by decide)
    split <;> simp only [notActive, notShadow, if_false]
  · simp only [routeIndex?_of_ge indexHigh]

theorem runCountersRead_refused {group clear : Octet} (s : State) (h : 6 ≤ group.toNat ∨ 2 ≤ clear.toNat) :
    runCountersRead group clear s = refuse .badArgument s := by
  unfold runCountersRead
  obtain high | high := h
  · have notTrunk : group ≠ 4 := by rintro rfl; exact absurd high (by decide)
    have notGateway : group ≠ 5 := by rintro rfl; exact absurd high (by decide)
    simp only [counterGroup?, segPort?_of_ge (show 4 ≤ group.toNat by omega), notTrunk, notGateway, if_false]
  · have no : clear ≠ 0 := by rintro rfl; exact absurd high (by decide)
    have yes : clear ≠ 1 := by rintro rfl; exact absurd high (by decide)
    rw [yesNo?_none no yes]
    cases counterGroup? group <;> rfl

theorem runGatewayRead_eq (s : State) : runGatewayRead s =
    accept ([BitVec.ofNat 8 s.custody.noticeSource.val, BitVec.ofNat 8 s.custody.noticePriority.val] ++
      octets2 s.pool.lifetimes[0] ++ octets2 s.pool.lifetimes[1] ++ octets2 s.pool.lifetimes[2] ++
      octets2 s.pool.lifetimes[3] ++ [BitVec.ofNat 8 s.nodes.threshold, BitVec.ofNat 8 s.pool.reserveSize] ++
      octets2 s.events.mask.toNat ++ [BitVec.ofNat 8 s.trunk.suspectHold]) s := by
  have four : s.pool.lifetimes.toList = [s.pool.lifetimes[0], s.pool.lifetimes[1], s.pool.lifetimes[2], s.pool.lifetimes[3]] := by
    apply List.ext_getElem
    · simp
    · intro i h _
      have : i < 4 := by simpa using h
      interval_cases i <;> simp
  simp only [runGatewayRead, four, List.flatMap_cons, List.flatMap_nil, List.append_assoc, List.append_nil]

/-- Settles O5: each read finds the agent free and answers from the state. -/
theorem readRequestsAnswer : Obligations.ReadRequestsAnswer := by
  intro id s free
  have answer {c : Instr} (op : RequestOp) (isRow : requestOfCommand? c = some ⟨id, op⟩)
      (read : ∀ purge, op ≠ .routeCommit purge) {results : List Octet} {t : State} (run : runRequest op s = accept results t) :
      exec c s = .next (respond ⟨id, .ok, results⟩ t) := by
    rw [exec_free isRow free read, run]
    rfl
  refine ⟨fun clear flag => ⟨fun p => ?_, ?_, ?_⟩, ?_, fun index h => ⟨?_, ?_⟩, fun address h => ?_, fun p => ?_, ?_⟩
  · exact answer (.countersRead _ clear) rfl nofun (runCountersRead_group s (counterGroup?_port p) flag)
  · exact answer (.countersRead 4 clear) rfl nofun (runCountersRead_group (g := .trunk) s rfl flag)
  · exact answer (.countersRead 5 clear) rfl nofun (runCountersRead_group (g := .gateway) s rfl flag)
  · exact answer .identify rfl nofun rfl
  · exact answer (.routeRead 0 index) rfl nofun (runRouteRead_active s h)
  · exact answer (.routeRead 1 index) rfl nofun (runRouteRead_shadow s h)
  · exact answer (.nodeRead address) rfl nofun (by simp only [runRequest, runNodeRead, nodeAddress?_of_lt h]; rfl)
  · exact answer (.portRead _) rfl nofun (by simp only [runRequest, runPortRead, segPort?_port]; rfl)
  · exact answer .gatewayRead rfl nofun (runGatewayRead_eq s)

/-- Settles O10: the address is in range and the location's code names it. -/
theorem nodeRequestsWrite : Obligations.NodeRequestsWrite := by
  intro id address h s free
  refine ⟨fun l => ?_, ?_⟩
  · rw [exec_free (r := ⟨id, .nodeWrite address l.code⟩) rfl free nofun, runRequest, runNodeWrite, nodeAddress?_of_lt h,
      locationOf?_code]
    rfl
  · rw [exec_free (r := ⟨id, .nodeUnblock address⟩) rfl free nofun, runRequest, runNodeUnblock, nodeAddress?_of_lt h]
    rfl

/-- Settles O11: the argument that is out of range names nothing. -/
theorem argumentsOutOfRangeRefused : Obligations.ArgumentsOutOfRangeRefused := by
  intro id a b s free
  have refused {c : Instr} (op : RequestOp) (isRow : requestOfCommand? c = some ⟨id, op⟩)
      (other : ∀ purge, op ≠ .routeCommit purge) (run : runRequest op s = refuse .badArgument s) :
      exec c s = .next (respond ⟨id, .badArgument, []⟩ s) := by
    rw [exec_free isRow free other, run]
    rfl
  refine ⟨fun h => ?_, fun h => ⟨?_, ?_⟩, fun h => ?_, fun h => ?_, fun h => ?_⟩
  · exact refused (.routeRead a b) rfl nofun (runRouteRead_refused s h)
  · exact refused (.nodeRead a) rfl nofun (by simp only [runRequest, runNodeRead, nodeAddress?_of_ge h])
  · exact refused (.nodeUnblock a) rfl nofun (by simp only [runRequest, runNodeUnblock, nodeAddress?_of_ge h])
  · refine refused (.nodeWrite a b) rfl nofun ?_
    obtain high | ⟨high, named⟩ := h
    · simp only [runRequest, runNodeWrite, nodeAddress?_of_ge high]
    · rw [runRequest, runNodeWrite, locationOf?_none high named]
      cases nodeAddress? a <;> rfl
  · exact refused (.portRead a) rfl nofun (by simp only [runRequest, runPortRead, segPort?_of_ge h])
  · exact refused (.countersRead a b) rfl nofun (runCountersRead_refused s h)

end Sys2Proof.Machine
end

