-- ==== Sys2Proof/Proofs/Sweeps.lean ====
section
/-! PROOFS. The sweeps of the egress queues: by a commit's purge, by a blocked node, by a deadline
(06_frame_pool_admission_and_egress_queues.md, SWEEPS AND FLUSHES). -/

-- One theorem after another: many at once need a thread each.
set_option Elab.async false

namespace Sys2Proof.Machine

/-! ### One queue changed, and what a sweep of it does -/

theorem modQueue_same (q : PortId) (f : Queue → Queue) (s : State) : (modQueue q f s).pool.queues[q] = f s.pool.queues[q] := by
  rw [modQueue_pool, getElem_modAt_fin, if_pos rfl]

theorem modQueue_other {q other : PortId} (f : Queue → Queue) (s : State) (h : other ≠ q) :
    (modQueue q f s).pool.queues[other] = s.pool.queues[other] := by
  rw [modQueue_pool, getElem_modAt_fin, if_neg h]

/-- The mark that a sweep gives a reference it finds in an attempt holder or pending (R60, R122). -/
def markedIf (hit : Ref → Bool) (m : Mark) (r : Ref) : Ref := if hit r && r.mark.isNone then { r with mark := some m } else r

section
variable (q : PortId) (hit : Ref → Bool) (m : Mark) (reason : Reason) (s : State)

theorem markHolder_queue : (markHolder q hit m s).pool.queues[q] =
    { s.pool.queues[q] with holder := s.pool.queues[q].holder.map (markedIf hit m) } := modQueue_same _ _ _

theorem markPending_queue : (markPending q hit m s).pool.queues[q] =
    { s.pool.queues[q] with pending := s.pool.queues[q].pending.map (markedIf hit m) } := modQueue_same _ _ _

theorem sweepLanes_queue : (sweepLanes q hit reason s).pool.queues[q] =
    { s.pool.queues[q] with lanes := modAll s.pool.queues[q].lanes (·.filter fun r => !hit r) } := by
  rw [sweepLanes_queues, getElem_modAt_fin, if_pos rfl]

theorem sweepLanes_other {other : PortId} (h : other ≠ q) :
    (sweepLanes q hit reason s).pool.queues[other] = s.pool.queues[other] := by
  rw [sweepLanes_queues, getElem_modAt_fin, if_neg h]

/-- A sweep of a queue, some of whose references outside its lanes `f` has marked, removes the lane references that it selects, one after another, and then makes
selection due where the armed candidate has gone. -/
theorem sweepLanes_eq {f : Queue → Queue} (lanes : (f s.pool.queues[q]).lanes = s.pool.queues[q].lanes) :
    sweepLanes q hit reason (modQueue q f s) = dueIfGone q (((laneRefs s.pool.queues[q]).filter hit).foldl
      (fun t r => discardRef q r reason t)
      { s with pool := { s.pool with queues := (sweepLanes q hit reason (modQueue q f s)).pool.queues } }) := by
  have refs : laneRefs (modQueue q f s).pool.queues[q] = laneRefs s.pool.queues[q] := by
    rw [modQueue_same, laneRefs, lanes, laneRefs]
  rw [sweepLanes_queues, ← refs]
  rfl

theorem sweepLane_eq {f : Queue → Queue} (lane : Priority) (lanes : (f s.pool.queues[q]).lanes = s.pool.queues[q].lanes) :
    sweepLane q lane hit reason (modQueue q f s) = dueIfGone q ((s.pool.queues[q].lanes[lane].filter hit).foldl
      (fun t r => discardRef q r reason t)
      { s with pool := { s.pool with queues := (sweepLane q lane hit reason (modQueue q f s)).pool.queues } }) := by
  have refs : (modQueue q f s).pool.queues[q].lanes[lane] = s.pool.queues[q].lanes[lane] := by rw [modQueue_same, lanes]
  rw [sweepLane_queues, ← refs]
  rfl

theorem modQueue_id : modQueue q id s = s := by
  have same : modAt s.pool.queues q id = s.pool.queues := by
    ext1 k hk
    rw [getElem_modAt]
    split
    next h => subst h; rfl
    next => rfl
  simp only [modQueue, modPool] at same ⊢
  rw [same]

end

/-! ### The block sweep (R104, R105) -/

theorem blockSweepQueue_queue (dest : Address) (p : SegPort) (s : State) :
    (blockSweepQueue dest s p).pool.queues[p.port] =
      { pending := s.pool.queues[p.port].pending.map (markedIf (fun r => (slotOf r s).frame.dest == dest) .blocked)
        lanes := modAll s.pool.queues[p.port].lanes (·.filter fun r => !((slotOf r s).frame.dest == dest))
        holder := s.pool.queues[p.port].holder.map (markedIf (fun r => (slotOf r s).frame.dest == dest) .blocked) } := by
  unfold blockSweepQueue
  rw [sweepLanes_queue, markHolder_queue, markPending_queue]

theorem blockSweepQueue_other {dest : Address} {p : SegPort} {q : PortId} (s : State) (h : q ≠ p.port) :
    (blockSweepQueue dest s p).pool.queues[q] = s.pool.queues[q] := by
  unfold blockSweepQueue markHolder markPending
  rw [sweepLanes_other _ _ _ _ h, modQueue_other _ _ h, modQueue_other _ _ h]

/-- A block sweep leaves nothing in a lane that was not there. -/
theorem blockSweepQueue_lane_sub (dest : Address) (p q : SegPort) (s : State) (lane : Priority) :
    (blockSweepQueue dest s p).pool.queues[q.port].lanes[lane] ⊆ s.pool.queues[q.port].lanes[lane] := by
  by_cases h : q = p
  · subst h
    rw [blockSweepQueue_queue]
    simp only [Fin.getElem_fin, getElem_modAll]
    exact List.filter_sublist.subset
  · have other : q.port ≠ p.port := fun e => h (Fin.castSucc_injective _ e)
    rw [blockSweepQueue_other s other]
    exact List.Subset.refl _

theorem blockSweeps_lane_sub (dest : Address) (ps : List SegPort) (q : SegPort) (s : State) (lane : Priority) :
    (ps.foldl (blockSweepQueue dest) s).pool.queues[q.port].lanes[lane] ⊆ s.pool.queues[q.port].lanes[lane] := by
  induction ps generalizing s with
  | nil => exact List.Subset.refl _
  | cons p ps ih => exact List.Subset.trans (ih _) (blockSweepQueue_lane_sub dest p q s lane)

theorem nodeFailed_blocks {i : Fin 120} {dest : Address} {s : State} (h : dest.val = i.val) (on : s.nodes.threshold ≠ 0)
    (reached : s.nodes.threshold ≤ min (s.nodes.entries[i].failures + 1) 15) (opened : s.nodes.entries[i].blocked = false) :
    nodeFailed dest s = blockSweep dest (raise .nodeBlocked s.nodes.entries[i].location dest.val
      (modNode i (fun e => { e with failures := min (e.failures + 1) 15, blocked := true }) s)) := by
  simp only [nodeFailed, nodeIndex?_node h, on, reached, opened, ne_eq, not_false_eq_true, and_self, if_true]
  rfl

/-- The mark of a sweep, its selection written as a proposition. -/
theorem map_markedIf {hit : Ref → Bool} {P : Ref → Prop} [DecidablePred P] (h : ∀ r, hit r = true ↔ P r) (m : Mark) :
    markedIf hit m = fun r => if P r ∧ r.mark = none then { r with mark := some m } else r := by
  funext r
  simp only [markedIf, Bool.and_eq_true, Option.isNone_iff_eq_none, h]

/-- Settles O41: the threshold decides, and the block sweep of a queue is a marked `sweepLanes`. -/
theorem deliveryFailureBlocksNode : Obligations.DeliveryFailureBlocksNode := by
  refine ⟨fun i dest s h => ⟨fun on reached opened => ?_, fun stays => ?_⟩, fun dest p s swept => ?_⟩
  · rw [nodeFailed_blocks h on reached opened, blockSweep]
    generalize raised : raise _ _ _ _ = u
    have queues : u.pool.queues = s.pool.queues := by rw [← raised, raise_pool, modNode_pool]
    refine ⟨rfl, fun p lane r mem => ?_⟩
    have before := blockSweeps_lane_sub dest allSegPorts p u lane mem
    rwa [queues] at before
  · have open' : ¬(s.nodes.threshold ≠ 0 ∧ s.nodes.threshold ≤ min (s.nodes.entries[i].failures + 1) 15 ∧
        s.nodes.entries[i].blocked = false) := by
      rintro ⟨on, reached, opened⟩
      obtain off | short | blocked := stays
      · exact on off
      · omega
      · rw [opened] at blocked; cases blocked
    simp only [nodeFailed, nodeIndex?_node h]
    rw [if_neg open']
    rfl
  · rintro rfl
    refine ⟨fun lane => ?_, ?_, ?_, fun q other => blockSweepQueue_other s other, ?_⟩
    · rw [blockSweepQueue_queue]
      simp only [Fin.getElem_fin, getElem_modAll]
      rfl
    · rw [blockSweepQueue_queue, map_markedIf (fun r => beq_iff_eq)]
    · rw [blockSweepQueue_queue, map_markedIf (fun r => beq_iff_eq)]
    · have eq : blockSweepQueue dest s p = sweepLanes p.port (fun r => (slotOf r s).frame.dest == dest) .blocked
          (modQueue p.port (fun Q => { Q with
            pending := Q.pending.map (markedIf (fun r => (slotOf r s).frame.dest == dest) .blocked)
            holder := Q.holder.map (markedIf (fun r => (slotOf r s).frame.dest == dest) .blocked) }) s) := by
        unfold blockSweepQueue markHolder markPending
        dsimp only
        rw [modQueue_modQueue]
        rfl
      rw [eq]
      exact sweepLanes_eq _ _ _ _ rfl

/-! ### The expiry of a deadline (R128) -/

/-- What a sweep that leaves trunk transmission alone makes of a queue before its lanes: the reference in a segment port's attempt
holder marked. -/
def holderMarked (q : PortId) (hit : Ref → Bool) (m : Mark) (Q : Queue) : Queue :=
  if q = trunkPort then Q else { Q with holder := Q.holder.map (markedIf hit m) }

theorem holderMarked_lanes (q : PortId) (hit : Ref → Bool) (m : Mark) (Q : Queue) : (holderMarked q hit m Q).lanes = Q.lanes := by
  unfold holderMarked
  split <;> rfl

theorem holderMarked_pending (q : PortId) (hit : Ref → Bool) (m : Mark) (Q : Queue) :
    (holderMarked q hit m Q).pending = Q.pending := by
  unfold holderMarked
  split <;> rfl

theorem holderMarked_holder {q : PortId} {hit : Ref → Bool} {P : Ref → Prop} [DecidablePred P] (h : ∀ r, hit r = true ↔ P r)
    (m : Mark) (Q : Queue) : (holderMarked q hit m Q).holder =
      Q.holder.map (fun r => if q ≠ trunkPort ∧ P r ∧ r.mark = none then { r with mark := some m } else r) := by
  unfold holderMarked
  split
  next trunk => simp [trunk]
  next segment => simp only [map_markedIf h, segment, ne_eq, not_false_eq_true, true_and]

theorem markHolder_segment (q : PortId) (hit : Ref → Bool) (m : Mark) (s : State) :
    (if q = trunkPort then s else markHolder q hit m s) = modQueue q (holderMarked q hit m) s := by
  unfold holderMarked
  split
  · exact (modQueue_id q s).symm
  · rfl

theorem expireQueue_eq (i : SlotId) (s : State) (q : PortId) : expireQueue i s q =
    sweepLanes q (fun r => r.slot == i) .expired (modQueue q (holderMarked q (fun r => r.slot == i) .expired) s) := by
  unfold expireQueue
  dsimp only
  rw [markHolder_segment]

/-- Settles O44: an expiry is a sweep of each queue, its holder marked before. -/
theorem deadlineExpiryRemovesReferences : Obligations.DeadlineExpiryRemovesReferences := by
  refine ⟨fun i deadline s queued due => ?_, fun i s h => ?_, fun i s swept q => ?_⟩
  · simp only [exec, execDeadlineExpiry, queued, due]
  · unfold exec execDeadlineExpiry
    dsimp only
    split
    next queued due => obtain other | none := h <;> simp_all
    · rfl
  · rintro rfl
    rw [expireQueue_eq]
    refine ⟨fun lane => ?_, ?_, ?_, fun other h => ?_, ?_, sweepLanes_eq _ _ _ _ (holderMarked_lanes _ _ _ _)⟩
    · rw [sweepLanes_queue, modQueue_same, holderMarked_lanes]
      simp only [Fin.getElem_fin, getElem_modAll]
      rfl
    · rw [sweepLanes_queue, modQueue_same]
      exact holderMarked_holder (fun r => beq_iff_eq) _ _
    · rw [sweepLanes_queue, modQueue_same]
      exact holderMarked_pending _ _ _ _
    · rw [sweepLanes_other _ _ _ _ h, modQueue_other _ _ h]
    · exact (modQueue_kept _ _ _).trans (sweepLanes_kept _ _ _ _)

/-! ### The purge sweep of a commit (R89, R90) -/

theorem sweepLane_queue (q : PortId) (lane : Priority) (hit : Ref → Bool) (reason : Reason) (s : State) :
    (sweepLane q lane hit reason s).pool.queues[q] =
      { s.pool.queues[q] with lanes := modAt s.pool.queues[q].lanes lane (·.filter fun r => !hit r) } := by
  rw [sweepLane_queues, getElem_modAt_fin, if_pos rfl]

theorem sweepLane_other {q other : PortId} (lane : Priority) (hit : Ref → Bool) (reason : Reason) (s : State) (h : other ≠ q) :
    (sweepLane q lane hit reason s).pool.queues[other] = s.pool.queues[other] := by
  rw [sweepLane_queues, getElem_modAt_fin, if_neg h]

/-- The references that the purge sweep selects. -/
def staleRef (s : State) (r : Ref) : Bool := isStale (slotOf r s).epoch s

theorem staleRef_iff (s : State) (r : Ref) : staleRef s r = true ↔ (slotOf r s).epoch < s.route.purgeEpoch := decide_eq_true_iff

theorem not_staleRef (s : State) (r : Ref) : (!staleRef s r) = decide (s.route.purgeEpoch ≤ (slotOf r s).epoch) := by
  rw [Bool.eq_iff_iff, Bool.not_eq_true', Bool.eq_false_iff, Ne, staleRef_iff, decide_eq_true_iff, not_lt]

theorem purgeSweepLane_eq (q : PortId) (lane : Priority) (s : State) : purgeSweepLane q lane s =
    sweepLane q lane (staleRef s) .purged (modQueue q (holderMarked q (staleRef s) .purged) s) := by
  rw [← markHolder_segment]
  rfl

theorem purgeSweepStep_eq {s : State} {q : PortId} {lane : Priority} {rest : List (PortId × Priority)} {resync : Bool}
    (h : s.route.commit = .running ((q, lane) :: rest) resync) : exec .purgeSweepStep s =
      .next (settle (commitComplete (modRoute (fun r => { r with commit := .running rest resync }) (purgeSweepLane q lane s)))) := by
  simp only [exec, execPurgeSweepStep, h]

/-- A purge sweep touches neither the route list nor the agent, nor the response holder. -/
theorem purgeSweepLane_rest (q : PortId) (lane : Priority) (s : State) : (purgeSweepLane q lane s).route = s.route ∧
    (purgeSweepLane q lane s).agent = s.agent ∧ (purgeSweepLane q lane s).trunk.response = s.trunk.response :=
  have kept := purgeSweepLane_kept q lane s
  ⟨kept.route, kept.agent, by rw [kept.trunk]⟩

/-- Settles O8: one lane is swept, its holder marked before, and with the last one the commit completes. -/
theorem purgeSweepRemovesStale : Obligations.PurgeSweepRemovesStale := by
  refine ⟨fun s q lane rest resync running => ⟨fun goesOn => ?_, ?_⟩, fun s nothing => ?_, by decide, fun s swept q lane => ?_⟩
  · rw [purgeSweepStep_eq running, commitComplete_of_ne]
    rw [modRoute_route]
    rintro ⟨⟩
    obtain nonempty | due := goesOn
    · exact nonempty rfl
    · cases due
  · rintro r waiting swept rfl rfl executing buffers rfl
    obtain ⟨route, agent, response⟩ := purgeSweepLane_rest q lane s
    rw [purgeSweepStep_eq running, commitComplete_of_eq rfl (by rw [modRoute_agent, agent]; exact executing)
      (by rw [modRoute_agent, agent]; exact buffers)]
    simp only [modRoute_route, modRoute_agent, modRoute_trunk, modRoute_ports, modRoute_pool, modRoute_custody, modRoute_events,
      modRoute_gateway, modRoute_nodes, modRoute_pending, modRoute_now, modRoute_freeCount, route, agent, ← response]
    split <;> rfl
  · simp only [exec, execPurgeSweepStep]
    split
    next q lane rest resync running => exact absurd running (nothing q lane rest resync)
    all_goals rfl
  · rintro rfl
    rw [purgeSweepLane_eq]
    refine ⟨?_, fun other h => ?_, ?_, ?_, fun other h => ?_, ?_, ?_⟩
    · rw [sweepLane_queue, modQueue_same, holderMarked_lanes]
      simp only [getElem_modAt_fin, if_true, not_staleRef]
    · rw [sweepLane_queue, modQueue_same, holderMarked_lanes]
      simp only [getElem_modAt_fin, h, if_false]
    · rw [sweepLane_queue, modQueue_same]
      exact holderMarked_pending _ _ _ _
    · rw [sweepLane_queue, modQueue_same]
      exact holderMarked_holder (staleRef_iff s) _ _
    · rw [sweepLane_other _ _ _ _ h, modQueue_other _ _ h]
    · exact (modQueue_kept _ _ _).trans (sweepLane_kept _ _ _ _ _)
    · exact sweepLane_eq _ _ _ _ _ (holderMarked_lanes _ _ _ _)

end Sys2Proof.Machine
end

