-- ==== Sys2Proof/Proofs/Routes.lean ====
section
/-! PROOFS. The requests on the route list and the commit (04_the_route_list.md, WRITING AND READING THE BANKS, COMMIT). -/

-- One theorem after another: many at once need a thread each.
set_option Elab.async false

namespace Sys2Proof.Machine

/-! ### The codes of written fields -/

theorem actionOf?_eq_some {o : Octet} {v : Action} : actionOf? o = some v ↔ v.code = o := by
  unfold actionOf?
  constructor
  · intro h
    split at h
    next e => cases h; exact e.symm
    next =>
      split at h
      next e => cases h; exact e.symm
      next =>
        split at h
        next e => cases h; exact e.symm
        next => cases h
  · rintro rfl
    cases v <;> rfl

theorem modeOf?_eq_some {o : Octet} {v : Mode} : modeOf? o = some v ↔ v.code = o := by
  unfold modeOf?
  constructor
  · intro h
    split at h
    next e => cases h; exact e.symm
    next =>
      split at h
      next e => cases h; exact e.symm
      next => cases h
  · rintro rfl
    cases v <;> rfl

theorem yesNo?_eq_some {o : Octet} {v : Bool} : yesNo? o = some v ↔ yesNo v = o := by
  unfold yesNo?
  constructor
  · intro h
    split at h
    next e => cases h; exact e.symm
    next =>
      split at h
      next e => cases h; exact e.symm
      next => cases h
  · rintro rfl
    cases v <;> rfl

theorem portSet?_eq_some {o : Octet} {v : PortSet} : portSet? o = some v ↔ v.setWidth 8 = o := by
  unfold portSet?
  constructor
  · intro h
    split at h
    next low =>
      cases h
      apply BitVec.eq_of_toNat_eq
      simp only [BitVec.toNat_setWidth, BitVec.toNat_ofNat]
      omega
    next => cases h
  · rintro rfl
    have low : (v.setWidth 8).toNat = v.toNat := by
      have := v.isLt
      simp only [BitVec.toNat_setWidth]
      omega
    rw [low, if_pos v.isLt, BitVec.ofNat_toNat, BitVec.setWidth_eq]

/-- The octet of a priority override, 255 where there is none (R189). -/
def overrideOctet : Option Priority → Octet
  | none => 255
  | some p => BitVec.ofNat 8 p.val

theorem priorityOf?_eq_some {o : Octet} {v : Option Priority} : priorityOf? o = some v ↔ overrideOctet v = o := by
  unfold priorityOf?
  constructor
  · intro h
    split at h
    next e => cases h; exact e.symm
    next =>
      split at h
      next => cases h; exact BitVec.eq_of_toNat_eq (by simp [overrideOctet])
      next => cases h
  · rintro rfl
    cases v with
    | none => rfl
    | some p => revert p; decide

theorem lifetime?_eq_some {o : Octet} {v : LifetimeClass} : lifetime? o = some v ↔ BitVec.ofNat 8 v.val = o := by
  unfold lifetime?
  constructor
  · intro h
    split at h
    next => cases h; exact BitVec.eq_of_toNat_eq (by simp)
    next => cases h
  · rintro rfl
    revert v
    decide

/-! ### The entry that written fields make (R70, R71, R169, R189) -/

/-- An entry is the one that written fields name, each code its value. -/
structure FieldsName (a : RouteArgs) (e : RouteEntry) : Prop where
  valid : e.valid = true
  hits : e.hits = 0
  ingress : e.ingress.setWidth 8 = a.ingress
  egress : e.egress.setWidth 8 = a.egress
  destLow : e.destLow = a.destLow.toNat
  destHigh : e.destHigh = a.destHigh.toNat
  source : e.source = sourceRange a
  services : e.services = a.services
  action : e.action.code = a.action
  mode : e.mode.code = a.mode
  mirror : yesNo e.mirror = a.mirror
  priority : overrideOctet e.priority = a.priority
  lifetime : BitVec.ofNat 8 e.lifetime.val = a.lifetime
  present : ∃ b, yesNo b = a.sourcePresent

theorem entryOfArgs?_eq_some {a : RouteArgs} {e : RouteEntry} :
    entryOfArgs? a = some e ↔ FieldsName a e ∧ entryWellFormed e = true := by
  unfold entryOfArgs?
  constructor
  · intro h
    split at h
    next ingress action egress mode mirror priority lifetime present =>
      dsimp only at h
      split at h
      next formed =>
        cases h
        exact ⟨⟨rfl, rfl, portSet?_eq_some.1 ingress, portSet?_eq_some.1 egress, rfl, rfl, rfl, rfl, actionOf?_eq_some.1 action,
          modeOf?_eq_some.1 mode, yesNo?_eq_some.1 mirror, priorityOf?_eq_some.1 priority, lifetime?_eq_some.1 lifetime,
          ⟨_, yesNo?_eq_some.1 present⟩⟩, formed⟩
      next => cases h
    next => cases h
  · rintro ⟨n, formed⟩
    obtain ⟨present, hp⟩ := n.present
    rw [portSet?_eq_some.2 n.ingress, actionOf?_eq_some.2 n.action, portSet?_eq_some.2 n.egress, modeOf?_eq_some.2 n.mode,
      yesNo?_eq_some.2 n.mirror, priorityOf?_eq_some.2 n.priority, lifetime?_eq_some.2 n.lifetime, yesNo?_eq_some.2 hp]
    have made : (⟨true, e.ingress, a.destLow.toNat, a.destHigh.toNat, sourceRange a, a.services, e.action, e.egress, e.mode, e.mirror,
        e.priority, e.lifetime, 0⟩ : RouteEntry) = e := by
      rw [← n.destLow, ← n.destHigh, ← n.source, ← n.services, ← n.valid, ← n.hits]
    dsimp only
    rw [made, if_pos formed]

/-- The three octets of a source range, 0 where there is none (R189). -/
def sourceOctets : Option (Nat × Nat) → List Octet
  | none => [0, 0, 0]
  | some (lo, hi) => [1, BitVec.ofNat 8 lo, BitVec.ofNat 8 hi]

theorem entryOctets_eq (e : RouteEntry) : entryOctets e =
    [e.ingress.setWidth 8, BitVec.ofNat 8 e.destLow, BitVec.ofNat 8 e.destHigh] ++ sourceOctets e.source ++
      octets2 e.services.toNat ++ [e.action.code, e.egress.setWidth 8, e.mode.code, yesNo e.mirror, overrideOctet e.priority,
        BitVec.ofNat 8 e.lifetime.val] := by
  unfold entryOctets
  cases e.source <;> cases e.priority <;> rfl

theorem sourceOctets_range {a : RouteArgs} (h : ∃ b, yesNo b = a.sourcePresent) : sourceOctets (sourceRange a) =
    [a.sourcePresent, if a.sourcePresent = 1 then a.sourceLow else 0, if a.sourcePresent = 1 then a.sourceHigh else 0] := by
  rw [sourceRange]
  obtain ⟨_ | _, present⟩ := h <;> rw [← present] <;> simp [yesNo, sourceOctets]

/-- The entry reads back the octets written (R189). -/
theorem FieldsName.readBack {a : RouteArgs} {e : RouteEntry} (n : FieldsName a e) : entryOctets e = readBackOctets a := by
  rw [entryOctets_eq, n.source, sourceOctets_range n.present, n.ingress, n.egress, n.destLow, n.destHigh, n.services, n.action, n.mode,
    n.mirror, n.priority, n.lifetime, BitVec.ofNat_toNat, BitVec.ofNat_toNat, BitVec.setWidth_eq, BitVec.setWidth_eq]
  rfl

theorem setWidth_toNat (v : PortSet) : (v.setWidth 8).toNat = v.toNat := by
  have := v.isLt
  simp only [BitVec.toNat_setWidth]
  omega

theorem exists_portSet {o : Octet} (h : o.toNat ≤ 31) : ∃ v : PortSet, v.setWidth 8 = o :=
  ⟨_, portSet?_eq_some.1 (if_pos (by omega))⟩

theorem portSet_ne_zero (v : PortSet) : v ≠ 0 ↔ 1 ≤ (v.setWidth 8).toNat := by
  rw [setWidth_toNat, ne_eq, ← BitVec.toNat_inj, show (0 : PortSet).toNat = 0 from rfl]
  omega

/-- The conditions on the fields are those under which they name a well-formed entry. -/
theorem routeFieldsOk_iff {a : RouteArgs} : RouteFieldsOk a ↔ ∃ e, FieldsName a e ∧ entryWellFormed e = true := by
  constructor
  · rintro ⟨ingressLow, ingressHigh, dest, destHigh, source, services, egress, mode, mirror, priority, lifetime⟩
    obtain ⟨ingressSet, hIngress⟩ := exists_portSet ingressHigh
    obtain ⟨egressSet, hEgress⟩ : ∃ v : PortSet, v.setWidth 8 = a.egress := by
      obtain ⟨-, -, high⟩ | ⟨-, none⟩ := egress
      · exact exists_portSet high
      · exact ⟨0, by rw [none]; rfl⟩
    obtain ⟨act, hAction⟩ : ∃ v : Action, v.code = a.action := by
      obtain ⟨forward, -⟩ | ⟨home | drop, -⟩ := egress
      · exact ⟨.forward, forward.symm⟩
      · exact ⟨.home, home.symm⟩
      · exact ⟨.drop, drop.symm⟩
    obtain ⟨md, hMode⟩ : ∃ v : Mode, v.code = a.mode := mode.elim (⟨.custody, ·.symm⟩) (⟨.passive, ·.symm⟩)
    obtain ⟨mir, hMirror⟩ : ∃ v : Bool, yesNo v = a.mirror := mirror.elim (⟨false, ·.symm⟩) (⟨true, ·.symm⟩)
    obtain ⟨pri, hPriority⟩ : ∃ v : Option Priority, overrideOctet v = a.priority := by
      obtain absent | low := priority
      · exact ⟨none, absent.symm⟩
      · exact ⟨some ⟨a.priority.toNat, by omega⟩, by simp [overrideOctet]⟩
    have hPresent : ∃ v : Bool, yesNo v = a.sourcePresent := source.elim (⟨false, ·.symm⟩) (fun h => ⟨true, h.1.symm⟩)
    refine ⟨⟨true, ingressSet, a.destLow.toNat, a.destHigh.toNat, sourceRange a, a.services, act, egressSet, md, mir, pri,
      ⟨a.lifetime.toNat, by omega⟩, 0⟩, ⟨rfl, rfl, hIngress, hEgress, rfl, rfl, rfl, rfl, hAction, hMode, hMirror, hPriority,
      by simp, hPresent⟩, ?_⟩
    have ingressSome : ingressSet ≠ 0 := by rw [portSet_ne_zero, hIngress]; exact ingressLow
    simp only [entryWellFormed, Bool.and_eq_true, bne_iff_ne, ne_eq, decide_eq_true_iff]
    refine ⟨⟨⟨⟨⟨ingressSome, dest⟩, destHigh⟩, ?_⟩, services⟩, ?_⟩
    · obtain absent | ⟨present, low, high⟩ := source
      · rw [sourceRange, absent]
        rfl
      · rw [sourceRange, if_pos present]
        simpa using ⟨low, high⟩
    · have none_iff : egressSet = 0 ↔ a.egress = 0 := by
        constructor
        · rintro rfl; exact hEgress.symm
        · intro h
          by_contra some'
          rw [← ne_eq, portSet_ne_zero, hEgress, h] at some'
          exact absurd some' (by decide)
      rw [← hAction] at egress
      cases act with
      | forward =>
        obtain ⟨-, low, -⟩ | ⟨other | other, -⟩ := egress
        · simp only [bne_iff_ne, portSet_ne_zero, hEgress]; exact low
        all_goals exact absurd other (by decide)
      | _ =>
        obtain ⟨other, -⟩ | ⟨-, none⟩ := egress
        · exact absurd other (by decide)
        · exact beq_iff_eq.2 (none_iff.2 none)
  · rintro ⟨e, n, formed⟩
    simp only [entryWellFormed, Bool.and_eq_true, bne_iff_ne, decide_eq_true_iff, n.destLow, n.destHigh, n.services] at formed
    obtain ⟨⟨⟨⟨⟨ingress, dest⟩, destHigh⟩, source⟩, services⟩, egress⟩ := formed
    rw [ne_eq, ← ne_eq, portSet_ne_zero] at ingress
    have ingressSize := setWidth_toNat e.ingress
    have egressSize := setWidth_toNat e.egress
    have ingressBound := e.ingress.isLt
    have egressBound := e.egress.isLt
    rw [n.ingress] at ingress ingressSize
    rw [n.egress] at egressSize
    refine ⟨ingress, by omega, dest, destHigh, ?_, services, ?_, ?_, ?_, ?_, ?_⟩
    · rw [n.source, sourceRange] at source
      obtain ⟨_ | _, present⟩ := n.present
      · exact .inl present.symm
      · have one : a.sourcePresent = 1 := present.symm
        rw [if_pos one] at source
        exact .inr ⟨present.symm, by simpa using source⟩
    · rw [← n.action, ← n.egress]
      generalize e.egress = egr at *
      cases h : e.action with
      | forward =>
        rw [h] at egress
        refine .inl ⟨rfl, (portSet_ne_zero _).1 (bne_iff_ne.1 egress), ?_⟩
        rw [setWidth_toNat]
        omega
      | home => rw [h] at egress; exact .inr ⟨.inl rfl, by rw [beq_iff_eq.1 egress]; rfl⟩
      | drop => rw [h] at egress; exact .inr ⟨.inr rfl, by rw [beq_iff_eq.1 egress]; rfl⟩
    · rw [← n.mode]; cases e.mode <;> simp [Mode.code]
    · rw [← n.mirror]; cases e.mirror <;> simp [yesNo]
    · rw [← n.priority]
      cases e.priority with
      | none => exact .inl rfl
      | some p => exact .inr (by simp only [overrideOctet, BitVec.toNat_ofNat]; omega)
    · rw [← n.lifetime]
      have := e.lifetime.isLt
      simp only [BitVec.toNat_ofNat]
      omega

/-- Settles O6: the fields are in order exactly when they name a well-formed entry, and a range is cleared as its bounds say. -/
theorem shadowBankIsEdited : Obligations.ShadowBankIsEdited := by
  refine ⟨fun id index a s free => ⟨fun h ok => ?_, fun bad => ?_⟩, fun id first last s free => ⟨fun order range => ?_, fun bad => ?_⟩⟩
  · obtain ⟨e, named, formed⟩ := routeFieldsOk_iff.1 ok
    refine ⟨e, named.valid, named.hits, named.readBack, ?_⟩
    rw [exec_free (r := ⟨id, .routeWrite index a⟩) rfl free nofun, runRequest, runRouteWrite, routeIndex?_of_lt h,
      entryOfArgs?_eq_some.2 ⟨named, formed⟩]
    rfl
  · rw [exec_free (r := ⟨id, .routeWrite index a⟩) rfl free nofun, runRequest, runRouteWrite]
    obtain high | fields := bad
    · rw [routeIndex?_of_ge high]
      rfl
    · have none : entryOfArgs? a = none := by
        rw [Option.eq_none_iff_forall_not_mem]
        exact fun e he => fields (routeFieldsOk_iff.2 ⟨e, entryOfArgs?_eq_some.1 he⟩)
      rw [none]
      cases routeIndex? index <;> rfl
  · refine ⟨clearRange first.toNat last.toNat (shadowBank s.route), fun i => ?_, ?_⟩
    · simp only [clearRange, Fin.getElem_fin, Vector.getElem_ofFn]
    · have inRange : ¬(64 ≤ first.toNat ∨ 64 ≤ last.toNat ∨ last.toNat < first.toNat) := by omega
      rw [exec_free (r := ⟨id, .routeClear first last⟩) rfl free nofun, runRequest, runRouteClear, if_neg inRange]
      rfl
  · have outOfRange : 64 ≤ first.toNat ∨ 64 ≤ last.toNat ∨ last.toNat < first.toNat := by omega
    rw [exec_free (r := ⟨id, .routeClear first last⟩) rfl free nofun, runRequest, runRouteClear, if_pos outOfRange]
    rfl

/-! ### The commit (R87 to R90) -/

theorem withoutHits_getElem (b : Vector RouteEntry 64) (i : RouteIndex) : (withoutHits b)[i] = { b[i] with hits := 0 } := by
  unfold withoutHits
  rw [Fin.getElem_fin, getElem_modAll]
  rfl

theorem activeBank_swapBanks (purge : Bool) (r : RouteList) : activeBank (swapBanks purge r) = withoutHits (shadowBank r) := by
  unfold activeBank shadowBank swapBanks
  cases r.activeIsB <;> rfl

theorem shadowBank_swapBanks (purge : Bool) (r : RouteList) : shadowBank (swapBanks purge r) = withoutHits (activeBank r) := by
  unfold activeBank shadowBank swapBanks
  cases r.activeIsB <;> rfl

theorem settle_of_not_due {s : State} (h : ∀ p : SegPort, s.ports[p].due = false) : settle s = s := by
  have none : nextDue s = none := by
    rw [nextDue, List.find?_eq_none]
    intro p _
    rw [h p]
    decide
  simp only [settle, runSelections, none]

/-- A commit that is executed, as a row or from the buffers, begins with its request buffered. -/
theorem exec_commit {c : Instr} {id purge : Octet} {rest : List Request} {s : State}
    (h : Requested c (.routeCommit id purge) ⟨id, .routeCommit purge⟩ rest s) : exec c s =
      .next (beginCommit id purge rest { s with agent := { s.agent with buffers := ⟨id, .routeCommit purge⟩ :: rest } }) := by
  obtain ⟨rfl, free, rfl⟩ | ⟨rfl, ready, buffers⟩ := h
  · exact submit_commit_free id purge s free
  · rw [← buffers]
    exact congrArg _ (beginRequest_commits ready buffers)

/-- The state after the swap, before the selections that it makes due. -/
def swapped (purge : Bool) (r : Request) (rest : List Request) (s : State) : State :=
  { s with
    route := swapBanks purge s.route
    agent := { s.agent with buffers := r :: rest, executing := true }
    ports := if purge then modAll s.ports (fun pt => if pt.tx.isArmed then { pt with due := true } else pt) else s.ports }

theorem swapped_kept (purge : Bool) (r : Request) (rest : List Request) (s : State) :
    Kept { s with route := (swapped purge r rest s).route, agent := (swapped purge r rest s).agent } (swapped purge r rest s) := by
  refine ⟨rfl, rfl, rfl, rfl, rfl, rfl, rfl, rfl, rfl, rfl, rfl, rfl, fun p => ?_⟩
  cases purge with
  | false => rfl
  | true =>
    simp only [swapped, if_true, Fin.getElem_fin, getElem_modAll]
    split <;> rfl

theorem swapped_ports (r : Request) (rest : List Request) (s : State) :
    (swapped ((0 : Octet) == 1) r rest s).ports = s.ports := by
  simp [swapped]

theorem beginCommit_starts {id purge : Octet} {rest : List Request} {s : State} (below : s.route.epoch < epochMax)
    (flag : purge = 0 ∨ purge = 1) :
    beginCommit id purge rest { s with agent := { s.agent with buffers := ⟨id, .routeCommit purge⟩ :: rest } } =
      settle (swapped (purge == 1) ⟨id, .routeCommit purge⟩ rest s) := by
  simp only [beginCommit, Nat.not_le.2 below, if_false, yesNo?_flag flag, commitSwap_eq]
  rfl

/-- Settles O7: the swap is `swapped`, and its selections run at the end of the step. -/
theorem routeCommitSwaps : Obligations.RouteCommitSwaps := by
  intro c id purge rest s h
  rw [exec_commit h]
  refine ⟨fun below flag => ⟨_, congrArg _ (beginCommit_starts below flag), ?_⟩, fun full => ?_, fun below no yes => ?_⟩
  · have kept := settle_kept (swapped (purge == 1) ⟨id, .routeCommit purge⟩ rest s)
    have route : (settle (swapped (purge == 1) ⟨id, .routeCommit purge⟩ rest s)).route = swapBanks (purge == 1) s.route := kept.route
    have agent : (settle (swapped (purge == 1) ⟨id, .routeCommit purge⟩ rest s)).agent =
        { s.agent with buffers := ⟨id, .routeCommit purge⟩ :: rest, executing := true } := kept.agent
    rw [route, agent, activeBank_swapBanks, shadowBank_swapBanks]
    refine ⟨fun i => ⟨withoutHits_getElem _ i, withoutHits_getElem _ i⟩, rfl, rfl, ?_, ?_, rfl,
      (swapped_kept (purge == 1) ⟨id, .routeCommit purge⟩ rest s).trans kept, ?_, fun plain quiet => ?_⟩
    · simp only [swapBanks, beq_iff_eq]
    · simp only [swapBanks, beq_iff_eq]
    · simp only [swapped, beq_iff_eq]
    · subst plain
      exact settle_of_not_due fun p => by rw [swapped_ports]; exact quiet p
  · simp only [beginCommit, full, if_true]
    rfl
  · simp only [beginCommit, Nat.not_le.2 below, if_false, yesNo?_none no yes]
    rfl

theorem activeBank_setShadow (b : Vector RouteEntry 64) (c : Commit) (r : RouteList) :
    activeBank { setShadow b r with commit := c } = activeBank r := by
  unfold activeBank setShadow
  cases r.activeIsB <;> rfl

theorem shadowBank_setShadow (b : Vector RouteEntry 64) (c : Commit) (r : RouteList) :
    shadowBank { setShadow b r with commit := c } = b := by
  unfold shadowBank setShadow
  cases r.activeIsB <;> rfl

/-- Completing a commit moves nothing of the route list but the commit. -/
theorem commitComplete_route (s : State) : ∃ c, (commitComplete s).route = { s.route with commit := c } := by
  unfold commitComplete
  split
  · refine ⟨.idle, ?_⟩
    split
    · split <;> rfl
    · rfl
  all_goals exact ⟨s.route.commit, rfl⟩

/-- The route list once the resync has run, its commit at `c`. -/
def resynced (c : Commit) (r : RouteList) : RouteList := { setShadow (withoutHits (activeBank r)) r with commit := c }

theorem exec_resyncComplete {s : State} {lanes : List (PortId × Priority)} (running : s.route.commit = .running lanes true) :
    exec .resyncComplete s = .next (commitComplete { s with route := resynced (.running lanes false) s.route }) := by
  simp only [exec, execResyncComplete, running]
  rfl

/-- Settles O9: the banks are copied, and the commit completes where no lane is left. -/
theorem resyncCompletesCommit : Obligations.ResyncCompletesCommit := by
  intro s lanes running
  obtain ⟨c, route⟩ := commitComplete_route { s with route := resynced (.running lanes false) s.route }
  obtain ⟨epoch, purge, -⟩ := setShadow_epochs (withoutHits (activeBank s.route)) s.route
  refine ⟨_, exec_resyncComplete running, ?_, fun i => ?_, ?_, ?_, fun more => ?_, fun r rest last executing buffers => ?_⟩
  · rw [route]; exact activeBank_setShadow _ _ _
  · rw [route]
    refine Eq.trans ?_ (withoutHits_getElem (activeBank s.route) i)
    exact congrArg (·[i]) (shadowBank_setShadow _ _ _)
  · rw [route]; exact epoch
  · rw [route]; exact purge
  · have goesOn : commitComplete { s with route := resynced (.running lanes false) s.route } =
        { s with route := resynced (.running lanes false) s.route } :=
      commitComplete_of_ne fun h => more (by injection h)
    rw [goesOn]
    exact ⟨rfl, rfl⟩
  · subst last
    have ended := commitComplete_of_eq (s := { s with route := resynced (.running [] false) s.route }) rfl executing buffers
    have same : octets4 (resynced (.running [] false) s.route).epoch = octets4 s.route.epoch := congrArg octets4 epoch
    rw [ended]
    dsimp only
    rw [same]
    refine ⟨rfl, ?_⟩
    split <;> rfl

end Sys2Proof.Machine
end

