-- ==== Sys2Proof/Proofs/PortSettings.lean ====
section
/-! PROOFS. PORT_WRITE: its checks, the settings, the enable and the disable (03_segment_port_engine.md, DISABLE, ENABLE AND RESETS). -/

-- One theorem after another: many at once need a thread each.
set_option Elab.async false

namespace Sys2Proof.Machine

/-! ### The checks of a PORT_WRITE (R171) -/

theorem rateOf?_eq_some {o : Octet} {v : Rate} : rateOf? o = some v ↔ v.code = o := by
  unfold rateOf?
  constructor
  · intro h
    split at h
    next e => cases h; exact e.symm
    next =>
      split at h
      next e => cases h; exact e.symm
      next => cases h
  · rintro rfl
    cases v <;> rfl

theorem missActionOf?_eq_some {o : Octet} {v : MissAction} : missActionOf? o = some v ↔ v.code = o := by
  unfold missActionOf?
  constructor
  · intro h
    split at h
    next e => cases h; exact e.symm
    next =>
      split at h
      next e => cases h; exact e.symm
      next =>
        split at h
        next e => cases h; exact e.symm
        next => cases h
  · rintro rfl
    cases v <;> rfl

theorem Rate.code_inj {a b : Rate} : a.code = b.code ↔ a = b := by
  cases a <;> cases b <;> decide

/-- The settings that a PORT_WRITE carries, each code its value. -/
structure SettingsName (a : PortArgs) (v : PortSettings) : Prop where
  enabled : yesNo v.enabled = a.enabled
  rate : v.rate.code = a.rate
  retryLimit : v.retryLimit = a.retryLimit.toNat
  queueLimit : v.queueLimit = a.queueLimit.toNat
  missAction : v.missAction.code = a.missAction
  abortOnError : yesNo v.abortOnError = a.abortOnError

theorem portSettings?_eq_some {a : PortArgs} {v : PortSettings} : portSettings? a = some v ↔
    SettingsName a v ∧ a.retryLimit.toNat ≤ 7 ∧ 1 ≤ a.queueLimit.toNat ∧ a.queueLimit.toNat ≤ 64 := by
  unfold portSettings?
  constructor
  · intro h
    split at h
    next enabled rate miss abort =>
      split at h
      next range =>
        cases h
        exact ⟨⟨yesNo?_eq_some.1 enabled, rateOf?_eq_some.1 rate, rfl, rfl, missActionOf?_eq_some.1 miss, yesNo?_eq_some.1 abort⟩,
          range⟩
      next => cases h
    next => cases h
  · rintro ⟨n, range⟩
    rw [yesNo?_eq_some.2 n.enabled, rateOf?_eq_some.2 n.rate, missActionOf?_eq_some.2 n.missAction, yesNo?_eq_some.2 n.abortOnError]
    dsimp only
    rw [if_pos range, ← n.retryLimit, ← n.queueLimit]

/-- A flag octet is the flag it names. -/
theorem yesNo_eq {b : Bool} {o : Octet} (h : yesNo b = o) : b = (o == 1) := by
  subst h
  cases b <;> rfl

theorem portFieldsOk_iff {a : PortArgs} : PortFieldsOk a ↔ ∃ v, portSettings? a = some v := by
  constructor
  · rintro ⟨enabled, rate, retry, queueLow, queueHigh, miss, abort⟩
    obtain ⟨e, he⟩ : ∃ v : Bool, yesNo v = a.enabled := enabled.elim (⟨false, ·.symm⟩) (⟨true, ·.symm⟩)
    obtain ⟨r, hr⟩ : ∃ v : Rate, v.code = a.rate := rate.elim (⟨.standard, ·.symm⟩) (⟨.slow, ·.symm⟩)
    obtain ⟨b, hb⟩ : ∃ v : Bool, yesNo v = a.abortOnError := abort.elim (⟨false, ·.symm⟩) (⟨true, ·.symm⟩)
    obtain ⟨m, hm⟩ : ∃ v : MissAction, v.code = a.missAction := by
      obtain h | h | h : a.missAction.toNat = 0 ∨ a.missAction.toNat = 1 ∨ a.missAction.toNat = 2 := by omega
      · exact ⟨.drop, BitVec.eq_of_toNat_eq h.symm⟩
      · exact ⟨.homePassive, BitVec.eq_of_toNat_eq h.symm⟩
      · exact ⟨.homeCustody, BitVec.eq_of_toNat_eq h.symm⟩
    exact ⟨⟨e, r, _, _, m, b⟩, portSettings?_eq_some.2 ⟨⟨he, hr, rfl, rfl, hm, hb⟩, retry, queueLow, queueHigh⟩⟩
  · rintro ⟨v, h⟩
    obtain ⟨n, retry, queueLow, queueHigh⟩ := portSettings?_eq_some.1 h
    refine ⟨?_, ?_, retry, queueLow, queueHigh, ?_, ?_⟩
    · rw [← n.enabled]; cases v.enabled <;> simp [yesNo]
    · rw [← n.rate]; cases v.rate <;> simp [Rate.code]
    · rw [← n.missAction]; cases v.missAction <;> decide
    · rw [← n.abortOnError]; cases v.abortOnError <;> simp [yesNo]

/-- What an enabled port refuses NOT_NOW: another RATE or QUEUE_LIMIT in its range (R40, R171). -/
abbrev ChangesFixed (a : PortArgs) (pt : Port) : Prop :=
  (a.rate.toNat ≤ 1 ∧ a.rate ≠ pt.rate.code) ∨
    (1 ≤ a.queueLimit.toNat ∧ a.queueLimit.toNat ≤ 64 ∧ a.queueLimit.toNat ≠ pt.queueLimit)

theorem rateChanges_iff (o : Octet) (rate : Rate) :
    (rateOf? o).any (· != rate) = true ↔ o.toNat ≤ 1 ∧ o ≠ rate.code := by
  cases h : rateOf? o with
  | some r =>
    rw [← rateOf?_eq_some.1 h, Option.any_some, bne_iff_ne, ne_eq, ne_eq, Rate.code_inj]
    exact ⟨fun other => ⟨by cases r <;> decide, other⟩, And.right⟩
  | none =>
    refine ⟨nofun, fun ⟨low, _⟩ => ?_⟩
    have named (v : Rate) : o.toNat ≠ v.code.toNat := fun e => by
      rw [rateOf?_eq_some.2 (BitVec.eq_of_toNat_eq e.symm)] at h
      cases h
    have standard : o.toNat ≠ 0 := named .standard
    have slow : o.toNat ≠ 1 := named .slow
    omega

theorem portNotNow_eq (a : PortArgs) (pt : Port) : portNotNow a pt = (pt.enabled && ((rateOf? a.rate).any (· != pt.rate) ||
    (1 ≤ a.queueLimit.toNat && a.queueLimit.toNat ≤ 64 && a.queueLimit.toNat != pt.queueLimit))) := by
  unfold portNotNow
  cases rateOf? a.rate <;> rfl

theorem portNotNow_iff (a : PortArgs) (pt : Port) : portNotNow a pt = true ↔ pt.enabled = true ∧ ChangesFixed a pt := by
  simp only [portNotNow_eq, Bool.and_eq_true, Bool.or_eq_true, rateChanges_iff, decide_eq_true_iff, bne_iff_ne, and_assoc]

theorem runPortWrite_notNow {p : SegPort} {a : PortArgs} {s : State} (h : portNotNow a s.ports[p] = true) :
    runPortWrite (BitVec.ofNat 8 p.val) a s = refuse .notNow s := by
  simp only [runPortWrite, segPort?_port, h, if_true]

theorem runPortWrite_written {p : SegPort} {a : PortArgs} {v : PortSettings} {s : State} (h : ¬portNotNow a s.ports[p] = true)
    (settings : portSettings? a = some v) :
    runPortWrite (BitVec.ofNat 8 p.val) a s = accept [] (writePort p v s) := by
  simp only [runPortWrite, segPort?_port, h, settings]
  rfl

/-- A write that disables nothing sets the settings, and enables a port that it finds disabled. -/
theorem writePort_settings {p : SegPort} {v : PortSettings} {s : State} (on : s.ports[p].enabled = true → v.enabled = true) :
    writePort p v s = modPort p (fun pt => { pt with
      rate := v.rate, retryLimit := v.retryLimit, queueLimit := v.queueLimit, missAction := v.missAction
      abortOnError := v.abortOnError
      enabled := v.enabled
      rx := if pt.enabled = false ∧ v.enabled = true then .flush else pt.rx
      tx := if pt.enabled = false ∧ v.enabled = true then .idle else pt.tx
      lastTalker := if pt.enabled = false ∧ v.enabled = true then false else pt.lastTalker
      idleStart := if pt.enabled = false ∧ v.enabled = true then s.now else pt.idleStart
      edge := if pt.enabled = false ∧ v.enabled = true then s.now else pt.edge
      lastRise := if pt.enabled = false ∧ v.enabled = true then s.now else pt.lastRise
      heldFlush := if pt.enabled = false ∧ v.enabled = true then false else pt.heldFlush }) s := by
  unfold writePort
  dsimp only
  split
  next same =>
    apply modPort_congr
    have stays : ¬(s.ports[p].enabled = false ∧ v.enabled = true) := by
      rw [same]
      rintro ⟨off, enabled⟩
      rw [off] at enabled
      cases enabled
    simp only [stays, if_false]
    rw [same]
  next other =>
    have off : s.ports[p].enabled = false := by
      cases enabled : s.ports[p].enabled with
      | false => rfl
      | true => exact absurd ((on enabled).trans enabled.symm) other
    have enabled : v.enabled = true := by
      rw [off] at other
      exact Bool.eq_true_of_not_eq_false other
    rw [if_pos enabled, enablePort, modPort_modPort]
    apply modPort_congr
    simp only [Function.comp, off, enabled, and_self, if_true]
    rfl

/-- Settles O12: by the checks in their order, then by whether the port is enabled by the write. -/
theorem portWriteSettings : Obligations.PortWriteSettings := by
  intro id p a s free
  have row (port : Octet) : exec (.portWrite id port a) s = .next (answerNow id (runPortWrite port a s)) :=
    exec_free (r := ⟨id, .portWrite port a⟩) rfl free nofun
  refine ⟨fun ok steady => ?_, fun enabled changes => ?_, fun now bad => ?_, fun port high => ?_⟩
  · obtain ⟨v, settings⟩ := portFieldsOk_iff.1 ok
    obtain ⟨n, -⟩ := portSettings?_eq_some.1 settings
    have accepted : ¬portNotNow a s.ports[p] = true := by
      rw [portNotNow_iff]
      rintro ⟨enabled, ⟨-, rate⟩ | ⟨-, -, limit⟩⟩
      · exact rate (steady enabled).2.1
      · exact limit (steady enabled).2.2
    refine ⟨v.rate, v.missAction, n.rate, n.missAction, ?_⟩
    rw [row, runPortWrite_written accepted settings]
    refine congrArg (fun t => Host.Outcome.next (respond ⟨id, .ok, []⟩ t)) ?_
    have one : a.enabled = 1 ↔ v.enabled = true := by rw [yesNo_eq n.enabled, beq_iff_eq]
    have on : s.ports[p].enabled = true → v.enabled = true := fun enabled => one.1 (steady enabled).1
    simp only [← n.retryLimit, ← n.queueLimit, ← yesNo_eq n.abortOnError, ← yesNo_eq n.enabled, one]
    exact writePort_settings on
  · rw [row, runPortWrite_notNow ((portNotNow_iff _ _).2 ⟨enabled, changes⟩)]
    rfl
  · have none : portSettings? a = none := by
      rw [Option.eq_none_iff_forall_ne_some]
      exact fun v h => bad (portFieldsOk_iff.2 ⟨v, h⟩)
    simp only [row, runPortWrite, segPort?_port, (portNotNow_iff a s.ports[p]).not.2 now, none]
    rfl
  · simp only [row, runPortWrite, segPort?_of_ge high]
    rfl

end Sys2Proof.Machine
end

