-- ==== Sys2Proof/Proofs/PortDisable.lean ====
section
/-! PROOFS. The disable of a port, and the selections that follow it, which leave what is drained drained (03_segment_port_engine.md, DISABLE, ENABLE AND RESETS). -/

-- One theorem after another: many at once need a thread each.
set_option Elab.async false

namespace Sys2Proof.Machine

/-! ### What a release, an event and a turn of selection leave -/

theorem refill_frame (s : State) : refill s = { s with
    pool := (refill s).pool, trunk := { s.trunk with creditPending := (refill s).trunk.creditPending } } := by
  unfold refill
  dsimp only
  split
  · rfl
  · rw [noteCredit_eq]
    rfl

theorem releaseSlot_frame (i : SlotId) (s : State) : releaseSlot i s = { s with
    pool := (releaseSlot i s).pool, trunk := { s.trunk with creditPending := (releaseSlot i s).trunk.creditPending } } := by
  unfold releaseSlot
  dsimp only
  split
  · rw [refill_frame, noteCredit_eq]
    rfl
  · rw [refill_frame]
    rfl

theorem raise_frame (k : EventKind) (l : Location) (d : Nat) (s : State) :
    raise k l d s = { s with events := (raise k l d s).events, gateway := (raise k l d s).gateway } := by
  unfold raise
  repeat' split
  all_goals rfl

theorem segOf?_port (x : SegPort) : segOf? x.port = some x := by
  revert x
  decide

theorem runSelections_succ (n : Nat) (s : State) :
    runSelections (n + 1) s = if let some p := nextDue s then runSelections n (selectOnce p s) else s := by
  rw [runSelections]
  cases nextDue s <;> rfl

/-! ### A drained queue stays drained -/

/-- No reference in a lane or a holder, and every pending one marked. -/
structure Drained (Q : Queue) : Prop where
  lanes : ∀ lane : Priority, Q.lanes[lane] = []
  pending : ∀ r ∈ Q.pending, r.mark ≠ none
  holder : Q.holder = none

theorem Drained.laneRefs {Q : Queue} (h : Drained Q) : laneRefs Q = [] := by
  rw [Machine.laneRefs, List.flatten_eq_nil_iff]
  intro lane mem
  obtain ⟨k, hk, rfl⟩ := List.mem_iff_getElem.1 mem
  have size : k < 8 := by simpa using hk
  have := h.lanes ⟨k, size⟩
  simpa using this

theorem markedIf_mark (hit : Ref → Bool) (m : Mark) (r : Ref) (h : r.mark ≠ none) : (markedIf hit m r).mark ≠ none := by
  unfold markedIf
  split
  · nofun
  · exact h

section
variable {q : PortId} {s : State}

theorem Drained.sweepLanes (h : Drained s.pool.queues[q]) (other : PortId) (hit : Ref → Bool) (reason : Reason) :
    Drained (sweepLanes other hit reason s).pool.queues[q] := by
  by_cases e : q = other
  · subst e
    rw [sweepLanes_queue]
    refine ⟨fun lane => ?_, h.pending, h.holder⟩
    have empty := h.lanes lane
    simp only [Fin.getElem_fin] at empty ⊢
    rw [getElem_modAll, empty]
    rfl
  · rw [sweepLanes_other _ _ _ _ e]
    exact h

theorem Drained.modQueue (h : Drained s.pool.queues[q]) (other : PortId) {f : Queue → Queue}
    (kept : Drained s.pool.queues[q] → Drained (f s.pool.queues[q])) : Drained (modQueue other f s).pool.queues[q] := by
  by_cases e : q = other
  · subst e
    rw [modQueue_same]
    exact kept h
  · rw [modQueue_other _ _ e]
    exact h

theorem Drained.markHolder (h : Drained s.pool.queues[q]) (other : PortId) (hit : Ref → Bool) (m : Mark) :
    Drained (markHolder other hit m s).pool.queues[q] :=
  h.modQueue other fun d => ⟨d.lanes, d.pending, by rw [d.holder]; rfl⟩

theorem Drained.markPending (h : Drained s.pool.queues[q]) (other : PortId) (hit : Ref → Bool) (m : Mark) :
    Drained (markPending other hit m s).pool.queues[q] := by
  refine h.modQueue other fun d => ⟨d.lanes, fun r mem => ?_, d.holder⟩
  obtain ⟨r', mem', rfl⟩ := List.mem_map.1 mem
  exact markedIf_mark hit m r' (d.pending r' mem')

theorem Drained.popLane (h : Drained s.pool.queues[q]) (other : PortId) (lane : Priority) :
    Drained (popLane other lane s).pool.queues[q] := by
  refine h.modQueue other fun d => ⟨fun l => ?_, d.pending, d.holder⟩
  rw [getElem_modAt_fin, d.lanes l]
  split <;> rfl

theorem Drained.of_queues {t : State} (h : Drained s.pool.queues[q]) (same : t.pool.queues = s.pool.queues) :
    Drained t.pool.queues[q] := by rw [same]; exact h

theorem Drained.blockSweep (h : Drained s.pool.queues[q]) (dest : Address) : Drained (blockSweep dest s).pool.queues[q] := by
  unfold Machine.blockSweep
  generalize allSegPorts = ps
  induction ps generalizing s with
  | nil => exact h
  | cons p ps ih => exact ih (((h.markPending _ _ _).markHolder _ _ _).sweepLanes _ _ _)

theorem Drained.nodeFailed (h : Drained s.pool.queues[q]) (dest : Address) : Drained (nodeFailed dest s).pool.queues[q] := by
  unfold Machine.nodeFailed
  split
  · exact h
  · dsimp only
    split
    · exact Drained.blockSweep (h.of_queues (by rw [raise_pool, modNode_pool])) dest
    · exact h

theorem Drained.failRef (h : Drained s.pool.queues[q]) (p : SegPort) (r : Ref) (reason : Reason) (report : Bool) :
    Drained (failRef p r reason report s).pool.queues[q] := by
  have ended : Drained (dropRef p.port r reason (countPort p .failed 1 s)).pool.queues[q] :=
    h.of_queues (dropRef_queues _ _ _ _)
  unfold Machine.failRef
  dsimp only
  split
  · exact ended.nodeFailed _
  · exact ended

theorem Drained.selectOnce (h : Drained s.pool.queues[q]) (p : SegPort) : Drained (selectOnce p s).pool.queues[q] := by
  unfold Machine.selectOnce
  dsimp only
  split
  · split
    · exact h
    · exact h
    · split
      · exact (h.popLane _ _).of_queues (discardRef_queues _ _ _ _)
      · split
        · exact (h.popLane _ _).failRef _ _ _ _
        · exact h
  · exact h

theorem Drained.settle (h : Drained s.pool.queues[q]) : Drained (settle s).pool.queues[q] := by
  unfold Machine.settle
  generalize 2048 = n
  induction n generalizing s with
  | zero => exact h
  | succ n ih =>
    rw [runSelections_succ]
    split
    · exact ih (h.selectOnce _)
    · exact h

end

/-! ### A port that is shut stays shut -/

/-- A port is disabled, OFF and drained, holds no notice, and its counters stand at `counts`. -/
structure Shut (p : SegPort) (counts : Vector Nat 12) (s : State) : Prop where
  enabled : s.ports[p].enabled = false
  tx : s.ports[p].tx = .off
  counters : s.ports[p].counters = counts
  queue : Drained s.pool.queues[p.port]
  notices : ∀ n ∈ s.custody.notices, n.port ≠ p

section
variable {p : SegPort} {counts : Vector Nat 12} {s : State}

/-- What leaves the port, its queue and the notices leaves it shut. -/
theorem Shut.of_eq {t : State} (h : Shut p counts s) (ports : t.ports = s.ports) (queues : t.pool.queues = s.pool.queues)
    (notices : t.custody.notices = s.custody.notices) : Shut p counts t := by
  obtain ⟨enabled, tx, counters, queue, none⟩ := h
  rw [← ports] at enabled tx counters
  rw [← queues] at queue
  rw [← notices] at none
  exact ⟨enabled, tx, counters, queue, none⟩

theorem Shut.of_modPort {x : SegPort} {f : Port → Port} (h : Shut p counts s)
    (same : p = x → (f s.ports[x]).enabled = s.ports[x].enabled ∧ (f s.ports[x]).tx = s.ports[x].tx ∧
      (f s.ports[x]).counters = s.ports[x].counters) : Shut p counts (modPort x f s) := by
  obtain ⟨enabled, tx, counters, queue, none⟩ := h
  by_cases e : p = x
  · subst e
    obtain ⟨sameEnabled, sameTx, sameCounters⟩ := same rfl
    have port := modPort_port p f s
    exact ⟨by rw [port, sameEnabled, enabled], by rw [port, sameTx, tx], by rw [port, sameCounters, counters], queue, none⟩
  · have port : (modPort x f s).ports[p] = s.ports[p] := by rw [modPort_ports, getElem_modAt_fin, if_neg e]
    exact ⟨by rw [port, enabled], by rw [port, tx], by rw [port, counters], queue, none⟩

theorem Shut.makeDue (h : Shut p counts s) (x : SegPort) : Shut p counts (makeDue x s) := h.of_modPort fun _ => ⟨rfl, rfl, rfl⟩

theorem Shut.countPort (h : Shut p counts s) {x : SegPort} (other : x ≠ p) (c : PortCounter) (n : Nat) :
    Shut p counts (countPort x c n s) := h.of_modPort fun e => absurd e.symm other

theorem Shut.raise (h : Shut p counts s) (k : EventKind) (l : Location) (d : Nat) : Shut p counts (raise k l d s) := by
  rw [raise_frame]
  exact h.of_eq rfl rfl rfl

/-- A notice for a disabled port is discarded (R136). -/
theorem Shut.createNotice (h : Shut p counts s) (n : Notice) : Shut p counts (createNotice n s) := by
  unfold Machine.createNotice
  split
  · exact h.of_eq rfl rfl rfl
  · split
    · exact h.of_eq rfl rfl rfl
    · split
      · exact h.of_eq rfl rfl rfl
      next enabled =>
        split
        · exact (h.of_eq (t := countGateway _ s) rfl rfl rfl).raise _ _ _
        · refine Shut.makeDue (s := countGateway _ (modCustody _ s)) ⟨h.enabled, h.tx, h.counters, h.queue, ?_⟩ _
          intro m mem
          obtain old | new := List.mem_append.1 mem
          · exact h.notices m old
          · rw [List.mem_singleton.1 new]
            rintro rfl
            rw [h.enabled] at enabled
            exact enabled rfl

theorem Shut.createReport (h : Shut p counts s) (r : Report) : Shut p counts (createReport r s) := by
  unfold Machine.createReport
  split
  · exact h.of_eq rfl rfl rfl
  · split
    · exact (h.of_eq (t := countTrunk _ _ s) rfl rfl rfl).raise _ _ _
    · exact h.of_eq rfl rfl rfl

theorem Shut.takeEndRecord (h : Shut p counts s) (sl : FrameSlot) (q : PortId) (n : Nat) (reason : Reason) :
    Shut p counts (takeEndRecord sl q n reason s) := by
  unfold Machine.takeEndRecord
  repeat' split
  all_goals first | exact h | exact h.createNotice _ | exact h.createReport _

theorem Shut.releaseSlot (h : Shut p counts s) (i : SlotId) : Shut p counts (releaseSlot i s) := by
  have queues := releaseSlot_queues i s
  rw [releaseSlot_frame] at queues ⊢
  exact h.of_eq rfl queues rfl

theorem Shut.dropRef (h : Shut p counts s) (q : PortId) (r : Ref) (reason : Reason) : Shut p counts (dropRef q r reason s) := by
  have handed : Shut p counts (if endRecordDue (slotOf r s) r reason then Machine.takeEndRecord (slotOf r s) q r.count reason s else s) := by
    split
    · exact h.takeEndRecord _ _ _ _
    · exact h
  unfold Machine.dropRef
  dsimp only
  split
  · exact handed.releaseSlot _
  · exact handed.of_eq rfl rfl rfl

theorem Shut.discardRef (h : Shut p counts s) {x : SegPort} (other : x ≠ p) (r : Ref) (reason : Reason) :
    Shut p counts (discardRef x.port r reason s) := by
  simp only [Machine.discardRef, segOf?_port]
  exact (h.countPort other _ _).dropRef _ _ _

theorem Shut.dueIfGone (h : Shut p counts s) (q : PortId) : Shut p counts (dueIfGone q s) := by
  unfold Machine.dueIfGone
  repeat' split
  all_goals first | exact h.makeDue _ | exact h

/-- A change of one queue that leaves a drained one drained. -/
theorem Shut.of_modQueue (h : Shut p counts s) (q : PortId) (f : Queue → Queue)
    (kept : Drained (modQueue q f s).pool.queues[p.port]) : Shut p counts (modQueue q f s) :=
  ⟨h.enabled, h.tx, h.counters, kept, h.notices⟩

/-- A sweep of another port's queue discards nothing on this one, and a sweep of its own, drained queue finds nothing. -/
theorem Shut.sweepLanes (h : Shut p counts s) (x : SegPort) (hit : Ref → Bool) (reason : Reason) :
    Shut p counts (sweepLanes x.port hit reason s) := by
  have swept : Shut p counts (modQueue x.port (fun Q => { Q with lanes := modAll Q.lanes (·.filter fun r => !hit r) }) s) := by
    refine h.of_modQueue _ _ (h.queue.modQueue _ fun d => ⟨fun lane => ?_, d.pending, d.holder⟩)
    have empty := d.lanes lane
    simp only [Fin.getElem_fin] at empty ⊢
    rw [getElem_modAll, empty]
    rfl
  unfold Machine.sweepLanes discardAll
  refine Shut.dueIfGone ?_ _
  by_cases e : x = p
  · subst e
    rw [h.queue.laneRefs]
    exact swept
  · generalize (laneRefs s.pool.queues[x.port]).filter hit = gone
    generalize modQueue x.port _ s = u at swept
    induction gone generalizing u with
    | nil => exact swept
    | cons r rs ih => exact ih _ (swept.discardRef e r reason)

theorem Shut.blockSweep (h : Shut p counts s) (dest : Address) : Shut p counts (blockSweep dest s) := by
  unfold Machine.blockSweep
  generalize allSegPorts = ps
  induction ps generalizing s with
  | nil => exact h
  | cons x ps ih =>
    have pending := h.of_modQueue x.port _ (h.queue.markPending x.port (fun r => (slotOf r s).frame.dest == dest) .blocked)
    have holder := pending.of_modQueue x.port _ (pending.queue.markHolder x.port (fun r => (slotOf r s).frame.dest == dest) .blocked)
    exact ih (holder.sweepLanes x _ _)

theorem Shut.nodeFailed (h : Shut p counts s) (dest : Address) : Shut p counts (nodeFailed dest s) := by
  unfold Machine.nodeFailed
  split
  · exact h
  · dsimp only
    split
    · exact ((h.of_eq (t := modNode _ _ s) rfl rfl rfl).raise _ _ _).blockSweep dest
    · exact h.of_eq rfl rfl rfl

theorem Shut.failRef (h : Shut p counts s) {x : SegPort} (other : x ≠ p) (r : Ref) (reason : Reason) (report : Bool) :
    Shut p counts (failRef x r reason report s) := by
  have ended := (h.countPort other .failed 1).dropRef x.port r reason
  unfold Machine.failRef
  dsimp only
  split
  · exact ended.nodeFailed _
  · exact ended

theorem Shut.settleTx (h : Shut p counts s) (x : SegPort) (tx : TxState) (same : x = p → tx = .off) :
    Shut p counts (settleTx x tx s) := by
  refine h.of_modPort fun e => ?_
  subst e
  exact ⟨rfl, by rw [same rfl, h.tx], rfl⟩

/-- Selection on a port that is OFF arms nothing, and on another port it leaves this one. -/
theorem Shut.selectOnce (h : Shut p counts s) (x : SegPort) : Shut p counts (selectOnce x s) := by
  unfold Machine.selectOnce
  dsimp only
  split
  next may =>
    have other : x ≠ p := by
      rintro rfl
      exact maySelect_live may h.tx
    have popped (lane : Priority) : Shut p counts (popLane x.port lane s) := h.of_modQueue _ _ (h.queue.popLane _ _)
    split
    · exact h.settleTx _ _ fun e => absurd e other
    · exact h.settleTx _ _ fun e => absurd e other
    · split
      · exact (popped _).discardRef other _ _
      · split
        · exact (popped _).failRef other _ _ _
        · exact h.settleTx _ _ fun e => absurd e other
  next =>
    refine h.settleTx _ _ fun e => ?_
    subst e
    have stays : candidateGone x s = false := by simp only [candidateGone, h.tx]
    rw [stays, if_neg Bool.false_ne_true, h.tx]

theorem Shut.settle (h : Shut p counts s) : Shut p counts (settle s) := by
  unfold Machine.settle
  generalize 2048 = n
  induction n generalizing s with
  | zero => exact h
  | succ n ih =>
    rw [runSelections_succ]
    split
    · exact ih (h.selectOnce _)
    · exact h

end

/-! ### Counting what is discarded (R67) -/

/-- No port counter moves. -/
def SameCounters (s t : State) : Prop := ∀ p : SegPort, t.ports[p].counters = s.ports[p].counters

theorem SameCounters.of_ports {s t : State} (h : t.ports = s.ports) : SameCounters s t := fun p => by rw [h]

theorem SameCounters.trans {s t u : State} (a : SameCounters s t) (b : SameCounters t u) : SameCounters s u :=
  fun p => (b p).trans (a p)

theorem makeDue_counters (p : SegPort) (s : State) : SameCounters s (makeDue p s) := by
  intro q
  rw [makeDue, modPort_ports, getElem_modAt_fin]
  split
  next h => rw [h]
  · rfl

theorem createNotice_counters (n : Notice) (s : State) : SameCounters s (createNotice n s) := by
  unfold createNotice
  split
  · exact .of_ports rfl
  · split
    · exact .of_ports rfl
    · split
      · exact .of_ports rfl
      · split
        · exact .of_ports (raise_ports _ _ _ _)
        · exact makeDue_counters n.port (countGateway _ (modCustody _ s))

theorem createReport_ports (r : Report) (s : State) : (createReport r s).ports = s.ports := by
  unfold createReport
  split
  · rfl
  · split
    · exact raise_ports _ _ _ _
    · rfl

theorem takeEndRecord_counters (sl : FrameSlot) (q : PortId) (n : Nat) (reason : Reason) (s : State) :
    SameCounters s (takeEndRecord sl q n reason s) := by
  unfold takeEndRecord
  split
  · split
    · exact .of_ports rfl
    · exact createNotice_counters _ _
  · split
    · exact .of_ports (createReport_ports _ _)
    · exact .of_ports rfl

theorem releaseSlot_ports (i : SlotId) (s : State) : (releaseSlot i s).ports = s.ports := by rw [releaseSlot_frame]

theorem dropRef_counters (q : PortId) (r : Ref) (reason : Reason) (s : State) : SameCounters s (dropRef q r reason s) := by
  have handed : SameCounters s (if endRecordDue (slotOf r s) r reason then takeEndRecord (slotOf r s) q r.count reason s else s) := by
    split
    · exact takeEndRecord_counters _ _ _ _ _
    · exact .of_ports rfl
  unfold dropRef
  dsimp only
  split
  · exact handed.trans (.of_ports (releaseSlot_ports _ _))
  · exact handed

/-- The DISCARDED counter of a port. -/
def discards (p : SegPort) (s : State) : Nat := s.ports[p].counters[PortCounter.discarded.index]

theorem discardRef_discards (p : SegPort) (r : Ref) (reason : Reason) (s : State) :
    discards p (discardRef p.port r reason s) = saturate (discards p s) 1 := by
  unfold discards
  rw [discardRef, segOf?_port]
  dsimp only
  rw [dropRef_counters, countPort, modPort_port, getElem_modAt_fin, if_pos rfl]

theorem saturate_saturate (c m n : Nat) : saturate (saturate c m) n = saturate c (m + n) := by
  unfold saturate
  omega

theorem saturate_zero {c : Nat} (h : c ≤ counterMax) : saturate c 0 = c := by
  unfold saturate
  omega

/-- A reference for each that is removed (R67). -/
theorem discardRefs_discards (p : SegPort) (reason : Reason) (rs : List Ref) (s : State) (h : discards p s ≤ counterMax) :
    discards p (rs.foldl (fun t r => discardRef p.port r reason t) s) = saturate (discards p s) rs.length := by
  induction rs generalizing s with
  | nil => exact (saturate_zero h).symm
  | cons r rs ih =>
    have bound : discards p (discardRef p.port r reason s) ≤ counterMax := by
      rw [discardRef_discards]
      exact Nat.min_le_right _ _
    rw [List.foldl_cons, ih _ bound, discardRef_discards, saturate_saturate, List.length_cons, Nat.add_comm]

/-! ### The disable in its parts (R63, R130) -/

/-- A port that is disabled drives nothing; its holder is empty and its pending references are marked. -/
def cutOff (p : SegPort) (s : State) : State :=
  modQueue p.port (fun Q => { Q with
    holder := none
    pending := Q.pending.map fun r => if r.mark = none then { r with mark := some .portDisabled } else r })
  (modPort p (fun pt => { pt with enabled := false, tx := .off, pin := [], pulse := none }) s)

/-- The reference of the attempt that is cut is removed. -/
def cutHolder (p : SegPort) (s : State) : State :=
  match s.pool.queues[p.port].holder with
  | some r => discardRef p.port r .portDisabled (cutOff p s)
  | none => cutOff p s

/-- The receiver is OFF with an empty assembly buffer, and the lanes are empty. -/
def leftOff (p : SegPort) (s : State) : State :=
  modQueue p.port (fun Q => { Q with lanes := Vector.replicate 8 [] })
    (modPort p (fun pt => { pt with rx := .off, assembly := {} }) (withdraw p (cutHolder p s)))

/-- The references of the lanes are removed. -/
def flushedOff (p : SegPort) (s : State) : State :=
  (laneRefs s.pool.queues[p.port]).foldl (fun u r => discardRef p.port r .portDisabled u) (leftOff p s)

theorem modQueue_of_same {q : PortId} {f : Queue → Queue} {s : State} (h : f s.pool.queues[q] = s.pool.queues[q]) :
    modQueue q f s = s := by
  have same : modAt s.pool.queues q f = s.pool.queues := by
    ext1 k hk
    rw [getElem_modAt]
    split
    next e => subst e; exact h
    next => rfl
  simp only [modQueue, modPool, same]

theorem setHolder_same {q : PortId} {r : Option Ref} {s : State} (h : s.pool.queues[q].holder = r) : setHolder q r s = s :=
  modQueue_of_same (by rw [← h])

theorem markPending_all (q : PortId) (m : Mark) (s : State) : markPending q (fun _ => true) m s =
    modQueue q (fun Q => { Q with pending := Q.pending.map fun r => if r.mark = none then { r with mark := some m } else r }) s := by
  unfold markPending
  simp only [Bool.true_and, Option.isNone_iff_eq_none]

theorem flushHolder_eq (p : SegPort) (s : State) :
    flushHolder p (markPending p.port (fun _ => true) .portDisabled
      (release p (modPort p (fun pt => { pt with enabled := false, tx := .off }) s))) = cutHolder p s := by
  have holder : (markPending p.port (fun _ => true) .portDisabled
      (release p (modPort p (fun pt => { pt with enabled := false, tx := .off }) s))).pool.queues[p.port].holder =
      s.pool.queues[p.port].holder := by rw [markPending_queue]; rfl
  have off : setHolder p.port none (markPending p.port (fun _ => true) .portDisabled
      (release p (modPort p (fun pt => { pt with enabled := false, tx := .off }) s))) = cutOff p s := by
    rw [markPending_all, release, modPort_modPort, setHolder, modQueue_modQueue]
    rfl
  unfold flushHolder cutHolder
  rw [holder]
  cases h : s.pool.queues[p.port].holder with
  | some r => dsimp only; rw [off]
  | none =>
    rw [← off, setHolder_same (holder.trans h)]

theorem withdraw_queue (p : SegPort) (q : PortId) (s : State) : ∃ gone : Ref → Bool,
    (withdraw p s).pool.queues[q] = { s.pool.queues[q] with pending := s.pool.queues[q].pending.filter gone } := by
  unfold withdraw
  split
  · exact ⟨fun _ => true, by rw [List.filter_true]⟩
  next i _ =>
    refine ⟨fun r => !(r.slot == i), ?_⟩
    have queues := releaseSlot_queues i (allPorts.foldl (fun t q =>
      modQueue q (fun Q => { Q with pending := Q.pending.filter fun r => !(r.slot == i) }) t) s)
    rw [allPorts_modQueue] at queues ⊢
    rw [queues, Fin.getElem_fin, Vector.getElem_map]
    rfl

theorem withdraw_counters (p : SegPort) (s : State) : SameCounters s (withdraw p s) := by
  unfold withdraw
  split
  · exact .of_ports rfl
  · rw [allPorts_modQueue]
    exact .of_ports (releaseSlot_ports _ _)

theorem cutHolder_queue (p : SegPort) (s : State) : (cutHolder p s).pool.queues[p.port] =
    { s.pool.queues[p.port] with
      holder := none
      pending := s.pool.queues[p.port].pending.map fun r => if r.mark = none then { r with mark := some .portDisabled } else r } := by
  unfold cutHolder
  split
  · rw [discardRef_queues]; exact modQueue_same _ _ _
  · exact modQueue_same _ _ _

theorem laneRefs_lanes {Q R : Queue} (h : Q.lanes = R.lanes) : laneRefs Q = laneRefs R := by rw [laneRefs, laneRefs, h]

/-- A port whose transmitter is OFF has no candidate to miss. -/
theorem dueIfGone_off {p : SegPort} {s : State} (h : s.ports[p].tx = .off) : dueIfGone p.port s = s := by
  have stays : candidateGone p s = false := by simp only [candidateGone, h]
  simp only [dueIfGone, segOf?_port, stays, Bool.false_eq_true, if_false]

theorem flushedOff_touched (p : SegPort) (s : State) : Touched (leftOff p s) (flushedOff p s) :=
  Touched.foldl (fun t r => discardRef_touched p.port r .portDisabled t) _ _

theorem cutHolder_touched (p : SegPort) (s : State) : Touched (cutOff p s) (cutHolder p s) := by
  unfold cutHolder
  split
  · exact discardRef_touched _ _ _ _
  · exact .refl _

theorem leftOff_tx (p : SegPort) (s : State) : (leftOff p s).ports[p].tx = .off := by
  have port : (leftOff p s).ports[p] = { (withdraw p (cutHolder p s)).ports[p] with rx := .off, assembly := {} } := modPort_port _ _ _
  have off : (cutOff p s).ports[p].tx = .off := by
    have := modPort_port p (fun pt => { pt with enabled := false, tx := .off, pin := [], pulse := none }) s
    exact congrArg Port.tx this
  rw [port, (withdraw_touched p _).tx, (cutHolder_touched p s).tx, off]

/-- A disable, part by part (R63). -/
theorem disablePort_eq (p : SegPort) (s : State) : disablePort p s =
    modCustody (fun c => { c with notices := c.notices.filter fun n => n.port != p }) (flushedOff p s) := by
  obtain ⟨gone, withdrawn⟩ := withdraw_queue p p.port (cutHolder p s)
  have left : setRx p .off (leaveFrame p (cutHolder p s)) =
      modPort p (fun pt => { pt with rx := .off, assembly := {} }) (withdraw p (cutHolder p s)) := by
    rw [setRx, leaveFrame, clearAssembly, modPort_modPort]
    rfl
  have lanes : laneRefs (setRx p .off (leaveFrame p (cutHolder p s))).pool.queues[p.port] = laneRefs s.pool.queues[p.port] := by
    rw [left]
    refine laneRefs_lanes ?_
    rw [modPort_pool, withdrawn, cutHolder_queue]
  have empty : modQueue p.port (fun Q => { Q with lanes := modAll Q.lanes (·.filter fun _ => !true) })
      (setRx p .off (leaveFrame p (cutHolder p s))) = leftOff p s := by
    rw [left]
    have none (lanes : Vector (List Ref) 8) : modAll lanes (·.filter fun _ => !true) = Vector.replicate 8 [] := by
      ext1 k hk
      rw [getElem_modAll, Vector.getElem_replicate]
      simp
    simp only [none]
    rfl
  unfold disablePort
  dsimp only
  rw [flushHolder_eq, sweepLanes, lanes, empty, discardAll, List.filter_true]
  have off : (flushedOff p s).ports[p].tx = .off := by rw [(flushedOff_touched p s).tx, leftOff_tx]
  rw [flushedOff] at off
  rw [dueIfGone_off off]
  rfl

theorem disablePort_queue (p : SegPort) (s : State) : ∃ gone : Ref → Bool, (disablePort p s).pool.queues[p.port] =
    { pending := (s.pool.queues[p.port].pending.map fun r =>
        if r.mark = none then { r with mark := some .portDisabled } else r).filter gone
      lanes := Vector.replicate 8 [], holder := none } := by
  obtain ⟨gone, withdrawn⟩ := withdraw_queue p p.port (cutHolder p s)
  refine ⟨gone, ?_⟩
  rw [disablePort_eq, modCustody_pool, flushedOff, discardRefs_queues, leftOff, modQueue_same, modPort_pool, withdrawn,
    cutHolder_queue]

/-- A disable leaves the port shut. -/
theorem disablePort_shut (p : SegPort) (s : State) : Shut p (disablePort p s).ports[p].counters (disablePort p s) := by
  obtain ⟨gone, queue⟩ := disablePort_queue p s
  have port := disablePort_port p p s
  rw [if_pos rfl] at port
  refine ⟨by rw [port]; rfl, by rw [port]; rfl, rfl, ?_, fun n mem => ?_⟩
  · rw [queue]
    refine ⟨fun lane => by simp, fun r mem => ?_, rfl⟩
    obtain ⟨r', -, rfl⟩ := List.mem_map.1 (List.mem_of_mem_filter mem)
    split
    · nofun
    next marked => exact marked
  · rw [disablePort_eq, modCustody_custody] at mem
    exact bne_iff_ne.1 (List.mem_filter.1 mem).2

theorem discards_of_counters {p : SegPort} {s t : State} (h : SameCounters s t) : discards p t = discards p s := by
  rw [discards, h p, discards]

theorem modPort_counters {p : SegPort} {f : Port → Port} {s : State} (h : (f s.ports[p]).counters = s.ports[p].counters) :
    SameCounters s (modPort p f s) := by
  intro q
  rw [modPort_ports, getElem_modAt_fin]
  split
  next e => subst e; exact h
  · rfl

/-- Every reference of the queue is counted once (R67). -/
theorem disablePort_discards (p : SegPort) (s : State) (h : discards p s ≤ counterMax) :
    discards p (disablePort p s) = saturate (discards p s) (queueLength s.pool.queues[p.port]) := by
  have off : discards p (cutOff p s) = discards p s := discards_of_counters (modPort_counters (p := p) (s := s) rfl)
  have cut : discards p (cutHolder p s) = saturate (discards p s) s.pool.queues[p.port].holder.toList.length := by
    unfold cutHolder
    cases s.pool.queues[p.port].holder with
    | none => exact off.trans (saturate_zero h).symm
    | some r => dsimp only; rw [discardRef_discards, off]; rfl
  have left : discards p (leftOff p s) = discards p (cutHolder p s) :=
    (discards_of_counters (modPort_counters (p := p) (s := withdraw p (cutHolder p s)) rfl)).trans
      (discards_of_counters (withdraw_counters p _))
  have bound : discards p (leftOff p s) ≤ counterMax := by
    rw [left, cut]
    exact Nat.min_le_right _ _
  have flushed : discards p (disablePort p s) = discards p (flushedOff p s) := by
    rw [disablePort_eq]
    exact discards_of_counters (.of_ports rfl)
  rw [flushed, flushedOff, discardRefs_discards _ _ _ _ bound, left, cut, saturate_saturate, queueLength, Nat.add_comm]

/-- What is kept of everything but the ports. -/
def KeptBut (s t : State) : Prop := Kept { s with ports := t.ports } t

theorem Kept.but {s t : State} (h : Kept s t) : KeptBut s t :=
  ⟨h.now, h.freeCount, h.route, h.agent, h.pending, h.reserveSize, h.lifetimes, h.threshold, h.noticeSource, h.noticePriority,
    h.mask, h.trunk, fun _ => rfl⟩

theorem KeptBut.trans {s t u : State} (a : KeptBut s t) (b : KeptBut t u) : KeptBut s u := by
  have trunk := b.trunk
  dsimp only at trunk
  rw [a.trunk] at trunk
  exact ⟨b.now.trans a.now, b.freeCount.trans a.freeCount, b.route.trans a.route, b.agent.trans a.agent, b.pending.trans a.pending,
    b.reserveSize.trans a.reserveSize, b.lifetimes.trans a.lifetimes, b.threshold.trans a.threshold,
    b.noticeSource.trans a.noticeSource, b.noticePriority.trans a.noticePriority, b.mask.trans a.mask, trunk, fun _ => rfl⟩

theorem KeptBut.respond {s u : State} (h : KeptBut s u) (r : Response) :
    Kept { s with ports := u.ports, trunk := { s.trunk with response := some r } } (respond r u) := by
  have trunk : (Machine.respond r u).trunk = { s.trunk with
      response := some r, creditPending := u.trunk.creditPending, counters := u.trunk.counters } :=
    congrArg (fun k : Trunk => { k with response := some r }) h.trunk
  exact ⟨h.now, h.freeCount, h.route, h.agent, h.pending, h.reserveSize, h.lifetimes, h.threshold, h.noticeSource, h.noticePriority,
    h.mask, trunk, fun _ => rfl⟩

theorem modPort_keptBut (p : SegPort) (f : Port → Port) (s : State) : KeptBut s (modPort p f s) :=
  ⟨rfl, rfl, rfl, rfl, rfl, rfl, rfl, rfl, rfl, rfl, rfl, rfl, fun _ => rfl⟩

theorem disablePort_keptBut (p : SegPort) (s : State) : KeptBut s (disablePort p s) := by
  have off : KeptBut s (cutOff p s) := (modPort_keptBut p _ s).trans (modQueue_kept _ _ _).but
  have cut := off.trans (cutHolder_touched p s).kept.but
  have left : KeptBut s (leftOff p s) :=
    ((cut.trans (withdraw_kept p _).but).trans (modPort_keptBut p _ _)).trans (modQueue_kept _ _ _).but
  rw [disablePort_eq]
  exact (left.trans (flushedOff_touched p s).kept.but).trans (modCustody_kept _ _ rfl rfl).but

/-- The settings of a write that disables the port, which keeps its RATE and QUEUE_LIMIT. -/
theorem writePort_disables {p : SegPort} {v : PortSettings} {s : State} (off : v.enabled = false) (on : s.ports[p].enabled = true)
    (rate : v.rate = s.ports[p].rate) (limit : v.queueLimit = s.ports[p].queueLimit) :
    writePort p v s = settle (disablePort p (modPort p (fun pt =>
      { pt with retryLimit := v.retryLimit, missAction := v.missAction, abortOnError := v.abortOnError }) s)) := by
  have written : modPort p (fun pt => { pt with
      rate := v.rate, queueLimit := v.queueLimit, retryLimit := v.retryLimit, missAction := v.missAction
      abortOnError := v.abortOnError }) s = modPort p (fun pt =>
      { pt with retryLimit := v.retryLimit, missAction := v.missAction, abortOnError := v.abortOnError }) s :=
    modPort_congr _ _ _ _ (by rw [rate, limit])
  unfold writePort
  dsimp only
  rw [written, on, off, if_neg (by decide), if_neg (by decide)]

/-- Settles O13: the disable leaves the port shut, and the selections that follow leave a shut port so. -/
theorem portDisableEmptiesQueue : Obligations.PortDisableEmptiesQueue := by
  intro id p a s free ok disable enabled rate limit
  obtain ⟨v, settings⟩ := portFieldsOk_iff.1 ok
  obtain ⟨n, -⟩ := portSettings?_eq_some.1 settings
  have off : v.enabled = false := by rw [yesNo_eq n.enabled, disable]; decide
  have accepted : ¬portNotNow a s.ports[p] = true := by
    rw [portNotNow_iff]
    rintro ⟨-, ⟨-, other⟩ | ⟨-, -, other⟩⟩
    · exact other rate
    · exact other limit
  let w := modPort p (fun pt =>
    { pt with retryLimit := v.retryLimit, missAction := v.missAction, abortOnError := v.abortOnError }) s
  have run : exec (.portWrite id (BitVec.ofNat 8 p.val) a) s = .next (respond ⟨id, .ok, []⟩ (settle (disablePort p w))) := by
    rw [exec_free (r := ⟨id, .portWrite _ a⟩) rfl free nofun, runRequest, runPortWrite_written accepted settings,
      writePort_disables off enabled (Rate.code_inj.1 (n.rate.trans rate)) (n.queueLimit.trans limit)]
    rfl
  have shut := (disablePort_shut p w).settle
  have settled := settle_kept (disablePort p w)
  have port : (settle (disablePort p w)).ports[p] = { w.ports[p].disabled with
      tx := (settle (disablePort p w)).ports[p].tx, counters := (settle (disablePort p w)).ports[p].counters
      due := (settle (disablePort p w)).ports[p].due } := by
    have disabled := disablePort_port p p w
    rw [if_pos rfl] at disabled
    rw [settled.port, disabled]
  have written : w.ports[p] = { s.ports[p] with
      retryLimit := v.retryLimit, missAction := v.missAction, abortOnError := v.abortOnError } := modPort_port _ _ _
  refine ⟨_, run, rfl, shut.enabled, ?_, shut.tx, ?_, ?_, ?_, ?_, shut.queue.holder, shut.queue.lanes, shut.queue.pending,
    shut.notices, fun q other => ?_, ?_, ?_, ?_⟩
  · exact congrArg Port.rx port
  · exact congrArg Port.pin port
  · exact congrArg Port.pulse port
  · exact congrArg Port.assembly port
  · have retry : (settle (disablePort p w)).ports[p].retryLimit = w.ports[p].retryLimit := by
      have all := congrArg Port.retryLimit port
      exact all
    exact (retry.trans (congrArg Port.retryLimit written)).trans n.retryLimit
  · have disabled := disablePort_port p q w
    have same : w.ports[q] = s.ports[q] := by rw [modPort_ports, getElem_modAt_fin, if_neg other]
    rw [if_neg other, same] at disabled
    have last := settled.port q
    rw [disabled] at last
    exact last
  · exact (((modPort_keptBut p _ s).trans (disablePort_keptBut p w)).trans settled.but).respond _
  · intro bound
    have count := disablePort_discards p w (by rw [discards, written]; exact bound)
    rw [discards, ← shut.counters, discards, written] at count
    exact count
  · rintro miss off' cut left flushed code rfl rfl rfl rfl
    have sameMiss : miss = v.missAction := by
      have := missActionOf?_eq_some.2 code
      rw [missActionOf?_eq_some.2 n.missAction] at this
      exact (Option.some.inj this).symm
    have begun : cutOff p w = modQueue p.port (fun Q => { Q with
          holder := none
          pending := Q.pending.map fun r => if r.mark = none then { r with mark := some .portDisabled } else r })
        (modPort p (fun pt => { pt with
          enabled := false, retryLimit := a.retryLimit.toNat, missAction := miss, abortOnError := a.abortOnError == 1
          tx := .off, pin := [], pulse := none }) s) := by
      rw [cutOff, modPort_modPort, sameMiss, ← n.retryLimit, ← yesNo_eq n.abortOnError]
      rfl
    rw [disablePort_eq, flushedOff, leftOff, cutHolder, begun]
    rfl

end Sys2Proof.Machine
end

