-- ==== Sys2Proof/Proofs/ReserveAndResets.lean ====
section
/-! PROOFS. The inbound reserve refilled and trimmed, GATEWAY_WRITE, and the two resets of management (09_in_band_management.md, RESETS). -/

-- One theorem after another: many at once need a thread each.
set_option Elab.async false

namespace Sys2Proof.Machine

/-! ### Refill and trim in full (R111, R114) -/

/-- By how many slots a refill fills the reserve up. -/
def refillCount (s : State) : Nat := min (s.pool.reserveSize - reservedCount s) s.pool.free.length

theorem refill_eq (s : State) : refill s = { s with
    pool := s.pool.takeIn (refillCount s)
    trunk := { s.trunk with creditPending := s.trunk.creditPending || (refillCount s != 0 && s.trunk.link == .up) } } := by
  unfold refill
  change (if refillCount s = 0 then s else _) = _
  split
  next nothing =>
    have stays : s.pool.takeIn 0 = s.pool := rfl
    simp only [nothing, stays, bne_self_eq_false, Bool.false_and, Bool.or_false]
  next some' =>
    have counts : (refillCount s != 0) = true := bne_iff_ne.2 some'
    rw [noteCredit_eq, counts, Bool.true_and]
    rfl

theorem takeIn_slots (p : Pool) (n : Nat) (i : SlotId) :
    (p.takeIn n).slots[i] = if i ∈ p.free.take n then .blank .unfilled else p.slots[i] := getElem_foldl_modAt_const _ _ _ _

theorem takeIn_settings (p : Pool) (n : Nat) :
    (p.takeIn n).reserveSize = p.reserveSize ∧ (p.takeIn n).lifetimes = p.lifetimes := ⟨rfl, rfl⟩

theorem mem_slotsIn {st : SlotStatus} {s : State} {i : SlotId} : i ∈ slotsIn st s ↔ s.pool.slots[i].status = st := by
  simp only [slotsIn, allSlots, List.mem_filter, List.mem_finRange, true_and, beq_iff_eq]

theorem pickUnfilled_isSome {s : State} (h : 0 < unfilledCount s) : ∃ i, pickUnfilled s = some i ∧ s.pool.slots[i].status = .unfilled := by
  have inRange : Config.freePick s.freeCount % (slotsIn .unfilled s).length < (slotsIn .unfilled s).length := Nat.mod_lt _ h
  exact ⟨_, List.getElem?_eq_getElem inRange, mem_slotsIn.1 (List.getElem_mem _)⟩

/-- The state once an unfilled slot has left the reserve for the tail of the free list. -/
def unreserve (i : SlotId) (s : State) : State :=
  modPool (fun p => { p with free := p.free ++ [i] }) (modSlot i (fun _ => .blank .free) { s with freeCount := s.freeCount + 1 })

theorem unreserve_slots (i j : SlotId) (s : State) :
    (unreserve i s).pool.slots[j] = if j = i then .blank .free else s.pool.slots[j] := getElem_modAt_fin _ _ _ _

theorem unreserve_counts {i : SlotId} {s : State} (h : s.pool.slots[i].status = .unfilled) :
    unfilledCount (unreserve i s) + 1 = unfilledCount s ∧ reservedCount (unreserve i s) + 1 = reservedCount s := by
  have unfilled := slotsIn_length_modSlot .unfilled i (fun _ => .blank .free) { s with freeCount := s.freeCount + 1 }
  have filled := slotsIn_length_modSlot .filled i (fun _ => .blank .free) { s with freeCount := s.freeCount + 1 }
  have status : ({ s with freeCount := s.freeCount + 1 } : State).pool.slots[i].status = .unfilled := h
  have blank : (FrameSlot.blank .free).status = .free := rfl
  rw [status, if_pos rfl, blank, if_neg nofun] at unfilled
  rw [status, if_neg nofun, blank, if_neg nofun] at filled
  exact ⟨unfilled, by unfold reservedCount unfilledCount; exact Nat.add_right_comm _ _ _ ▸ congrArg₂ (· + ·) unfilled filled⟩

theorem trimBy_succ {n : Nat} {s : State} {i : SlotId} (h : pickUnfilled s = some i) : trimBy (n + 1) s = trimBy n (unreserve i s) := by
  rw [trimBy, h]
  rfl

/-- What `n` turns of a trim do, the reserve holding `n` unfilled slots at least. -/
structure Trimmed (n : Nat) (s t : State) (gone : List SlotId) : Prop where
  length : gone.length = n
  nodup : gone.Nodup
  unfilled : ∀ i ∈ gone, s.pool.slots[i].status = .unfilled
  free : t.pool.free = s.pool.free ++ gone
  slots : ∀ i : SlotId, t.pool.slots[i] = if i ∈ gone then .blank .free else s.pool.slots[i]
  freeCount : t.freeCount = s.freeCount + n
  unfilledCount : unfilledCount t + n = unfilledCount s
  reservedCount : reservedCount t + n = reservedCount s

theorem trimBy_trimmed (n : Nat) (s : State) (enough : n ≤ unfilledCount s) : ∃ gone, Trimmed n s (trimBy n s) gone := by
  induction n generalizing s with
  | zero => exact ⟨[], rfl, List.nodup_nil, nofun, (List.append_nil _).symm, fun i => (if_neg nofun).symm, rfl, rfl, rfl⟩
  | succ n ih =>
    obtain ⟨i, picked, status⟩ := pickUnfilled_isSome (s := s) (by omega)
    obtain ⟨unfilled, reserved⟩ := unreserve_counts status
    obtain ⟨gone, trimmed⟩ := ih (unreserve i s) (by omega)
    rw [trimBy_succ picked]
    have rest {j : SlotId} (mem : j ∈ gone) : j ≠ i ∧ s.pool.slots[j].status = .unfilled := by
      have st := trimmed.unfilled j mem
      rw [unreserve_slots] at st
      split at st
      · cases st
      next other => exact ⟨other, st⟩
    refine ⟨i :: gone, by rw [List.length_cons, trimmed.length], List.nodup_cons.2 ⟨fun mem => (rest mem).1 rfl, trimmed.nodup⟩,
      fun j mem => ?_, ?_, fun j => ?_, ?_, ?_, ?_⟩
    · obtain rfl | mem := List.mem_cons.1 mem
      · exact status
      · exact (rest mem).2
    · rw [trimmed.free]
      exact List.append_assoc _ _ _
    · rw [trimmed.slots, unreserve_slots]
      by_cases e : j = i <;> simp [e]
    · have := trimmed.freeCount
      have step : (unreserve i s).freeCount = s.freeCount + 1 := rfl
      omega
    · have := trimmed.unfilledCount
      omega
    · have := trimmed.reservedCount
      omega

theorem trimBy_frame (n : Nat) (s : State) : trimBy n s = { s with
    freeCount := (trimBy n s).freeCount
    pool := { s.pool with slots := (trimBy n s).pool.slots, free := (trimBy n s).pool.free } } := by
  induction n generalizing s with
  | zero => rfl
  | succ n ih =>
    cases h : pickUnfilled s with
    | none => rw [trimBy, h]
    | some i =>
      rw [trimBy_succ h, ih]
      rfl

/-! ### GATEWAY_WRITE (R114, R173) -/

/-- The state with another INBOUND_RESERVE, before the reserve follows it. -/
def resized (n : Nat) (s : State) : State := modPool (fun p => { p with reserveSize := n }) s

theorem setReserveSize_frame (n : Nat) (s : State) : setReserveSize n s = { s with
    freeCount := (setReserveSize n s).freeCount
    pool := { s.pool with slots := (setReserveSize n s).pool.slots, free := (setReserveSize n s).pool.free, reserveSize := n }
    trunk := { s.trunk with creditPending := (setReserveSize n s).trunk.creditPending } } := by
  unfold setReserveSize
  dsimp only
  split
  · rw [refill_eq]
    rfl
  · split
    · rw [trim, trimBy_frame]
      rfl
    · rfl

theorem setReserveSize_raised {n : Nat} {s : State} (h : s.pool.reserveSize < n) : setReserveSize n s = refill (resized n s) :=
  if_pos h

theorem setReserveSize_trimmed {n : Nat} {s : State} (h : n < s.pool.reserveSize) (down : s.trunk.link = .seek ∨ s.trunk.link = .train) :
    setReserveSize n s = trim (resized n s) :=
  (if_neg (Nat.lt_asymm h)).trans (if_pos ⟨h, down⟩)

theorem setReserveSize_kept {n : Nat} {s : State}
    (h : n = s.pool.reserveSize ∨ (n < s.pool.reserveSize ∧ (s.trunk.link = .up ∨ s.trunk.link = .suspect))) :
    setReserveSize n s = resized n s := by
  have notRaised : ¬s.pool.reserveSize < n := by omega
  have notTrimmed : ¬(n < s.pool.reserveSize ∧ (s.trunk.link = .seek ∨ s.trunk.link = .train)) := by
    rintro ⟨lowered, down⟩
    obtain same | ⟨-, up⟩ := h
    · omega
    · obtain e | e := up <;> rw [e] at down <;> obtain d | d := down <;> cases d
  exact (if_neg notRaised).trans (if_neg notTrimmed)

/-- The settings of a GATEWAY_WRITE but INBOUND_RESERVE. -/
def gatewaySettings (a : GatewayArgs) (s : State) : State :=
  { s with
    custody := { s.custody with
      noticeSource := Fin.ofNat 120 a.noticeSource.toNat, noticePriority := Fin.ofNat 8 a.noticePriority.toNat }
    nodes := { s.nodes with threshold := a.blockThreshold.toNat }
    pool := { s.pool with lifetimes := ⟨#[a.lifetime0.toNat, a.lifetime1.toNat, a.lifetime2.toNat, a.lifetime3.toNat], rfl⟩ }
    events := { s.events with mask := a.eventMask.setWidth 8 }
    trunk := { s.trunk with suspectHold := a.suspectHold.toNat } }

theorem lifetimeOk_iff (v : BitVec 16) : lifetimeOk v.toNat = true ↔ LifetimeFieldOk v := by
  have zero : v.toNat = 0 ↔ v = 0 := by rw [← BitVec.toNat_inj]; rfl
  simp only [lifetimeOk, LifetimeFieldOk, Bool.or_eq_true, Bool.and_eq_true, decide_eq_true_iff, zero, and_assoc]

theorem gatewayOk_iff (a : GatewayArgs) : gatewayOk a = true ↔ GatewayFieldsOk a := by
  simp only [gatewayOk, GatewayFieldsOk, Bool.and_eq_true, decide_eq_true_iff, lifetimeOk_iff, and_assoc, Nat.lt_succ_iff]

/-- A raise refills the reserve from the head of the free list as far as that goes. -/
theorem raisedReserve {n : Nat} {s : State} (h : s.pool.reserveSize < n) (k : Nat)
    (count : k = min (n - reservedCount s) s.pool.free.length) :
    (setReserveSize n s).pool.free = s.pool.free.drop k ∧ (setReserveSize n s).freeCount = s.freeCount ∧
      (∀ i : SlotId, (setReserveSize n s).pool.slots[i] =
        if i ∈ s.pool.free.take k then .blank .unfilled else s.pool.slots[i]) ∧
      (setReserveSize n s).trunk.creditPending = (s.trunk.creditPending || (k != 0 && s.trunk.link == .up)) := by
  have same : k = refillCount (resized n s) := count
  rw [setReserveSize_raised h, refill_eq, ← same]
  exact ⟨rfl, rfl, fun i => takeIn_slots _ _ _, rfl⟩

/-- A lowering in SEEK or TRAIN trims the reserve. -/
theorem trimmedReserve {n : Nat} {s : State} (h : n < s.pool.reserveSize) (down : s.trunk.link = .seek ∨ s.trunk.link = .train) :
    (∃ gone, Trimmed (min (reservedCount s - n) (unfilledCount s)) s (setReserveSize n s) gone) ∧
      (setReserveSize n s).trunk.creditPending = s.trunk.creditPending := by
  rw [setReserveSize_trimmed h down, trim]
  obtain ⟨gone, t⟩ := trimBy_trimmed (min (reservedCount s - n) (unfilledCount s)) (resized n s) (Nat.min_le_right _ _)
  exact ⟨⟨gone, t.length, t.nodup, t.unfilled, t.free, t.slots, t.freeCount, t.unfilledCount, t.reservedCount⟩,
    congrArg (·.trunk.creditPending) (trimBy_frame _ _)⟩

/-- Settles O14: the settings, and then the reserve as `setReserveSize` leaves it. -/
theorem gatewayWriteSettings : Obligations.GatewayWriteSettings := by
  intro c id a rest s h
  rw [exec_requested h rfl nofun, runRequest]
  refine ⟨fun ok => ?_, fun bad => ?_⟩
  · have accepted : runGatewayWrite a { s with agent := { s.agent with buffers := rest } } =
        accept [] (setReserveSize a.inboundReserve.toNat (gatewaySettings a { s with agent := { s.agent with buffers := rest } })) :=
      if_pos ((gatewayOk_iff a).2 ok)
    rw [accepted]
    let w := gatewaySettings a { s with agent := { s.agent with buffers := rest } }
    have frame := setReserveSize_frame a.inboundReserve.toNat w
    obtain ⟨source, priority, -, -, -, -, -, -, -, mask, -⟩ := ok
    refine ⟨_, rfl, ?_⟩
    show (setReserveSize a.inboundReserve.toNat w).custody.noticeSource.val = _ ∧ _
    refine ⟨?_, ?_, ?_, ?_, ?_, ?_, (congrArg State.ports frame :), (congrArg State.route frame :),
      congrArg (·.nodes.entries) frame, congrArg (·.pool.queues) frame, congrArg (·.custody.notices) frame,
      congrArg (·.custody.reports) frame, (congrArg State.agent frame :), congrArg (·.events.records) frame,
      (congrArg State.gateway frame :), (congrArg State.now frame :), (congrArg State.pending frame :),
      congrArg (fun u => { u.trunk with response := some ⟨id, .ok, []⟩ }) frame,
      fun kept => ?_, fun n raised count => raisedReserve (s := w) raised n count, fun lowered down => ?_⟩
    · exact (congrArg (·.custody.noticeSource.val) frame).trans (Nat.mod_eq_of_lt (by omega))
    · exact (congrArg (·.custody.noticePriority.val) frame).trans (Nat.mod_eq_of_lt (by omega))
    · exact congrArg (·.pool.lifetimes.toList) frame
    · exact congrArg (·.nodes.threshold) frame
    · exact congrArg (·.pool.reserveSize) frame
    · refine (congrArg (·.events.mask.toNat) frame).trans ?_
      exact (BitVec.toNat_setWidth _ _).trans (Nat.mod_eq_of_lt (by omega))
    · have stays := setReserveSize_kept (s := w) kept
      exact ⟨congrArg (·.pool.slots) stays, congrArg (·.pool.free) stays, (congrArg State.freeCount stays :),
        congrArg (·.trunk.creditPending) stays⟩
    · obtain ⟨⟨gone, t⟩, credit⟩ := trimmedReserve (s := w) lowered down
      have reserved := t.reservedCount
      have unfilled := t.unfilledCount
      refine ⟨?_, gone, t.length, t.nodup, t.unfilled, t.free, t.slots, t.length ▸ t.freeCount, credit⟩
      show reservedCount (setReserveSize a.inboundReserve.toNat w) ≤ _ ∨ unfilledCount (setReserveSize a.inboundReserve.toNat w) = 0
      omega
  · have refused : runGatewayWrite a { s with agent := { s.agent with buffers := rest } } =
        refuse .badArgument { s with agent := { s.agent with buffers := rest } } := if_neg ((gatewayOk_iff a).not.2 bad)
    rw [refused]
    rfl

/-! ### The frame slots after a reset (R130) -/

/-- The slots that a reset keeps: the unfilled ones in UP and SUSPECT. -/
def keptSlot (s : State) (i : SlotId) : Bool := s.pool.slots[i].status == .unfilled && keepsUnfilled s

theorem keptSlot_iff (s : State) (i : SlotId) :
    keptSlot s i = true ↔ s.pool.slots[i].status = .unfilled ∧ (s.trunk.link = .up ∨ s.trunk.link = .suspect) := by
  simp only [keptSlot, keepsUnfilled, Bool.and_eq_true, Bool.or_eq_true, beq_iff_eq, decide_eq_true_iff]

/-- The free list with the freed slots at its tail. -/
def freedList (s : State) : List SlotId :=
  s.pool.free ++ (List.finRange 64).filter fun i => !keptSlot s i && s.pool.slots[i].status != .free

/-- Each slot kept or FREE. -/
def resetSlots (s : State) : Vector FrameSlot 64 :=
  Vector.ofFn fun i : SlotId => if keptSlot s i then .blank .unfilled else .blank .free

/-- The pool that a reset leaves before the refill: each slot kept or FREE, and the freed ones on the free list. -/
structure SlotsReset (size : Nat) (s t : State) : Prop where
  slots : t.pool.slots = resetSlots s
  free : t.pool.free = freedList s
  size : t.pool.reserveSize = size
  link : t.trunk.link = s.trunk.link
  credit : t.trunk.creditPending = s.trunk.creditPending

theorem resetSlots_getElem (s : State) (i : SlotId) :
    (resetSlots s)[i] = if keptSlot s i then .blank .unfilled else .blank .free := by
  simp only [resetSlots, Fin.getElem_fin, Vector.getElem_ofFn]

theorem SlotsReset.reservedCount {size : Nat} {s t : State} (h : SlotsReset size s t) :
    reservedCount t = ((List.finRange 64).filter (keptSlot s)).length := by
  have unfilled : slotsIn .unfilled t = (List.finRange 64).filter (keptSlot s) := by
    refine List.filter_congr fun i _ => ?_
    rw [h.slots, resetSlots_getElem]
    cases keptSlot s i <;> rfl
  have filled : slotsIn .filled t = [] := by
    rw [slotsIn, List.filter_eq_nil_iff]
    intro i _
    rw [h.slots, resetSlots_getElem]
    cases keptSlot s i <;> decide
  rw [Machine.reservedCount, unfilledCount, unfilled, filled]
  rfl

/-- The slots after the refill: the kept ones and those that it has taken are unfilled, and all others FREE. -/
theorem SlotsReset.refill_slots {size : Nat} {s t : State} (h : SlotsReset size s t) (i : SlotId) :
    (refill t).pool.slots[i] =
      if keptSlot s i = true ∨ i ∈ (freedList s).take (refillCount t) then .blank .unfilled else .blank .free := by
  rw [refill_eq]
  dsimp only
  rw [takeIn_slots, h.slots, h.free, resetSlots_getElem]
  by_cases taken : i ∈ (freedList s).take (refillCount t) <;> simp [taken]

theorem SlotsReset.flushed {size : Nat} {s t : State} (h : SlotsReset size s t) : PoolFlushed size s (refill t) := by
  intro kept free n isKept isFree isCount
  have kept_eq : kept = keptSlot s := by
    funext i
    rw [Bool.eq_iff_iff, isKept, keptSlot_iff]
  subst kept_eq
  have free_eq : free = freedList s := isFree
  have count : n = refillCount t := by rw [isCount, refillCount, h.size, h.reservedCount, h.free, free_eq]
  subst free_eq count
  refine ⟨?_, h.refill_slots, ?_⟩
  · rw [refill_eq]
    exact congrArg _ h.free
  · rw [refill_eq, ← h.link, ← h.credit]

theorem SlotsReset.free_or_unfilled {size : Nat} {s t : State} (h : SlotsReset size s t) (i : SlotId) :
    (refill t).pool.slots[i].status = .free ∨ (refill t).pool.slots[i].status = .unfilled := by
  rw [h.refill_slots]
  split
  · exact .inr rfl
  · exact .inl rfl

theorem SlotsReset.keeps {size : Nat} {s t : State} (h : SlotsReset size s t) (i : SlotId)
    (up : s.trunk.link = .up ∨ s.trunk.link = .suspect) (unfilled : s.pool.slots[i].status = .unfilled) :
    (refill t).pool.slots[i].status = .unfilled := by
  rw [h.refill_slots, if_pos (.inl ((keptSlot_iff s i).2 ⟨unfilled, up⟩))]
  rfl

/-! ### The frame that a reset cuts (R163) -/

theorem cutIf_frame (cuts : TxKind → Bool) (s : State) : cutIf cuts s = { s with trunk := (cutIf cuts s).trunk } := by
  unfold cutIf cutFrame
  repeat' split
  all_goals rfl

/-- Of the trunk, a reset changes the frame in transmission and its line, and the counters. -/
theorem cutIf_trunk (cuts : TxKind → Bool) (s : State) : (cutIf cuts s).trunk = { s.trunk with
    tx := (cutIf cuts s).trunk.tx, cut := (cutIf cuts s).trunk.cut, nextStart := (cutIf cuts s).trunk.nextStart
    counters := (cutIf cuts s).trunk.counters } := by
  unfold cutIf cutFrame
  repeat' split
  all_goals rfl

theorem cutIf_none {cuts : TxKind → Bool} {s : State} (h : s.trunk.tx = none) : cutIf cuts s = s := by
  unfold cutIf
  rw [h]

theorem cutIf_goes {cuts : TxKind → Bool} {s : State} {f : TxFrame} (h : s.trunk.tx = some f) (goes : cuts f.kind = false) :
    cutIf cuts s = s := by
  unfold cutIf
  simp only [h, goes, Bool.false_eq_true, if_false]

theorem cutIf_cuts {cuts : TxKind → Bool} {s : State} {f : TxFrame} (h : s.trunk.tx = some f) (cut : cuts f.kind = true) :
    (cutIf cuts s).trunk = { s.trunk with
      tx := none, cut := some ⟨f, nextCharacter f.startedAt s.now⟩
      nextStart := nextCharacter f.startedAt s.now + 2 * characterTime
      counters := modAt s.trunk.counters TrunkCounter.cutFrames.index (saturate · 1) } := by
  unfold cutIf cutFrame
  simp only [h, cut, if_true]
  rfl

/-- How a reset leaves the line of the trunk transmitter: a frame that it cuts is ended with CUT in place of its next character. -/
structure LineReset (cuts : TxKind → Bool) (s : State) (k : Trunk) : Prop where
  quiet : s.trunk.tx = none → k.tx = none ∧ k.cut = s.trunk.cut ∧ k.nextStart = s.trunk.nextStart
  goes : ∀ f : TxFrame, s.trunk.tx = some f → cuts f.kind = false →
    k.tx = some f ∧ k.cut = s.trunk.cut ∧ k.nextStart = s.trunk.nextStart
  cut : ∀ f : TxFrame, s.trunk.tx = some f → cuts f.kind = true → k.tx = none ∧
    k.cut = some ⟨f, nextCharacter f.startedAt s.now⟩ ∧ k.nextStart = nextCharacter f.startedAt s.now + 2 * characterTime

theorem cutIf_line (cuts : TxKind → Bool) (s : State) : LineReset cuts s (cutIf cuts s).trunk where
  quiet h := by rw [cutIf_none h]; exact ⟨h, rfl, rfl⟩
  goes f h goes := by rw [cutIf_goes h goes]; exact ⟨h, rfl, rfl⟩
  cut f h cut := by rw [cutIf_cuts h cut]; exact ⟨rfl, rfl, rfl⟩

theorem LineReset.of_eq {cuts : TxKind → Bool} {s : State} {k l : Trunk} (h : LineReset cuts s k) (tx : l.tx = k.tx) (cut : l.cut = k.cut)
    (nextStart : l.nextStart = k.nextStart) : LineReset cuts s l where
  quiet := by rw [tx, cut, nextStart]; exact h.quiet
  goes := by rw [tx, cut, nextStart]; exact h.goes
  cut := by rw [tx, cut, nextStart]; exact h.cut

/-! ### The ports of a TRAFFIC reset (R65) -/

/-- What a TRAFFIC reset makes of a port with `n` references in its queue. -/
def trafficOf (n : Nat) (pt : Port) : Port :=
  let counted := { pt with counters := modAt pt.counters PortCounter.discarded.index (saturate · n) }
  if pt.enabled then
    { counted with
      rx := if pt.rx = .held then .held else .flush
      heldFlush := false, assembly := {}, tx := .idle, pin := [], pulse := none, due := false }
  else { counted with due := false }

theorem trafficPort_eq (s : State) (p : SegPort) :
    trafficPort s p = modPort p (trafficOf (queueLength s.pool.queues[p.port])) s := by
  unfold trafficPort countPort
  dsimp only
  rw [modPort_modPort]
  refine modPort_congr _ _ _ _ ?_
  unfold trafficOf
  dsimp only [Function.comp]

theorem trafficPorts_eq (ps : List SegPort) (s : State) (h : ps.Nodup) : ps.foldl trafficPort s =
    { s with ports := Vector.ofFn fun p : SegPort =>
      if p ∈ ps then trafficOf (queueLength s.pool.queues[p.port]) s.ports[p] else s.ports[p] } := by
  induction ps generalizing s with
  | nil => simp
  | cons p ps ih =>
    obtain ⟨fresh, h⟩ := List.nodup_cons.1 h
    rw [List.foldl_cons, ih _ h, trafficPort_eq]
    simp only [modPort, List.mem_cons]
    congr 1
    ext1 k hk
    simp only [Vector.getElem_ofFn, Fin.getElem_fin, getElem_modAt]
    by_cases here : k = p.val
    · subst here
      simp [fresh]
    · have other : (⟨k, hk⟩ : SegPort) ≠ p := fun e => here (congrArg Fin.val e)
      simp [other, here]

/-- The state of a TRAFFIC reset before the refill. -/
def trafficked (s : State) : State :=
  { s with
    ports := Vector.ofFn fun p : SegPort => trafficOf (queueLength s.pool.queues[p.port]) s.ports[p]
    custody := { s.custody with notices := [], reports := [] }
    pool := (trafficPool s).pool
    trunk := { (cutIf trafficCuts s).trunk with taken := [] } }

theorem trafficPool_pool {s t : State} (pool : t.pool = s.pool) (link : t.trunk.link = s.trunk.link) :
    (trafficPool t).pool = (trafficPool s).pool := by
  have keeps : keepsUnfilled t = keepsUnfilled s := by simp only [keepsUnfilled, link]
  simp only [trafficPool, modPool_pool, keeps, pool]

theorem cutIf_link (cuts : TxKind → Bool) (s : State) : (cutIf cuts s).trunk.link = s.trunk.link := by rw [cutIf_trunk]

theorem trafficReset_eq (s : State) : trafficReset s = refill (trafficked s) := by
  have ports := trafficPorts_eq allSegPorts s (by decide)
  have all : ∀ p : SegPort, p ∈ allSegPorts := by decide
  simp only [all, if_true] at ports
  have cut : cutIf trafficCuts (allSegPorts.foldl trafficPort s) =
      { s with
        ports := Vector.ofFn fun p : SegPort => trafficOf (queueLength s.pool.queues[p.port]) s.ports[p]
        trunk := (cutIf trafficCuts s).trunk } := by
    rw [ports]
    unfold cutIf cutFrame
    cases s.trunk.tx with
    | none => rfl
    | some f =>
      dsimp only
      split <;> rfl
  unfold trafficReset
  dsimp only
  rw [cut]
  refine congrArg refill ?_
  unfold trafficked modTrunk
  refine (congrArg (fun P : Pool => ({ s with
    ports := Vector.ofFn fun p : SegPort => trafficOf (queueLength s.pool.queues[p.port]) s.ports[p]
    custody := { s.custody with notices := [], reports := [] }
    pool := P
    trunk := { (cutIf trafficCuts s).trunk with taken := [] } } : State)) (trafficPool_pool rfl (cutIf_link _ _)))

theorem trafficPool_slots (s : State) : (trafficPool s).pool.slots = resetSlots s := by
  ext1 k hk
  simp only [trafficPool, modPool_pool, resetSlots, keptSlot, Vector.getElem_ofFn]
  rfl

theorem trafficPool_free (s : State) : (trafficPool s).pool.free = freedList s := by
  simp only [trafficPool, modPool_pool, freedList, keptSlot, allSlots]

theorem trafficPool_settings (s : State) :
    (trafficPool s).pool.reserveSize = s.pool.reserveSize ∧ (trafficPool s).pool.lifetimes = s.pool.lifetimes := by
  simp only [trafficPool, modPool_pool, and_self]

theorem trafficked_pool (s : State) : (trafficked s).pool = (trafficPool s).pool := by simp only [trafficked]

theorem trafficked_reset (s : State) : SlotsReset s.pool.reserveSize s (trafficked s) :=
  ⟨trafficPool_slots s, trafficPool_free s, (trafficPool_settings s).1, cutIf_link _ _, by
    show (cutIf trafficCuts s).trunk.creditPending = _
    rw [cutIf_trunk]⟩

/-- The state of a FULL reset before the refill. -/
def fullyReset (s : State) : State :=
  { State.reset with
    now := s.now
    freeCount := s.freeCount
    pool := { (trafficPool s).pool with reserveSize := 8, lifetimes := resetLifetimes }
    trunk := { (cutIf fullCuts s).trunk with suspectHold := 2, taken := [], counters := Vector.replicate 10 0 }
    pending := s.pending }

theorem fullReset_eq (s : State) : fullReset s = refill (fullyReset s) := by
  have pool : (trafficPool (cutIf fullCuts s)).pool = (trafficPool s).pool :=
    trafficPool_pool (by rw [cutIf_frame]) (cutIf_link _ _)
  unfold fullReset
  dsimp only
  rw [pool]
  rfl

theorem fullyReset_reset (s : State) : SlotsReset 8 s (fullyReset s) :=
  ⟨trafficPool_slots s, trafficPool_free s, rfl, cutIf_link _ _, by
    show (cutIf fullCuts s).trunk.creditPending = _
    rw [cutIf_trunk]⟩

/-- What a TRAFFIC reset leaves of the ports, the lists and the trunk. -/
structure TrafficReset (s t : State) : Prop where
  ports : ∀ p : SegPort, t.ports[p] = trafficOf (queueLength s.pool.queues[p.port]) s.ports[p]
  custody : t.custody = { s.custody with notices := [], reports := [] }
  trunk : t.trunk = { s.trunk with
    taken := [], tx := t.trunk.tx, cut := t.trunk.cut, nextStart := t.trunk.nextStart, creditPending := t.trunk.creditPending
    counters := t.trunk.counters }
  line : LineReset trafficCuts s t.trunk
  countersStay : (∀ f : TxFrame, s.trunk.tx = some f → trafficCuts f.kind = false) → t.trunk.counters = s.trunk.counters
  countersCut : ∀ f : TxFrame, s.trunk.tx = some f → trafficCuts f.kind = true →
    t.trunk.counters = modAt s.trunk.counters TrunkCounter.cutFrames.index (saturate · 1)
  flushed : PoolFlushed s.pool.reserveSize s t
  slots : ∀ i : SlotId, t.pool.slots[i].status = .free ∨ t.pool.slots[i].status = .unfilled
  kept : ∀ i : SlotId, s.trunk.link = .up ∨ s.trunk.link = .suspect → s.pool.slots[i].status = .unfilled →
    t.pool.slots[i].status = .unfilled
  queues : ∀ q : PortId, t.pool.queues[q] = .empty
  settings : t.pool.reserveSize = s.pool.reserveSize ∧ t.pool.lifetimes = s.pool.lifetimes
  rest : t.route = s.route ∧ t.nodes = s.nodes ∧ t.agent = s.agent ∧ t.events = s.events ∧ t.gateway = s.gateway ∧ t.now = s.now ∧
    t.freeCount = s.freeCount ∧ t.pending = s.pending
  credit : s.trunk.creditPending = true → t.trunk.creditPending = true

theorem trafficReset_spec (s : State) : TrafficReset s (trafficReset s) := by
  have reset := trafficked_reset s
  have flushed := reset.flushed
  have slots := reset.free_or_unfilled
  have kept := reset.keeps
  have queues := refill_queues (trafficked s)
  have all := refill_eq (trafficked s)
  rw [← trafficReset_eq] at flushed slots kept queues all
  have credit : (trafficReset s).trunk.creditPending =
      (s.trunk.creditPending || (refillCount (trafficked s) != 0 && (trafficked s).trunk.link == .up)) := by
    rw [all]
    exact congrArg (· || _) reset.credit
  have settings : (trafficReset s).pool.reserveSize = s.pool.reserveSize ∧ (trafficReset s).pool.lifetimes = s.pool.lifetimes := by
    obtain ⟨size, lifetimes⟩ := trafficPool_settings s
    obtain ⟨takeSize, takeLifetimes⟩ := takeIn_settings (trafficked s).pool (refillCount (trafficked s))
    rw [all]
    dsimp only
    rw [takeSize, takeLifetimes, trafficked_pool]
    exact ⟨size, lifetimes⟩
  exact {
    ports := fun p => by
      have ports : (trafficReset s).ports = (trafficked s).ports := by rw [all]
      rw [ports]
      simp only [trafficked, Fin.getElem_fin, Vector.getElem_ofFn]
    custody := by rw [all]; simp only [trafficked]
    trunk := by rw [all]; simp only [trafficked]; rw [cutIf_trunk]
    line := (cutIf_line trafficCuts s).of_eq (by rw [all]; simp only [trafficked]) (by rw [all]; simp only [trafficked])
      (by rw [all]; simp only [trafficked])
    countersStay := fun goes => by
      rw [all]
      simp only [trafficked]
      cases tx : s.trunk.tx with
      | none => rw [cutIf_none tx]
      | some f => rw [cutIf_goes tx (goes f tx)]
    countersCut := fun f tx cuts => by
      rw [all]
      simp only [trafficked]
      rw [cutIf_cuts tx cuts]
    flushed := flushed
    slots := slots
    kept := kept
    queues := fun q => by
      rw [queues]
      simp only [trafficked, trafficPool, modPool_pool, Fin.getElem_fin, Vector.getElem_replicate]
    settings := settings
    rest := by rw [all]; simp only [trafficked, and_self]
    credit := fun h => by rw [credit, h, Bool.true_or] }

/-- Settles O15: the reset's parts, and the frame that it cuts by its kind. -/
theorem trafficResetClearsTraffic : Obligations.TrafficResetClearsTraffic := by
  intro c id rest s h
  rw [exec_requested h rfl nofun, runRequest]
  have reset := trafficReset_spec { s with agent := { s.agent with buffers := rest } }
  generalize made : trafficReset { s with agent := { s.agent with buffers := rest } } = u at reset
  have run : runReset 1 { s with agent := { s.agent with buffers := rest } } = accept [] u := by rw [← made]; rfl
  rw [run]
  obtain ⟨ports, custody, trunk, line, stay, cutCount, flushed, slots, kept, queues, ⟨size, lifetimes⟩, ⟨route, nodes, agent, events, gateway, now, count, pending⟩,
    credit⟩ := reset
  refine ⟨_, rfl, fun p on => ?_, fun p off => ?_, flushed, queues, slots, kept, size, lifetimes, custody, ?_, credit, fun quiet => ?_,
    fun f cutAt sending moment => ⟨fun kind => ?_, fun kind => ?_⟩, route, nodes, agent, events, gateway, now, count, pending⟩
  · exact (ports p).trans (by simp only [trafficOf, on, if_true])
  · exact (ports p).trans (by simp only [trafficOf, off, Bool.false_eq_true, if_false])
  · exact (congrArg (fun k : Trunk => { k with response := some ⟨id, .ok, []⟩ }) trunk :)
  · obtain ⟨tx, cut, next⟩ := line.quiet quiet
    exact ⟨tx, cut, next, stay fun f sending => by cases quiet.symm.trans sending⟩
  · have cuts : trafficCuts f.kind = true := by obtain e | e | e := kind <;> rw [e] <;> rfl
    obtain ⟨tx, cut, next⟩ := line.cut f sending cuts
    subst moment
    exact ⟨tx, cut, next, cutCount f sending cuts⟩
  · have goes : trafficCuts f.kind = false := by obtain e | e | e := kind <;> rw [e] <;> rfl
    obtain ⟨tx, cut, next⟩ := line.goes f sending goes
    exact ⟨tx, cut, next, stay fun g sending' => by cases sending.symm.trans sending'; exact goes⟩

/-! ### The FULL reset (R177) -/

theorem fullyReset_pool (s : State) : (fullyReset s).pool = { (trafficPool s).pool with reserveSize := 8, lifetimes := resetLifetimes } := by
  simp only [fullyReset]

/-- What a FULL reset leaves. -/
structure FullyReset (s t : State) : Prop where
  blocks : t.ports = State.reset.ports ∧ t.route = State.reset.route ∧ t.nodes = State.reset.nodes ∧
    t.custody = State.reset.custody ∧ t.events = State.reset.events ∧ t.gateway = State.reset.gateway ∧ t.agent = ⟨[], false, false⟩
  flushed : PoolFlushed 8 s t
  slots : ∀ i : SlotId, t.pool.slots[i].status = .free ∨ t.pool.slots[i].status = .unfilled
  kept : ∀ i : SlotId, s.trunk.link = .up ∨ s.trunk.link = .suspect → s.pool.slots[i].status = .unfilled →
    t.pool.slots[i].status = .unfilled
  queues : ∀ q : PortId, t.pool.queues[q] = .empty
  settings : t.pool.reserveSize = 8 ∧ t.pool.lifetimes = resetLifetimes
  trunk : t.trunk = { s.trunk with
    taken := [], suspectHold := 2, counters := Vector.replicate 10 0, tx := t.trunk.tx, cut := t.trunk.cut
    nextStart := t.trunk.nextStart, creditPending := t.trunk.creditPending }
  line : LineReset fullCuts s t.trunk
  credit : s.trunk.creditPending = true → t.trunk.creditPending = true
  rest : t.now = s.now ∧ t.freeCount = s.freeCount ∧ t.pending = s.pending

theorem fullReset_spec (s : State) : FullyReset s (fullReset s) := by
  have reset := fullyReset_reset s
  have flushed := reset.flushed
  have slots := reset.free_or_unfilled
  have kept := reset.keeps
  have queues := refill_queues (fullyReset s)
  have all := refill_eq (fullyReset s)
  rw [← fullReset_eq] at flushed slots kept queues all
  have credit : (fullReset s).trunk.creditPending =
      (s.trunk.creditPending || (refillCount (fullyReset s) != 0 && (fullyReset s).trunk.link == .up)) := by
    rw [all]
    exact congrArg (· || _) reset.credit
  have settings : (fullReset s).pool.reserveSize = 8 ∧ (fullReset s).pool.lifetimes = resetLifetimes := by
    obtain ⟨takeSize, takeLifetimes⟩ := takeIn_settings (fullyReset s).pool (refillCount (fullyReset s))
    rw [all]
    dsimp only
    rw [takeSize, takeLifetimes, fullyReset_pool]
    exact ⟨rfl, rfl⟩
  exact {
    blocks := by rw [all]; simp only [fullyReset, State.reset, Agent.reset, and_self]
    flushed := flushed
    slots := slots
    kept := kept
    queues := fun q => by
      rw [queues]
      simp only [fullyReset, trafficPool, modPool_pool, Fin.getElem_fin, Vector.getElem_replicate]
    settings := settings
    trunk := by rw [all]; simp only [fullyReset]; rw [cutIf_trunk]
    line := (cutIf_line fullCuts s).of_eq (by rw [all]; simp only [fullyReset]) (by rw [all]; simp only [fullyReset])
      (by rw [all]; simp only [fullyReset])
    credit := fun h => by rw [credit, h, Bool.true_or]
    rest := by rw [all]; simp only [fullyReset, and_self] }

/-- Settles O16: the blocks at their reset values, the pool flushed, and the frame that is cut by its kind. -/
theorem fullResetKeepsLink : Obligations.FullResetKeepsLink := by
  intro c id rest s h
  rw [exec_requested h rfl nofun, runRequest]
  have reset := fullReset_spec { s with agent := { s.agent with buffers := rest } }
  generalize made : fullReset { s with agent := { s.agent with buffers := rest } } = u at reset
  have run : runReset 2 { s with agent := { s.agent with buffers := rest } } = accept [] u := by rw [← made]; rfl
  rw [run]
  obtain ⟨⟨ports, route, nodes, custody, events, gateway, agent⟩, flushed, slots, kept, queues, ⟨size, lifetimes⟩, trunk, line, credit,
    ⟨now, count, pending⟩⟩ := reset
  refine ⟨_, rfl, ports, route, nodes, custody, events, gateway, agent, flushed, count, queues, size, ?_, slots, kept, ?_, credit,
    line.quiet, fun f cutAt sending moment => ⟨fun kind => ?_, fun kind => ?_⟩, now, pending⟩
  · exact (congrArg (·.toList) lifetimes :)
  · exact (congrArg (fun k : Trunk => { k with response := some ⟨id, .ok, []⟩ }) trunk :)
  · exact line.goes f sending (by obtain e | e := kind <;> rw [e] <;> rfl)
  · subst moment
    exact line.cut f sending (by obtain e | e | e | e := kind <;> rw [e] <;> rfl)

end Sys2Proof.Machine
end

