-- ==== Sys2Proof/Proofs/Symbols.lean ====
section
/-! PROOFS. The classes of the lows on a segment line, and what a receiver makes of the lows of a frame (01_segment_bus_signalling.md, SYMBOLS, BIT SLOTS AND SYNCHRONISATION). -/

-- One theorem after another: many at once need a thread each.
set_option Elab.async false

namespace Sys2Proof.Machine

/-! ### Lows and windows in hundredths of a bit period (R2 to R6) -/

theorem atLeast_iff {rate : Rate} {c : Nat} {t : Ticks} : atLeast rate c t = true ↔ c * bitPeriod rate ≤ 100 * t := decide_eq_true_iff

theorem atMost_iff {rate : Rate} {c : Nat} {t : Ticks} : atMost rate c t = true ↔ 100 * t ≤ c * bitPeriod rate := decide_eq_true_iff

/-- A SLOW low four times as long lies as far in its bit period as a STANDARD one. -/
theorem atLeast_slow (c : Nat) (t : Ticks) : atLeast .slow c (4 * t) = atLeast .standard c t := by
  rw [Bool.eq_iff_iff, atLeast_iff, atLeast_iff, bitPeriod, bitPeriod]
  dsimp only [Ticks]
  omega

theorem atMost_slow (c : Nat) (t : Ticks) : atMost .slow c (4 * t) = atMost .standard c t := by
  rw [Bool.eq_iff_iff, atMost_iff, atMost_iff, bitPeriod, bitPeriod]
  dsimp only [Ticks]
  omega

/-- The rows of R4: which lengths of a low a class names, in hundredths of the bit period. -/
def ClassNames (rate : Rate) (t : Ticks) : LowClass → Prop
  | .notSeen => 100 * t < 5 * bitPeriod rate
  | .shapeError =>
    (5 * bitPeriod rate ≤ 100 * t ∧ 100 * t < 15 * bitPeriod rate) ∨
    (40 * bitPeriod rate < 100 * t ∧ 100 * t < 48 * bitPeriod rate) ∨
    (75 * bitPeriod rate < 100 * t ∧ 100 * t ≤ 160 * bitPeriod rate)
  | .bit1 => 15 * bitPeriod rate ≤ 100 * t ∧ 100 * t ≤ 40 * bitPeriod rate
  | .bit0 => 48 * bitPeriod rate ≤ 100 * t ∧ 100 * t ≤ 75 * bitPeriod rate
  | .abortPulse => 160 * bitPeriod rate < 100 * t ∧ 100 * t ≤ 500 * bitPeriod rate
  | .lineHeld => 500 * bitPeriod rate < 100 * t

theorem bitPeriod_pos (rate : Rate) : 0 < bitPeriod rate := by
  cases rate <;> decide

/-- A low has the class that names it, and the rows exclude each other. -/
theorem classifyLow_iff (rate : Rate) (t : Ticks) (c : LowClass) : classifyLow rate t = c ↔ ClassNames rate t c := by
  have hT := bitPeriod_pos rate
  have own : ClassNames rate t (classifyLow rate t) := by
    simp only [classifyLow, atLeast, atMost, Bool.not_eq_true', decide_eq_false_iff_not, decide_eq_true_iff]
    split_ifs <;> simp only [ClassNames] <;> dsimp only [Ticks] at * <;> omega
  refine ⟨fun h => h ▸ own, fun named => ?_⟩
  revert own
  generalize classifyLow rate t = c'
  intro own
  cases c <;> cases c' <;> simp only [ClassNames, reduceCtorEq] at own named ⊢ <;> dsimp only [Ticks] at * <;> omega

/-- Settles O17: the rows of the table, with 2500 ticks to the STANDARD bit period. -/
theorem lowsAreClassified : Obligations.LowsAreClassified := by
  intro t
  have leadIn : isLeadIn .standard t = true ↔ 6500 ≤ t ∧ t ≤ 8500 := by
    rw [isLeadIn, Bool.and_eq_true, atLeast_iff, atMost_iff, bitPeriod]
    dsimp only [Ticks]
    omega
  have slowLeadIn : isLeadIn .slow (4 * t) = isLeadIn .standard t := by rw [isLeadIn, isLeadIn, atLeast_slow, atMost_slow]
  have slowClass : classifyLow .slow (4 * t) = classifyLow .standard t := by simp only [classifyLow, atLeast_slow, atMost_slow]
  refine ⟨?_, ?_, ?_, ?_, ?_, ?_, slowClass, leadIn, ?_, slowLeadIn, ?_⟩
  iterate 6
    · rw [classifyLow_iff]
      simp only [ClassNames, bitPeriod]
      dsimp only [Ticks]
      omega
  · rw [isFalseStart, Bool.and_eq_true, Bool.and_eq_true, Bool.not_eq_true', Bool.eq_false_iff, ne_eq, leadIn, atLeast_iff, atMost_iff,
      bitPeriod]
    dsimp only [Ticks]
    omega
  · rw [isFalseStart, isFalseStart, slowLeadIn, atLeast_slow, atMost_slow]

/-! ### Bits of a low (R3, R4) -/

theorem bitOf?_isSome_iff (rate : Rate) (t : Ticks) :
    (bitOf? rate t).isSome = true ↔ ClassNames rate t .bit1 ∨ ClassNames rate t .bit0 := by
  rw [← classifyLow_iff, ← classifyLow_iff, bitOf?]
  cases classifyLow rate t <;> simp

theorem bitOf?_eq_some (rate : Rate) (t : Ticks) (b : Bool) :
    bitOf? rate t = some b ↔ ClassNames rate t (if b then .bit1 else .bit0) := by
  rw [← classifyLow_iff, bitOf?]
  cases b <;> cases classifyLow rate t <;> simp

/-- The lows that the FG410 drives are well inside their rows. -/
theorem bitOf?_bitLow (rate : Rate) (b : Bool) : bitOf? rate (bitLow rate b) = some b := by
  cases rate <;> cases b <;> decide

theorem classifyLow_bitLow (rate : Rate) (b : Bool) : classifyLow rate (bitLow rate b) ≠ .notSeen := by
  cases rate <;> cases b <;> decide

/-- The sample point, 0.44 Tb after the edge, lies between the two lows that a talker drives (R8). -/
theorem bitLow_le_samplePoint (rate : Rate) (b : Bool) : decide (bitLow rate b ≤ samplePoint rate) = b := by
  cases rate <;> cases b <;> decide

/-! ### Bits and numbers (R24) -/

theorem bitsOfNat_length (w n : Nat) : (bitsOfNat w n).length = w := by
  induction w with
  | zero => rfl
  | succ w ih => rw [bitsOfNat, List.length_cons, ih]

theorem natOfBits_bitsOfNat (w n : Nat) : natOfBits (bitsOfNat w n) = n % 2 ^ w := by
  induction w generalizing n with
  | zero => rw [pow_zero, Nat.mod_one]; rfl
  | succ w ih =>
    have last : (n.testBit 0).toNat = n % 2 := by rw [Nat.testBit_zero]; rcases Nat.mod_two_eq_zero_or_one n with h | h <;> rw [h] <;> rfl
    rw [bitsOfNat_succ_concat, natOfBits_concat, ih, last, Nat.pow_succ', Nat.mod_mul, Nat.add_comm]

theorem octetBits_length (os : List Octet) : (octetBits os).length = 8 * os.length := by
  induction os with
  | nil => rfl
  | cons o os ih => rw [octetBits, List.flatMap_cons, List.length_append, bitsOfNat_length, ← octetBits, ih, List.length_cons]; omega

theorem sentBits_length (f : Frame) : (sentBits f).length = 33 + 8 * f.payload.length := by
  simp only [sentBits, coveredBits, headerBitsOf, controlBitsOf, List.length_append, bitsOfNat_length, octetBits_length]
  omega

/-- A field of `w` bits is read off the front of the bits that it heads. -/
theorem natOfBits_take_field {w n : Nat} (rest : List Bool) (h : n < 2 ^ w) : natOfBits ((bitsOfNat w n ++ rest).take w) = n := by
  rw [List.take_left' (bitsOfNat_length w n), natOfBits_bitsOfNat, Nat.mod_eq_of_lt h]

theorem drop_field (w n : Nat) (rest : List Bool) : (bitsOfNat w n ++ rest).drop w = rest := List.drop_left' (bitsOfNat_length w n)

theorem headerOfBits_headerBitsOf (h : Header) : headerOfBits (headerBitsOf h) = h := by
  obtain ⟨priority, dest, source⟩ := h
  have bits : headerBitsOf ⟨priority, dest, source⟩ = bitsOfNat 3 priority ++ (bitsOfNat 7 dest ++ (bitsOfNat 7 source ++ [])) := by
    rw [headerBitsOf, List.append_nil, List.append_assoc]
  have ten : ∀ l : List Bool, l.drop 10 = (l.drop 3).drop 7 := fun l => by rw [List.drop_drop]
  rw [headerOfBits, ten, bits, drop_field, drop_field, natOfBits_take_field _ priority.isLt, natOfBits_take_field _ dest.isLt,
    natOfBits_take_field _ source.isLt]
  simp only [Fin.ofNat_val_eq_self]

theorem controlOfBits_controlBitsOf (c : Control) (h : c.length ≤ 15) : controlOfBits (controlBitsOf c) = c := by
  obtain ⟨service, length⟩ := c
  have bits : controlBitsOf ⟨service, length⟩ = bitsOfNat 4 service ++ (bitsOfNat 4 length ++ []) := by
    rw [controlBitsOf, List.append_nil]
  rw [controlOfBits, bits, drop_field, natOfBits_take_field _ service.isLt, natOfBits_take_field _ (Nat.lt_succ_of_le h)]
  simp only [Fin.ofNat_val_eq_self]

theorem octetsOfBits_octetBits (payload : List Octet) (rest : List Bool) :
    octetsOfBits payload.length (octetBits payload ++ rest) = payload := by
  induction payload with
  | nil => rfl
  | cons o os ih =>
    have bits : octetBits (o :: os) ++ rest = bitsOfNat 8 o.toNat ++ (octetBits os ++ rest) := by
      rw [octetBits, List.flatMap_cons, List.append_assoc]; rfl
    rw [List.length_cons, octetsOfBits, bits, drop_field, ih, natOfBits_take_field _ o.isLt, BitVec.ofNat_toNat, BitVec.setWidth_eq]

/-! ### Hearing a bit slot -/

theorem isLeadIn_leadInLow (rate : Rate) : isLeadIn rate (leadInLow rate) = true := by
  cases rate <;> decide

theorem hearLow_leadIn {pt : Port} (low : Ticks) (h : pt.rx = .leadIn) :
    hearLow low pt = if isLeadIn pt.rate low then some { pt with rx := .gap, lastRise := pt.edge + low } else none := if_pos h

theorem hearLow_inside {pt : Port} (low : Ticks) (h : insideLow pt = true) :
    hearLow low pt = if sampleAgrees low pt then
      (bitOf? pt.rate low).map fun bit =>
        { pt with
          lastRise := pt.edge + low
          assembly := { pt.assembly with bits := pt.assembly.bits ++ [bit], inSlot := false } } else none := by
  have bits : pt.rx ≠ .leadIn := by
    intro e
    simp [insideLow, e] at h
  rw [hearLow, if_neg bits, h, Bool.true_and]

theorem hearEdge_between {pt : Port} (gap : Ticks) (h : betweenLows pt = true) (bits : pt.rx ≠ .slots) :
    hearEdge gap pt = if edgeAccepted pt gap && slotsRemain pt.assembly then some (beginSlot gap pt) else none := by
  have no : (pt.rx == .slots) = false := beq_false_of_ne bits
  rw [hearEdge, h, no]
  simp only [Bool.true_and, Bool.false_and, Bool.not_false, Bool.and_true]

/-- Between the lows of a frame's bits: the receiver waits for bit slot 1 in GAP, or for a later one in BITS. -/
structure AwaitsBit (pt : Port) (first : Nat) : Prop where
  place : (pt.rx = .gap ∧ first = 400) ∨ (pt.rx = .bits ∧ first = 100)
  between : pt.assembly.inSlot = false
  room : pt.assembly.bits.length < completionAt pt.assembly

namespace AwaitsBit

variable {pt : Port} {first : Nat}

theorem betweenLows (h : AwaitsBit pt first) : betweenLows pt = true := by
  unfold Machine.betweenLows
  rcases h.place with ⟨e, -⟩ | ⟨e, -⟩ <;> rw [e, h.between] <;> rfl

theorem not_slots (h : AwaitsBit pt first) : pt.rx ≠ .slots := by
  rcases h.place with ⟨e, -⟩ | ⟨e, -⟩ <;> rw [e] <;> decide

theorem edgeAccepted (h : AwaitsBit pt first) : edgeAccepted pt (first * bitPeriod pt.rate / 100) = true := by
  unfold Machine.edgeAccepted
  rcases h.place with ⟨e, rfl⟩ | ⟨e, rfl⟩ <;> rw [e] <;> cases pt.rate <;> cases isTalker pt <;> decide

theorem begins (h : AwaitsBit pt first) : 
    hearEdge (first * bitPeriod pt.rate / 100) pt = some { pt with
      rx := .bits, edge := pt.edge + first * bitPeriod pt.rate / 100, assembly := { pt.assembly with inSlot := true }
      pin := pinAtEdge pt (pt.edge + first * bitPeriod pt.rate / 100) } := by
  have bits : (if pt.rx = .gap then RxState.bits else pt.rx) = .bits := by
    rcases h.place with ⟨e, -⟩ | ⟨e, -⟩ <;> rw [e] <;> rfl
  have remain : slotsRemain pt.assembly = true := decide_eq_true h.room
  rw [hearEdge_between _ h.betweenLows h.not_slots, h.edgeAccepted, remain, beginSlot, bits]
  rfl

end AwaitsBit

/-- The bit that a talker samples is the one it sends, where the line carries that one (R8). -/
theorem sampleAgrees_bitLow {pt : Port} {b : Bool}
    (sent : ∀ a : Attempt, attemptOf pt = some a → (sentBits a.frame)[pt.assembly.bits.length]? = some b) :
    sampleAgrees (bitLow pt.rate b) pt = true := by
  unfold sampleAgrees
  cases talker : attemptOf pt with
  | none => rfl
  | some a =>
    have own : talkerBit a pt.assembly.bits.length = b := by rw [talkerBit, List.getD_eq_getElem?_getD, sent a talker]; rfl
    simp only [own, bitLow_le_samplePoint, beq_self_eq_true, Bool.or_true]

/-- A bit slot at its own distance, with the low of a bit, is heard as that bit. -/
theorem hearSlot_bit {pt : Port} {first : Nat} {b : Bool} (h : AwaitsBit pt first)
    (sent : ∀ a : Attempt, attemptOf pt = some a → (sentBits a.frame)[pt.assembly.bits.length]? = some b) :
    ∃ rise pin, hearSlot ⟨first * bitPeriod pt.rate / 100, bitLow pt.rate b⟩ pt = some { pt with
      rx := .bits, edge := pt.edge + first * bitPeriod pt.rate / 100, lastRise := rise, pin := pin
      assembly := { pt.assembly with bits := pt.assembly.bits ++ [b], inSlot := false } } := by
  refine ⟨pt.edge + first * bitPeriod pt.rate / 100 + bitLow pt.rate b, pinAtEdge pt (pt.edge + first * bitPeriod pt.rate / 100), ?_⟩
  rw [hearSlot, if_neg (classifyLow_bitLow _ _), h.begins, Option.bind_some, hearLow_inside _ rfl]
  rw [if_pos (sampleAgrees_bitLow (pt := { pt with
    rx := .bits, edge := pt.edge + first * bitPeriod pt.rate / 100, assembly := { pt.assembly with inSlot := true }
    pin := pinAtEdge pt (pt.edge + first * bitPeriod pt.rate / 100) }) sent), bitOf?_bitLow]
  rfl

/-- Bit slots 1.0 Tb apart are heard as their bits, up to the next completion (R31). -/
theorem hearSlots_bits (bits : List Bool) (pt : Port) (rx : pt.rx = .bits) (between : pt.assembly.inSlot = false)
    (room : pt.assembly.bits.length + bits.length ≤ completionAt pt.assembly)
    (sent : ∀ a : Attempt, attemptOf pt = some a → bits <+: (sentBits a.frame).drop pt.assembly.bits.length) :
    ∃ rise pin, hearSlots (slotsOfBits pt.rate 100 bits) pt = some { pt with
      edge := pt.edge + bits.length * bitPeriod pt.rate, lastRise := rise, pin := pin
      assembly := { pt.assembly with bits := pt.assembly.bits ++ bits } } := by
  induction bits generalizing pt with
  | nil =>
    refine ⟨pt.lastRise, pt.pin, ?_⟩
    rw [List.length_nil, Nat.zero_mul, Nat.add_zero, List.append_nil]
    rfl
  | cons b bs ih =>
    rw [List.length_cons] at room
    obtain ⟨rise, pin, first⟩ := hearSlot_bit (pt := pt) (first := 100) (b := b) ⟨.inr ⟨rx, rfl⟩, between, by omega⟩ (fun a ha => by
      obtain ⟨tail, ht⟩ := sent a ha
      rw [← Nat.add_zero pt.assembly.bits.length, ← List.getElem?_drop, ← ht]
      rfl)
    have later : (pt.assembly.bits ++ [b]).length = pt.assembly.bits.length + 1 := by rw [List.length_append, List.length_singleton]
    obtain ⟨rise', pin', rest⟩ := ih { pt with
        rx := .bits, edge := pt.edge + 100 * bitPeriod pt.rate / 100, lastRise := rise, pin := pin
        assembly := { pt.assembly with bits := pt.assembly.bits ++ [b], inSlot := false } } rfl rfl
      (show (pt.assembly.bits ++ [b]).length + bs.length ≤ completionAt pt.assembly by omega)
      (fun a ha => by
        obtain ⟨tail, ht⟩ := sent a ha
        refine ⟨tail, ?_⟩
        show bs ++ tail = (sentBits a.frame).drop (pt.assembly.bits ++ [b]).length
        rw [later, ← List.drop_drop, ← ht]
        rfl)
    refine ⟨rise', pin', ?_⟩
    have edge : pt.edge + 100 * bitPeriod pt.rate / 100 + bs.length * bitPeriod pt.rate = pt.edge + (b :: bs).length * bitPeriod pt.rate := by
      rw [Nat.mul_div_cancel_left _ (by decide), List.length_cons, Nat.succ_mul,
        Nat.add_assoc, Nat.add_comm (bitPeriod pt.rate)]
    show (hearSlot ⟨100 * bitPeriod pt.rate / 100, bitLow pt.rate b⟩ pt).bind (hearSlots (slotsOfBits pt.rate 100 bs)) = _
    rw [first, Option.bind_some, rest]
    simp only [edge, rx, between, List.append_assoc, List.singleton_append]

/-- A frame's lead-in and its first bits are heard (R5, R6). -/
theorem hearSymbols_leadIn (pt : Port) (b : Bool) (bits : List Bool) (rx : pt.rx = .leadIn) (empty : pt.assembly = {})
    (room : bits.length < 17) (sent : ∀ a : Attempt, attemptOf pt = some a → b :: bits <+: sentBits a.frame) :
    ∃ rise pin, hearSymbols ⟨some (3 * bitPeriod pt.rate), slotsOfBits pt.rate 400 (b :: bits), none⟩ pt = some { pt with
      rx := .bits, edge := pt.edge + (4 + bits.length) * bitPeriod pt.rate, lastRise := rise, pin := pin
      assembly := { pt.assembly with bits := b :: bits } } := by
  have leadIn : hearLow (3 * bitPeriod pt.rate) pt = some { pt with rx := .gap, lastRise := pt.edge + 3 * bitPeriod pt.rate } := by
    rw [hearLow_leadIn _ rx]
    exact if_pos (isLeadIn_leadInLow pt.rate)
  obtain ⟨rise, pin, first⟩ := hearSlot_bit (first := 400) (b := b)
    (pt := { pt with rx := .gap, lastRise := pt.edge + 3 * bitPeriod pt.rate })
    ⟨.inl ⟨rfl, rfl⟩, by rw [empty], by rw [empty]; decide⟩ (fun a ha => by
      obtain ⟨tail, ht⟩ := sent a ha
      show (sentBits a.frame)[pt.assembly.bits.length]? = some b
      rw [empty, ← ht]
      rfl)
  obtain ⟨rise', pin', rest⟩ := hearSlots_bits bits { pt with
      rx := .bits, edge := pt.edge + 400 * bitPeriod pt.rate / 100, lastRise := rise, pin := pin
      assembly := { pt.assembly with bits := pt.assembly.bits ++ [b], inSlot := false } } rfl rfl
    (show (pt.assembly.bits ++ [b]).length + bits.length ≤ completionAt pt.assembly by
      rw [empty]
      show 1 + bits.length ≤ 17
      omega)
    (fun a ha => by
      obtain ⟨tail, ht⟩ := sent a ha
      show bits <+: (sentBits a.frame).drop (pt.assembly.bits ++ [b]).length
      rw [empty, ← ht]
      exact ⟨tail, rfl⟩)
  refine ⟨rise', pin', ?_⟩
  have edge : pt.edge + 400 * bitPeriod pt.rate / 100 + bits.length * bitPeriod pt.rate = pt.edge + (4 + bits.length) * bitPeriod pt.rate := by
    rw [show 400 * bitPeriod pt.rate = 100 * (4 * bitPeriod pt.rate) from Nat.mul_assoc 100 4 _, Nat.mul_div_cancel_left _ (by decide), Nat.add_mul, Nat.add_assoc]
  have slots : hearSlots (slotsOfBits pt.rate 400 (b :: bits)) { pt with rx := .gap, lastRise := pt.edge + 3 * bitPeriod pt.rate } =
      (hearSlot ⟨400 * bitPeriod pt.rate / 100, bitLow pt.rate b⟩ { pt with rx := .gap, lastRise := pt.edge + 3 * bitPeriod pt.rate }).bind
        (hearSlots (slotsOfBits pt.rate 100 bits)) := rfl
  rw [hearSymbols]
  dsimp only at first rest
  simp only [Option.elim_some, Option.elim_none, leadIn, Option.bind_some, slots, first, rest]
  simp only [edge, empty, List.nil_append, List.singleton_append]

/-! ### The windows of the edges and the lows (R4 to R6) -/

theorem hearLow_leadIn_isSome {pt : Port} (t : Ticks) (rx : pt.rx = .leadIn) :
    (hearLow t pt).isSome = true ↔ 260 * bitPeriod pt.rate ≤ 100 * t ∧ 100 * t ≤ 340 * bitPeriod pt.rate := by
  rw [hearLow_leadIn _ rx, ← atLeast_iff, ← atMost_iff, ← Bool.and_eq_true, ← isLeadIn]
  cases isLeadIn pt.rate t <;> simp

theorem hearEdge_listener_isSome {pt : Port} {first : Nat} (t : Ticks) (h : AwaitsBit pt first) (listens : isTalker pt = false) :
    (hearEdge t pt).isSome = true ↔
      (if pt.rx = .gap then 380 else 90) * bitPeriod pt.rate ≤ 100 * t ∧ 100 * t ≤ (if pt.rx = .gap then 440 else 130) * bitPeriod pt.rate := by
  have remain : slotsRemain pt.assembly = true := decide_eq_true h.room
  rw [hearEdge_between _ h.betweenLows h.not_slots, remain, edgeAccepted, listens, firstGapOk, slotGapOk, ← atLeast_iff, ← atMost_iff]
  split <;> simp

theorem hearLow_inside_isSome {pt : Port} (t : Ticks) (h : insideLow pt = true) :
    (hearLow t pt).isSome = true ↔ sampleAgrees t pt = true ∧ (ClassNames pt.rate t .bit1 ∨ ClassNames pt.rate t .bit0) := by
  rw [hearLow_inside _ h, ← bitOf?_isSome_iff]
  cases sampleAgrees t pt <;> simp

theorem sampleAgrees_talker {pt : Port} {a : Attempt} {sent : Bool} (t : Ticks) (rx : pt.rx = .bits) (talks : attemptOf pt = some a)
    (bit : (sentBits a.frame)[pt.assembly.bits.length]? = some sent) :
    sampleAgrees t pt = true ↔ (sent = true ↔ t ≤ samplePoint pt.rate) := by
  have own : talkerBit a pt.assembly.bits.length = sent := by rw [talkerBit, List.getD_eq_getElem?_getD, bit]; rfl
  simp only [sampleAgrees, talks, own, rx, bne_self_eq_false, Bool.false_or, beq_iff_eq]
  rw [Bool.eq_iff_iff, decide_eq_true_iff]

/-- A talker hears no other bit than the one it sends, since the sample point lies between the rows of the two bits (R8). -/
theorem hearLow_talker_isSome {pt : Port} {a : Attempt} {sent : Bool} (t : Ticks) (rx : pt.rx = .bits) (inSlot : pt.assembly.inSlot = true)
    (talks : attemptOf pt = some a) (bit : (sentBits a.frame)[pt.assembly.bits.length]? = some sent) :
    (hearLow t pt).isSome = true ↔ ClassNames pt.rate t (if sent then .bit1 else .bit0) := by
  have inside : insideLow pt = true := by rw [insideLow, rx, inSlot]; rfl
  rw [hearLow_inside_isSome t inside, sampleAgrees_talker t rx talks bit]
  cases pt.rate <;> cases sent <;> simp only [ClassNames, samplePoint, hundredths, bitPeriod, if_true, if_false, Bool.false_eq_true, true_iff, false_iff] <;>
    dsimp only [Ticks] <;> omega

theorem windows_of_edges_and_lows (pt : Port) (t : Ticks) :
    (pt.rx = .leadIn →
      ((hearLow t pt).isSome = true ↔ 260 * bitPeriod pt.rate ≤ 100 * t ∧ 100 * t ≤ 340 * bitPeriod pt.rate)) ∧
    (pt.rx = .gap → pt.assembly = {} → isTalker pt = false →
      ((hearEdge t pt).isSome = true ↔ 380 * bitPeriod pt.rate ≤ 100 * t ∧ 100 * t ≤ 440 * bitPeriod pt.rate)) ∧
    (pt.rx = .bits → pt.assembly.inSlot = false → pt.assembly.bits.length < completionAt pt.assembly →
      isTalker pt = false →
      ((hearEdge t pt).isSome = true ↔ 90 * bitPeriod pt.rate ≤ 100 * t ∧ 100 * t ≤ 130 * bitPeriod pt.rate)) ∧
    ((pt.rx = .bits ∧ isTalker pt = false) ∨ pt.rx = .slots → pt.assembly.inSlot = true →
      ((hearLow t pt).isSome = true ↔
        (15 * bitPeriod pt.rate ≤ 100 * t ∧ 100 * t ≤ 40 * bitPeriod pt.rate) ∨
        (48 * bitPeriod pt.rate ≤ 100 * t ∧ 100 * t ≤ 75 * bitPeriod pt.rate))) ∧
    (∀ (a : Attempt) (sent : Bool), pt.rx = .bits → pt.assembly.inSlot = true → attemptOf pt = some a →
      (sentBits a.frame)[pt.assembly.bits.length]? = some sent →
      ((hearLow t pt).isSome = true ↔
        if sent then 15 * bitPeriod pt.rate ≤ 100 * t ∧ 100 * t ≤ 40 * bitPeriod pt.rate
        else 48 * bitPeriod pt.rate ≤ 100 * t ∧ 100 * t ≤ 75 * bitPeriod pt.rate)) := by
  refine ⟨hearLow_leadIn_isSome t, fun rx empty listens => ?_, fun rx between room listens => ?_, fun place inSlot => ?_,
    fun a sent rx inSlot talks bit => ?_⟩
  · have awaits : AwaitsBit pt 400 := ⟨.inl ⟨rx, rfl⟩, by rw [empty], by rw [empty]; decide⟩
    rw [hearEdge_listener_isSome t awaits listens, if_pos rx, if_pos rx]
  · have no : ¬ pt.rx = .gap := by rw [rx]; decide
    have awaits : AwaitsBit pt 100 := ⟨.inr ⟨rx, rfl⟩, between, room⟩
    rw [hearEdge_listener_isSome t awaits listens, if_neg no, if_neg no]
  · have inside : insideLow pt = true := by
      rw [insideLow, inSlot]
      rcases place with ⟨rx, -⟩ | rx <;> rw [rx] <;> rfl
    have agrees : sampleAgrees t pt = true := by
      rcases place with ⟨-, listens⟩ | rx
      · rw [isTalker, Option.isSome_eq_false_iff, Option.isNone_iff_eq_none] at listens
        rw [sampleAgrees, listens]
      · unfold sampleAgrees
        rw [rx]
        cases attemptOf pt <;> rfl
    rw [hearLow_inside_isSome t inside, and_iff_right agrees]
    rfl
  · rw [hearLow_talker_isSome t rx inSlot talks bit]
    cases sent <;> rfl

/-! ### What the port drives at the edge of a bit slot (R3, R7, R24) -/

/-- A talker drives its bit from the edge, and is due to drive the next one 1.0 Tb later. -/
theorem pinAtEdge_talker {pt : Port} {a : Attempt} {sent : Bool} (fall : Ticks) (talks : attemptOf pt = some a)
    (bit : (sentBits a.frame)[pt.assembly.bits.length]? = some sent) :
    pinAtEdge pt fall = pt.pin.dropLast ++ [⟨.bit, fall, fall + (if sent then 25 else 60) * bitPeriod pt.rate / 100⟩,
      ⟨.bit, fall + bitPeriod pt.rate, fall + bitPeriod pt.rate +
        (if (sentBits a.frame)[pt.assembly.bits.length + 1]? = some false then 60 else 25) * bitPeriod pt.rate / 100⟩] := by
  have own : talkerBit a pt.assembly.bits.length = sent := by rw [talkerBit, List.getD_eq_getElem?_getD, bit]; rfl
  have due : pt.assembly.bits.length + 1 < frameSlots a.frame.payload.length := by
    have := (List.getElem?_eq_some_iff.mp bit).1
    rw [sentBits_length] at this
    rw [frameSlots]
    omega
  have next : (if talkerBit a (pt.assembly.bits.length + 1) then 25 else 60) =
      if (sentBits a.frame)[pt.assembly.bits.length + 1]? = some false then 60 else 25 := by
    rw [talkerBit, List.getD_eq_getElem?_getD]
    rcases (sentBits a.frame)[pt.assembly.bits.length + 1]? with _ | _ | _ <;> rfl
  simp only [pinAtEdge, talks, talkerNext, due, if_true, talkerLow, own, bitLow, hundredths, next]

/-- The response slots come after the last check bit. -/
theorem slots_after_check {pt : Port} (room : pt.assembly.bits.length < completionAt pt.assembly) (check : pt.assembly.checkGood = none) :
    atAcceptSlot pt.assembly = false ∧ atRefuseSlot pt.assembly = false := by
  unfold completionAt at room
  unfold atAcceptSlot atRefuseSlot slotsOf?
  cases hc : pt.assembly.control with
  | none => exact ⟨rfl, rfl⟩
  | some c =>
    cases hh : pt.assembly.header with
    | none => simp only [hh, headerBits] at room; simp only [Option.map_some, beq_eq_false_iff_ne, ne_eq, Option.some.injEq, frameSlots]; omega
    | some h =>
      simp only [hh, hc, check, Option.isNone_none, if_true, frameSlots] at room
      simp only [Option.map_some, beq_eq_false_iff_ne, ne_eq, Option.some.injEq, frameSlots]
      omega

theorem pinAtEdge_listener {pt : Port} (fall : Ticks) (listens : isTalker pt = false)
    (room : pt.assembly.bits.length < completionAt pt.assembly) (check : pt.assembly.checkGood = none) : pinAtEdge pt fall = pt.pin := by
  rw [isTalker, Option.isSome_eq_false_iff, Option.isNone_iff_eq_none] at listens
  obtain ⟨noAccept, noRefuse⟩ := slots_after_check room check
  simp [pinAtEdge, listens, noAccept, noRefuse]

theorem hearLow_pin {pt q : Port} {low : Ticks} (h : hearLow low pt = some q) : q.pin = pt.pin := by
  unfold hearLow at h
  split_ifs at h
  · cases h; rfl
  · obtain ⟨bit, -, rfl⟩ := Option.map_eq_some_iff.mp h
    rfl

theorem hearEdge_accepted {pt : Port} {gap : Ticks} {first : Nat} (h : AwaitsBit pt first) (accepted : edgeAccepted pt gap = true) :
    hearEdge gap pt = some { pt with
      rx := .bits, edge := pt.edge + gap, assembly := { pt.assembly with inSlot := true }, pin := pinAtEdge pt (pt.edge + gap) } := by
  have bits : (if pt.rx = .gap then RxState.bits else pt.rx) = .bits := by
    rcases h.place with ⟨e, -⟩ | ⟨e, -⟩ <;> rw [e] <;> rfl
  have remain : slotsRemain pt.assembly = true := decide_eq_true h.room
  rw [hearEdge_between _ h.betweenLows h.not_slots, accepted, remain, beginSlot, bits]
  rfl

/-- Settles O18. -/
theorem segmentFieldsRoundTrip : Obligations.SegmentFieldsRoundTrip := by
  refine ⟨fun pt b bits rx empty room sent => ?_, fun pt bits rx between room sent => ?_, windows_of_edges_and_lows, ?_, ?_,
    headerOfBits_headerBitsOf, controlOfBits_controlBitsOf, octetsOfBits_octetBits⟩
  · obtain ⟨rise, pin, heard⟩ := hearSymbols_leadIn pt b bits rx empty room sent
    exact ⟨_, heard, rfl⟩
  · obtain ⟨rise, pin, heard⟩ := hearSlots_bits bits pt rx between room sent
    have whole : hearSymbols ⟨none, slotsOfBits pt.rate 100 bits, none⟩ pt = hearSlots (slotsOfBits pt.rate 100 bits) pt :=
      Option.bind_fun_some _
    exact ⟨_, whole.trans heard, rfl⟩
  · rintro pt gap fall k rfl rfl
    refine ⟨fun a sent talks bit place => ?_, fun listens place => ?_, fun low q heard => hearLow_pin heard⟩
    · have talker : isTalker pt = true := by rw [isTalker, talks]; rfl
      rw [← pinAtEdge_talker (pt.edge + gap) talks bit]
      rcases place with ⟨rx, empty, above, own⟩ | ⟨rx, between, room, above, own⟩
      · refine hearEdge_accepted (first := 400) ⟨.inl ⟨rx, rfl⟩, by rw [empty], by rw [empty]; decide⟩ ?_
        rw [edgeAccepted, if_pos rx, talker, firstGapOk]
        simp only [Bool.and_eq_true, atLeast_iff, atMost_iff, Bool.not_true, Bool.false_or]
        dsimp only [Ticks] at *
        omega
      · have no : ¬ pt.rx = .gap := by rw [rx]; decide
        refine hearEdge_accepted (first := 100) ⟨.inr ⟨rx, rfl⟩, between, room⟩ ?_
        rw [edgeAccepted, if_neg no, talker, slotGapOk]
        simp only [Bool.and_eq_true, atLeast_iff, atMost_iff, Bool.not_true, Bool.false_or]
        dsimp only [Ticks] at *
        omega
    · rcases place with ⟨rx, empty, above, below⟩ | ⟨rx, between, room, check, above, below⟩
      · have awaits : AwaitsBit pt 400 := ⟨.inl ⟨rx, rfl⟩, by rw [empty], by rw [empty]; decide⟩
        rw [hearEdge_accepted awaits, pinAtEdge_listener _ listens awaits.room (by rw [empty])]
        rw [edgeAccepted, if_pos rx, listens, firstGapOk, atLeast, atMost, decide_eq_true above, decide_eq_true below]
        rfl
      · have no : ¬ pt.rx = .gap := by rw [rx]; decide
        have awaits : AwaitsBit pt 100 := ⟨.inr ⟨rx, rfl⟩, between, room⟩
        rw [hearEdge_accepted awaits, pinAtEdge_listener _ listens room check]
        rw [edgeAccepted, if_neg no, listens, slotGapOk, atLeast, atMost, decide_eq_true above, decide_eq_true below]
        rfl
  · intro pt q low edge before after short heard between brief
    obtain ⟨closed, hc, heard⟩ := Option.bind_eq_some_iff.mp heard
    obtain ⟨read, hr, heard⟩ := Option.bind_eq_some_iff.mp heard
    have rate : q.rate = pt.rate := (hearSymbols_frame (sy := ⟨low, before, none⟩) (by rw [hearSymbols, hc, Option.bind_some, hr]; exact heard)).rate
    cases heard
    have passed : hearSlot short q = some q := hearSlot_short between (by rw [rate]; exact brief)
    rw [hearSymbols, hearSymbols, hc]
    simp only [Option.bind_some, hearSlots_append, hr, hearSlots, passed]

end Sys2Proof.Machine
end

