-- ==== Sys2Proof/Proofs/FieldCompletions.lean ====
section
/-! PROOFS. The completion points of a frame in reception: header, control and check, the end of another talker's frame, and the
confirmation of what was admitted (R31, R42 to R51, R122). -/

-- One theorem after another: many at once need a thread each.
set_option Elab.async false

namespace Sys2Proof.Machine

/-! ### A port that has heard symbols, and reads a field of them -/

/-- A change of a port's record, but not of the edges that its receiver has heard. -/
theorem modPort_withHeard {p : SegPort} {f : Port → Port} {pt : Port} {s : State} (edge : (f pt).edge = pt.edge)
    (rise : (f pt).lastRise = pt.lastRise) : modPort p f (withHeard p pt s) = withHeard p (f pt) s := by
  simp only [withHeard, modPort, modAt_modAt, edge, rise]
  rfl

theorem withHeard_isTalker {p : SegPort} {sy : Symbols} {s : State} {pt : Port} (h : Hears p sy s pt) :
    isTalker pt = isTalker s.ports[p] := (hearSymbols_frame h.2).isTalker

/-- Settles O19. -/
theorem headerCompletionTakesHeader : Obligations.HeaderCompletionTakesHeader := by
  rintro p low slots h s rfl header
  refine ⟨fun none => ?_, fun pt read hears hread => ?_⟩
  · show execHeaderCompletion p low slots s = _
    rw [execHeaderCompletion, header, hearOn_none none]
  · have taken : modAssembly p (fun a => { a with header := some (headerOfBits pt.assembly.bits) }) (withHeard p pt s) = read := by
      rw [hread, modAssembly, modPort_withHeard rfl rfl]
    have talks : isTalker read.ports[p] = isTalker s.ports[p] := by
      rw [← withHeard_isTalker hears, hread, withHeard_port]
      rfl
    have run : exec (.headerCompletion p low slots) s =
        if pt.assembly.bits.length = 17 then
          if (headerOfBits pt.assembly.bits).source.val < 120 then .next read
          else .next (settle (frameError p .rxFormatErrors (heardAt pt) read))
        else .next (withHeard p pt s) := by
      show execHeaderCompletion p low slots s = _
      rw [execHeaderCompletion, header, hearOn_of_hears hears]
      dsimp only
      rw [withHeard_port, taken]
      rfl
    refine ⟨fun short => by rw [run, if_neg short], fun full => ?_⟩
    rw [run, if_pos full]
    refine ⟨fun named => by rw [if_pos named], fun beyond => ?_⟩
    rw [if_neg (Nat.not_lt.mpr beyond)]
    exact ⟨fun listens => by rw [frameError_listener _ _ _ _ (talks.trans listens)]; rfl,
      fun talker => by rw [frameError_talker _ _ _ _ (talks.trans talker)]; rfl⟩

/-- Settles O20. -/
theorem controlCompletionBindsDecision : Obligations.ControlCompletionBindsDecision := by
  rintro p sy h pt c s read header control hears hc hread
  have taken : modAssembly p (fun a => { a with control := some c }) (withHeard p pt s) = read := by
    rw [hread, modAssembly, modPort_withHeard rfl rfl]
  have talks : isTalker read.ports[p] = isTalker s.ports[p] := by
    rw [← withHeard_isTalker hears, hread, withHeard_port]
    rfl
  have run : exec (.controlCompletion p sy) s =
      if pt.assembly.bits.length = 25 then
        if 12 < c.length then .next (settle (frameError p .rxFormatErrors (heardAt pt) read))
        else if isTalker s.ports[p] then .next read
        else .next (modAssembly p (fun a => { a with decision := some (segmentLookup p (assembledFrame h c []) read).1 })
          (segmentLookup p (assembledFrame h c []) read).2)
      else .next (withHeard p pt s) := by
    show execControlCompletion p sy s = _
    rw [execControlCompletion, header, control, hearOn_of_hears hears]
    dsimp only
    rw [withHeard_port, withHeard_isTalker hears, show controlOfBits (pt.assembly.bits.drop headerBits) = c from hc.symm, taken]
    rfl
  refine ⟨fun short => by rw [run, if_neg short], fun full => ?_⟩
  rw [run, if_pos full]
  refine ⟨fun fits talker => ?_, fun fits listens => ?_, fun beyond listens => ?_, fun beyond talker => ?_⟩
  · rw [if_neg (Nat.not_lt.mpr fits), if_pos talker]
  · rw [if_neg (Nat.not_lt.mpr fits), if_neg (by rw [listens]; exact Bool.false_ne_true)]
    rfl
  · rw [if_pos beyond, frameError_listener _ _ _ _ (talks.trans listens)]
    rfl
  · rw [if_pos beyond, frameError_talker _ _ _ _ (talks.trans talker)]
    rfl

/-! ### Check completion (R44, R46, R49 to R51, R99) -/

theorem nodePresent_unblocks {p : SegPort} {source : Address} {s : State} {i : Fin 120} (named : source.val = i.val)
    (blocked : s.nodes.entries[i].blocked = true) (here : s.nodes.entries[i].location = .seg p) :
    nodePresent p source s = { s with nodes := { s.nodes with entries := s.nodes.entries.set i ⟨.seg p, 0, false⟩ } } := by
  have index : nodeIndex? source = some i := by rw [nodeIndex?, dif_pos (named ▸ i.isLt)]; exact congrArg some (Fin.ext named)
  unfold nodePresent
  simp only [index, modNode, modAt, blocked, here, beq_self_eq_true, Bool.and_self, if_true]

theorem nodePresent_else {p : SegPort} {source : Address} {s : State}
    (h : ∀ i : Fin 120, source.val = i.val → s.nodes.entries[i].blocked = false ∨ s.nodes.entries[i].location ≠ .seg p) :
    nodePresent p source s = s := by
  unfold nodePresent
  cases index : nodeIndex? source with
  | none => rfl
  | some i =>
    have stays : (s.nodes.entries[i].blocked && s.nodes.entries[i].location == Location.seg p) = false := by
      rcases h i (val_of_nodeIndex?_eq_some index) with e | e
      · rw [e, Bool.false_and]
      · rw [beq_false_of_ne e, Bool.and_false]
    simp only [modNode, modAt, stays, Bool.false_eq_true, if_false]
    simp only [Fin.getElem_fin, Vector.set_getElem_self]

theorem answerOf_eq (dest : Address) (d : Decision) (adm : Admission) :
    answerOf dest d adm = if d.mode = .custody ∧ adm.result = .all ∧ dest.val < 120 ∧ d.egress ≠ 0 then .accept
      else if d.mode = .custody ∧ adm.result = .none then .refuse else .silent := by
  unfold answerOf
  by_cases custody : d.mode = .custody <;> cases adm.result <;> simp [custody]

/-- Settles O22. -/
theorem checkCompletionActs : Obligations.CheckCompletionActs := by
  refine ⟨?_, fun p source s => ⟨fun i => nodePresent_unblocks, nodePresent_else⟩⟩
  rintro p sy h c pt bits s read f good header control unchecked hears rfl rfl hgood hread
  have frame := hearSymbols_frame hears.2
  have payload : payloadOf c.length pt.assembly.bits = octetsOfBits c.length (pt.assembly.bits.drop 25) := rfl
  have taken : setRx p .slots (modAssembly p (fun a =>
      { a with
        payload := octetsOfBits c.length (pt.assembly.bits.drop 25)
        check := some (BitVec.ofNat 8 (natOfBits ((pt.assembly.bits.drop 25).drop (8 * c.length)))), checkGood := some good })
      (withHeard p pt s)) = read := by
    rw [hread, modAssembly, modPort_withHeard rfl rfl, setRx, modPort_withHeard rfl rfl]
  have run : exec (.checkCompletion p sy) s =
      if atAcceptSlot pt.assembly = true then
        if isTalker s.ports[p] = true then .next read
        else if good = false then .next (countPort p .rxCheckErrors 1 (modAssembly p (fun a => { a with answer := .refuse }) read))
        else match s.ports[p].assembly.decision with
          | some d => .next (goodCheck p ⟨h.priority, h.dest, h.source, c.service, octetsOfBits c.length (pt.assembly.bits.drop 25)⟩ d read)
          | none => .next read
      else .next (withHeard p pt s) := by
    show execCheckCompletion p sy s = _
    rw [execCheckCompletion, header, control, unchecked, hearOn_of_hears hears]
    dsimp only
    rw [withHeard_port, withHeard_isTalker hears, checkOf_eq, payload, frame.decision]
    rw [assembledFrame, ← hgood, taken]
    cases good <;> rfl
  have talks : (isTalker s.ports[p] = false) → ¬ isTalker s.ports[p] = true := fun e => by rw [e]; exact Bool.false_ne_true
  have slot := atAcceptSlot_iff pt.assembly c (frame.control.trans control)
  refine ⟨fun short => by rw [run, if_neg (mt slot.mp short)], fun full => ?_⟩
  rw [run, if_pos (slot.mpr full)]
  refine ⟨fun talker => if_pos talker, fun listens bad => ?_, fun d listens checked bound misplaced => ?_,
    fun d adm admitted listens checked bound placed hadm => ?_⟩
  · rw [if_neg (talks listens), if_pos bad]
    rfl
  · rw [if_neg (talks listens), checked, if_neg Bool.noConfusion, bound]
    dsimp only
    rw [goodCheck, if_pos misplaced]
  · rw [if_neg (talks listens), checked, if_neg Bool.noConfusion, bound]
    dsimp only
    rw [goodCheck, if_neg (by rw [placed]; exact Bool.false_ne_true), hadm]
    simp only [answerOf_eq]
    split <;> rfl

/-! ### The end of another talker's frame (R42, R43, R47) -/

theorem endFrame_eq (p : SegPort) (early : Bool) (t : Ticks) (s : State) :
    endFrame p early t s = modPort p (fun q => { q with
      rx := if early then .leadIn else .idle
      edge := if early then t else q.edge
      pin := if early then [] else q.pin
      idleStart := t, assembly := {}, due := true }) (advance t s) := by
  rw [endFrame, makeDue, modPort_modPort]
  rfl

/-- Settles O23. -/
theorem endOfFrameConfirms : Obligations.EndOfFrameConfirms := by
  intro p sy early pt s rx listens hears
  have run : exec (.endOfFrame p ⟨sy, early⟩) s =
      match frameEnd? early pt with
      | none => .next (withHeard p pt s)
      | some at' =>
        let good := if pt.assembly.checkGood = some true then countPort p .rxGood 1 (withHeard p pt s) else withHeard p pt s
        .next (settle (endFrame p early.isSome at' (confirm p (if wasAdmitted pt then countPort p .ingressAdmitted 1 good else good)))) := by
    show execEndOfFrame p ⟨sy, early⟩ s = _
    rw [execEndOfFrame, if_pos ⟨rx, listens⟩]
    dsimp only
    rw [hearOn_of_hears hears]
    dsimp only
    rw [withHeard_port, wasAdmitted]
    cases frameEnd? early pt with
    | none => rfl
    | some at' =>
      cases pt.assembly.admission with
      | none => rfl
      | some adm => simp only [Bool.or_eq_true, beq_iff_eq]
  refine ⟨fun at' ends => ?_, fun none => ?_⟩
  · rw [run, (frameEnd_eq_some early pt at').mpr ends]
    dsimp only
    rw [endFrame_eq]
    split_ifs <;> rfl
  · have still : frameEnd? early pt = Option.none := by
      cases ends : frameEnd? early pt with
      | none => rfl
      | some at' => exact absurd ((frameEnd_eq_some early pt at').mp ends) (none at')
    rw [run, still]

/-! ### Confirmation (R116, R122) -/

theorem makeDueQueue_pool (q : PortId) (s : State) : (makeDueQueue q s).pool = s.pool := by
  unfold makeDueQueue
  split <;> rfl

theorem joinTail_pool (q : PortId) (r : Ref) (s : State) :
    (joinTail q r s).pool = (modQueue q (fun Q => { Q with lanes := modAt Q.lanes (slotOf r s).priority (· ++ [r]) }) s).pool :=
  makeDueQueue_pool _ _

/-- References to one frame join the lane of its egress priority one after another. -/
theorem foldl_joinTail_pool (q : PortId) (i : SlotId) (refs : List Ref) (s : State) (own : ∀ r ∈ refs, r.slot = i) :
    (refs.foldl (fun t r => joinTail q r t) s).pool =
      (modQueue q (fun Q => { Q with lanes := modAt Q.lanes s.pool.slots[i].priority (· ++ refs) }) s).pool := by
  induction refs generalizing s with
  | nil =>
    have same : modQueue q (fun Q => { Q with lanes := modAt Q.lanes s.pool.slots[i].priority (· ++ []) }) s = s := by
      apply modQueue_of_same
      simp [modAt]
    rw [same]
    rfl
  | cons r refs ih =>
    rw [List.foldl_cons, ih _ fun x hx => own x (.tail _ hx)]
    have slots : (joinTail q r s).pool.slots = s.pool.slots := by rw [joinTail_pool]; rfl
    have slot : slotOf r s = s.pool.slots[i] := by simp only [slotOf, own r (.head _)]
    have moved : ∀ (f : Queue → Queue) (t u : State), t.pool = u.pool → (modQueue q f t).pool = (modQueue q f u).pool := by
      intro f t u h
      simp only [modQueue_pool, h]
    rw [slots, moved _ _ _ (joinTail_pool q r s), modQueue_modQueue, slot]
    simp only [modQueue_pool, Function.comp_def, modAt_modAt, List.append_assoc, List.singleton_append]

theorem modQueue_congr {q : PortId} {f g : Queue → Queue} {s : State} (h : f s.pool.queues[q] = g s.pool.queues[q]) :
    modQueue q f s = modQueue q g s := by
  simp only [modQueue, modPool, modAt, h]

/-- What confirmation makes of a queue in which no pending reference to the frame is marked. -/
def confirmedQueue (i : SlotId) (lane : Priority) (Q : Queue) : Queue :=
  { Q with
    pending := Q.pending.filter fun r => !(r.slot == i)
    lanes := modAt Q.lanes lane (· ++ Q.pending.filter (·.slot == i)) }

/-- A pending reference that is confirmed joins its lane, or is removed with the reason of its mark. -/
def confirmRef (q : PortId) (s : State) (r : Ref) : State :=
  match r.mark with
  | none => joinTail q r s
  | some m => discardRef q r m.reason s

theorem confirmQueue_eq (i : SlotId) (q : PortId) (s : State) : confirmQueue i s q =
    (s.pool.queues[q].pending.filter (·.slot == i)).foldl (confirmRef q)
      (modQueue q (fun Q => { Q with pending := Q.pending.filter fun r => !(r.slot == i) }) s) := rfl

theorem confirmQueue_unmarked (i : SlotId) (q : PortId) (s : State)
    (unmarked : ∀ r ∈ s.pool.queues[q].pending, r.slot = i → r.mark = none) :
    (confirmQueue i s q).pool = (modQueue q (confirmedQueue i s.pool.slots[i].priority) s).pool := by
  have joins : ∀ (refs : List Ref) (t : State), (∀ r ∈ refs, r.mark = none) →
      refs.foldl (confirmRef q) t = refs.foldl (fun t r => joinTail q r t) t := by
    intro refs t h
    exact List.foldl_ext _ _ _ fun u r hr => by rw [confirmRef, h r hr]
  have refs : ∀ r ∈ s.pool.queues[q].pending.filter (·.slot == i), r.slot = i := fun r hr => by simpa using List.of_mem_filter hr
  have clear : ∀ r ∈ s.pool.queues[q].pending.filter (·.slot == i), r.mark = none :=
    fun r hr => unmarked r (List.mem_of_mem_filter hr) (refs r hr)
  rw [confirmQueue_eq, joins _ _ clear, foldl_joinTail_pool q i _ _ refs, modQueue_modQueue]
  exact congrArg State.pool (modQueue_congr rfl)

/-- In every queue, in turn. -/
theorem foldl_confirmQueue (i : SlotId) (qs : List PortId) (distinct : qs.Nodup) (s : State)
    (unmarked : ∀ q : PortId, ∀ r ∈ s.pool.queues[q].pending, r.slot = i → r.mark = none) :
    (qs.foldl (confirmQueue i) s).pool.slots = s.pool.slots ∧
    ∀ q : PortId, (qs.foldl (confirmQueue i) s).pool.queues[q] =
      if q ∈ qs then confirmedQueue i s.pool.slots[i].priority s.pool.queues[q] else s.pool.queues[q] := by
  induction qs generalizing s with
  | nil => exact ⟨rfl, fun q => by simp⟩
  | cons q qs ih =>
    have pool := confirmQueue_unmarked i q s (unmarked q)
    have slots : (confirmQueue i s q).pool.slots = s.pool.slots := by rw [pool]; rfl
    have queue : ∀ q' : PortId, (confirmQueue i s q).pool.queues[q'] =
        if q' = q then confirmedQueue i s.pool.slots[i].priority s.pool.queues[q'] else s.pool.queues[q'] := by
      intro q'
      rw [pool, modQueue_pool, getElem_modAt_fin]
    obtain ⟨allSlots, allQueues⟩ := ih (List.nodup_cons.mp distinct).2 (confirmQueue i s q) (fun q' r hr => by
      rw [queue] at hr
      split at hr
      · exact unmarked q' r (List.mem_of_mem_filter hr)
      · exact unmarked q' r hr)
    refine ⟨allSlots.trans slots, fun q' => ?_⟩
    rw [List.foldl_cons, allQueues, queue, slots]
    by_cases own : q' = q
    · rw [if_pos own, if_neg (own ▸ (List.nodup_cons.mp distinct).1), if_pos (own ▸ List.mem_cons_self)]
    · rw [if_neg own]
      simp only [List.mem_cons, own, false_or]

theorem joinTail_eq (q : PortId) (r : Ref) (s : State) :
    joinTail q r s = makeDueQueue q { s with pool := { s.pool with queues := s.pool.queues.set q { s.pool.queues[q] with
      lanes := s.pool.queues[q].lanes.set (slotOf r s).priority
        (s.pool.queues[q].lanes[(slotOf r s).priority] ++ [r]) } } } := rfl

theorem makeDueQueue_trunk (s : State) : makeDueQueue trunkPort s = s := rfl

theorem makeDueQueue_port (p : SegPort) (s : State) : makeDueQueue p.port s = makeDue p s := by
  rw [makeDueQueue, segOf?_port]

/-- Settles O24. -/
theorem confirmationJoinsLanes : Obligations.ConfirmationJoinsLanes := by
  refine ⟨fun p i s admitted => by rw [confirm, admitted], ?_, fun p i s admitted unmarked => ?_, ?_⟩
  · rintro i q before after r s rest pending own others rfl
    have mine : s.pool.queues[q].pending.filter (fun x => x.slot == i) = [r] := by
      have none : ∀ l, l ⊆ before ++ after → l.filter (fun x => x.slot == i) = [] := fun l sub => by
        rw [List.filter_eq_nil_iff]
        exact fun x hx => by simpa using others x (sub hx)
      rw [pending, List.filter_append, List.filter_cons, none before (List.subset_append_left _ _),
        none after (List.subset_append_right _ _), own, beq_self_eq_true]
      rfl
    have kept : s.pool.queues[q].pending.filter (fun x => !(x.slot == i)) = before ++ after := by
      have all : ∀ l, l ⊆ before ++ after → l.filter (fun x => !(x.slot == i)) = l := fun l sub => by
        rw [List.filter_eq_self]
        exact fun x hx => by simpa using others x (sub hx)
      rw [pending, List.filter_append, List.filter_cons, all before (List.subset_append_left _ _),
        all after (List.subset_append_right _ _), own, beq_self_eq_true]
      rfl
    have rest : modQueue q (fun Q => { Q with pending := Q.pending.filter fun x => !(x.slot == i) }) s =
        modQueue q (fun Q => { Q with pending := before ++ after }) s := modQueue_congr (by rw [kept])
    refine ⟨fun unmarked => ?_, fun m marked => ?_⟩
    · rw [confirmQueue_eq, mine, rest, List.foldl_cons, confirmRef, unmarked]
      rfl
    · rw [confirmQueue_eq, mine, rest, List.foldl_cons, confirmRef, marked]
      rfl
  · rw [confirm, admitted]
    dsimp only
    obtain ⟨slots, queues⟩ := foldl_confirmQueue i allPorts (by decide)
      (modSlot i (fun sl => { sl with custody := s.ports[p].assembly.answer == .accept }) s) unmarked
    have everywhere : ∀ q : PortId, q ∈ allPorts := by decide
    have priority : (modSlot i (fun sl => { sl with custody := s.ports[p].assembly.answer == .accept }) s).pool.slots[i].priority =
        s.pool.slots[i].priority := by
      rw [modSlot_pool]
      dsimp only
      rw [getElem_modAt_fin, if_pos rfl]
    refine ⟨?_, fun q => ?_⟩
    · rw [slots, modSlot_pool]
      dsimp only
      rw [getElem_modAt_fin, if_pos rfl]
    · rw [queues, if_pos (everywhere q), priority, modSlot_pool]
      refine ⟨rfl, fun lane => ?_⟩
      dsimp only [confirmedQueue]
      rw [getElem_modAt_fin]
      split_ifs
      · rfl
      · rw [List.append_nil]
  · rintro q r s queued rfl
    refine ⟨?_, ?_⟩
    · rintro rfl
      rw [joinTail_eq, makeDueQueue_trunk]
    · rintro p rfl
      rw [joinTail_eq, makeDueQueue_port]
      rfl

end Sys2Proof.Machine
end

