-- ==== Sys2Proof/Proofs/Thinning.lean ====
section
/-! PROOFS. What selection and the sweeps can do to a queue: references leave lanes and are marked, and no more. -/

-- One theorem after another: many at once need a thread each.
set_option Elab.async false

namespace Sys2Proof.Machine

/-- A reference that is the same but for a mark that it may have got (R60, R122). -/
def MarkedFrom (r r' : Ref) : Prop := r' = { r with mark := r'.mark } ∧ (r.mark ≠ none → r'.mark = r.mark)

theorem MarkedFrom.refl (r : Ref) : MarkedFrom r r := ⟨rfl, fun _ => rfl⟩

theorem MarkedFrom.trans {a b c : Ref} (x : MarkedFrom a b) (y : MarkedFrom b c) : MarkedFrom a c :=
  ⟨by rw [y.1, x.1], fun h => by
    have first := x.2 h
    rw [y.2 (by rw [first]; exact h), first]⟩

theorem MarkedFrom.slot {a b : Ref} (x : MarkedFrom a b) : b.slot = a.slot := by rw [x.1]

theorem MarkedFrom.kind {a b : Ref} (x : MarkedFrom a b) : b.kind = a.kind := by rw [x.1]

theorem markedFrom_markedIf (hit : Ref → Bool) (m : Mark) (r : Ref) : MarkedFrom r (markedIf hit m r) := by
  unfold markedIf
  split
  next h =>
    rw [Bool.and_eq_true, Option.isNone_iff_eq_none] at h
    exact ⟨rfl, fun marked => absurd h.2 marked⟩
  · exact .refl r

theorem forall₂_markedFrom_refl (l : List Ref) : List.Forall₂ MarkedFrom l l := List.forall₂_same.mpr fun r _ => .refl r

theorem forall₂_markedFrom_trans {a b c : List Ref} (x : List.Forall₂ MarkedFrom a b) (y : List.Forall₂ MarkedFrom b c) :
    List.Forall₂ MarkedFrom a c := by
  induction x generalizing c with
  | nil => exact y
  | cons h _ ih =>
    cases y with
    | cons k ks => exact .cons (h.trans k) (ih ks)

/-- A queue that has lost references from its lanes, and in which references have been marked. -/
structure Thinned (Q Q' : Queue) : Prop where
  pending : List.Forall₂ MarkedFrom Q.pending Q'.pending
  lanes : ∀ lane : Priority, Q'.lanes[lane].Sublist Q.lanes[lane]
  holder : Option.Rel MarkedFrom Q.holder Q'.holder

theorem Thinned.refl (Q : Queue) : Thinned Q Q where
  pending := forall₂_markedFrom_refl _
  lanes := fun _ => List.Sublist.refl _
  holder := by cases Q.holder with
    | none => exact .none
    | some r => exact .some (.refl r)

theorem Thinned.trans {a b c : Queue} (x : Thinned a b) (y : Thinned b c) : Thinned a c where
  pending := forall₂_markedFrom_trans x.pending y.pending
  lanes := fun lane => (y.lanes lane).trans (x.lanes lane)
  holder := by
    have first := x.holder
    have second := y.holder
    revert first second
    generalize a.holder = ha
    generalize b.holder = hb
    generalize c.holder = hc
    rintro (h | _) (k | _)
    · exact .some (h.trans k)
    · exact .none

theorem exists_markedFrom {l l' : List Ref} (h : List.Forall₂ MarkedFrom l l') {r' : Ref} (mem : r' ∈ l') :
    ∃ r ∈ l, MarkedFrom r r' := by
  induction h with
  | nil => cases mem
  | cons x _ ih =>
    rcases List.mem_cons.mp mem with rfl | mem
    · exact ⟨_, List.mem_cons_self, x⟩
    · obtain ⟨r, hr, x⟩ := ih mem
      exact ⟨r, .tail _ hr, x⟩

/-- Every queue is thinned. -/
def Thins (s t : State) : Prop := ∀ q : PortId, Thinned s.pool.queues[q] t.pool.queues[q]

theorem Thins.refl (s : State) : Thins s s := fun _ => .refl _

theorem Thins.trans {s t u : State} (a : Thins s t) (b : Thins t u) : Thins s u := fun q => (a q).trans (b q)

theorem Thins.of_queues {s t : State} (h : t.pool.queues = s.pool.queues) : Thins s t := fun q => by rw [h]; exact .refl _

theorem thins_modQueue (q : PortId) {f : Queue → Queue} (s : State) (h : Thinned s.pool.queues[q] (f s.pool.queues[q])) :
    Thins s (modQueue q f s) := by
  intro other
  by_cases e : other = q
  · subst e
    rw [modQueue_same]
    exact h
  · rw [modQueue_other _ _ e]
    exact .refl _

/-! ### The operations -/

variable (s : State)

theorem markPending_thins (q : PortId) (hit : Ref → Bool) (m : Mark) : Thins s (markPending q hit m s) := by
  refine thins_modQueue q s ⟨?_, fun _ => List.Sublist.refl _, (Thinned.refl _).holder⟩
  show List.Forall₂ MarkedFrom _ (s.pool.queues[q].pending.map (markedIf hit m))
  rw [List.forall₂_map_right_iff]
  exact List.forall₂_same.mpr fun r _ => markedFrom_markedIf hit m r

theorem markHolder_thins (q : PortId) (hit : Ref → Bool) (m : Mark) : Thins s (markHolder q hit m s) := by
  refine thins_modQueue q s ⟨forall₂_markedFrom_refl _, fun _ => List.Sublist.refl _, ?_⟩
  show Option.Rel MarkedFrom _ (s.pool.queues[q].holder.map (markedIf hit m))
  cases s.pool.queues[q].holder with
  | none => exact .none
  | some r => exact .some (markedFrom_markedIf hit m r)

theorem popLane_thins (q : PortId) (lane : Priority) : Thins s (popLane q lane s) := by
  refine thins_modQueue q s ⟨forall₂_markedFrom_refl _, fun l => ?_, (Thinned.refl _).holder⟩
  rw [getElem_modAt_fin]
  split
  · exact List.tail_sublist _
  · exact List.Sublist.refl _

theorem sweepLanes_thins (q : PortId) (hit : Ref → Bool) (reason : Reason) : Thins s (sweepLanes q hit reason s) := by
  intro other
  by_cases e : other = q
  · subst e
    rw [sweepLanes_queue]
    refine ⟨forall₂_markedFrom_refl _, fun lane => ?_, (Thinned.refl _).holder⟩
    simp only [Fin.getElem_fin, getElem_modAll]
    exact List.filter_sublist
  · rw [sweepLanes_other _ _ _ _ e]
    exact .refl _

theorem Thins.foldl {α : Type} {f : State → α → State} (h : ∀ s a, Thins s (f s a)) (l : List α) : Thins s (l.foldl f s) := by
  induction l generalizing s with
  | nil => exact .refl s
  | cons a l ih => exact (h s a).trans (ih _)

theorem blockSweep_thins (dest : Address) : Thins s (blockSweep dest s) :=
  Thins.foldl s (fun s _ => ((markPending_thins s _ _ _).trans (markHolder_thins _ _ _ _)).trans (sweepLanes_thins _ _ _ _)) _

theorem nodeFailed_thins (dest : Address) : Thins s (nodeFailed dest s) := by
  unfold nodeFailed
  split
  · exact .refl s
  · dsimp only
    split
    · exact (Thins.of_queues (by rw [raise_pool, modNode_pool])).trans (blockSweep_thins _ dest)
    · exact .of_queues rfl

theorem failRef_thins (p : SegPort) (r : Ref) (reason : Reason) (report : Bool) : Thins s (failRef p r reason report s) := by
  have ended : Thins s (dropRef p.port r reason (countPort p .failed 1 s)) := .of_queues (dropRef_queues _ _ _ _)
  unfold failRef
  dsimp only
  split
  · exact ended.trans (nodeFailed_thins _ _)
  · exact ended

theorem selectOnce_thins (p : SegPort) : Thins s (selectOnce p s) := by
  unfold selectOnce
  dsimp only
  split
  · split
    · exact .of_queues rfl
    · exact .of_queues rfl
    · split
      · exact (popLane_thins s _ _).trans (.of_queues (discardRef_queues _ _ _ _))
      · split
        · exact (popLane_thins s _ _).trans (failRef_thins _ _ _ _ _)
        · exact .of_queues rfl
  · exact .of_queues rfl

theorem settle_thins : Thins s (settle s) := by
  unfold settle
  generalize 2048 = n
  induction n generalizing s with
  | zero => exact .refl s
  | succ n ih =>
    rw [runSelections_succ]
    split
    · exact (selectOnce_thins s _).trans (ih _)
    · exact .refl s

end Sys2Proof.Machine
end

