-- ==== Sys2Proof/Proofs/LeavingFrames.lean ====
section
/-! PROOFS. A receiver that leaves a frame, is held low, or comes back to idle: signal errors, abort pulses, false starts, held lines and
the withdrawal of what was admitted (R17 to R23, R42, R48, R66); and the accept slot (R11, R49, R50, R58). -/

-- One theorem after another: many at once need a thread each.
set_option Elab.async false

namespace Sys2Proof.Machine

/-! ### A frame is left (R43, R48, R58) -/

/-- A listener leaves a frame: an armed candidate is dropped, what was admitted is withdrawn, and the line is released. -/
theorem leaves_listener (p : SegPort) (s : State) (h : isTalker s.ports[p] = false) :
    release p (leaveFrame p (endAttempt p .aborted (disarm p s))) =
      modPort p (fun q => { q with tx := q.tx.unarmed, assembly := {}, pin := [], pulse := none }) (withdraw p s) := by
  have ended : endAttempt p .aborted (disarm p s) = disarm p s := by
    apply endAttempt_none
    rw [disarm_eq, modPort_port]
    exact (unarmed_isTalker _).trans h
  rw [ended, disarm_eq, leaveFrame, withdraw_modPort p _ s rfl, clearAssembly, release, modPort_modPort, modPort_modPort]
  rfl

/-- A talker has no armed candidate to drop. -/
theorem disarm_talker (p : SegPort) (s : State) (h : isTalker s.ports[p] = true) : disarm p s = s := by
  rw [disarm_eq]
  apply modPort_id
  rw [unarmed_of_talker _ h]

theorem withdraw_eq (p : SegPort) (i : SlotId) (s : State) (h : admittedSlot s.ports[p] = some i) :
    withdraw p s = releaseSlot i { s with pool := { s.pool with
      queues := s.pool.queues.map fun Q => { Q with pending := Q.pending.filter fun r => r.slot ≠ i } } } := by
  have test : (fun r : Ref => !(r.slot == i)) = fun r : Ref => decide (r.slot ≠ i) := by
    funext r
    by_cases e : r.slot = i <;> simp [e]
  rw [withdraw, h]
  dsimp only
  rw [allPorts_modQueue, test]

/-- A slot that is released is FREE, or unfilled in the reserve (R111, R113). -/
theorem releaseSlot_status (i : SlotId) (s : State) :
    (releaseSlot i s).pool.slots[i].status = .free ∨ (releaseSlot i s).pool.slots[i].status = .unfilled := by
  have refilled : ∀ t : State, (t.pool.slots[i].status = .free ∨ t.pool.slots[i].status = .unfilled) →
      (refill t).pool.slots[i].status = .free ∨ (refill t).pool.slots[i].status = .unfilled := by
    intro t h
    rw [refill_eq]
    dsimp only
    rw [takeIn_slots]
    split
    · exact .inr rfl
    · exact h
  have blank : ∀ (st : SlotStatus) (t : State), (modSlot i (fun _ => .blank st) t).pool.slots[i].status = st := by
    intro st t
    rw [modSlot_pool, getElem_modAt_fin, if_pos rfl]
    rfl
  unfold releaseSlot
  dsimp only
  split
  · refine refilled _ (.inr ?_)
    rw [noteCredit_pool]
    exact blank .unfilled s
  · exact refilled _ (.inl (blank .free s))

/-! ### Signal errors (R17 to R19) -/

theorem exec_signalError {p : SegPort} {sy : Symbols} {fault : SignalFault} {s : State} {pt q : Port} {at' : Ticks}
    (hears : Hears p sy s pt) (detected : FaultDetected fault pt at' q) :
    exec (.signalError p ⟨sy, fault⟩) s =
      .next (settle (frameError p .rxSignalErrors at' (modPort p (fun _ => q) (advance at' (withHeard p pt s))))) := by
  show execSignalError p ⟨sy, fault⟩ s = _
  rw [execSignalError, hearOn_of_hears hears]
  dsimp only
  rw [withHeard_port, (faultAt_eq_some pt fault at' q).mpr detected]

/-- The port that shows a fault is as it was but for the edge. -/
theorem faultDetected_isTalker {fault : SignalFault} {pt q : Port} {at' : Ticks} (detected : FaultDetected fault pt at' q) :
    isTalker q = isTalker pt := by
  rcases detected with ⟨low, -, -, -, -, -, rfl⟩ | ⟨gap, -, -, -, -, -, rfl⟩ | ⟨waited, -, -, -, -, -, -, rfl⟩ <;> rfl

/-- Settles O25. -/
theorem signalErrorLeavesFrame : Obligations.SignalErrorLeavesFrame := by
  intro p sy fault s
  refine ⟨fun none => ?_, fun pt hears => ⟨?_, fun no => ?_⟩⟩
  · show execSignalError p ⟨sy, fault⟩ s = _
    rw [execSignalError, hearOn_none none]
  · rintro at' q seen detected rfl
    have talker : isTalker (modPort p (fun _ => q) (advance at' (withHeard p pt s))).ports[p] = isTalker s.ports[p] := by
      rw [modPort_port, faultDetected_isTalker detected, withHeard_isTalker hears]
    exact ⟨fun listens => by rw [exec_signalError hears detected, frameError_listener _ _ _ _ (talker.trans listens)],
      fun talks => by rw [exec_signalError hears detected, frameError_talker _ _ _ _ (talker.trans talks)]⟩
  · have unseen : faultAt pt fault = none := by
      cases seen : faultAt pt fault with
      | none => rfl
      | some found => exact absurd ((faultAt_eq_some pt fault found.1 found.2).mp seen) (no _ _)
    show execSignalError p ⟨sy, fault⟩ s = _
    rw [execSignalError, hearOn_of_hears hears]
    dsimp only
    rw [withHeard_port, unseen]

/-! ### Abort pulses and false starts (R5, R12, R20 to R22) -/

theorem exec_abortPulse {p : SegPort} {sy : Symbols} {s : State} {pt : Port} (hears : Hears p sy s pt) (inside : insideLow pt = true)
    (agrees : SampleAgrees (160 * bitPeriod pt.rate / 100) pt) :
    exec (.abortPulse ⟨p, sy⟩) s = .next (settle (toFlush p (release p (leaveFrame p (endAttempt p .aborted (disarm p
      (advance (pt.edge + 160 * bitPeriod pt.rate / 100) (withHeard p pt s)))))))) := by
  have agrees' : sampleAgrees (hundredths pt.rate 160) pt = true := (sampleAgrees_iff _ _).mpr agrees
  show execAbortPulse ⟨p, sy⟩ s = _
  rw [execAbortPulse, hearOn_of_hears hears]
  dsimp only
  rw [withHeard_port, inside, agrees']
  rfl

/-- A listener has no sample to disagree with (R8). -/
theorem sampleAgrees_listener {pt : Port} (low : Ticks) (h : isTalker pt = false) : SampleAgrees low pt := by
  intro a talks
  rw [isTalker, talks] at h
  cases h

theorem exec_abortPulse_listener {p : SegPort} {sy : Symbols} {s : State} {pt : Port} (hears : Hears p sy s pt)
    (inside : insideLow pt = true) (listens : isTalker s.ports[p] = false) :
    exec (.abortPulse ⟨p, sy⟩) s = .next (settle (modPort p (fun q => { q with
        rx := .flush, heldFlush := false, tx := q.tx.unarmed, assembly := {}, pin := [], pulse := none })
      (withdraw p (advance (pt.edge + 160 * bitPeriod pt.rate / 100) (withHeard p pt s))))) := by
  have heard := (withHeard_isTalker hears).trans listens
  rw [exec_abortPulse hears inside (sampleAgrees_listener _ heard), leaves_listener, toFlush, modPort_modPort]
  · rfl
  · rw [show (advance _ (withHeard p pt s)).ports[p] = pt from withHeard_port p pt s]
    exact heard

/-- Settles O26. -/
theorem abortsAndFalseStartsFlush : Obligations.AbortsAndFalseStartsFlush := by
  refine ⟨fun p sy s => ⟨fun none => ?_, fun pt seen hears hseen => ⟨fun inside listens => ?_, fun inside talks agrees => ?_, fun no => ?_⟩⟩,
    fun p stillLow s => ⟨fun at' pulse => ?_, fun none => ?_⟩, fun p low s seen rx brief hseen => ?_⟩
  · show execAbortPulse ⟨p, sy⟩ s = _
    rw [execAbortPulse, hearOn_none none]
  · rw [exec_abortPulse_listener hears inside listens, hseen]
  · have talker : isTalker seen.ports[p] = true := by
      rw [hseen, show (advance _ (withHeard p pt s)).ports[p] = pt from withHeard_port p pt s, withHeard_isTalker hears, talks]
    rw [exec_abortPulse hears inside agrees, ← hseen, disarm_talker _ _ talker, toFlush, release, modPort_modPort]
    rfl
  · show execAbortPulse ⟨p, sy⟩ s = _
    rw [execAbortPulse, hearOn_of_hears hears]
    dsimp only
    rw [withHeard_port, if_neg]
    rw [Bool.and_eq_true, sampleAgrees_iff]
    rintro ⟨inside, agrees⟩
    rcases no with outside | disagrees
    · rw [outside] at inside
      cases inside
    · exact disagrees agrees
  · show execAbortPulseEnd ⟨p, stillLow⟩ s = _
    rw [execAbortPulseEnd]
    dsimp only
    rw [pulse]
    simp only [toFlush, release, clearAssembly, modPort_modPort]
    rfl
  · show execAbortPulseEnd ⟨p, stillLow⟩ s = _
    rw [execAbortPulseEnd]
    dsimp only
    rw [none]
  · have same : isTalker seen.ports[p] = isTalker s.ports[p] := by
      rw [hseen, countPort, modPort_modPort, modPort_port]
      rfl
    have run : exec (.falseStart p low) s =
        .next (settle (toFlush p (release p (leaveFrame p (endAttempt p .aborted (disarm p seen)))))) := by
      show execFalseStart p low s = _
      rw [execFalseStart, hseen]
      exact if_pos ⟨rx, brief⟩
    refine ⟨fun listens => ?_, fun talks => ?_⟩
    · rw [run, leaves_listener _ _ (same.trans listens), toFlush, modPort_modPort]
      rfl
    · rw [run, disarm_talker _ _ (same.trans talks), toFlush, release, modPort_modPort]
      rfl

/-! ### The withdrawal of an admission (R48, R122) -/

/-- Settles O27. -/
theorem abortedAdmissionIsWithdrawn : Obligations.AbortedAdmissionIsWithdrawn := by
  refine ⟨fun p s => ⟨fun i => withdraw_eq p i s, fun none => ?_, rfl⟩, ?_⟩
  · rw [withdraw, none]
  intro p i sy pt s hears inside listens admitted
  have admitted' : admittedSlot (advance (pt.edge + 160 * bitPeriod pt.rate / 100) (withHeard p pt s)).ports[p] = some i := by
    rw [show (advance _ (withHeard p pt s)).ports[p] = pt from withHeard_port p pt s, admittedSlot,
      (hearSymbols_frame hears.2).admission]
    exact admitted
  have left := exec_abortPulse_listener hears inside listens
  generalize hu : modPort p _ _ = u at left
  have port : ∀ q : SegPort, u.ports[q] = if q = p then
      { u.ports[q] with rx := .flush, assembly := {}, pin := [] } else
      { s.ports[q] with tx := u.ports[q].tx, counters := u.ports[q].counters, due := u.ports[q].due } := by
    intro q
    have kept := withdraw_port p q (advance (pt.edge + 160 * bitPeriod pt.rate / 100) (withHeard p pt s))
    by_cases own : q = p
    · rw [if_pos own, own, ← hu, modPort_port]
    · rw [if_neg own, ← hu, modPort_ports, getElem_modAt_fin, if_neg own]
      rw [show (advance _ (withHeard p pt s)).ports[q] = s.ports[q] by
        show (modPort p (fun _ => pt) s).ports[q] = _
        rw [modPort_ports, getElem_modAt_fin, if_neg own]] at kept
      exact kept
  have own := port p
  rw [if_pos rfl] at own
  have settled := (settle_kept u).port
  refine ⟨settle u, u, left, rfl, ?_, fun q r mem => ?_, ?_, ?_, ?_, fun q other => ?_, ?_⟩
  · rw [← hu, modPort_pool, withdraw_eq p i _ admitted']
    exact releaseSlot_status i _
  · obtain ⟨r', mem', marked⟩ := exists_markedFrom (settle_thins u q).pending mem
    rw [← hu, modPort_pool, withdraw_eq p i _ admitted', releaseSlot_queues] at mem'
    rw [marked.slot]
    simp only [Fin.getElem_fin, Vector.getElem_map, List.mem_filter, decide_eq_true_eq] at mem'
    exact mem'.2
  · rw [settled, own]
  · rw [settled, own]
  · rw [settled, own]
  · rw [settled, port q, if_neg other]
  · have heard : KeptBut { s with
        now := max (max s.now (max pt.edge pt.lastRise)) (pt.edge + 160 * bitPeriod pt.rate / 100) }
        (advance (pt.edge + 160 * bitPeriod pt.rate / 100) (withHeard p pt s)) :=
      ⟨rfl, rfl, rfl, rfl, rfl, rfl, rfl, rfl, rfl, rfl, rfl, rfl, fun _ => rfl⟩
    have flushed : KeptBut (withdraw p (advance (pt.edge + 160 * bitPeriod pt.rate / 100) (withHeard p pt s))) u := by
      rw [← hu]
      exact modPort_keptBut _ _ _
    exact (heard.trans (withdraw_kept p _).but).trans (flushed.trans (settle_kept u).but)

/-! ### Held lines (R23, R66) -/

theorem exec_lineHeld {p : SegPort} {gap : Ticks} {s : State} (on : s.ports[p].rx ≠ .off) (fresh : s.ports[p].rx ≠ .held)
    (after : s.ports[p].lastRise ≤ s.ports[p].edge + gap) :
    exec (.lineHeld ⟨p, gap⟩) s = .next (settle (setRx p .held (release p (leaveFrame p (endAttempt p .aborted (disarm p
      (raise .lineHeld (.seg p) (isTalker s.ports[p]).toNat
        (modPort p (fun q => { q with edge := s.ports[p].edge + gap })
          (advance (s.ports[p].edge + gap + 5 * bitPeriod s.ports[p].rate) s))))))))) := by
  show execLineHeld ⟨p, gap⟩ s = _
  rw [execLineHeld]
  exact if_neg (by rintro (h | h | h); exacts [on h, fresh h, absurd after (Nat.not_le.mpr h)])

/-- Settles O28. -/
theorem lineHeldAndReleased : Obligations.LineHeldAndReleased := by
  refine ⟨?_, ?_⟩
  · rintro p gap fall s seen rfl hseen
    have same : ∀ n, isTalker (raise .lineHeld (.seg p) n seen).ports[p] = isTalker s.ports[p] := by
      intro n
      have ports := raise_ports .lineHeld (.seg p) n seen
      generalize raise .lineHeld (.seg p) n seen = raised at ports
      rw [ports, hseen, modPort_port]
      rfl
    refine ⟨fun on fresh after listens => ?_, fun on fresh after talks => ?_, fun no => if_pos no⟩
    · rw [exec_lineHeld on fresh after, ← hseen, listens]
      rw [leaves_listener _ _ ((same _).trans listens), setRx, modPort_modPort]
      rfl
    · rw [exec_lineHeld on fresh after, ← hseen, talks]
      rw [disarm_talker _ _ ((same _).trans talks), setRx, release, modPort_modPort]
      rfl
  · rintro p low rise s held rfl
    exact if_pos held

/-! ### Idle (R9, R10, R13, R22, R42, R55) -/

/-- A candidate whose frame still heads its lane, or for whose port a notice is held, can be taken in hand. -/
theorem takeCandidate_isSome {p : SegPort} {c : Candidate} {s : State} (armed : s.ports[p].tx = .armed c)
    (there : candidateGone p s = false) : (takeCandidate p c s).isSome = true := by
  unfold candidateGone at there
  rw [armed] at there
  cases c with
  | frame lane slot =>
    cases head : laneHead p.port lane s with
    | none => simp [head] at there
    | some r => simp [takeCandidate, head]
  | notice priority source =>
    have held : (s.custody.notices.find? (·.port == p)).isSome = true := by
      simpa [List.find?_isSome] using there
    simpa [takeCandidate] using held

/-- An edge at idle that no candidate joins: none is armed, or its quiet time is not satisfied. -/
theorem exec_idleFallingEdge_alone {p : SegPort} {recessive low : Ticks} {s : State} (idle : s.ports[p].rx = .idle)
    (early : ∀ c : Candidate, s.ports[p].tx = .armed c → recessive < candidateQuiet s.ports[p] c) :
    exec (.idleFallingEdge p ⟨recessive, low⟩) s =
      .next (if atLeast s.ports[p].rate 5 low then listenFrom p (s.ports[p].idleStart + recessive) s else s) := by
  show execIdleFallingEdge p ⟨recessive, low⟩ s = _
  rw [execIdleFallingEdge]
  dsimp only
  rw [if_pos idle]
  cases tx : s.ports[p].tx with
  | armed c =>
    have no : beginsAt (some recessive) s.ports[p] c s.now = none := if_neg (Nat.not_le.mpr (early c tx))
    dsimp only
    rw [no]
    rfl
  | off | idle | sending a | slots a => rfl

/-- Settles O29. -/
theorem idleIsEnteredAndLeft : Obligations.IdleIsEnteredAndLeft := by
  refine ⟨?_, fun p recessive low s => ⟨fun c idle armed there quiet => ?_, fun idle early => ⟨fun seen => ?_, fun short => ?_⟩, fun away => ?_⟩,
    fun pt priority slot source => ⟨rfl, rfl⟩⟩
  · rintro p later recessive rise s rfl
    have double : ∀ r : Ticks, atLeast s.ports[p].rate 200 r = true ↔ 2 * bitPeriod s.ports[p].rate ≤ r := by
      intro r
      rw [atLeast_iff]
      dsimp only [Ticks]
      omega
    refine ⟨fun flush quiet long after => ?_, fun no => ?_⟩
    · show execFlushComplete p ⟨later, recessive⟩ s = _
      rw [execFlushComplete]
      dsimp only
      rw [if_pos ⟨flush, quiet, (double _).mpr long, after⟩, makeDue, modPort_modPort]
      rfl
    · refine if_neg ?_
      rintro ⟨flush, quiet, long, after⟩
      rcases no with h | h | h | h
      · exact h flush
      · exact h quiet
      · exact absurd ((double _).mp long) (Nat.not_le.mpr h)
      · exact absurd after (Nat.not_le.mpr h)
  · have edge : beginsAt (some recessive) s.ports[p] c s.now = some (s.ports[p].idleStart + recessive) := if_pos quiet
    obtain ⟨taken, take⟩ := Option.isSome_iff_exists.mp (takeCandidate_isSome armed there)
    have begun : ((beginsAt (some recessive) s.ports[p] c s.now).bind fun edge => beginAttempt p c edge s) =
        beginAttempt p c (s.ports[p].idleStart + recessive) s := by rw [edge, Option.bind_some]
    show execIdleFallingEdge p ⟨recessive, low⟩ s = execAttemptBegin ⟨p, some recessive⟩ s
    rw [execIdleFallingEdge, execAttemptBegin]
    dsimp only
    rw [if_pos idle, armed, idle]
    dsimp only
    rw [begun, beginAttempt, take]
    rfl
  · rw [exec_idleFallingEdge_alone idle early, if_pos (atLeast_iff.mpr seen), listenFrom, disarm_eq, modPort_modPort]
    rfl
  · rw [exec_idleFallingEdge_alone idle early, if_neg (mt atLeast_iff.mp (Nat.not_le.mpr short))]
  · exact if_neg away

/-! ### The response slots (R11, R16, R49, R50, R58) -/

/-- A talker sends 1 in its response slots (R24). -/
theorem talkerBit_response {a : Attempt} {k : Nat} (h : 33 + 8 * a.frame.payload.length ≤ k) : talkerBit a k = true := by
  rw [talkerBit, List.getD_eq_getElem?_getD, List.getElem?_eq_none (by rw [sentBits_length]; exact h)]
  rfl

theorem slotGapOk_iff (rate : Rate) (gap : Ticks) :
    slotGapOk rate gap = true ↔ 90 * bitPeriod rate ≤ 100 * gap ∧ 100 * gap ≤ 130 * bitPeriod rate := by
  rw [slotGapOk, Bool.and_eq_true, atLeast_iff, atMost_iff]

theorem edgeAccepted_slots {pt : Port} {gap : Ticks} (rx : pt.rx = .slots) :
    edgeAccepted pt gap = (slotGapOk pt.rate gap && (!isTalker pt || atMost pt.rate 100 gap)) := by
  rw [edgeAccepted, if_neg (by rw [rx]; nofun)]

/-- At its accept slot a responder drives the slot exactly when its answer is accept. -/
theorem pinAtEdge_accept {pt : Port} (fall : Ticks) (listens : isTalker pt = false) (at' : atAcceptSlot pt.assembly = true) :
    pinAtEdge pt fall = if pt.assembly.answer = .accept then pt.pin ++ [⟨.accept, fall, fall + 60 * bitPeriod pt.rate / 100⟩] else pt.pin := by
  have later : atRefuseSlot pt.assembly = false := by
    rw [atAcceptSlot, beq_iff_eq] at at'
    rw [atRefuseSlot, at', beq_eq_false_iff_ne]
    simp
  rw [isTalker, Option.isSome_eq_false_iff, Option.isNone_iff_eq_none] at listens
  simp only [pinAtEdge, listens, at', later, and_true, Bool.false_eq_true, and_false, if_false]
  rfl

/-- At its refuse slot a responder whose answer is refuse drives the slot. -/
theorem pinAtEdge_refuse {pt : Port} (fall : Ticks) (listens : isTalker pt = false) (at' : atRefuseSlot pt.assembly = true)
    (answer : pt.assembly.answer = .refuse) :
    pinAtEdge pt fall = pt.pin ++ [⟨.refuse, fall, fall + 60 * bitPeriod pt.rate / 100⟩] := by
  rw [isTalker, Option.isSome_eq_false_iff, Option.isNone_iff_eq_none] at listens
  simp only [pinAtEdge, listens, at', answer, reduceCtorEq, false_and, true_and, if_false, if_true]
  rfl

theorem pinAtEdge_ownAccept {pt : Port} {a : Attempt} (fall : Ticks) (talks : attemptOf pt = some a)
    (at' : pt.assembly.bits.length = 33 + 8 * a.frame.payload.length) :
    pinAtEdge pt fall = pt.pin.dropLast ++ [⟨.bit, fall, fall + 25 * bitPeriod pt.rate / 100⟩,
      ⟨.bit, fall + bitPeriod pt.rate, fall + bitPeriod pt.rate + 25 * bitPeriod pt.rate / 100⟩] := by
  have due : pt.assembly.bits.length + 1 < frameSlots a.frame.payload.length := by rw [frameSlots, at']; omega
  have first : talkerBit a pt.assembly.bits.length = true := talkerBit_response at'.ge
  have second : talkerBit a (pt.assembly.bits.length + 1) = true := talkerBit_response (by omega)
  simp only [pinAtEdge, talks, talkerNext, due, if_true, talkerLow, first, second, bitLow, hundredths]

theorem exec_acceptSlotEdge_talker {p : SegPort} {gap : Ticks} {a : Attempt} {s : State}
    (begins : following s.ports[p] = true ∧ s.ports[p].rx = .slots ∧ betweenLows s.ports[p] = true ∧
      atAcceptSlot s.ports[p].assembly = true ∧ edgeAccepted s.ports[p] gap = true) (sending : s.ports[p].tx = .sending a) :
    exec (.acceptSlotEdge ⟨p, gap⟩) s = .next (modPort p (fun _ =>
      { beginSlot gap s.ports[p] with tx := .slots a, lastTalker := true }) (advance (s.ports[p].edge + gap) s)) := by
  show execAcceptSlotEdge ⟨p, gap⟩ s = _
  rw [execAcceptSlotEdge]
  dsimp only
  rw [if_pos begins, sending]
  rfl

theorem exec_acceptSlotEdge_listener {p : SegPort} {gap : Ticks} {s : State}
    (begins : following s.ports[p] = true ∧ s.ports[p].rx = .slots ∧ betweenLows s.ports[p] = true ∧
      atAcceptSlot s.ports[p].assembly = true ∧ edgeAccepted s.ports[p] gap = true) (listens : isTalker s.ports[p] = false) :
    exec (.acceptSlotEdge ⟨p, gap⟩) s = .next (modPort p (fun _ =>
      { beginSlot gap s.ports[p] with
        lastTalker := false
        assembly := { (beginSlot gap s.ports[p]).assembly with acceptDriven := s.ports[p].assembly.answer == .accept } })
      (advance (s.ports[p].edge + gap) s)) := by
  show execAcceptSlotEdge ⟨p, gap⟩ s = _
  rw [execAcceptSlotEdge]
  dsimp only
  rw [if_pos begins]
  cases tx : s.ports[p].tx with
  | sending a | slots a => rw [isTalker, attemptOf, tx] at listens; cases listens
  | off | idle | armed c => rfl

/-- Settles O33. -/
theorem acceptSlotEdgeSetsFlag : Obligations.AcceptSlotEdgeSetsFlag := by
  refine ⟨?_, ?_⟩
  · rintro p gap fall c s inside rx between control length rfl
    have ready : betweenLows s.ports[p] = true := by rw [betweenLows, rx, between]; rfl
    have slot : atAcceptSlot s.ports[p].assembly = true := (atAcceptSlot_iff _ c control).mpr length
    have edge := edgeAccepted_slots (gap := gap) rx
    have stays : ¬ s.ports[p].rx = .gap := by rw [rx]; nofun
    refine ⟨fun a sending same above own => ?_, fun listens above below => ?_, fun no => ?_⟩
    · have talks : attemptOf s.ports[p] = some a := by rw [attemptOf, sending]
      have talker : isTalker s.ports[p] = true := by rw [isTalker, talks]; rfl
      have accepted : edgeAccepted s.ports[p] gap = true := by
        rw [edge, Bool.and_eq_true, slotGapOk_iff, talker, Bool.not_true, Bool.false_or, atMost_iff]
        dsimp only [Ticks] at *
        omega
      rw [exec_acceptSlotEdge_talker ⟨inside, rx, ready, slot, accepted⟩ sending]
      refine congrArg Host.Outcome.next (modPort_congr p _ _ (advance (s.ports[p].edge + gap) s) ?_)
      show { beginSlot gap s.ports[p] with tx := TxState.slots a, lastTalker := true } = _
      rw [beginSlot, if_neg stays, pinAtEdge_ownAccept _ talks (by rw [length, same])]
      rfl
    · have accepted : edgeAccepted s.ports[p] gap = true := by
        rw [edge, Bool.and_eq_true, slotGapOk_iff, listens]
        exact ⟨⟨above, below⟩, rfl⟩
      rw [exec_acceptSlotEdge_listener ⟨inside, rx, ready, slot, accepted⟩ listens]
      refine congrArg Host.Outcome.next (modPort_congr p _ _ (advance (s.ports[p].edge + gap) s) ?_)
      show { beginSlot gap s.ports[p] with
        lastTalker := false
        assembly := { (beginSlot gap s.ports[p]).assembly with acceptDriven := s.ports[p].assembly.answer == Answer.accept } } = _
      rw [beginSlot, if_neg stays, pinAtEdge_accept _ listens slot]
      rfl
    · refine if_neg ?_
      rintro ⟨-, -, -, -, accepted⟩
      rw [edge, Bool.and_eq_true, slotGapOk_iff] at accepted
      obtain ⟨⟨above, below⟩, -⟩ := accepted
      rcases no with h | h
      · exact absurd above (Nat.not_le.mpr h)
      · exact absurd below (Nat.not_le.mpr h)
  · rintro pt gap fall c rx between listens control checked headed length answer rfl above below
    have ready : betweenLows pt = true := by rw [betweenLows, rx, between]; rfl
    have stays : ¬ pt.rx = .gap := by rw [rx]; nofun
    have accepted : edgeAccepted pt gap = true := by
      rw [edgeAccepted_slots rx, Bool.and_eq_true, slotGapOk_iff, listens]
      exact ⟨⟨above, below⟩, rfl⟩
    have remain : slotsRemain pt.assembly = true := by
      rw [slotsRemain_iff, SlotsRemain, length]
      refine ⟨fun h => absurd h headed, fun _ h => absurd (control.symm.trans h) nofun, fun c' _ h => ?_⟩
      cases control.symm.trans h
      rw [if_neg checked]
      omega
    have notAccept : atAcceptSlot pt.assembly = false := by
      rw [Bool.eq_false_iff, ne_eq, atAcceptSlot_iff _ c control, length]
      omega
    have refuse : atRefuseSlot pt.assembly = true := by
      rw [atRefuseSlot, beq_iff_eq, slotsOf_eq_some]
      exact ⟨c, control, by omega⟩
    rw [hearEdge, ready, accepted, remain, notAccept, Bool.and_false]
    show some (beginSlot gap pt) = _
    rw [beginSlot, if_neg stays, pinAtEdge_refuse _ listens refuse answer]

end Sys2Proof.Machine
end

