-- ==== Sys2Proof/Proofs/Transmitter.lean ====
section
/-! PROOFS. The segment transmitter: selection, the beginning of an attempt, and its end by every outcome (R10 to R16, R38, R53 to R62). -/

-- One theorem after another: many at once need a thread each.
set_option Elab.async false

namespace Sys2Proof.Machine

/-! ### Selection, one turn after another (R54, R56) -/

theorem nextDue_none {s : State} (h : ∀ q : SegPort, s.ports[q].due = false) : nextDue s = none := by
  rw [nextDue, List.find?_eq_none]
  intro q _
  rw [h q]
  exact Bool.false_ne_true

/-- A search in rising order finds the first that passes. -/
theorem find?_sorted {n : Nat} {test : Fin n → Bool} {l : List (Fin n)} {i : Fin n} (sorted : l.Pairwise (· < ·)) (mem : i ∈ l)
    (passes : test i = true) (first : ∀ j : Fin n, j < i → test j = false) : l.find? test = some i := by
  obtain ⟨before, after, rfl⟩ := List.append_of_mem mem
  obtain ⟨-, -, lower⟩ := List.pairwise_append.mp sorted
  rw [List.find?_append, List.find?_eq_none.mpr, Option.none_or, List.find?_cons, passes]
  intro j hj
  rw [first j (lower j hj i List.mem_cons_self)]
  exact Bool.false_ne_true

/-- Of the ports on which selection is due, the lowest-numbered one has its turn. -/
theorem nextDue_first {s : State} {p : SegPort} (due : s.ports[p].due = true) (first : ∀ q : SegPort, q < p → s.ports[q].due = false) :
    nextDue s = some p := find?_sorted (by decide) ((by decide : ∀ q : SegPort, q ∈ allSegPorts) p) due first

theorem runSelections_none (n : Nat) {s : State} (h : ∀ q : SegPort, s.ports[q].due = false) : runSelections n s = s := by
  cases n with
  | zero => rfl
  | succ n => rw [runSelections, nextDue_none h]

theorem runSelections_turn (n : Nat) {s : State} {p : SegPort} (due : s.ports[p].due = true)
    (first : ∀ q : SegPort, q < p → s.ports[q].due = false) : runSelections (n + 1) s = runSelections n (selectOnce p s) := by
  rw [runSelections, nextDue_first due first]

theorem noticeHeld_iff {p : SegPort} {s : State} : s.custody.notices.any (·.port == p) = true ↔ ∃ n ∈ s.custody.notices, n.port = p := by
  simp only [List.any_eq_true, beq_iff_eq]

theorem noticeHeld_false {p : SegPort} {s : State} : s.custody.notices.any (·.port == p) = false ↔ ∀ n ∈ s.custody.notices, n.port ≠ p := by
  simp only [List.any_eq_false, beq_iff_eq]

theorem selectOnce_waits {p : SegPort} {s : State} (may : maySelect s.ports[p] = false) :
    selectOnce p s = modPort p (fun pt => { pt with tx := if candidateGone p s then .idle else pt.tx, due := false }) s := by
  rw [selectOnce, may]
  exact modPort_congr p _ _ s rfl

theorem selectOnce_nothing {p : SegPort} {s : State} (may : maySelect s.ports[p] = true) (empty : firstHead p.port s = none)
    (none : ∀ n ∈ s.custody.notices, n.port ≠ p) : selectOnce p s = modPort p (fun pt => { pt with tx := .idle, due := false }) s := by
  have best : bestChoice p s = .nothing := by rw [bestChoice, empty, noticeHeld_false.mpr none]
  rw [selectOnce, if_pos may, best]
  rfl

theorem selectOnce_notice {p : SegPort} {s : State} {n : Notice} (may : maySelect s.ports[p] = true) (mem : n ∈ s.custody.notices)
    (held : n.port = p) (urgent : ∀ lane r, firstHead p.port s = some (lane, r) → s.custody.noticePriority ≤ lane) :
    ∃ source : Address, source.val = s.custody.noticeSource.val ∧
      selectOnce p s = modPort p (fun pt => { pt with tx := .armed (.notice s.custody.noticePriority source), due := false }) s := by
  have best : bestChoice p s = .notice := by
    rw [bestChoice, noticeHeld_iff.mpr ⟨n, mem, held⟩]
    cases head : firstHead p.port s with
    | none => rfl
    | some x =>
      dsimp only
      rw [if_pos (urgent x.1 x.2 head)]
  refine ⟨s.custody.noticeSource.castLE (by decide), rfl, ?_⟩
  rw [selectOnce, if_pos may, best]
  rfl

section
variable {p : SegPort} {s : State} {lane : Priority} {r : Ref}

theorem bestChoice_frame (head : firstHead p.port s = some (lane, r))
    (urgent : ∀ n ∈ s.custody.notices, n.port = p → lane < s.custody.noticePriority) : bestChoice p s = .frame lane r := by
  rw [bestChoice, head]
  cases held : s.custody.notices.any (·.port == p) with
  | false => rfl
  | true =>
    obtain ⟨n, mem, own⟩ := noticeHeld_iff.mp held
    dsimp only
    rw [if_neg (not_le.mpr (urgent n mem own))]

theorem selectOnce_stale (may : maySelect s.ports[p] = true) (head : firstHead p.port s = some (lane, r))
    (urgent : ∀ n ∈ s.custody.notices, n.port = p → lane < s.custody.noticePriority) (stale : (slotOf r s).epoch < s.route.purgeEpoch) :
    selectOnce p s = discardRef p.port r .purged (popLane p.port lane s) := by
  rw [selectOnce, if_pos may, bestChoice_frame head urgent]
  exact if_pos (decide_eq_true stale)

theorem selectOnce_fresh (may : maySelect s.ports[p] = true) (head : firstHead p.port s = some (lane, r))
    (urgent : ∀ n ∈ s.custody.notices, n.port = p → lane < s.custody.noticePriority) (fresh : s.route.purgeEpoch ≤ (slotOf r s).epoch) :
    selectOnce p s = if s.ports[p].retryLimit < r.count then failRef p r .undeliverable true (popLane p.port lane s)
      else modPort p (fun pt => { pt with tx := .armed (.frame lane r.slot), due := false }) s := by
  rw [selectOnce, if_pos may, bestChoice_frame head urgent]
  exact if_neg (by rw [isStale, decide_eq_true_eq]; exact not_lt.mpr fresh)

theorem candidateGone_iff : candidateGone p s = true ↔
    (∃ (lane : Priority) (slot : SlotId), s.ports[p].tx = .armed (.frame lane slot) ∧
      ∀ r : Ref, s.pool.queues[p.port].lanes[lane].head? = some r → r.slot ≠ slot) ∨
    (∃ (priority : Priority) (source : Address), s.ports[p].tx = .armed (.notice priority source) ∧
      ∀ n ∈ s.custody.notices, n.port ≠ p) := by
  unfold candidateGone
  cases s.ports[p].tx with
  | armed c =>
    cases c with
    | frame lane slot =>
      have head : s.pool.queues[p.port].lanes[lane].head? = laneHead p.port lane s := rfl
      simp only [TxState.armed.injEq, Candidate.frame.injEq, reduceCtorEq, false_and, exists_false, or_false]
      constructor
      · intro gone
        refine ⟨lane, slot, ⟨rfl, rfl⟩, fun r there => ?_⟩
        rw [← head, there] at gone
        simpa using gone
      · rintro ⟨lane', slot', ⟨rfl, rfl⟩, gone⟩
        rw [← head]
        cases there : s.pool.queues[p.port].lanes[lane].head? with
        | none => rfl
        | some r => simpa using gone r there
    | notice priority source => simp
  | off | idle | sending a | slots a => simp

end

theorem not_due_after {p : SegPort} {f : Port → Port} {s : State} (only : ∀ q : SegPort, s.ports[q].due = true ↔ q = p)
    (off : (f s.ports[p]).due = false) (q : SegPort) : (modPort p f s).ports[q].due = false := by
  rw [modPort_ports, getElem_modAt_fin]
  split
  next own => rw [own, off]
  next other => exact Bool.eq_false_iff.mpr (mt (only q).mp other)

/-- Settles O30. -/
theorem selectionArmsBestCandidate : Obligations.SelectionArmsBestCandidate := by
  refine ⟨fun q s => ⟨firstHead_eq_some q s, firstHead_eq_none q s, fun lane => ?_⟩,
    fun p s => ⟨maySelect_iff, candidateGone_iff, rfl, ?_⟩, fun p s only may => ?_, fun s => rfl, fun n s => runSelections_none n,
    fun n p s due first => ⟨fun wait => ?_, fun may => ⟨fun empty none => ?_, fun m mem held urgent => ?_, fun lane r head urgent => ?_⟩⟩⟩
  · simp only [popLane, modAt, List.drop_one]
  · rw [dueIfGone, segOf?_port]
    rfl
  · have due : s.ports[p].due = true := (only p).mpr rfl
    have first : ∀ q : SegPort, q < p → s.ports[q].due = false :=
      fun q lower => Bool.eq_false_iff.mpr (mt (only q).mp lower.ne)
    have turn : settle s = runSelections 2047 (selectOnce p s) := runSelections_turn 2047 due first
    refine ⟨fun empty none => ?_, fun n mem held urgent => ?_, fun lane r head urgent =>
      ⟨fun fresh within => ?_, fun stale => ?_, fun fresh beyond => ?_⟩⟩
    · rw [turn, selectOnce_nothing may empty none, runSelections_none _ (not_due_after only rfl)]
    · obtain ⟨source, same, armed⟩ := selectOnce_notice may mem held urgent
      exact ⟨source, same, by rw [turn, armed, runSelections_none _ (not_due_after only rfl)]⟩
    · rw [turn, selectOnce_fresh may head urgent fresh, if_neg (not_lt.mpr within), runSelections_none _ (not_due_after only rfl)]
    · rw [turn, selectOnce_stale may head urgent stale]
    · rw [turn, selectOnce_fresh may head urgent fresh, if_pos beyond]
  · rw [runSelections_turn n due first, selectOnce_waits wait]
  · rw [runSelections_turn n due first, selectOnce_nothing may empty none]
  · obtain ⟨source, same, armed⟩ := selectOnce_notice may mem held urgent
    exact ⟨source, same, by rw [runSelections_turn n due first, armed]⟩
  · refine ⟨fun fresh within => ?_, fun stale => ?_, fun fresh beyond => ?_⟩
    · rw [runSelections_turn n due first, selectOnce_fresh may head urgent fresh, if_neg (not_lt.mpr within)]
    · rw [runSelections_turn n due first, selectOnce_stale may head urgent stale]
    · rw [runSelections_turn n due first, selectOnce_fresh may head urgent fresh, if_pos beyond]

/-! ### An attempt begins (R3, R6, R10, R12, R13, R57) -/

/-- The first bit of a frame is the highest of its priority (R24). -/
theorem talkerBit_first (a : Attempt) : talkerBit a 0 = decide (4 ≤ a.frame.priority.val) :=
  (by decide : ∀ p : Priority, p.val.testBit 2 = decide (4 ≤ p.val)) a.frame.priority

theorem talkerStart_eq (rate : Rate) (a : Attempt) (edge : Ticks) :
    talkerStart rate a edge = [⟨.leadIn, edge, edge + 3 * bitPeriod rate⟩,
      ⟨.bit, edge + 4 * bitPeriod rate,
        edge + 4 * bitPeriod rate + (if a.frame.priority.val < 4 then 60 else 25) * bitPeriod rate / 100⟩] := by
  have low : (if talkerBit a 0 then 25 else 60) = if a.frame.priority.val < 4 then 60 else 25 := by
    rw [talkerBit_first]
    split_ifs with bit below <;> simp only [decide_eq_true_eq] at bit <;> omega
  rw [talkerStart, talkerLow, bitLow, hundredths, low, leadInLow]

/-- Where an attempt may begin: at the port's own edge, or at one that it joins with its quiet time satisfied. -/
theorem beginsAt_eq {joined : Option Ticks} {pt : Port} {c : Candidate} {now edge : Ticks}
    (h : (joined = none ∧ edge = max now (pt.idleStart + candidateQuiet pt c)) ∨
      (∃ recessive, joined = some recessive ∧ candidateQuiet pt c ≤ recessive ∧ edge = pt.idleStart + recessive)) :
    beginsAt joined pt c now = some edge := by
  rcases h with ⟨rfl, rfl⟩ | ⟨recessive, rfl, quiet, rfl⟩
  · rfl
  · exact if_pos quiet

theorem exec_attemptBegin {p : SegPort} {joined : Option Ticks} {s taken : State} {c : Candidate} {a : Attempt} {edge : Ticks}
    (idle : s.ports[p].rx = .idle) (armed : s.ports[p].tx = .armed c) (edges : beginsAt joined s.ports[p] c s.now = some edge)
    (take : takeCandidate p c s = some (a, taken)) :
    exec (.attemptBegin ⟨p, joined⟩) s = .next (advance edge (countPort p .attempts 1 (modPort p (fun pt =>
      { pt with tx := .sending a, rx := .leadIn, edge := edge, assembly := {}, pin := talkerStart pt.rate a edge }) taken))) := by
  have begun : ((beginsAt joined s.ports[p] c s.now).bind fun edge => beginAttempt p c edge s) =
      some (advance edge (countPort p .attempts 1 (modPort p (fun pt =>
        { pt with tx := .sending a, rx := .leadIn, edge := edge, assembly := {}, pin := talkerStart pt.rate a edge }) taken))) := by
    rw [edges, Option.bind_some, beginAttempt, take]
    rfl
  show execAttemptBegin ⟨p, joined⟩ s = _
  rw [execAttemptBegin]
  dsimp only
  rw [armed, idle]
  dsimp only
  rw [begun]

theorem updateFirst_split {α : Type} {test : α → Bool} {f : α → Option α} {before after : List α} {a : α}
    (others : ∀ b ∈ before, test b = false) (found : test a = true) :
    updateFirst test f (before ++ a :: after) = before ++ (f a).toList ++ after := by
  induction before with
  | nil => rw [List.nil_append, updateFirst, if_pos found, List.nil_append]
  | cons b before ih =>
    have other : ¬ test b = true := by rw [others b List.mem_cons_self]; exact Bool.false_ne_true
    rw [List.cons_append, updateFirst, if_neg other, ih fun x hx => others x (.tail _ hx)]
    rfl

theorem find?_split {α : Type} {test : α → Bool} {before after : List α} {a : α}
    (others : ∀ b ∈ before, test b = false) (found : test a = true) : (before ++ a :: after).find? test = some a := by
  rw [List.find?_append, List.find?_eq_none.mpr fun b hb => by rw [others b hb]; exact Bool.false_ne_true, Option.none_or,
    List.find?_cons, found]

/-- Settles O31. -/
theorem attemptBeginsWithCandidate : Obligations.AttemptBeginsWithCandidate := by
  refine ⟨fun rate lane lastTalker => rfl, fun p joined s => ⟨?_, ?_, ?_, fun away => ?_⟩⟩
  · rintro lane slot r edge quiet idle armed head rfl edges
    have take : takeCandidate p (.frame lane slot) s =
        some (⟨false, renderFrame (slotOf r s)⟩, setHolder p.port (some r) (popLane p.port lane s)) := by
      rw [takeCandidate, head]
      rfl
    rw [exec_attemptBegin idle armed (beginsAt_eq edges) take, popLane, setHolder, modQueue_modQueue]
    simp only [talkerStart_eq]
    rfl
  · rintro priority source before n after edge quiet idle armed notices own others rfl edges
    have first : ∀ m ∈ before, (m.port == p) = false := fun m hm => beq_false_of_ne (others m hm)
    have mine : (n.port == p) = true := beq_iff_eq.mpr own
    have take : takeCandidate p (.notice priority source) s = some (⟨true, renderNotice n priority source⟩,
        { s with custody := { s.custody with notices := before ++ { n with inAttempt := true } :: after } }) := by
      rw [takeCandidate, notices, find?_split first mine, markAttempt, modCustody, notices, updateFirst_split first mine,
        Option.toList_some, List.append_assoc]
      rfl
    rw [exec_attemptBegin idle armed (beginsAt_eq edges) take]
    simp only [talkerStart_eq]
    rfl
  · rintro c recessive armed rfl early
    have no : beginsAt (some recessive) s.ports[p] c s.now = none := if_neg (not_le.mpr early)
    show execAttemptBegin ⟨p, some recessive⟩ s = _
    rw [execAttemptBegin]
    dsimp only
    rw [armed]
    cases s.ports[p].rx with
    | idle =>
      dsimp only
      rw [no]
      rfl
    | _ => rfl
  · show execAttemptBegin ⟨p, joined⟩ s = _
    rw [execAttemptBegin]
    dsimp only
    cases armed : s.ports[p].tx with
    | armed c =>
      cases idle : s.ports[p].rx with
      | idle =>
        rcases away with h | h
        · exact absurd idle h
        · rw [armed] at h
          cases h
      | _ => rfl
    | _ => rfl

/-! ### The end of an attempt, by its outcome (R38, R58 to R62) -/

section
variable {p : SegPort} {o : TalkerOutcome} {s : State} {r : Ref}

theorem endAttempt_frame {frame : Frame} (talks : attemptOf s.ports[p] = some ⟨false, frame⟩) :
    endAttempt p o s = refEnded p o (setTx p .idle (if o = .lost then countPort p .arbLost 1 s else s)) := by
  rw [endAttempt, talks]
  exact if_neg Bool.false_ne_true

theorem endAttempt_notice {frame : Frame} (talks : attemptOf s.ports[p] = some ⟨true, frame⟩) :
    endAttempt p o s = noticeEnded p o (setTx p .idle (if o = .lost then countPort p .arbLost 1 s else s)) := by
  rw [endAttempt, talks]
  exact if_pos rfl

theorem refEnded_delivered (holder : s.pool.queues[p.port].holder = some r) :
    refEnded p .delivered s = deliverRef p r (setHolder p.port none s) := by rw [refEnded, holder]

/-- A lost attempt leaves the count of its reference as it was. -/
theorem refEnded_lost (holder : s.pool.queues[p.port].holder = some r) (unmarked : r.mark = none) :
    refEnded p .lost s = returnToHead p.port r (setHolder p.port none s) := by rw [refEnded, holder]; simp only [unmarked]

theorem refEnded_lost_marked {m : Mark} (holder : s.pool.queues[p.port].holder = some r) (marked : r.mark = some m) :
    refEnded p .lost s = failRef p r m.reason false (setHolder p.port none s) := by rw [refEnded, holder]; simp only [marked]

/-- The outcomes of an attempt that counts and was not delivered. -/
def Missed (o : TalkerOutcome) : Prop := o ≠ .delivered ∧ o ≠ .lost

theorem missed_aborted : Missed .aborted := ⟨nofun, nofun⟩

theorem refEnded_missed (missed : Missed o) (holder : s.pool.queues[p.port].holder = some r) (unmarked : r.mark = none) :
    refEnded p o s = if r.count + 1 ≤ s.ports[p].retryLimit
      then returnToHead p.port { r with count := r.count + 1 } (setHolder p.port none s)
      else failRef p { r with count := r.count + 1 } .undeliverable true (setHolder p.port none s) := by
  rw [refEnded, holder]
  cases o with
  | delivered => exact absurd rfl missed.1
  | lost => exact absurd rfl missed.2
  | unaccepted | refused | aborted => simp only [unmarked]

theorem refEnded_missed_marked {m : Mark} (missed : Missed o) (holder : s.pool.queues[p.port].holder = some r)
    (marked : r.mark = some m) :
    refEnded p o s = failRef p { r with count := r.count + 1 } m.reason true (setHolder p.port none s) := by
  rw [refEnded, holder]
  cases o with
  | delivered => exact absurd rfl missed.1
  | lost => exact absurd rfl missed.2
  | unaccepted | refused | aborted => simp only [marked]

end

theorem attemptOf_talking {pt : Port} {a : Attempt} (h : pt.tx = .sending a ∨ pt.tx = .slots a) : attemptOf pt = some a := by
  rcases h with h | h <;> rw [attemptOf, h]

theorem heard_tx {p : SegPort} {sy : Symbols} {s : State} {pt : Port} (hears : Hears p sy s pt) : pt.tx = s.ports[p].tx :=
  (hearSymbols_frame hears.2).tx

/-- The sample point of the bit slot in progress. -/
theorem sampleAt_eq (pt : Port) : sampleAt pt = pt.edge + 44 * bitPeriod pt.rate / 100 := rfl

theorem sendsOne_of_sent {a : Attempt} {pt : Port} (inside : insideLow pt = true)
    (one : (sentBits a.frame)[pt.assembly.bits.length]? = some true) : sendsOne a pt = true := by
  rw [sendsOne, inside, talkerBit, List.getD_eq_getElem?_getD, one]
  rfl

theorem exec_arbitrationLost {p : SegPort} {sy : Symbols} {s : State} {pt : Port} {a : Attempt} (hears : Hears p sy s pt)
    (sending : s.ports[p].tx = .sending a) (inside : insideLow pt = true)
    (one : (sentBits a.frame)[pt.assembly.bits.length]? = some true) (header : pt.assembly.bits.length < 17) :
    exec (.arbitrationLost p sy) s =
      .next (settle (release p (endAttempt p .lost (advance (pt.edge + 44 * bitPeriod pt.rate / 100) (withHeard p pt s))))) := by
  show execArbitrationLost p sy s = _
  rw [execArbitrationLost, sending, hearOn_of_hears hears]
  dsimp only
  rw [withHeard_port]
  exact if_pos ⟨sendsOne_of_sent inside one, header⟩

theorem exec_overdrive {p : SegPort} {sy : Symbols} {s : State} {pt : Port} {a : Attempt} (hears : Hears p sy s pt)
    (sending : s.ports[p].tx = .sending a) (inside : insideLow pt = true)
    (one : (sentBits a.frame)[pt.assembly.bits.length]? = some true) (header : 17 ≤ pt.assembly.bits.length)
    (content : pt.assembly.bits.length < 33 + 8 * a.frame.payload.length) :
    exec (.overdrive p sy) s =
      .next (settle (driveAbort p pt.edge (pt.edge + 44 * bitPeriod pt.rate / 100)
        (endAttempt p .aborted (advance (pt.edge + 44 * bitPeriod pt.rate / 100) (withHeard p pt s))))) := by
  have before : pt.assembly.bits.length < frameSlots a.frame.payload.length - 2 := by rw [frameSlots]; omega
  show execOverdrive p sy s = _
  rw [execOverdrive, sending, hearOn_of_hears hears]
  dsimp only
  rw [withHeard_port]
  exact if_pos ⟨sendsOne_of_sent inside one, header, before⟩

/-- Settles O32. -/
theorem lostAndOverdrivenAttempts : Obligations.LostAndOverdrivenAttempts := by
  have ends : ∀ (p : SegPort) (frame : Frame) (r : Ref) (s : State), attemptOf s.ports[p] = some ⟨false, frame⟩ →
      s.pool.queues[p.port].holder = some r →
      (r.mark = none → r.count + 1 ≤ s.ports[p].retryLimit → endAttempt p .aborted s =
        returnToHead p.port { r with count := r.count + 1 } (setHolder p.port none (setTx p .idle s))) ∧
      (r.mark = none → s.ports[p].retryLimit < r.count + 1 → endAttempt p .aborted s =
        failRef p { r with count := r.count + 1 } .undeliverable true (setHolder p.port none (setTx p .idle s))) ∧
      (∀ m : Mark, r.mark = some m → endAttempt p .aborted s =
        failRef p { r with count := r.count + 1 } m.reason true (setHolder p.port none (setTx p .idle s))) := by
    intro p frame r s talks holder
    have limit : (setTx p .idle s).ports[p].retryLimit = s.ports[p].retryLimit := by rw [setTx, modPort_port]
    have ended : endAttempt p .aborted s = refEnded p .aborted (setTx p .idle s) := endAttempt_frame talks
    have holder' : (setTx p .idle s).pool.queues[p.port].holder = some r := holder
    refine ⟨fun unmarked within => ?_, fun unmarked beyond => ?_, fun m marked => ?_⟩
    · rw [ended, refEnded_missed missed_aborted holder' unmarked, limit, if_pos within]
    · rw [ended, refEnded_missed missed_aborted holder' unmarked, limit, if_neg (not_le.mpr beyond)]
    · rw [ended, refEnded_missed_marked missed_aborted holder' marked]
  refine ⟨fun p frame r s freed talks holder hfreed => ?_, fun p fall at' s => rfl, ?_⟩
  · rw [hfreed]
    exact ends p frame r s (attemptOf_talking talks) holder
  rintro p sy pt frame r at' s seen freed hears sending holder inside one rfl hseen
  have port : seen.ports[p] = pt := by rw [hseen]; exact withHeard_port p pt s
  have talks : attemptOf seen.ports[p] = some ⟨false, frame⟩ := by
    rw [port]
    exact attemptOf_talking (.inl ((heard_tx hears).trans sending))
  have held : seen.pool.queues[p.port].holder = some r := by rw [hseen]; exact holder
  have limit : seen.ports[p].retryLimit = s.ports[p].retryLimit := by rw [port]; exact (hearSymbols_frame hears.2).retryLimit
  refine ⟨fun header hfreed => ?_, fun header content hfreed => ?_⟩
  · have lost : endAttempt p .lost seen = refEnded p .lost (setTx p .idle (countPort p .arbLost 1 seen)) := endAttempt_frame talks
    have held' : (setTx p .idle (countPort p .arbLost 1 seen)).pool.queues[p.port].holder = some r := held
    refine ⟨fun unmarked => ?_, fun m marked => ?_⟩
    · rw [exec_arbitrationLost hears sending inside one header, ← hseen, lost, refEnded_lost held' unmarked, hfreed]
      rfl
    · rw [exec_arbitrationLost hears sending inside one header, ← hseen, lost, refEnded_lost_marked held' marked, hfreed]
      rfl
  · obtain ⟨returns, fails, marked⟩ := ends p frame r seen talks held
    rw [exec_overdrive hears sending inside one header content, ← hseen, hfreed]
    rw [limit] at returns fails
    exact ⟨fun unmarked within => by rw [returns unmarked within], fun unmarked beyond => by rw [fails unmarked beyond],
      fun m h => by rw [marked m h]⟩

/-! ### The end of the port's own frame (R16, R38) -/

section
variable {p : SegPort} {low : Option Ticks} {slots : List BitSlot} {early : Option Ticks} {s : State} {pt : Port} {a : Attempt}

theorem exec_attemptEnd {at' : Ticks} (hears : Hears p ⟨low, slots, none⟩ s pt) (rx : s.ports[p].rx = .slots)
    (tx : s.ports[p].tx = .slots a) (ends : FrameEnds early pt at') :
    exec (.attemptEnd p low slots early) s = .next (settle (endFrame p early.isSome at'
      (endAttempt p (outcomeOf a.frame.dest (readings pt.assembly).1 (readings pt.assembly).2) (withHeard p pt s)))) := by
  show execAttemptEnd p low slots early s = _
  rw [execAttemptEnd, tx, rx, hearOn_of_hears hears]
  dsimp only
  rw [withHeard_port, (frameEnd_eq_some early pt at').mpr ends]

theorem frameEnd?_none (no : ∀ at' : Ticks, ¬FrameEnds early pt at') : frameEnd? early pt = none := by
  cases ends : frameEnd? early pt with
  | none => rfl
  | some at' => exact absurd ((frameEnd_eq_some early pt at').mp ends) (no at')

theorem exec_attemptEnd_short (hears : Hears p ⟨low, slots, none⟩ s pt) (rx : s.ports[p].rx = .slots)
    (tx : s.ports[p].tx = .slots a) (no : ∀ at' : Ticks, ¬FrameEnds early pt at') :
    exec (.attemptEnd p low slots early) s = .next (withHeard p pt s) := by
  show execAttemptEnd p low slots early s = _
  rw [execAttemptEnd, tx, rx, hearOn_of_hears hears]
  dsimp only
  rw [withHeard_port, frameEnd?_none no]

end

/-- A slot is read as asserted where its bit is 0 (R16). -/
theorem readings_eq {a : Assembly} {before : List Bool} {acceptLow refuseLow : Bool}
    (bits : a.bits = before ++ [!acceptLow, !refuseLow]) : readings a = (acceptLow, refuseLow) := by
  have slots : a.bits.drop (a.bits.length - 2) = [!acceptLow, !refuseLow] := by
    rw [bits, List.length_append]
    exact List.drop_left
  rw [readings, slots]
  cases acceptLow <;> cases refuseLow <;> rfl

theorem outcomeOf_delivered {dest : Address} {acceptLow : Bool} (h : acceptLow = true ∨ 120 ≤ dest.val) :
    outcomeOf dest acceptLow false = .delivered := by
  rw [outcomeOf, if_neg Bool.false_ne_true]
  rcases h with h | h
  · rw [h, if_pos rfl, ite_self]
  · rw [if_pos h]

theorem outcomeOf_missed {dest : Address} {acceptLow refuseLow : Bool} (h : refuseLow = true ∨ (acceptLow = false ∧ dest.val < 120)) :
    Missed (outcomeOf dest acceptLow refuseLow) := by
  rw [outcomeOf]
  rcases h with h | ⟨silent, node⟩
  · rw [if_pos h]
    exact ⟨nofun, nofun⟩
  · rw [silent, if_neg (not_le.mpr node), if_neg Bool.false_ne_true]
    split <;> exact ⟨nofun, nofun⟩

theorem deliverRef_node {p : SegPort} {r : Ref} {s : State} {i : Fin 120} (h : (slotOf r s).frame.dest.val = i.val) :
    deliverRef p r s = dropRef p.port r .delivered (modNode i (fun e => { e with failures := 0 }) (countPort p .delivered 1 s)) := by
  rw [deliverRef, nodeDelivered, nodeIndex?_node h]

theorem deliverRef_group {p : SegPort} {r : Ref} {s : State} (h : 120 ≤ (slotOf r s).frame.dest.val) :
    deliverRef p r s = dropRef p.port r .delivered (countPort p .delivered 1 s) := by
  have none : nodeIndex? (slotOf r s).frame.dest = none := dif_neg (not_lt.mpr h)
  rw [deliverRef, nodeDelivered, none]

/-- Settles O34. -/
theorem attemptEndTakesOutcome : Obligations.AttemptEndTakesOutcome := by
  refine ⟨?_, endFrame_eq, fun q r s => rfl, fun p r reason s => ⟨rfl, rfl⟩,
    fun p r s => ⟨fun i => deliverRef_node, deliverRef_group⟩⟩
  rintro p low slots sy early pt frame r s ended rfl hears rx tx holder hended
  have port : (withHeard p pt s).ports[p] = pt := withHeard_port p pt s
  have talks : attemptOf (withHeard p pt s).ports[p] = some ⟨false, frame⟩ := by
    rw [port]
    exact attemptOf_talking (.inr ((heard_tx hears).trans tx))
  have held : (setTx p .idle (withHeard p pt s)).pool.queues[p.port].holder = some r := holder
  have limit : (setTx p .idle (withHeard p pt s)).ports[p].retryLimit = s.ports[p].retryLimit := by
    rw [setTx, modPort_port, port]
    exact (hearSymbols_frame hears.2).retryLimit
  refine ⟨fun at' before acceptLow refuseLow ends bits => ?_, fun no => ?_⟩
  · rw [exec_attemptEnd hears rx tx ends, readings_eq bits, endAttempt_frame talks, hended]
    refine ⟨fun clear accepted => ?_, fun bad => ?_⟩
    · rw [clear, outcomeOf_delivered accepted, if_neg nofun, refEnded_delivered held]
    · have missed := outcomeOf_missed bad
      rw [if_neg missed.2]
      refine ⟨fun unmarked within => ?_, fun unmarked beyond => ?_, fun m marked => ?_⟩
      · rw [refEnded_missed missed held unmarked, limit, if_pos within]
      · rw [refEnded_missed missed held unmarked, limit, if_neg (not_le.mpr beyond)]
      · rw [refEnded_missed_marked missed held marked]
  · exact exec_attemptEnd_short hears rx tx no

/-! ### The attempt of a notice (R62) -/

/-- `n` is the notice in attempt on a port, and `before` and `after` are the other records of the list. -/
structure InAttempt (p : SegPort) (before after : List Notice) (n : Notice) (s : State) : Prop where
  notices : s.custody.notices = before ++ n :: after
  port : n.port = p
  inAttempt : n.inAttempt = true
  first : ∀ m ∈ before, ¬(m.port = p ∧ m.inAttempt = true)

namespace InAttempt

variable {p : SegPort} {before after : List Notice} {n : Notice} {s : State}

theorem found (h : InAttempt p before after n s) : noticeInAttempt p s = some n := by
  rw [noticeInAttempt, h.notices]
  refine find?_split (fun m hm => ?_) ?_
  · rw [Bool.eq_false_iff, ne_eq, Bool.and_eq_true, beq_iff_eq]
    exact h.first m hm
  · rw [Bool.and_eq_true, beq_iff_eq]
    exact ⟨h.port, h.inAttempt⟩

theorem updated (h : InAttempt p before after n s) (f : Notice → Option Notice) :
    updateNotice p f s = { s with custody := { s.custody with notices := before ++ (f n).toList ++ after } } := by
  have split : updateFirst (fun m => m.port == p && m.inAttempt) f s.custody.notices = before ++ (f n).toList ++ after := by
    rw [h.notices]
    refine updateFirst_split (fun m hm => ?_) ?_
    · rw [Bool.eq_false_iff, ne_eq, Bool.and_eq_true, beq_iff_eq]
      exact h.first m hm
    · rw [Bool.and_eq_true, beq_iff_eq]
      exact ⟨h.port, h.inAttempt⟩
  rw [updateNotice, modCustody, split]

theorem delivered (h : InAttempt p before after n s) : noticeEnded p .delivered s =
    countGateway .noticesSent { s with custody := { s.custody with notices := before ++ after } } := by
  rw [noticeEnded, h.found]
  dsimp only
  rw [h.updated, Option.toList_none, List.append_nil]

theorem lost (h : InAttempt p before after n s) : noticeEnded p .lost s =
    { s with custody := { s.custody with notices := before ++ { n with inAttempt := false } :: after } } := by
  rw [noticeEnded, h.found]
  dsimp only
  rw [h.updated, Option.toList_some, List.append_assoc]
  rfl

theorem missed (h : InAttempt p before after n s) {o : TalkerOutcome} (missed : Missed o) : noticeEnded p o s =
    if n.sendCount + 1 ≤ s.ports[p].retryLimit then
      { s with custody := { s.custody with
          notices := before ++ { n with inAttempt := false, sendCount := n.sendCount + 1 } :: after } }
    else countGateway .noticesFailed { s with custody := { s.custody with notices := before ++ after } } := by
  have stays := h.updated fun n => some { n with inAttempt := false, sendCount := n.sendCount + 1 }
  have leaves := h.updated fun _ => none
  rw [Option.toList_some, List.append_assoc, List.singleton_append] at stays
  rw [Option.toList_none, List.append_nil] at leaves
  rw [noticeEnded, h.found]
  cases o with
  | delivered => exact absurd rfl missed.1
  | lost => exact absurd rfl missed.2
  | unaccepted | refused | aborted =>
    dsimp only
    rw [stays, leaves]

end InAttempt

/-- Settles O35. -/
theorem noticeAttemptEnds : Obligations.NoticeAttemptEnds := by
  rintro p sy pt frame before after n s hears notices own attempt first
  have port : (withHeard p pt s).ports[p] = pt := withHeard_port p pt s
  have limit : pt.retryLimit = s.ports[p].retryLimit := (hearSymbols_frame hears.2).retryLimit
  have talker : ∀ {x : Attempt} {t : State}, (s.ports[p].tx = .sending x ∨ s.ports[p].tx = .slots x) → t.ports[p].tx = pt.tx →
      attemptOf t.ports[p] = some x := fun talks same =>
    attemptOf_talking (by rw [same, heard_tx hears]; exact talks)
  have idles : ∀ u : State, (setTx p .idle u).ports[p].retryLimit = u.ports[p].retryLimit := fun u => by rw [setTx, modPort_port]
  refine ⟨?_, fun sending inside header one => ⟨?_, ?_⟩⟩
  · rintro low slots early at' bits acceptLow refuseLow idle rfl rx tx node ends hbits hidle
    have known : InAttempt p before after n idle := by rw [hidle]; exact ⟨notices, own, attempt, first⟩
    have talks : attemptOf (withHeard p pt s).ports[p] = some ⟨true, frame⟩ := talker (.inr tx) (by rw [port])
    have idleLimit : idle.ports[p].retryLimit = s.ports[p].retryLimit := by rw [hidle, idles, port, limit]
    have custody : idle.custody = s.custody := by rw [hidle]; rfl
    rw [exec_attemptEnd hears rx tx ends, readings_eq hbits, endAttempt_notice talks]
    refine ⟨fun clear accepted => ?_, fun bad within => ?_, fun bad beyond => ?_⟩
    · rw [clear, outcomeOf_delivered (.inl accepted), if_neg nofun, ← hidle, known.delivered, custody]
    · have missed : Missed (outcomeOf frame.dest acceptLow refuseLow) := outcomeOf_missed (bad.imp_right fun x => ⟨x, node⟩)
      rw [if_neg missed.2, ← hidle, known.missed missed, idleLimit, if_pos within, custody]
    · have missed : Missed (outcomeOf frame.dest acceptLow refuseLow) := outcomeOf_missed (bad.imp_right fun x => ⟨x, node⟩)
      rw [if_neg missed.2, ← hidle, known.missed missed, idleLimit, if_neg (not_le.mpr beyond), custody]
  · have known : InAttempt p before after n (setTx p .idle (countPort p .arbLost 1
        (advance (pt.edge + 44 * bitPeriod pt.rate / 100) (withHeard p pt s)))) := ⟨notices, own, attempt, first⟩
    have talks : attemptOf (advance (pt.edge + 44 * bitPeriod pt.rate / 100) (withHeard p pt s)).ports[p] = some ⟨true, frame⟩ :=
      talker (.inl sending) (by rw [show (advance _ (withHeard p pt s)).ports[p] = pt from port])
    rw [exec_arbitrationLost hears sending inside one header, endAttempt_notice talks, if_pos rfl, known.lost]
    have line : ∀ t : State, release p (setTx p .idle t) = modPort p (fun q => { q with tx := .idle, pin := [], pulse := none }) t :=
      fun t => by rw [release, setTx, modPort_modPort]; rfl
    exact congrArg (fun t => Host.Outcome.next (settle t)) (line (countPort p .arbLost 1
      { advance (pt.edge + 44 * bitPeriod pt.rate / 100) (withHeard p pt s) with
        custody := { s.custody with notices := before ++ { n with inAttempt := false } :: after } }))
  · intro ended hended
    have aborts : ∀ u : State, u.custody = s.custody → u.ports[p].retryLimit = s.ports[p].retryLimit →
        u.ports[p].tx = .sending ⟨true, frame⟩ ∨ u.ports[p].tx = .slots ⟨true, frame⟩ → endAttempt p .aborted u = ended u := by
      intro u custody same talks
      have known : InAttempt p before after n (setTx p .idle u) := ⟨by rw [← notices, ← custody]; rfl, own, attempt, first⟩
      have ends : endAttempt p .aborted u = noticeEnded p .aborted (setTx p .idle u) := endAttempt_notice (attemptOf_talking talks)
      rw [ends, known.missed missed_aborted, idles, same, hended]
      show (if _ then { setTx p .idle u with custody := { u.custody with notices := _ } } else
        countGateway .noticesFailed { setTx p .idle u with custody := { u.custody with notices := _ } }) = _
      rw [custody]
    refine ⟨fun at' seen sending inside header content one hat hseen => ?_, fun seen talks inside agrees hseen => ?_,
      fun fault at' q seen talks detected hseen => ?_, aborts⟩
    · have at_p : seen.ports[p] = pt := by rw [hseen]; exact port
      have same : seen.ports[p].retryLimit = s.ports[p].retryLimit := by rw [at_p, limit]
      have talks : seen.ports[p].tx = .sending ⟨true, frame⟩ := by rw [at_p, heard_tx hears, sending]
      rw [exec_overdrive hears sending inside one header content, ← hat, ← hseen]
      rw [aborts seen (by rw [hseen]; rfl) same (.inl talks)]
    · have at_p : seen.ports[p] = pt := by rw [hseen]; exact port
      have same : seen.ports[p].retryLimit = s.ports[p].retryLimit := by rw [at_p, limit]
      have talker' : isTalker seen.ports[p] = true := by rw [isTalker, talker talks (by rw [at_p])]; rfl
      rw [exec_abortPulse hears inside agrees, ← hseen, disarm_talker _ _ talker', aborts seen (by rw [hseen]; rfl) same
        (by rw [at_p, heard_tx hears]; exact talks), toFlush, release, modPort_modPort]
      rfl
    · have at_p : seen.ports[p] = q := by rw [hseen, modPort_port]
      have shown : q.tx = pt.tx ∧ q.retryLimit = pt.retryLimit := by
        rcases detected with ⟨low, -, -, -, -, -, rfl⟩ | ⟨gap, -, -, -, -, -, rfl⟩ | ⟨waited, -, -, -, -, -, -, rfl⟩ <;> exact ⟨rfl, rfl⟩
      have talker' : isTalker seen.ports[p] = true := by rw [isTalker, talker talks (by rw [at_p, shown.1])]; rfl
      have counted : (countPort p .rxSignalErrors 1 seen).ports[p] = { q with counters := (countPort p .rxSignalErrors 1 seen).ports[p].counters } := by
        rw [countPort, modPort_port, at_p]
      rw [exec_signalError hears detected, ← hseen, frameError_talker _ _ _ _ talker', talkerLeaves,
        aborts (countPort p .rxSignalErrors 1 seen) (by rw [hseen]; rfl) (by rw [counted, ← limit]; exact shown.2)
          (by rw [counted]; dsimp only; rw [shown.1, heard_tx hears]; exact talks)]

end Sys2Proof.Machine
end

