-- ==== Sys2Proof/Proofs/Routing.lean ====
section
/-! PROOFS. A lookup in the route list, and what admission makes of its decision (R74 to R84, R100, R115 to R121). -/

-- One theorem after another: many at once need a thread each.
set_option Elab.async false

namespace Sys2Proof.Machine

/-! ### Where a node is (R75, R80, R93, R97) -/

theorem nodeIndex?_of_lt {a : Address} (h : a.val < 120) : nodeIndex? a = some ⟨a.val, h⟩ := dif_pos h

theorem nodeIndex?_of_ge {a : Address} (h : 120 ≤ a.val) : nodeIndex? a = none := dif_neg (Nat.not_lt.mpr h)

theorem isMisplaced_iff {p : SegPort} {a : Address} {s : State} : isMisplaced p a s = true ↔ ∃ h : a.val < 120,
    s.nodes.entries[a.val].location = .trunk ∨ ∃ q : SegPort, q ≠ p ∧ s.nodes.entries[a.val].location = .seg q := by
  by_cases h : a.val < 120
  · have entry : nodeLocation a s = s.nodes.entries[a.val].location := by rw [nodeLocation, nodeIndex?_of_lt h]; rfl
    rw [isMisplaced, entry]
    cases at' : s.nodes.entries[a.val].location <;> simp [h, at']
  · have entry : nodeLocation a s = .unassigned := by rw [nodeLocation, nodeIndex?_of_ge (Nat.not_lt.mp h)]
    rw [isMisplaced, entry]
    simp [h]

theorem nodeBlocked_iff {a : Address} {s : State} : nodeBlocked a s = true ↔ ∃ h : a.val < 120, s.nodes.entries[a.val].blocked = true := by
  by_cases h : a.val < 120
  · rw [nodeBlocked, nodeIndex?_of_lt h]
    exact ⟨fun x => ⟨h, x⟩, fun ⟨_, x⟩ => x⟩
  · rw [nodeBlocked, nodeIndex?_of_ge (Nat.not_lt.mp h)]
    simp [h]

theorem resolveHome_of_ge {ingress : PortId} {dest : Address} {s : State} (h : 120 ≤ dest.val) :
    resolveHome ingress dest s = (0, some .noHome) := by rw [resolveHome, nodeIndex?_of_ge h]

/-- HOME, by the location of the destination's node (R80, R82). -/
theorem resolveHome_of_lt {ingress : PortId} {dest : Address} {s : State} (h : dest.val < 120) :
    resolveHome ingress dest s = match s.nodes.entries[dest.val].location with
      | .unassigned => (0, some .noHome)
      | .trunk => if ingress = trunkPort then (0, some .noHome) else (16, none)
      | .seg p =>
        if ingress = p.port then (0, none)
        else if s.nodes.entries[dest.val].blocked = true then (0, some .blocked)
        else (BitVec.ofNat 5 (2 ^ p.val), none) := by
  rw [resolveHome, nodeIndex?_of_lt h]
  rfl

/-! ### Matching (R76 to R79) -/

theorem entryMatches_iff {ingress : PortId} {dest source : Address} {service : Service} {e : RouteEntry} :
    entryMatches ingress dest source service e = true ↔
      e.valid = true ∧ e.ingress.getLsbD ingress.val = true ∧ (e.destLow ≤ dest.val ∧ dest.val ≤ e.destHigh) ∧
        (e.source = none ∨ ∃ low high, e.source = some (low, high) ∧ low ≤ source.val ∧ source.val ≤ high) ∧
        e.services.getLsbD service.val = true := by
  unfold entryMatches
  cases e.source with
  | none => simp [and_assoc]
  | some range =>
    obtain ⟨low, high⟩ := range
    simp [and_assoc]

theorem findEntry_first {ingress : PortId} {dest source : Address} {service : Service} {r : RouteList} {i : RouteIndex}
    (hit : entryMatches ingress dest source service (activeBank r)[i] = true)
    (first : ∀ j : RouteIndex, j < i → entryMatches ingress dest source service (activeBank r)[j] = false) :
    findEntry ingress dest source service r = some i :=
  find?_sorted (List.pairwise_lt_finRange 64) (List.mem_finRange i) hit first

theorem findEntry_none {ingress : PortId} {dest source : Address} {service : Service} {r : RouteList}
    (miss : ∀ j : RouteIndex, entryMatches ingress dest source service (activeBank r)[j] = false) :
    findEntry ingress dest source service r = none := by
  rw [findEntry, List.find?_eq_none]
  intro j _
  rw [miss j]
  exact Bool.false_ne_true

theorem getLsbD_portSingleton (q p : PortId) : (portSingleton p).getLsbD q.val = (q == p) := by
  revert q p
  decide

theorem getLsbD_portErase (set : PortSet) (p q : PortId) : (portErase set p).getLsbD q.val = (set.getLsbD q.val && q != p) := by
  have inside : q.val < 5 := q.isLt
  rw [portErase, BitVec.getLsbD_and, BitVec.getLsbD_not, getLsbD_portSingleton, decide_eq_true inside, Bool.true_and]
  rfl

theorem activeBank_setActive (b : Vector RouteEntry 64) (r : RouteList) : activeBank (setActive b r) = b := by
  unfold setActive activeBank
  cases r.activeIsB <;> rfl

theorem shadowBank_setActive (b : Vector RouteEntry 64) (r : RouteList) : shadowBank (setActive b r) = shadowBank r := by
  unfold setActive shadowBank
  cases r.activeIsB <;> simp

theorem setActive_epochs (b : Vector RouteEntry 64) (r : RouteList) : (setActive b r).epoch = r.epoch ∧
    (setActive b r).purgeEpoch = r.purgeEpoch ∧ (setActive b r).commit = r.commit := by
  unfold setActive
  cases r.activeIsB <;> exact ⟨rfl, rfl, rfl⟩

/-- Settles O36. -/
theorem lookupTakesFirstMatch : Obligations.LookupTakesFirstMatch := by
  refine ⟨fun p f s => ⟨isMisplaced_iff, fun away => if_pos away, fun here => ?_⟩, fun _ _ _ _ _ => entryMatches_iff, ?_, ?_,
    fun ingress dest s => ⟨resolveHome_of_ge, fun h => ?_⟩⟩
  · exact if_neg (by rw [here]; exact Bool.false_ne_true)
  · rintro ingress miss f i e d s t rfl hit first taken
    rw [matchFrame, findEntry_first hit first] at taken
    obtain ⟨rfl, rfl⟩ := Prod.mk.inj taken
    refine ⟨rfl, rfl, rfl, rfl, rfl, rfl, ?_, fun forward => ?_, fun home => ?_, fun drop => ?_, ?_⟩
    · show mirrorOf _ _ _ = true ↔ _
      rw [mirrorOf, Bool.and_eq_true, Bool.and_eq_true, Bool.not_eq_true', bne_iff_ne, and_assoc]
      rfl
    · have resolved : resolveEntry ingress f.dest (activeBank s.route)[i] s = resolveForward ingress (activeBank s.route)[i].egress := by
        rw [resolveEntry, forward]
      simp only [entryDecision, resolved, resolveForward]
      exact ⟨getLsbD_portErase _ _, trivial⟩
    · have resolved : resolveEntry ingress f.dest (activeBank s.route)[i] s = resolveHome ingress f.dest s := by
        rw [resolveEntry, home]
      simp only [entryDecision, resolved]
    · have resolved : resolveEntry ingress f.dest (activeBank s.route)[i] s = (0, some .dropped) := by rw [resolveEntry, drop]
      simp only [entryDecision, resolved]
      exact ⟨trivial, trivial⟩
    · obtain ⟨epoch, purge, commit⟩ := setActive_epochs (modAt (activeBank s.route) i fun e => { e with hits := saturate e.hits 1 }) s.route
      refine ⟨_, rfl, shadowBank_setActive _ _, epoch, purge, commit, fun j => ?_⟩
      rw [activeBank_setActive, getElem_modAt_fin]
      rfl
  · rintro ingress miss f d s t misses taken
    rw [matchFrame, findEntry_none misses] at taken
    obtain ⟨rfl, rfl⟩ := Prod.mk.inj taken
    unfold resolveMiss
    by_cases trunk : ingress = trunkPort
    · rw [if_pos trunk]
      exact ⟨rfl, rfl, rfl, rfl, rfl, rfl, rfl, fun _ => ⟨rfl, rfl, rfl⟩, fun seg => absurd trunk seg⟩
    · rw [if_neg trunk]
      cases miss with
      | drop => exact ⟨rfl, rfl, rfl, rfl, rfl, rfl, rfl, fun _ => ⟨rfl, rfl, rfl⟩, fun _ no => absurd rfl no⟩
      | homePassive | homeCustody =>
        exact ⟨rfl, rfl, rfl, rfl, rfl, rfl, rfl, fun h => absurd h (by simp [trunk]), fun _ _ => ⟨rfl, rfl⟩⟩
  · rw [resolveHome_of_lt h]
    refine ⟨fun at' => ?_, fun at' => ?_, fun p at' => ?_⟩ <;> rw [at']

/-! ### The checks of admission (R115 to R118) -/

theorem mem_portMembers {q : PortId} {set : PortSet} : q ∈ portMembers set ↔ set.getLsbD q.val = true := by
  rw [portMembers, List.mem_filter]
  exact and_iff_right ((by decide : ∀ q : PortId, q ∈ allPorts) q)

theorem portMembers_nodup (set : PortSet) : (portMembers set).Nodup := List.Nodup.filter _ (by decide)

theorem portMembers_isEmpty {set : PortSet} : (portMembers set).isEmpty = true ↔ set = 0 := by
  revert set
  decide

/-- The reasons for which the members of a set fail their checks. -/
def failures (dest : Address) (set : PortSet) (s : State) : List Reason := (portMembers set).filterMap (targetFailure dest s)

theorem mem_failures {dest : Address} {set : PortSet} {s : State} {reason : Reason} :
    reason ∈ failures dest set s ↔ ∃ q : PortId, set.getLsbD q.val = true ∧ targetFailure dest s q = some reason := by
  rw [failures, List.mem_filterMap]
  simp only [mem_portMembers]

theorem failures_isEmpty {dest : Address} {set : PortSet} {s : State} :
    (failures dest set s).isEmpty = true ↔ ∀ q : PortId, set.getLsbD q.val = true → targetFailure dest s q = none := by
  rw [List.isEmpty_iff, failures, List.filterMap_eq_nil_iff]
  simp only [mem_portMembers]

/-- The members of a set that pass their checks. -/
def passing (dest : Address) (set : PortSet) (s : State) : List PortId :=
  (portMembers set).filter fun q => (targetFailure dest s q).isNone

theorem mem_passing {dest : Address} {set : PortSet} {s : State} {q : PortId} :
    q ∈ passing dest set s ↔ set.getLsbD q.val = true ∧ targetFailure dest s q = none := by
  rw [passing, List.mem_filter, mem_portMembers, Option.isNone_iff_eq_none]

section
variable {dest : Address} {d : Decision} {s : State}

theorem settleTargets_stale (stale : d.epoch < s.route.purgeEpoch) : settleTargets dest d s = ⟨.none, some .reconfigured, [], []⟩ :=
  if_pos (decide_eq_true stale)

theorem settleTargets_fresh (fresh : s.route.purgeEpoch ≤ d.epoch) : settleTargets dest d s =
    match d.refusal with
    | some reason => ⟨.none, some reason, [], []⟩
    | none =>
      if (portMembers d.egress).isEmpty then ⟨.loc, none, [], []⟩
      else if (failures dest d.egress s).isEmpty then ⟨.all, none, portMembers d.egress, []⟩
      else if d.mode = .custody ∨ (passing dest d.egress s).isEmpty then
        ⟨.none, some (noneReason (failures dest d.egress s)), [], failures dest d.egress s⟩
      else ⟨.some, none, passing dest d.egress s, failures dest d.egress s⟩ := by
  have notStale : ¬ staleDecision d s = true := by
    rw [staleDecision, isStale, decide_eq_true_eq]
    exact not_lt.mpr fresh
  rw [settleTargets, if_neg notStale]
  rfl

theorem settleTargets_refused {reason : Reason} (fresh : s.route.purgeEpoch ≤ d.epoch) (refused : d.refusal = some reason) :
    settleTargets dest d s = ⟨.none, some reason, [], []⟩ := by rw [settleTargets_fresh fresh, refused]

theorem settleTargets_local (fresh : s.route.purgeEpoch ≤ d.epoch) (clear : d.refusal = none) (empty : d.egress = 0) :
    settleTargets dest d s = ⟨.loc, none, [], []⟩ := by
  rw [settleTargets_fresh fresh, clear]
  exact if_pos (portMembers_isEmpty.mpr empty)

/-- With a target at least, the checks decide (R117, R118). -/
theorem settleTargets_checked (fresh : s.route.purgeEpoch ≤ d.epoch) (clear : d.refusal = none) (targets : d.egress ≠ 0) :
    settleTargets dest d s =
      if (failures dest d.egress s).isEmpty then ⟨.all, none, portMembers d.egress, []⟩
      else if d.mode = .custody ∨ (passing dest d.egress s).isEmpty then
        ⟨.none, some (noneReason (failures dest d.egress s)), [], failures dest d.egress s⟩
      else ⟨.some, none, passing dest d.egress s, failures dest d.egress s⟩ := by
  rw [settleTargets_fresh fresh, clear]
  exact if_neg (mt portMembers_isEmpty.mp targets)

end

/-- The reason of a NONE over failing targets, as a matter of which failures there are (R118). -/
theorem noneReason_eq (fails : List Reason) : noneReason fails =
    if .blocked ∈ fails then .blocked else if .portDisabled ∈ fails then .portDisabled else .noSpace := by
  simp only [noneReason, List.contains_iff_mem]

theorem length_laneRefs (q : Queue) : (laneRefs q).length = (q.lanes.toList.map List.length).sum := List.length_flatten

theorem occupancy_eq (q : Queue) : occupancy q =
    (q.lanes.toList.map List.length).sum + (if q.holder.isSome then 1 else 0) + q.pending.length := by
  have holder : q.holder.toList.length = if q.holder.isSome then 1 else 0 := by cases q.holder <;> rfl
  rw [occupancy, queueLength, length_laneRefs, holder]

/-- Settles O37. -/
theorem admissionSettlesTargets : Obligations.AdmissionSettlesTargets := by
  refine ⟨fun dest d s => ⟨fun stale => ?_, fun reason fresh refused => ?_, fun fresh clear empty => ?_, fun fresh clear targets =>
    ⟨fun pass => ?_, ?_⟩⟩, fun dest s used hused => ⟨fun p => ?_, ?_⟩⟩
  · rw [settleTargets_stale stale]
    exact ⟨rfl, rfl⟩
  · rw [settleTargets_refused fresh refused]
    exact ⟨rfl, rfl⟩
  · rw [settleTargets_local fresh clear empty]
  · rw [settleTargets_checked fresh clear targets, if_pos (failures_isEmpty.mpr pass)]
    exact ⟨rfl, fun q => mem_portMembers⟩
  · rintro ⟨q, member, fails⟩
    have some' : ¬ (failures dest d.egress s).isEmpty = true := fun none => fails (failures_isEmpty.mp none q member)
    have empty : (passing dest d.egress s).isEmpty = true ↔
        ∀ q : PortId, d.egress.getLsbD q.val = true → targetFailure dest s q ≠ none := by
      rw [List.isEmpty_iff, List.eq_nil_iff_forall_not_mem]
      simp only [mem_passing, not_and, ne_eq]
    rw [settleTargets_checked fresh clear targets, if_neg some']
    refine ⟨fun custody => ?_, fun passive => ⟨?_, fun all => ?_⟩, ?_⟩
    · rw [if_pos (.inl custody)]
      exact ⟨rfl, rfl⟩
    · rintro ⟨q', member', pass⟩
      have open' : ¬ (d.mode = .custody ∨ (passing dest d.egress s).isEmpty = true) := by
        rintro (h | h)
        · rw [passive] at h
          cases h
        · exact empty.mp h q' member' pass
      rw [if_neg open']
      exact ⟨rfl, fun q => mem_passing⟩
    · rw [if_pos (.inr (empty.mpr all))]
      exact ⟨rfl, rfl⟩
    · split
      · intro _
        rw [noneReason_eq]
        simp only [mem_failures]
      · exact nofun
  · have room : occupancy s.pool.queues[p.port] = used p.port := by rw [occupancy_eq, hused]
    rw [targetFailure, segOf?_port]
    dsimp only
    rw [room]
    simp only [Bool.not_eq_true', ← nodeBlocked_iff]
  · have room : occupancy s.pool.queues[trunkPort] = used trunkPort := by rw [occupancy_eq, hused]
    rw [← room]
    rfl

/-! ### The slot of an admitted segment frame (R119 to R121) -/

theorem settleTargets_admitted_nodup (dest : Address) (d : Decision) (s : State) : (settleTargets dest d s).admitted.Nodup := by
  unfold settleTargets
  split
  · exact List.nodup_nil
  · split
    · exact List.nodup_nil
    · dsimp only
      split_ifs
      · exact List.nodup_nil
      · exact portMembers_nodup _
      · exact List.nodup_nil
      · exact List.Nodup.filter _ (portMembers_nodup _)

/-- Where a target is admitted, the failures noted are those of the egress set. -/
theorem settleTargets_fails {dest : Address} {d : Decision} {s : State} (admitted : (settleTargets dest d s).admitted ≠ []) :
    (settleTargets dest d s).fails = failures dest d.egress s := by
  revert admitted
  unfold settleTargets
  split
  · exact fun h => absurd rfl h
  · split
    · exact fun h => absurd rfl h
    · dsimp only
      split_ifs with local' all bad
      · exact fun h => absurd rfl h
      · exact fun _ => (List.isEmpty_iff.mp all).symm
      · exact fun h => absurd rfl h
      · exact fun _ => rfl

theorem mirrorDue_iff {d : Decision} {s : State} : mirrorDue d s = true ↔ s.route.purgeEpoch ≤ d.epoch ∧ d.mirror = true ∧
    (s.pool.queues[4].lanes.toList.map List.length).sum + (if s.pool.queues[4].holder.isSome then 1 else 0) +
      s.pool.queues[4].pending.length < 48 := by
  have room : occupancy s.pool.queues[trunkPort] = (s.pool.queues[4].lanes.toList.map List.length).sum +
      (if s.pool.queues[4].holder.isSome then 1 else 0) + s.pool.queues[4].pending.length := occupancy_eq _
  rw [mirrorDue, room, Bool.and_eq_true, Bool.and_eq_true, and_assoc, Bool.not_eq_true', staleDecision, isStale,
    decide_eq_false_iff_not, not_lt, decide_eq_true_iff]
  rfl

/-- References made pending in several queues. -/
theorem foldl_addPending (r : Ref) (qs : List PortId) (s : State) :
    qs.foldl (addPending r) s =
      { s with pool := { s.pool with queues := qs.foldl (fun v q => modAt v q fun Q => { Q with pending := Q.pending ++ [r] }) s.pool.queues } } :=
  foldl_modQueue _ qs s

theorem noneReason_full (fails : List Reason) : noneReason (fails ++ [.noSpace]) = noneReason fails := by
  rw [noneReason_eq, noneReason_eq]
  simp only [List.mem_append, List.mem_singleton, reduceCtorEq, or_false]

theorem takeSlot_eq (p : SegPort) (f : Frame) (d : Decision) (i : SlotId) (rest : List SlotId) (admitted : List PortId) (mirror : Bool)
    (s : State) (free : s.pool.free = i :: rest) (distinct : admitted.Nodup) :
    ∃ pool : Pool, takeSlot p f d i admitted mirror s = { s with pool := pool } ∧ pool.free = rest ∧
      pool.reserveSize = s.pool.reserveSize ∧ pool.lifetimes = s.pool.lifetimes ∧
      pool.slots = s.pool.slots.set i
        { status := .queued, frame := f, origin := p.port, ingress := p.port, entry := d.entry, priority := d.priority
          epoch := d.epoch, deadline := deadlineOf d.lifetime s, custody := false, tag := none
          refs := admitted.length + mirror.toNat, inbound := none, decision := none } ∧
      ∀ q : PortId, pool.queues[q] = { s.pool.queues[q] with
        pending := s.pool.queues[q].pending ++ (if q ∈ admitted then [⟨i, .frame, 0, none⟩] else []) ++
          (if mirror = true ∧ q = trunkPort then [⟨i, .trap, 0, none⟩] else []) } := by
  have joined : ∀ q : PortId, (admitted.foldl (fun v q => modAt v q fun Q => { Q with pending := Q.pending ++ [newRef i .frame] })
      s.pool.queues)[q] = { s.pool.queues[q] with
        pending := s.pool.queues[q].pending ++ (if q ∈ admitted then [⟨i, .frame, 0, none⟩] else []) } := by
    intro q
    rw [foldl_modAt _ _ _ _ distinct]
    split
    · rfl
    · rw [List.append_nil]
  unfold takeSlot
  dsimp only
  rw [foldl_addPending]
  cases mirror with
  | false =>
    refine ⟨_, rfl, ?_, rfl, rfl, rfl, fun q => ?_⟩
    · show s.pool.free.tail = rest
      rw [free, List.tail_cons]
    · have none' : ¬ (false = true ∧ q = trunkPort) := fun x => Bool.false_ne_true x.1
      rw [if_neg none', List.append_nil]
      exact joined q
  | true =>
    refine ⟨_, rfl, ?_, rfl, rfl, rfl, fun q => ?_⟩
    · show s.pool.free.tail = rest
      rw [free, List.tail_cons]
    · have last := getElem_modAt_fin (admitted.foldl (fun v q => modAt v q fun Q => { Q with pending := Q.pending ++ [newRef i .frame] })
        s.pool.queues) trunkPort q fun Q => { Q with pending := Q.pending ++ [newRef i .trap] }
      refine Eq.trans last ?_
      rw [joined]
      by_cases trunk : q = trunkPort
      · have copy : true = true ∧ q = trunkPort := ⟨rfl, trunk⟩
        rw [if_pos trunk, if_pos copy]
        rfl
      · have other : ¬ (true = true ∧ q = trunkPort) := fun x => trunk x.2
        rw [if_neg trunk, if_neg other, List.append_nil]

/-- Settles O38. -/
theorem segmentAdmissionTakesSlot : Obligations.SegmentAdmissionTakesSlot := by
  rintro p f d s mirror targets rfl hmirror
  have due : mirrorDue d s = mirror := by rw [Bool.eq_iff_iff, mirrorDue_iff, hmirror]
  have none' : ((settleTargets f.dest d s).admitted.isEmpty && !mirrorDue d s) = true ↔
      (settleTargets f.dest d s).admitted = [] ∧ mirror = false := by
    rw [due, Bool.and_eq_true, List.isEmpty_iff, Bool.not_eq_true']
  have needed : (settleTargets f.dest d s).admitted ≠ [] ∨ mirror = true →
      ¬ ((settleTargets f.dest d s).admitted.isEmpty && !mirrorDue d s) = true := by
    rw [none']
    rintro (h | h) ⟨empty, off⟩
    · exact h empty
    · rw [h] at off
      cases off
  refine ⟨fun empty off => ?_, fun i rest need free => ?_, fun free need => ?_⟩
  · rw [admitSegment, if_pos (none'.mpr ⟨empty, off⟩)]
  · have taken : admitSegment p f d s =
        (⟨(settleTargets f.dest d s).result, (settleTargets f.dest d s).reason, mirror, some i⟩,
          takeSlot p f d i (settleTargets f.dest d s).admitted mirror s) := by
      rw [admitSegment, if_neg (needed need), free, due]
    obtain ⟨pool, pools, others⟩ := takeSlot_eq p f d i rest _ mirror s free (settleTargets_admitted_nodup f.dest d s)
    rw [taken]
    exact ⟨rfl, pool, pools, others⟩
  · have full : admitSegment p f d s =
        if (settleTargets f.dest d s).admitted.isEmpty = true then
          (⟨(settleTargets f.dest d s).result, (settleTargets f.dest d s).reason, false, none⟩,
            countGateway .poolEmptyCount (raise .poolEmpty (.seg p) f.dest.val s))
        else (⟨.none, some (noneReason ((settleTargets f.dest d s).fails ++ [.noSpace])), false, none⟩,
          countGateway .poolEmptyCount (raise .poolEmpty (.seg p) f.dest.val s)) := by
      rw [admitSegment, if_neg (needed need), free]
    rw [full]
    refine ⟨?_, fun empty => ?_, fun admitted => ?_⟩
    · split <;> rfl
    · rw [if_pos (List.isEmpty_iff.mpr empty)]
    · rw [if_neg (mt List.isEmpty_iff.mp admitted), noneReason_full, settleTargets_fails admitted, noneReason_eq]
      simp only [mem_failures]

end Sys2Proof.Machine
end

