-- ==== Sys2Proof/Proofs/Records.lean ====
section
/-! PROOFS. The records of the gateway: notices, reports and events (R126, R134 to R141, R181 to R186). -/

-- One theorem after another: many at once need a thread each.
set_option Elab.async false

namespace Sys2Proof.Machine

/-! ### Notices, reports and end records (R126, R134 to R140) -/

theorem createNotice_suppressed {n : Notice} {s : State} (h : n.service = 15 ∨ nodeBlocked n.target s = true) :
    createNotice n s = countGateway .noticesSuppressed s := by
  unfold createNotice
  split_ifs with service blocked
  · rfl
  · rfl
  · exact absurd h (by simp [service, blocked])
  · exact absurd h (by simp [service, blocked])
  · exact absurd h (by simp [service, blocked])

/-- A notice that is not suppressed is discarded, lost or appended (R136). -/
theorem createNotice_open {n : Notice} {s : State} (service : n.service ≠ 15) (open' : nodeBlocked n.target s = false) :
    createNotice n s =
      if s.ports[n.port].enabled = false then countGateway .noticesCreated s
      else if 8 ≤ s.custody.notices.length then raise .noticeLost (.seg n.port) n.target.val (countGateway .noticesLost s)
      else modPort n.port (fun pt => { pt with due := true })
        { countGateway .noticesCreated s with custody := { s.custody with notices := s.custody.notices ++ [n] } } := by
  rw [createNotice, if_neg service, if_neg (by rw [open']; exact Bool.false_ne_true)]
  simp only [Bool.not_eq_true']
  rfl

theorem createReport_up {r : Report} {s : State} (h : s.trunk.link = .up ∨ s.trunk.link = .suspect) : createReport r s =
    if 16 ≤ s.custody.reports.length then raise .reportLost .trunk r.tag.toNat (countTrunk .reportsLost 1 s)
    else { s with custody := { s.custody with reports := s.custody.reports ++ [r] } } := by
  have down : ¬ (s.trunk.link = .seek ∨ s.trunk.link = .train) := by
    rcases h with h | h <;> rw [h] <;> decide
  rw [createReport, if_neg down]
  rfl

section
variable {sl : FrameSlot} {q : PortId} {n : Nat} {reason : Reason} {s : State}

theorem takeEndRecord_segment {o p : SegPort} (origin : sl.origin = o.port) (ingress : sl.ingress = p.port) :
    takeEndRecord sl q n reason s = if reason = .delivered then s
      else createNotice ⟨p, sl.frame.source, sl.frame.dest, sl.frame.service, reason, min n 255, q, 0, false⟩ s := by
  rw [takeEndRecord, origin, ingress, segOf?_port, segOf?_port]

theorem takeEndRecord_trunk (origin : sl.origin = trunkPort) :
    takeEndRecord sl q n reason s = sl.tag.elim s fun tag => createReport ⟨tag, reason, some q, min n 255, false⟩ s := by
  have trunk : segOf? trunkPort = none := rfl
  rw [takeEndRecord, origin, trunk]
  cases sl.tag <;> rfl

end

/-- A port number names a segment port or the trunk. -/
theorem port_cases (q : PortId) : (∃ p : SegPort, q = p.port) ∨ q = trunkPort := by
  revert q
  decide

/-- Settles O42. -/
theorem noticeIsCreatedOrLost : Obligations.NoticeIsCreatedOrLost := by
  refine ⟨fun n s => ⟨createNotice_suppressed, fun service open' => ⟨fun off => ?_, fun on full => ?_, fun on room => ?_⟩⟩,
    fun r s => ⟨fun down => if_pos down, fun up => ⟨fun full => ?_, fun room => ?_⟩⟩, ?_, fun p r reason s => ⟨?_, rfl⟩⟩
  · rw [createNotice_open service open', if_pos off]
  · rw [createNotice_open service open', if_neg (by rw [on]; nofun), if_pos full]
  · rw [createNotice_open service open', if_neg (by rw [on]; nofun), if_neg (not_le.mpr room)]
  · rw [createReport_up up, if_pos full]
  · rw [createReport_up up, if_neg (not_le.mpr room)]
  · rintro q r reason sl s handed rfl none record place
    have hands : (if endRecordDue (slotOf r s) r reason then takeEndRecord (slotOf r s) q r.count reason s else s) = handed := by
      split
      next due =>
        obtain ⟨⟨custody, kind⟩, tagged⟩ : ((slotOf r s).custody = true ∧ r.kind = .frame) ∧ (reason ≠ .delivered ∨ (slotOf r s).tag ≠ Option.none) := by
          simpa [endRecordDue, Option.isSome_iff_ne_none] using due
        obtain ⟨segment, trunkTagged, trunkUntagged⟩ := record custody kind tagged
        rcases port_cases (slotOf r s).origin with ⟨o, origin⟩ | origin
        · obtain ⟨p, ingress⟩ : ∃ p : SegPort, (slotOf r s).ingress = p.port := by
            refine place.resolve_right fun trunk => ?_
            exact absurd (origin.symm.trans trunk) ((by decide : ∀ o : SegPort, o.port ≠ trunkPort) o)
          rw [takeEndRecord_segment origin ingress, segment o p origin ingress]
          rfl
        · rw [takeEndRecord_trunk origin]
          cases tag : (slotOf r s).tag with
          | none => exact (trunkUntagged origin tag).symm
          | some t => exact (trunkTagged t origin tag).symm
      next notDue =>
        refine (none ?_).symm
        by_contra all
        rw [not_or, not_or, not_and_or] at all
        refine notDue ?_
        have kind : r.kind = .frame := by
          cases k : r.kind with
          | frame => rfl
          | trap => exact absurd k all.2.1
        simpa [endRecordDue, Option.isSome_iff_ne_none, kind, slotOf] using ⟨Bool.not_eq_false _ ▸ all.1, all.2.2⟩
    unfold dropRef
    dsimp only
    rw [hands]
    exact ⟨fun last => if_pos last, fun more => if_neg (not_le.mpr more)⟩
  · rw [discardRef, segOf?_port]

/-! ### Events (R181, R182) -/

theorem isFor_iff {kind : EventKind} {port : Location} {e : Event} : e.isFor kind port = true ↔ e.kind = kind ∧ e.port = port := by
  rw [Event.isFor, Bool.and_eq_true, beq_iff_eq, beq_iff_eq]

section
variable {kind : EventKind} {port : Location} {detail : Nat} {s : State}

theorem raise_masked (mask : masked kind s = true) : raise kind port detail s = s := if_pos mask

/-- An event whose record is there is one occurrence more in it. -/
theorem raise_again {before after : List Event} {e : Event} (mask : masked kind s = false)
    (records : s.events.records = before ++ e :: after) (own : e.kind = kind ∧ e.port = port)
    (others : ∀ x ∈ before ++ after, ¬(x.kind = kind ∧ x.port = port)) :
    raise kind port detail s =
      { s with events := { s.events with records := before ++ e.coalesce (min detail detailMax) :: after } } := by
  have there : s.events.records.any (Event.isFor kind port) = true := by
    rw [List.any_eq_true]
    exact ⟨e, by rw [records]; simp, isFor_iff.mpr own⟩
  have stay : ∀ l, l ⊆ before ++ after → l.map (fun x => if x.isFor kind port then x.coalesce (min detail detailMax) else x) = l := by
    intro l sub
    rw [List.map_congr_left fun x hx => if_neg (mt isFor_iff.mp (others x (sub hx))), List.map_id']
  have mapped : s.events.records.map (fun x => if x.isFor kind port then x.coalesce (min detail detailMax) else x) =
      before ++ e.coalesce (min detail detailMax) :: after := by
    rw [records, List.map_append, List.map_cons, stay before (List.subset_append_left _ _),
      stay after (List.subset_append_right _ _), if_pos (isFor_iff.mpr own)]
  rw [raise, mask, if_neg Bool.false_ne_true, if_pos there, modEvents, mapped]

theorem raise_new (mask : masked kind s = false) (none : ∀ x ∈ s.events.records, ¬(x.kind = kind ∧ x.port = port)) :
    raise kind port detail s = if s.events.records.length < 16 then
      { s with events := { s.events with records := s.events.records ++ [⟨kind, port, min detail detailMax, 1, false, 0, 0⟩] } }
      else countGateway .eventsLost s := by
  have absent : ¬ s.events.records.any (Event.isFor kind port) = true := by
    rw [List.any_eq_true]
    rintro ⟨x, mem, own⟩
    exact none x mem (isFor_iff.mp own)
  rw [raise, mask, if_neg Bool.false_ne_true, if_neg absent]
  rfl

end

/-- Settles O43. -/
theorem eventIsTaken : Obligations.EventIsTaken := by
  intro kind port detail s bit hbit
  have mask : masked kind s = bit := by rw [masked, hbit]; cases kind <;> rfl
  refine ⟨fun on => raise_masked (mask.trans on), fun before e after off records own at' others => ?_, fun off none => ?_⟩
  · rw [raise_again (mask.trans off) records ⟨own, at'⟩ others, Event.coalesce]
    exact ⟨fun still => by rw [still]; rfl, fun sending => by rw [sending]; rfl⟩
  · rw [raise_new (mask.trans off) none]
    exact ⟨fun room => if_pos room, fun full => if_neg (not_lt.mpr full)⟩

end Sys2Proof.Machine
end

