-- ==== Sys2Proof/Proofs/Stability.lean ====
section
/-! PROOFS. Whatever each single change of a removal or a turn of selection keeps, the whole removal and the selections keep. -/

-- One theorem after another: many at once need a thread each.
set_option Elab.async false

namespace Sys2Proof.Machine

/-- A property of states that each single change made by removals, sweeps and selection keeps. -/
structure Stable (P : State → Prop) : Prop where
  port : ∀ (p : SegPort) (f : Port → Port) (s : State), P s → P (modPort p f s)
  raise : ∀ (k : EventKind) (l : Location) (d : Nat) (s : State), P s → P (raise k l d s)
  gateway : ∀ (c : GatewayCounter) (s : State), P s → P (countGateway c s)
  node : ∀ (i : Fin 120) (f : NodeEntry → NodeEntry) (s : State), P s → P (modNode i f s)
  queue : ∀ (q : PortId) (f : Queue → Queue) (s : State), P s → P (modQueue q f s)
  notices : ∀ (f : List Notice → List Notice) (s : State), P s → P (modCustody (fun c => { c with notices := f c.notices }) s)
  report : ∀ (r : Report) (s : State), P s → P (createReport r s)
  release : ∀ (i : SlotId) (s : State), P s → P (releaseSlot i s)
  refs : ∀ (i : SlotId) (s : State), P s → P (modSlot i (fun x => { x with refs := x.refs - 1 }) s)

namespace Stable

variable {P : State → Prop} (stable : Stable P) {s : State}
include stable

theorem countPort (p : SegPort) (c : PortCounter) (n : Nat) (h : P s) : P (countPort p c n s) := stable.port _ _ _ h

theorem createNotice (n : Notice) (h : P s) : P (createNotice n s) := by
  unfold Machine.createNotice
  split_ifs
  · exact stable.gateway _ _ h
  · exact stable.gateway _ _ h
  · exact stable.gateway _ _ h
  · exact stable.raise _ _ _ _ (stable.gateway _ _ h)
  · exact stable.port _ _ _ (stable.gateway _ _ (stable.notices (· ++ [n]) _ h))

theorem takeEndRecord (sl : FrameSlot) (q : PortId) (n : Nat) (reason : Reason) (h : P s) : P (takeEndRecord sl q n reason s) := by
  unfold Machine.takeEndRecord
  split
  · split
    · exact h
    · exact stable.createNotice _ h
  · split
    · exact stable.report _ _ h
    · exact h

theorem dropRef (q : PortId) (r : Ref) (reason : Reason) (h : P s) : P (dropRef q r reason s) := by
  have handed : P (if endRecordDue (slotOf r s) r reason then Machine.takeEndRecord (slotOf r s) q r.count reason s else s) := by
    split
    · exact stable.takeEndRecord _ _ _ _ h
    · exact h
  unfold Machine.dropRef
  dsimp only
  split
  · exact stable.release _ _ handed
  · exact stable.refs _ _ handed

theorem discardRef (q : PortId) (r : Ref) (reason : Reason) (h : P s) : P (discardRef q r reason s) := by
  unfold Machine.discardRef
  split
  · exact stable.dropRef _ _ _ (stable.countPort _ _ _ h)
  · exact stable.dropRef _ _ _ h

theorem dueIfGone (q : PortId) (h : P s) : P (dueIfGone q s) := by
  unfold Machine.dueIfGone
  split
  · split
    · exact stable.port _ _ _ h
    · exact h
  · exact h

theorem sweepLanes (q : PortId) (hit : Ref → Bool) (reason : Reason) (h : P s) : P (sweepLanes q hit reason s) :=
  stable.dueIfGone _ <| List.foldlRecOn _ _ (stable.queue _ _ _ h) fun _ h _ _ => stable.discardRef _ _ _ h

theorem blockSweep (dest : Address) (h : P s) : P (blockSweep dest s) :=
  List.foldlRecOn _ _ h fun _ h _ _ => stable.sweepLanes _ _ _ (stable.queue _ _ _ (stable.queue _ _ _ h))

theorem nodeFailed (dest : Address) (h : P s) : P (nodeFailed dest s) := by
  unfold Machine.nodeFailed
  split
  · exact h
  · dsimp only
    split
    · exact stable.blockSweep _ (stable.raise _ _ _ _ (stable.node _ _ _ h))
    · exact stable.node _ _ _ h

theorem failRef (p : SegPort) (r : Ref) (reason : Reason) (report : Bool) (h : P s) : P (failRef p r reason report s) := by
  have ended := stable.dropRef p.port r reason (stable.countPort p .failed 1 h)
  unfold Machine.failRef
  dsimp only
  split
  · exact stable.nodeFailed _ ended
  · exact ended

theorem selectOnce (p : SegPort) (h : P s) : P (selectOnce p s) := by
  unfold Machine.selectOnce
  dsimp only
  split
  · split
    · exact stable.port _ _ _ h
    · exact stable.port _ _ _ h
    · split
      · exact stable.discardRef _ _ _ (stable.queue _ _ _ h)
      · split
        · exact stable.failRef _ _ _ _ (stable.queue _ _ _ h)
        · exact stable.port _ _ _ h
  · exact stable.port _ _ _ h

theorem settle (h : P s) : P (settle s) := by
  unfold Machine.settle
  generalize 2048 = n
  induction n generalizing s with
  | zero => exact h
  | succ n ih =>
    rw [runSelections_succ]
    split
    · exact ih (stable.selectOnce _ h)
    · exact h

end Stable

/-! ### With the link down (R114, R140, R157) -/

/-- No CREDIT is pending in a state of the link that does not send one. -/
def CreditAtRest (s : State) : Prop := s.trunk.link ≠ .up ∧ s.trunk.creditPending = false

theorem CreditAtRest.refill {s : State} (h : CreditAtRest s) : CreditAtRest (refill s) := by
  rw [refill_eq]
  refine ⟨h.1, ?_⟩
  dsimp only
  rw [h.2, beq_false_of_ne h.1, Bool.and_false]
  rfl

theorem createReport_trunk (r : Report) (s : State) :
    (createReport r s).trunk = { s.trunk with counters := (createReport r s).trunk.counters } := by
  unfold createReport
  split_ifs
  · rfl
  · rw [raise_frame]
    rfl
  · rfl

theorem creditAtRest_stable : Stable CreditAtRest where
  port _ _ _ h := h
  raise _ _ _ _ h := by rw [raise_frame]; exact h
  gateway _ _ h := h
  node _ _ _ h := h
  queue _ _ _ h := h
  notices _ _ h := h
  report r s h := by
    have trunk := createReport_trunk r s
    unfold CreditAtRest
    rw [trunk]
    exact h
  release i s h := by
    have noted : ∀ t, CreditAtRest t → CreditAtRest (noteCredit t) := fun t ht => by
      rw [noteCredit, if_neg ht.1]
      exact ht
    unfold releaseSlot
    dsimp only
    split
    · exact (noted (modSlot i (fun _ => .blank .unfilled) s) h).refill
    · exact CreditAtRest.refill h
  refs _ _ h := h

/-- No report is held where none is made (R140). -/
def NoReports (s : State) : Prop := (s.trunk.link = .seek ∨ s.trunk.link = .train) ∧ s.custody.reports = []

theorem noReports_stable : Stable NoReports where
  port _ _ _ h := h
  raise _ _ _ _ h := by rw [raise_frame]; exact h
  gateway _ _ h := h
  node _ _ _ h := h
  queue _ _ _ h := h
  notices _ _ h := h
  report r s h := by
    rw [createReport, if_pos h.1]
    exact h
  release i s h := by
    rw [releaseSlot_frame]
    exact h
  refs _ _ h := h

/-- A reserve that is trimmed holds no slot too many but filled ones (R114). -/
def ReserveFits (s : State) : Prop := unfilledCount s = 0 ∨ reservedCount s ≤ s.pool.reserveSize

theorem slotsIn_congr (st : SlotStatus) {s t : State} (slots : t.pool.slots = s.pool.slots) : slotsIn st t = slotsIn st s := by
  unfold slotsIn
  rw [slots]

theorem reservedCount_congr {s t : State} (slots : t.pool.slots = s.pool.slots) : reservedCount t = reservedCount s := by
  unfold reservedCount unfilledCount
  rw [slotsIn_congr _ slots, slotsIn_congr _ slots]

theorem ReserveFits.congr {s t : State} (h : ReserveFits s) (slots : t.pool.slots = s.pool.slots)
    (size : t.pool.reserveSize = s.pool.reserveSize) : ReserveFits t := by
  unfold ReserveFits unfilledCount
  rw [slotsIn_congr _ slots, reservedCount_congr slots, size]
  exact h

theorem reservedCount_fill_le (l : List SlotId) (s : State) :
    reservedCount (modPool (fun p => { p with slots := l.foldl (fun v i => modAt v i fun _ => .blank .unfilled) p.slots }) s) ≤
      reservedCount s + l.length := by
  induction l generalizing s with
  | nil => exact Nat.le_refl _
  | cons i l ih =>
    have rest := ih (modSlot i (fun _ => .blank .unfilled) s)
    have first := reservedCount_modSlot i (fun _ => .blank .unfilled) s
    have unfilled : (FrameSlot.blank .unfilled).reserves = 1 := rfl
    rw [List.length_cons]
    refine rest.trans ?_
    omega

theorem reservedCount_takeIn_le (n : Nat) (s : State) : reservedCount (modPool (·.takeIn n) s) ≤ reservedCount s + n :=
  (reservedCount_fill_le (s.pool.free.take n) s).trans (Nat.add_le_add_left (List.length_take_le _ _) _)

theorem releaseSlot_reserveFits (i : SlotId) {s : State} (h : ReserveFits s) : ReserveFits (releaseSlot i s) := by
  by_cases short : reservedCount (modSlot i (fun _ => .blank .free) s) < s.pool.reserveSize
  · rw [releaseSlot_of_short short, noteCredit_eq]
    have taken := reservedCount_takeIn_le
      (min (s.pool.reserveSize - (reservedCount (modSlot i (fun _ => .blank .free) s) + 1)) s.pool.free.length)
      (modSlot i (fun _ => .blank .unfilled) s)
    have joined := reservedCount_unfilled i s
    refine ReserveFits.congr (.inr (taken.trans ?_)) rfl rfl
    change _ ≤ s.pool.reserveSize
    omega
  · have unfilled := slotsIn_length_modSlot .unfilled i (fun _ => .blank .free) s
    have reserved := reservedCount_modSlot i (fun _ => .blank .free) s
    have blank : (FrameSlot.blank .free).status = .free := rfl
    have blankReserves : (FrameSlot.blank .free).reserves = 0 := rfl
    rw [blank, if_neg (show SlotStatus.free ≠ .unfilled from nofun)] at unfilled
    rw [releaseSlot_of_full (Nat.le_of_not_lt short)]
    refine ReserveFits.congr (s := modSlot i (fun _ => .blank .free) s) (Or.imp (fun filled => ?_) (fun fits => ?_) h) rfl rfl
    · unfold unfilledCount at filled ⊢
      omega
    · change _ ≤ s.pool.reserveSize
      omega

theorem reserveFits_stable : Stable ReserveFits where
  port _ _ _ h := h
  raise _ _ _ _ h := by rw [raise_frame]; exact h
  gateway _ _ h := h
  node _ _ _ h := h
  queue _ _ _ h := h
  notices _ _ h := h
  report r s h := by
    unfold createReport
    split_ifs
    · exact h
    · rw [raise_frame]
      exact h
    · exact h
  release i _ h := releaseSlot_reserveFits i h
  refs i s h := by
    have unfilled := slotsIn_length_modSlot .unfilled i (fun x => { x with refs := x.refs - 1 }) s
    have reserved := reservedCount_modSlot i (fun x => { x with refs := x.refs - 1 }) s
    have counts := Nat.add_right_cancel unfilled
    have reserves := Nat.add_right_cancel reserved
    unfold ReserveFits unfilledCount
    rw [counts, reserves]
    exact h

end Sys2Proof.Machine
end

