-- ==== Sys2Proof/Proofs/LinkMonitor.lean ====
section
/-! PROOFS. The link monitor: lock, the runs of idle characters, and the entry to SUSPECT. -/

-- One theorem after another: many at once need a thread each.
set_option Elab.async false

namespace Sys2Proof.Machine


/-! ### The idle character to send (R143) -/

theorem idleIsR_congr {k l : Trunk} (changed : l.idleChanged = k.idleChanged) (start : l.lineStart = k.lineStart)
    (was : l.idleWasR = k.idleWasR) (sends : sendsIdleR l = sendsIdleR k) (t : Ticks) : idleIsR l t = idleIsR k t := by
  unfold idleIsR charStart
  rw [changed, start, was, sends]

/-- A change of the idle character to send keeps the kind of the one in progress. -/
theorem retune_of_ne {f : Trunk → Trunk} {s : State} (h : sendsIdleR (f s.trunk) ≠ sendsIdleR s.trunk) :
    retune f s = modTrunk (fun t => { f t with idleChanged := s.now, idleWasR := idleIsR t s.now }) s := by
  simp only [retune, modTrunk, if_neg h]

/-- Between frames the idle character at a moment after a change of the link is the one in progress at the change, to its end. -/
theorem trunkOut_between {k : Trunk} {t : Ticks} (tx : k.tx = none) (cut : k.cut = none) (on : k.lineStart ≤ t) :
    trunkOut k t = some (idleAt k t) := by
  simp only [trunkOut, tx, cut]
  rw [if_neg (Nat.not_lt.2 on)]

/-! ### Lock (R144) -/

/-- Out of lock, valid characters up to the 16th gain lock. -/
theorem hear_lockGained (link : LinkState) (chars : List TrunkChar) (rx : TrunkRx) (unlocked : rx.lock = false) (some : chars ≠ [])
    (valid : TrunkChar.invalid ∉ chars) (count : chars.length + rx.run = 16) :
    hear link rx chars = .event { rx with lock := true, run := 0, invalid := 0 } .lockGained := by
  induction chars generalizing rx with
  | nil => exact absurd rfl some
  | cons c cs ih =>
    obtain ⟨first, rest⟩ := List.ne_and_not_mem_of_not_mem_cons valid
    have length : cs.length + 1 + rx.run = 16 := count
    cases cs with
    | nil =>
      have last : rx.run + 1 = 16 := by simpa [Nat.add_comm] using length
      simp only [hear, rxChar, unlocked, first.symm, last, if_true, if_false, Bool.false_eq_true, List.isEmpty_nil]
    | cons d ds =>
      have more : rx.run + 1 ≠ 16 := fun e => by rw [List.length_cons] at length; omega
      have step : rxChar link c rx = ({ rx with run := rx.run + 1 }, none) := by
        simp only [rxChar, unlocked, first.symm, more, if_false, Bool.false_eq_true]
      rw [hear, step]
      exact ih { rx with run := rx.run + 1 } unlocked nofun rest (by dsimp only; omega)

/-- In lock, invalid characters up to the 4th lose lock; only the first can abandon a frame without an end of it. -/
theorem hear_lockLost (link : LinkState) (k : Nat) (rx : TrunkRx) (locked : rx.lock = true) (count : k + 1 + rx.invalid = 4)
    (whole : rx.frame = none ∨ k = 0) :
    hear link rx (List.replicate (k + 1) .invalid) = .event ⟨false, 0, 0, 0, 0, none⟩ (.lockLost rx.frame.isSome) := by
  induction k generalizing rx with
  | zero =>
    have last : rx.invalid + 1 = 4 := by omega
    simp only [List.replicate, hear, rxChar, locked, last, if_true, List.isEmpty_nil]
  | succ k ih =>
    have outside : rx.frame = none := whole.resolve_right nofun
    have more : rx.invalid + 1 ≠ 4 := by omega
    have step : rxChar link .invalid rx = ({ clearIdles rx with invalid := rx.invalid + 1, run := 0, frame := none }, none) := by
      simp only [rxChar, locked, more, outside, if_true, if_false, Option.isSome_none, Bool.false_eq_true]
    have rest := ih { clearIdles rx with invalid := rx.invalid + 1, run := 0, frame := none } locked (by dsimp only; omega) (.inl rfl)
    rw [List.replicate_succ, hear, step, outside]
    exact rest

/-- LOCK_GAINED, with the characters that gain lock. -/
theorem exec_lockGained {chars : List TrunkChar} {s : State} {rx : TrunkRx} (unlocked : s.trunk.rx.lock = false) (locked : rx.lock = true)
    (heard : hear s.trunk.link s.trunk.rx chars = .event rx .lockGained) :
    exec (.lockGained chars) s = .next { s with trunk := { s.trunk with
      rx := if s.trunk.link = .seek then clearIdles rx else rx
      link := if s.trunk.link = .seek then .train else s.trunk.link
      idleChanged := s.now, idleWasR := idleIsR s.trunk s.now } } := by
  have before : sendsIdleR s.trunk = false := by rw [sendsIdleR, unlocked]; rfl
  change execLockGained chars s = _
  unfold execLockGained Machine.heard
  rw [heard]
  dsimp only
  refine congrArg _ ?_
  by_cases seek : s.trunk.link = .seek
  · have still : sendsIdleR { s.trunk with rx := rx } = sendsIdleR s.trunk := by
      rw [before, sendsIdleR, seek]
      exact Bool.and_false _
    have turns : sendsIdleR { s.trunk with rx := clearIdles rx, link := .train } ≠ sendsIdleR { s.trunk with rx := rx } := by
      rw [still, before]
      unfold sendsIdleR clearIdles
      rw [locked]
      exact nofun
    rw [if_pos seek, if_pos seek, if_pos seek, setTrunkRx, retune_of_eq _ still]
    unfold setLink
    rw [retune_of_ne (s := modTrunk (fun t => { t with rx := rx }) s) turns]
    have idle : idleIsR { s.trunk with rx := rx } s.now = idleIsR s.trunk s.now := idleIsR_congr (k := s.trunk) (l := { s.trunk with rx := rx }) rfl rfl rfl still _
    unfold modTrunk
    dsimp only
    rw [idle]
  · have turns : sendsIdleR { s.trunk with rx := rx } ≠ sendsIdleR s.trunk := by
      rw [before, sendsIdleR, locked, bne_iff_ne.2 seek]
      exact nofun
    rw [if_neg seek, if_neg seek, if_neg seek, setTrunkRx, retune_of_ne turns]
    rfl

/-! ### Entry to SUSPECT (R148, R163) -/

/-- The trunk link in SUSPECT from now on, its frame in transmission still to be cut. -/
def suspectTrunk (now : Ticks) (k : Trunk) : Trunk :=
  { k with
    link := .suspect, rx := clearIdles { k.rx with frame := none }, hold := some ⟨now, now + k.suspectHold * millisecond⟩
    creditPending := false, refresh := none }

/-- Entry to SUSPECT from a state of the link other than SEEK, in which the idle character to send stays. -/
theorem enterSuspect_eq {s : State} (link : s.trunk.link ≠ .seek) :
    enterSuspect s = cutForSuspect (modTrunk (suspectTrunk s.now) s) := by
  have same : sendsIdleR (suspectTrunk s.now s.trunk) = sendsIdleR s.trunk := by
    unfold sendsIdleR
    rw [bne_iff_ne.2 link]
    rfl
  have stays : sendsIdleR (suspectTrunk s.now s.trunk) = sendsIdleR
      { s.trunk with
        hold := some ⟨s.now, s.now + s.trunk.suspectHold * millisecond⟩
        creditPending := false, refresh := none, rx := { s.trunk.rx with frame := none } } := same
  unfold enterSuspect setLink
  refine congrArg cutForSuspect ?_
  refine Eq.trans (retune_of_eq (modTrunk (fun t =>
    { t with
      hold := some ⟨s.now, s.now + t.suspectHold * millisecond⟩
      creditPending := false, refresh := none, rx := { t.rx with frame := none } }) s) stays) rfl

theorem cutForSuspect_idle {s : State} (idle : s.trunk.tx = none) : cutForSuspect s = s := by
  unfold cutForSuspect
  rw [idle]

theorem cutReference_kept (s : State) : Kept s (cutReference s) := by
  unfold cutReference
  split
  · exact .refl s
  · dsimp only
    split
    · split
      · exact (setHolder_kept _ _ s).trans (dropRef_kept _ _ _ _)
      · exact (setHolder_kept _ _ s).trans (returnToHead_kept _ _ _)
    · exact (setHolder_kept _ _ s).trans (returnToHead_kept _ _ _)

theorem afterCut_kept (tx : Option TxFrame) (s : State) : Kept s (afterCut tx s) := by
  unfold afterCut
  split
  · exact cutReference_kept s
  · exact cutReference_kept s
  · exact modCustody_kept _ s rfl rfl
  · exact modEvents_kept _ s
  · exact .refl s
  · exact .refl s
  · exact .refl s

theorem Stable.cutReference {P : State → Prop} (stable : Stable P) {s : State} (h : P s) : P (cutReference s) := by
  unfold Machine.cutReference
  split
  · exact h
  · dsimp only
    split
    · split
      · exact stable.dropRef _ _ _ (stable.queue _ _ _ h)
      · exact stable.queue _ _ _ (stable.queue _ _ _ h)
    · exact stable.queue _ _ _ (stable.queue _ _ _ h)

theorem afterCut_creditAtRest (tx : Option TxFrame) {s : State} (h : CreditAtRest s) : CreditAtRest (afterCut tx s) := by
  unfold afterCut
  split
  · exact creditAtRest_stable.cutReference h
  · exact creditAtRest_stable.cutReference h
  · exact h
  · exact h
  · exact h
  · exact h
  · exact h

theorem cutTrunk_of_idle {now : Ticks} {k : Trunk} (idle : k.tx = none) : cutTrunk now k = k := by
  unfold cutTrunk
  rw [idle]

theorem cutTrunk_frame (now : Ticks) (k : Trunk) : cutTrunk now k = { k with
    tx := none, cut := (cutTrunk now k).cut, nextStart := (cutTrunk now k).nextStart, counters := (cutTrunk now k).counters } := by
  unfold cutTrunk
  split
  next idle => cases k; cases idle; rfl
  next => rfl

/-- What stands once a frame is cut in SUSPECT and the selections have run. -/
theorem suspect_settled {s : State} (link : s.trunk.link = .suspect) (atRest : s.trunk.creditPending = false) :
    ∃ (cut : Option Cut) (next : Ticks) (counters : Vector Nat 10),
      (settle (cutForSuspect s)).trunk = { s.trunk with tx := none, cut := cut, nextStart := next, counters := counters } ∧
      Kept { s with trunk := (settle (cutForSuspect s)).trunk } (settle (cutForSuspect s)) := by
  rw [cutForSuspect_eq]
  generalize cutState : modTrunk (cutTrunk s.now) s = c
  have kept : Kept c (settle (afterCut s.trunk.tx c)) := (afterCut_kept _ _).trans (settle_kept _)
  have trunk : c.trunk = { s.trunk with
      tx := none, cut := c.trunk.cut, nextStart := c.trunk.nextStart, counters := c.trunk.counters } := by
    rw [← cutState]
    exact cutTrunk_frame _ _
  have rest : CreditAtRest c := by
    unfold CreditAtRest
    rw [trunk]
    exact ⟨link ▸ nofun, atRest⟩
  have settled := creditAtRest_stable.settle (afterCut_creditAtRest s.trunk.tx rest)
  refine ⟨c.trunk.cut, c.trunk.nextStart, (settle (afterCut s.trunk.tx c)).trunk.counters, ?_, ?_⟩
  · rw [kept.trunk, settled.2, trunk, ← atRest]
  · have base : { s with trunk := (settle (afterCut s.trunk.tx c)).trunk } =
        { c with trunk := (settle (afterCut s.trunk.tx c)).trunk } := by
      rw [← cutState]
      rfl
    rw [base]
    exact { kept with trunk := rfl }

/-- LOCK_LOST, with the characters that lose lock. -/
theorem exec_lockLost {chars : List TrunkChar} {s : State} {abandoned : Bool} (locked : s.trunk.rx.lock = true)
    (link : s.trunk.link ≠ .seek)
    (heard : hear s.trunk.link s.trunk.rx chars = .event ⟨false, 0, 0, 0, 0, none⟩ (.lockLost abandoned))
    {lost : State} (h : lost = countTrunk .checkErrors abandoned.toNat { s with trunk := { s.trunk with
      rx := ⟨false, 0, 0, 0, 0, none⟩, idleChanged := s.now, idleWasR := idleIsR s.trunk s.now } }) :
    exec (.lockLost chars) s = .next (if s.trunk.link = .train then modTrunk (fun t => { t with link := .seek }) lost
      else if s.trunk.link = .up then settle (cutForSuspect (modTrunk (suspectTrunk s.now) lost)) else lost) := by
  have turns : sendsIdleR { s.trunk with rx := ⟨false, 0, 0, 0, 0, none⟩ } ≠ sendsIdleR s.trunk := by
    unfold sendsIdleR
    rw [locked, bne_iff_ne.2 link]
    exact nofun
  have unlocked : countTrunk .checkErrors abandoned.toNat (setTrunkRx ⟨false, 0, 0, 0, 0, none⟩ s) = lost := by
    rw [setTrunkRx, retune_of_ne turns, h]
    rfl
  have lostLock : lost.trunk.rx = ⟨false, 0, 0, 0, 0, none⟩ := by rw [h]; rfl
  have sameLink : lost.trunk.link = s.trunk.link := by rw [h]; rfl
  have now : lost.now = s.now := by rw [h]; rfl
  change execLockLost chars s = _
  unfold execLockLost Machine.heard
  rw [heard]
  dsimp only
  rw [unlocked]
  refine congrArg _ ?_
  cases l : s.trunk.link with
  | seek => exact absurd l link
  | suspect => rw [if_neg nofun, if_neg nofun]
  | train =>
    have cleared : clearIdles lost.trunk.rx = lost.trunk.rx := by rw [lostLock]; rfl
    rw [if_pos rfl]
    refine (retune_of_eq lost ?_).trans ?_
    · unfold sendsIdleR
      rw [cleared, lostLock]
      rfl
    · unfold modTrunk
      dsimp only
      rw [cleared]
  | up => rw [if_neg nofun, if_pos rfl, enterSuspect_eq (sameLink ▸ link), now]

/-- Settles O45: the run of characters is heard by induction on it, and the kind of idle character changes with lock. -/
theorem lockIsGainedAndLost : Obligations.LockIsGainedAndLost := by
  refine ⟨fun chars s unlocked some valid count => ?_, fun k s entered locked link count whole eq => ?_, ?_⟩
  · have heard := hear_lockGained s.trunk.link chars s.trunk.rx unlocked some valid count
    refine ⟨_, ?_, ?_, ?_, ?_, exec_lockGained unlocked rfl heard⟩ <;> split <;> rfl
  · refine ⟨_, exec_lockLost locked link (hear_lockLost s.trunk.link k s.trunk.rx locked count whole) rfl, ?_⟩
    cases l : s.trunk.link with
    | seek => exact absurd l link
    | train =>
      rw [if_pos rfl, if_pos rfl]
      exact ⟨rfl, fun _ => rfl, nofun, nofun, fun _ => rfl⟩
    | suspect =>
      rw [if_neg nofun, if_neg nofun, if_neg nofun]
      exact ⟨rfl, nofun, fun _ => l, nofun, fun _ => by rw [← l]⟩
    | up =>
      rw [if_neg nofun, if_pos rfl]
      subst eq
      obtain ⟨cut, next, counters, trunk, kept⟩ := suspect_settled (s := modTrunk (suspectTrunk s.now) (countTrunk .checkErrors
        s.trunk.rx.frame.isSome.toNat { s with trunk := { s.trunk with
          rx := ⟨false, 0, 0, 0, 0, none⟩, idleChanged := s.now, idleWasR := idleIsR s.trunk s.now } })) rfl rfl
      refine ⟨by rw [trunk]; rfl, nofun, nofun, fun _ => ⟨by rw [trunk]; rfl, by rw [trunk]; rfl, by rw [trunk]; rfl,
        by rw [trunk]; rfl, by rw [trunk], kept, fun idle => ?_, fun _ => rfl⟩, fun h => absurd rfl h⟩
      exact congrArg settle (cutForSuspect_idle idle)
  · intro before after now at' ready tx cut tx' cut' start changed was sends on later
    rw [trunkOut_between tx' cut' (start ▸ Nat.le_trans on later), trunkOut_between tx cut on]
    unfold idleAt
    rw [show idleIsR after at' = if now ≤ before.lineStart + (at' - before.lineStart) / 20 * 20 then ready else idleIsR before now from ?_]
    · split <;> rfl
    · unfold idleIsR charStart
      rw [changed, was, start, sends]
      rfl

/-! ### The runs of idle characters (R145) -/

theorem advanceRun_eq (rx : TrunkRx) : advanceRun rx = { rx with run := (advanceRun rx).run, invalid := (advanceRun rx).invalid } := by
  unfold advanceRun
  split <;> rfl

/-- What a receiver in lock, with no frame in reception, counts of an idle character. -/
def idled (ready : Bool) (rx : TrunkRx) : TrunkRx :=
  if ready then { advanceRun rx with idleR := min (rx.idleR + 1) 32, idleS := 0 }
  else { advanceRun rx with idleR := 0, idleS := min (rx.idleS + 1) 8 }

theorem idled_outside {ready : Bool} {rx : TrunkRx} (locked : rx.lock = true) (outside : rx.frame = none) :
    (idled ready rx).lock = true ∧ (idled ready rx).frame = none := by
  unfold idled
  rw [advanceRun_eq]
  split <;> exact ⟨locked, outside⟩

theorem rxChar_idleR {link : LinkState} {rx : TrunkRx} (locked : rx.lock = true) (outside : rx.frame = none) :
    rxChar link .idleR rx = (idled true rx, if rx.idleR + 1 = 32 ∧ (link = .train ∨ link = .suspect) then some .idleR32 else none) := by
  have frame : (advanceRun rx).frame = none := by rw [advanceRun_eq]; exact outside
  have count : (advanceRun rx).idleR = rx.idleR := by rw [advanceRun_eq]
  simp [rxChar, frameChar, idleChar, idled, locked, frame, count]

theorem rxChar_idleS {link : LinkState} {rx : TrunkRx} (locked : rx.lock = true) (outside : rx.frame = none) :
    rxChar link .idleS rx = (idled false rx, if rx.idleS + 1 = 8 ∧ link = .up then some .idleS8 else none) := by
  have frame : (advanceRun rx).frame = none := by rw [advanceRun_eq]; exact outside
  have count : (advanceRun rx).idleS = rx.idleS := by rw [advanceRun_eq]
  simp [rxChar, frameChar, idleChar, idled, locked, frame, count]

/-- A receiver in lock with no frame in reception hears the 32nd IDLE_R of a run. -/
theorem hear_idleR32 (k : Nat) (rx : TrunkRx) (locked : rx.lock = true) (outside : rx.frame = none) (count : k + 1 + rx.idleR = 32) :
    ∃ rx' : TrunkRx, rx'.lock = true ∧ rx'.frame = none ∧ ∀ link : LinkState, link = .train ∨ link = .suspect →
      hear link rx (List.replicate (k + 1) .idleR) = .event rx' .idleR32 := by
  induction k generalizing rx with
  | zero =>
    have last : rx.idleR + 1 = 32 := by omega
    refine ⟨idled true rx, (idled_outside locked outside).1, (idled_outside locked outside).2, fun link watched => ?_⟩
    rw [List.replicate_one, hear, rxChar_idleR locked outside, if_pos ⟨last, watched⟩]
    rfl
  | succ k ih =>
    have more : rx.idleR + 1 ≠ 32 := by omega
    have counted : (idled true rx).idleR = rx.idleR + 1 := Nat.min_eq_left (by omega)
    obtain ⟨rx', locked', outside', rest⟩ := ih (idled true rx) (idled_outside locked outside).1 (idled_outside locked outside).2 (by omega)
    refine ⟨rx', locked', outside', fun link watched => ?_⟩
    rw [List.replicate_succ, hear, rxChar_idleR locked outside, if_neg fun h => more h.1]
    exact rest link watched

/-- A receiver in lock with no frame in reception hears the 8th IDLE_S of a run in UP. -/
theorem hear_idleS8 (k : Nat) (rx : TrunkRx) (locked : rx.lock = true) (outside : rx.frame = none) (count : k + 1 + rx.idleS = 8) :
    ∃ rx' : TrunkRx, rx'.lock = true ∧ rx'.frame = none ∧ hear .up rx (List.replicate (k + 1) .idleS) = .event rx' .idleS8 := by
  induction k generalizing rx with
  | zero =>
    have last : rx.idleS + 1 = 8 := by omega
    refine ⟨idled false rx, (idled_outside locked outside).1, (idled_outside locked outside).2, ?_⟩
    rw [List.replicate_one, hear, rxChar_idleS locked outside, if_pos ⟨last, rfl⟩]
    rfl
  | succ k ih =>
    have more : rx.idleS + 1 ≠ 8 := by omega
    have counted : (idled false rx).idleS = rx.idleS + 1 := Nat.min_eq_left (by omega)
    obtain ⟨rx', locked', outside', rest⟩ := ih (idled false rx) (idled_outside locked outside).1 (idled_outside locked outside).2 (by omega)
    refine ⟨rx', locked', outside', ?_⟩
    rw [List.replicate_succ, hear, rxChar_idleS locked outside, if_neg fun h => more h.1]
    exact rest

/-- From a state other than SEEK the monitor goes to another such state with the idle character to send as it was. -/
theorem setLink_of_ne_seek {l : LinkState} {s : State} (link : s.trunk.link ≠ .seek) (other : l ≠ .seek) :
    setLink l s = modTrunk (fun t => { t with link := l, rx := clearIdles t.rx }) s := by
  refine retune_of_eq s ?_
  unfold sendsIdleR
  rw [bne_iff_ne.2 link, bne_iff_ne.2 other]
  rfl

/-- Settles O46: the 32nd IDLE_R is heard in every receiver in lock, and the idle character to send stays. -/
theorem idleRunBringsLinkUp : Obligations.IdleRunBringsLinkUp := by
  intro k s locked outside count
  obtain ⟨rx, locked', outside', heard⟩ := hear_idleR32 k s.trunk.rx locked outside count
  refine ⟨clearIdles rx, locked', outside', rfl, rfl, fun train => ?_, fun hold suspect running => ?_⟩
  · change execFreshUp _ s = _
    unfold execFreshUp Machine.heard
    rw [train, heard .train (.inl rfl)]
    dsimp only
    exact congrArg (Host.Outcome.next ∘ countTrunk .linkUps 1) (setLink_of_ne_seek (s := modTrunk _ s) (fun h => nomatch train.symm.trans h) nofun)
  · change execResume _ s = _
    unfold execResume Machine.heard
    rw [suspect, running, heard .suspect (.inr rfl)]
    dsimp only
    exact congrArg (Host.Outcome.next ∘ raise .linkResumed .trunk ((s.now - hold.startedAt) / microsecond))
      (setLink_of_ne_seek (s := modTrunk _ s) (fun h => nomatch suspect.symm.trans h) nofun)

/-! ### A frame cut at entry to SUSPECT (R163) -/

/-- The frame in transmission, cut at a moment. -/
theorem cutFrame_of_tx {f : TxFrame} {s cut : State} {cutAt : Ticks} (tx : s.trunk.tx = some f)
    (at' : cutAt = f.startedAt + ((s.now - f.startedAt) / characterTime + 1) * characterTime)
    (eq : cut = countTrunk .cutFrames 1 { s with trunk := { s.trunk with
      tx := none, cut := some ⟨f, cutAt⟩, nextStart := cutAt + 2 * characterTime } }) : cutFrame s = cut := by
  unfold cutFrame
  rw [tx, eq, at']
  rfl

theorem cutForSuspect_of_tx {f : TxFrame} {s cut : State} (tx : s.trunk.tx = some f) (eq : cutFrame s = cut) :
    cutForSuspect s = afterCut (some f) cut := by
  rw [cutForSuspect_eq, ← cutFrame_eq, eq, tx]

/-- The reference in trunk transmission goes back, or is removed when its deadline has passed. -/
theorem cutReference_of_holder {r : Ref} {s : State} (holder : s.pool.queues[trunkPort].holder = some r) :
    ((∃ d : Ticks, (slotOf r s).deadline = some d ∧ d ≤ s.now) →
      cutReference s = dropRef trunkPort r .expired (setHolder trunkPort none s)) ∧
    (¬ (∃ d : Ticks, (slotOf r s).deadline = some d ∧ d ≤ s.now) →
      cutReference s = returnToHead trunkPort r (setHolder trunkPort none s)) := by
  unfold cutReference
  rw [holder]
  dsimp only
  cases deadline : (slotOf r s).deadline with
  | none => exact ⟨fun ⟨_, h, _⟩ => (nomatch h), fun _ => rfl⟩
  | some d =>
    by_cases passed : d ≤ s.now
    · exact ⟨fun _ => if_pos passed, fun h => absurd ⟨d, rfl, passed⟩ h⟩
    · refine ⟨fun ⟨e, h, le⟩ => ?_, fun _ => if_neg passed⟩
      cases h
      exact absurd le passed

/-- A change of the one element that a test finds leaves the others as they are. -/
theorem map_one {α : Type} {f : α → α} {before after : List α} {e : α} (others : ∀ x ∈ before ++ after, f x = x) :
    (before ++ e :: after).map f = before ++ f e :: after := by
  rw [List.map_append, List.map_cons, List.map_congr_left fun x h => others x (List.mem_append_left _ h),
    List.map_congr_left fun x h => others x (List.mem_append_right _ h), List.map_id', List.map_id']

/-- Settles O47: the 8th IDLE_S is heard in UP, and the frame is cut by its kind. -/
theorem eighthIdleEntersSuspect : Obligations.EighthIdleEntersSuspect := by
  refine ⟨fun k s up locked outside count => ?_, fun f cutAt s cut tx at' eq => ?_⟩
  · obtain ⟨rx, locked', outside', heard⟩ := hear_idleS8 k s.trunk.rx locked outside count
    have same : sendsIdleR { s.trunk with rx := rx } = sendsIdleR s.trunk := by
      unfold sendsIdleR
      rw [locked, locked']
    have begun : exec (.enterSuspect (List.replicate (k + 1) .idleS)) s =
        .next (settle (cutForSuspect (modTrunk (suspectTrunk s.now) (modTrunk (fun t => { t with rx := rx }) s)))) := by
      change execEnterSuspect _ s = _
      unfold execEnterSuspect Machine.heard setTrunkRx
      rw [up, heard]
      dsimp only
      rw [retune_of_eq s same]
      exact congrArg (Host.Outcome.next ∘ settle) (enterSuspect_eq (s := modTrunk _ s) (fun h => nomatch up.symm.trans h))
    have entered : modTrunk (suspectTrunk s.now) (modTrunk (fun t => { t with rx := rx }) s) = { s with trunk := { s.trunk with
        link := .suspect, rx := clearIdles rx, hold := some ⟨s.now, s.now + s.trunk.suspectHold * 25000⟩, creditPending := false
        refresh := none } } := by
      unfold modTrunk suspectTrunk
      dsimp only
      rw [← outside']
      rfl
    rw [begun, entered]
    refine ⟨clearIdles rx, _, locked', outside', rfl, rfl, rfl, fun idle => congrArg (Host.Outcome.next ∘ settle) ?_,
      fun _ => rfl⟩
    exact cutForSuspect_idle idle
  · have done := cutForSuspect_of_tx tx (cutFrame_of_tx tx at' eq)
    have pool : cut.pool = s.pool := by rw [eq]; rfl
    have now : cut.now = s.now := by rw [eq]; rfl
    refine ⟨fun r kind holder => ?_, fun kind => ?_, fun kind => ?_, fun before e after kind records inTx others => ?_, fun t on => ?_⟩
    · have back : cutForSuspect s = cutReference cut := by
        rw [done]
        unfold afterCut
        obtain kind | kind := kind <;> simp only [Option.map_some, kind]
      have ends := cutReference_of_holder (r := r) (s := cut) (pool ▸ holder)
      have slot : slotOf r cut = slotOf r s := by unfold slotOf; rw [pool]
      rw [slot, now] at ends
      rw [back]
      split
      next h => exact ends.1 h
      next h => exact ends.2 h
    · rw [done]
      unfold afterCut
      obtain kind | kind := kind <;> simp only [Option.map_some, kind]
    · rw [done]
      unfold afterCut
      simp only [Option.map_some, kind]
      rw [eq]
      rfl
    · rw [done]
      unfold afterCut
      simp only [Option.map_some, kind]
      have same : cut.events = s.events := by rw [eq]; rfl
      unfold eventCut modEvents
      rw [same, records]
      dsimp only
      rw [map_one fun x h => if_neg (Bool.eq_false_iff.1 (others x h)), if_pos inTx]
    · have idle : cut.trunk.tx = none := by rw [eq]; rfl
      have cutNow : cut.trunk.cut = some ⟨f, cutAt⟩ := by rw [eq]; rfl
      have start : cut.trunk.lineStart = s.trunk.lineStart := by rw [eq]; rfl
      simp only [trunkOut, idle, cutNow, start]
      rw [if_neg (Nat.not_lt.2 on), apply_ite some, apply_ite some]
      rfl

end Sys2Proof.Machine
end

