-- ==== Sys2Proof/Proofs/LinkTimers.lean ====
section
/-! PROOFS. The hold timer and the refresh timer: DOWN processing and the refreshed CREDIT. -/

-- One theorem after another: many at once need a thread each.
set_option Elab.async false

namespace Sys2Proof.Machine


/-! ### DOWN processing (R150) -/

/-- The trunk queue with its lanes emptied and its pending references marked link-down. -/
def linkDownMarked (s : State) : State := modQueue trunkPort (fun Q =>
  { Q with lanes := Vector.replicate 8 [], pending := Q.pending.map (markedIf (fun _ => true) .linkDown) }) s

/-- The trunk queue flushed LINK_DOWN (R130). -/
def linkDownFlushed (s : State) : State :=
  (laneRefs s.pool.queues[trunkPort]).foldl (fun t r => discardRef trunkPort r .linkDown t) (linkDownMarked s)

/-- The agent after DOWN processing: what waits is discarded, and a request in execution marked. -/
def Agent.broughtDown (a : Agent) : Agent :=
  if a.executing then { a with buffers := a.buffers.take 1, dropMark := true } else { a with buffers := [] }

theorem Agent.broughtDown_busy {a : Agent} (busy : a.executing = true) : a.broughtDown = ⟨a.buffers.take 1, true, true⟩ := by
  cases a
  cases busy
  rfl

theorem Agent.broughtDown_free {a : Agent} (free : a.executing = false) : a.broughtDown = { a with buffers := [] } := by
  cases a
  cases free
  rfl

/-- The state after DOWN processing, its reserve still to be trimmed, `u` being the one with the trunk queue flushed. -/
def broughtDown (u : State) : State := { u with
  custody := { u.custody with reports := [] }
  agent := u.agent.broughtDown
  trunk := { u.trunk with
    link := if u.trunk.rx.lock then .train else .seek
    rx := clearIdles u.trunk.rx
    hold := none, outLimit := 0, sent := 0, nextExpected := 0, advertised := 0, creditPending := false
    refresh := none, response := none
    counters := modAt u.trunk.counters TrunkCounter.reportsLost.index (saturate · u.custody.reports.length) } }

theorem modAll_filter_none (lanes : Vector (List Ref) 8) : modAll lanes (·.filter fun _ => !true) = Vector.replicate 8 [] := by
  ext1 k hk
  rw [getElem_modAll, Vector.getElem_replicate]
  exact List.filter_false _

theorem linkDownFlushed_eq (s : State) :
    sweepLanes trunkPort (fun _ => true) .linkDown (markPending trunkPort (fun _ => true) .linkDown s) = linkDownFlushed s := by
  have refs : laneRefs (markPending trunkPort (fun _ => true) .linkDown s).pool.queues[trunkPort] = laneRefs s.pool.queues[trunkPort] := by
    rw [markPending_queue]
    rfl
  have emptied : modQueue trunkPort (fun Q => { Q with lanes := modAll Q.lanes (·.filter fun _ => !true) })
      (markPending trunkPort (fun _ => true) .linkDown s) = linkDownMarked s := by
    simp only [modAll_filter_none]
    exact modQueue_modQueue _ _ _ _
  have trunk : segOf? trunkPort = none := rfl
  rw [sweepLanes, refs, emptied, List.filter_true, discardAll, dueIfGone, trunk]
  rfl

theorem linkDownFlushed_kept (s : State) : Kept s (linkDownFlushed s) :=
  (modQueue_kept _ _ s).trans (.foldl (fun t r => discardRef_kept trunkPort r .linkDown t) _ _)

/-- The idle character to send stays through DOWN processing, in which the monitor goes by the lock. -/
theorem downProcessing_eq {s : State} (suspect : s.trunk.link = .suspect) : downProcessing s = trim (broughtDown (linkDownFlushed s)) := by
  have link : (linkDownFlushed s).trunk.link = .suspect := by rw [(linkDownFlushed_kept s).trunk]; exact suspect
  unfold downProcessing
  dsimp only
  rw [linkDownFlushed_eq]
  generalize linkDownFlushed s = u at link
  refine congrArg trim ((retune_of_eq _ ?_).trans rfl)
  change (u.trunk.rx.lock && (if u.trunk.rx.lock then LinkState.train else .seek) != .seek) = (u.trunk.rx.lock && u.trunk.link != .seek)
  rw [link]
  cases u.trunk.rx.lock <;> rfl

theorem exec_holdTimerExpiry {hold : HoldTimer} {s : State} (suspect : s.trunk.link = .suspect) (running : s.trunk.hold = some hold) :
    exec .holdTimerExpiry s =
      .next (settle (trim (broughtDown (linkDownFlushed { s with now := max s.now hold.expiresAt })))) := by
  change execHoldTimerExpiry s = _
  unfold execHoldTimerExpiry
  rw [suspect, running, ← downProcessing_eq (s := { s with now := max s.now hold.expiresAt }) suspect]

theorem trim_reserveFits (s : State) : ReserveFits (trim s) := by
  obtain ⟨gone, trimmed⟩ := trimBy_trimmed (min (reservedCount s - s.pool.reserveSize) (unfilledCount s)) s (Nat.min_le_right _ _)
  have unfilled := trimmed.unfilledCount
  have reserved := trimmed.reservedCount
  have size : (trim s).pool.reserveSize = s.pool.reserveSize := by unfold trim; rw [trimBy_frame]
  unfold ReserveFits
  rw [size]
  unfold trim
  omega

/-- The trunk queue has no lane reference, and each pending one is marked. -/
theorem thinned_emptied {Q Q' : Queue} (h : Thinned Q Q') (empty : ∀ lane : Priority, Q.lanes[lane] = [])
    (marked : ∀ r ∈ Q.pending, r.mark ≠ none) : (∀ lane : Priority, Q'.lanes[lane] = []) ∧ ∀ r ∈ Q'.pending, r.mark ≠ none := by
  refine ⟨fun lane => List.sublist_nil.1 (empty lane ▸ h.lanes lane), fun r mem => ?_⟩
  obtain ⟨r', mem', from'⟩ := exists_markedFrom h.pending mem
  rw [from'.2 (marked r' mem')]
  exact marked r' mem'

theorem markedIf_all (m : Mark) : markedIf (fun _ => true) m = fun r => if r.mark = none then { r with mark := some m } else r := by
  funext r
  unfold markedIf
  cases r.mark <;> rfl

/-- What stands after DOWN processing, the selections run. -/
theorem broughtDown_settled {u t : State} (eq : t = settle (trim (broughtDown u))) :
    t.trunk = { (broughtDown u).trunk with counters := t.trunk.counters } ∧ t.custody.reports = [] ∧
      t.agent = (broughtDown u).agent ∧ Thinned u.pool.queues[trunkPort] t.pool.queues[trunkPort] ∧
      (unfilledCount t = 0 ∨ reservedCount t ≤ u.pool.reserveSize) ∧
      Kept { broughtDown u with freeCount := t.freeCount, trunk := t.trunk } t := by
  have frame : trim (broughtDown u) = { broughtDown u with
      freeCount := (trim (broughtDown u)).freeCount
      pool := { u.pool with slots := (trim (broughtDown u)).pool.slots, free := (trim (broughtDown u)).pool.free } } := trimBy_frame _ _
  have fits := reserveFits_stable.settle (trim_reserveFits (broughtDown u))
  generalize trim (broughtDown u) = v at eq frame fits
  have kept : Kept v t := eq ▸ settle_kept v
  have trunk : v.trunk = (broughtDown u).trunk := by rw [frame]
  have down : (broughtDown u).trunk.link = .seek ∨ (broughtDown u).trunk.link = .train := by
    unfold broughtDown
    dsimp only
    split
    · exact .inr rfl
    · exact .inl rfl
  have rest : CreditAtRest t := eq ▸ creditAtRest_stable.settle ⟨by rw [trunk]; obtain h | h := down <;> rw [h] <;> nofun, by rw [trunk]; rfl⟩
  have reports : NoReports t := eq ▸ noReports_stable.settle ⟨by rw [trunk]; exact down, by rw [frame]; rfl⟩
  have thins : Thinned v.pool.queues[trunkPort] t.pool.queues[trunkPort] := eq ▸ settle_thins v trunkPort
  refine ⟨?_, reports.2, by rw [kept.agent, frame], ?_, ?_, ?_⟩
  · rw [kept.trunk, rest.2, trunk]
    rfl
  · rw [frame] at thins
    exact thins
  · have size : t.pool.reserveSize = u.pool.reserveSize := by rw [kept.reserveSize, frame]
    rw [← size]
    exact eq ▸ fits
  · rw [frame] at kept
    exact { kept with freeCount := rfl, trunk := rfl }

/-- Settles O48: the two timers' commands, written out; the selections only thin the queues and keep a link that is down at rest. -/
theorem timersExpire : Obligations.TimersExpire := by
  refine ⟨fun hold s suspect running => ⟨_, exec_holdTimerExpiry suspect running, ?_⟩,
    fun hold s marked flushed suspect running eq eq' => ?_, fun at' s up running => ?_⟩
  · generalize base : ({ s with now := max s.now hold.expiresAt } : State) = b
    have flushed := linkDownFlushed_kept b
    have queues : (linkDownFlushed b).pool.queues[trunkPort] =
        { b.pool.queues[trunkPort] with lanes := Vector.replicate 8 [], pending := b.pool.queues[trunkPort].pending.map (markedIf (fun _ => true) .linkDown) } := by
      unfold linkDownFlushed
      rw [discardRefs_queues]
      exact modQueue_same _ _ _
    generalize linkDownFlushed b = u at flushed queues
    obtain ⟨trunk, reports, agent, thinned, fits, kept⟩ := broughtDown_settled (u := u) rfl
    generalize settle (trim (broughtDown u)) = t at *
    rw [queues] at thinned
    obtain ⟨lanes, pending⟩ := thinned_emptied thinned (fun lane => by simp) fun r mem => by
      obtain ⟨r', -, rfl⟩ := List.mem_map.1 mem
      rw [markedIf_all]
      dsimp only
      split
      · nofun
      next marked => exact marked
    have uAgent : u.agent = s.agent := by rw [flushed.agent, ← base]
    have size : u.pool.reserveSize = s.pool.reserveSize := by rw [flushed.reserveSize, ← base]
    have down : ∃ counters, t.trunk = { s.trunk with
        link := if s.trunk.rx.lock then .train else .seek, rx := clearIdles s.trunk.rx, hold := none, outLimit := 0, sent := 0
        nextExpected := 0, advertised := 0, creditPending := false, refresh := none, response := none, counters := counters } := by
      obtain ⟨credit, counters, uTrunk⟩ : ∃ credit counters, u.trunk = { s.trunk with creditPending := credit, counters := counters } :=
        ⟨_, _, base ▸ flushed.trunk⟩
      refine ⟨t.trunk.counters, trunk.trans ?_⟩
      unfold broughtDown
      dsimp only
      rw [uTrunk]
    obtain ⟨counters, down⟩ := down
    have flushedFrame : Kept { b with freeCount := t.freeCount, agent := t.agent, trunk := t.trunk }
        { u with freeCount := t.freeCount, agent := t.agent, trunk := t.trunk } :=
      { flushed with freeCount := rfl, agent := rfl, trunk := rfl }
    have frame : Kept { b with freeCount := t.freeCount, agent := t.agent, trunk := t.trunk } t :=
      flushedFrame.trans { kept with agent := rfl }
    subst base
    refine ⟨by rw [down], by rw [down], by rw [down], by rw [down], by rw [down], by rw [down], by rw [down], by rw [down],
      by rw [down], lanes, pending, reports, fun free => ?_, fun busy => ?_, size ▸ fits, by rw [down]; rfl, by rw [down],
      by rw [down], by rw [down], frame⟩
    · rw [agent, broughtDown, uAgent, Agent.broughtDown_free free]
    · rw [agent, broughtDown, uAgent, Agent.broughtDown_busy busy]
  · rw [exec_holdTimerExpiry suspect running]
    have same : linkDownMarked { s with now := max s.now hold.expiresAt } = marked := by
      rw [eq, ← markedIf_all]
      rfl
    have whole : linkDownFlushed { s with now := max s.now hold.expiresAt } = flushed := by
      rw [eq', linkDownFlushed, same]
    have kept := whole ▸ linkDownFlushed_kept { s with now := max s.now hold.expiresAt }
    have rx : flushed.trunk.rx = s.trunk.rx := by rw [kept.trunk]
    have agent : flushed.agent = s.agent := by rw [kept.agent]
    rw [whole]
    unfold broughtDown
    rw [rx, agent]
    cases busy : s.agent.executing with
    | true =>
      rw [Agent.broughtDown_busy busy]
      rfl
    | false =>
      rw [Agent.broughtDown_free busy]
      rfl
  · change execRefreshTimerExpiry s = _
    unfold execRefreshTimerExpiry
    rw [up, running]
    rfl

end Sys2Proof.Machine
end

