-- ==== Sys2Proof/Proofs/TrunkFrames.lean ====
section
/-! PROOFS. The characters of a frame on the trunk: how they are heard, and the checks at EOF. -/

-- One theorem after another: many at once need a thread each.
set_option Elab.async false

namespace Sys2Proof.Machine


/-! ### Reading characters in lock (R151, R152) -/

theorem eofDue_iff (os : List Octet) : eofDue os = true ↔ EofDue os := by
  unfold eofDue
  split
  next a b len rest => exact beq_iff_eq
  next short =>
    refine ⟨nofun, fun due => ?_⟩
    obtain _ | ⟨a, _ | ⟨b, _ | ⟨c, rest⟩⟩⟩ := os
    · cases due
    · cases due
    · cases due
    · exact absurd rfl (short a b c rest)

/-- What the receiver's counts become with a valid character that is no idle. -/
theorem clearIdles_advanceRun_lock {rx : TrunkRx} (locked : rx.lock = true) : (clearIdles (advanceRun rx)).lock = true := by
  unfold clearIdles
  rw [advanceRun_eq]
  exact locked

section
variable {link : LinkState} {rx : TrunkRx} (locked : rx.lock = true)
include locked

theorem rxChar_framed {c : TrunkChar} (valid : c ≠ .invalid) : rxChar link c rx = frameChar link c (advanceRun rx) := by
  rw [rxChar, locked, if_pos rfl, if_neg valid]

theorem rxChar_sof (outside : rx.frame = none) :
    rxChar link .sof rx = ({ clearIdles (advanceRun rx) with frame := some [] }, none) := by
  have frame : (advanceRun rx).frame = none := by rw [advanceRun_frame, outside]
  rw [rxChar_framed (c := .sof) locked nofun]
  simp only [frameChar, frame]

variable {os : List Octet} (inside : rx.frame = some os)
include inside

theorem rxChar_data {o : Octet} (more : ¬EofDue os) (len : os.length = 2 → o.toNat ≤ 60) :
    rxChar link (.data o) rx = ({ clearIdles (advanceRun rx) with frame := some (os ++ [o]) }, none) := by
  have frame : (advanceRun rx).frame = some os := by rw [advanceRun_frame, inside]
  have going : eofDue os = false := Bool.eq_false_iff.2 fun due => more ((eofDue_iff os).1 due)
  rw [rxChar_framed (c := .data o) locked nofun]
  simp only [frameChar, frame, going, Bool.false_eq_true, if_false]
  split
  next n read =>
    have short : ¬60 < n := by
      obtain _ | ⟨a, _ | ⟨b, _ | ⟨c, rest⟩⟩⟩ := os
      · cases read
      · cases read
      · cases read
        exact Nat.not_lt.2 (len rfl)
      · cases rest <;> cases read
    rw [if_neg short]
  · rfl

theorem rxChar_eof : rxChar link .eof rx = ({ clearIdles (advanceRun rx) with frame := none },
    some (.frameEnded (if EofDue os then .complete os else .formatError))) := by
  have frame : (advanceRun rx).frame = some os := by rw [advanceRun_frame, inside]
  rw [rxChar_framed (c := .eof) locked nofun]
  simp only [frameChar, frame, eofDue_iff]

end

theorem hear_quiet {link : LinkState} {rx rx' : TrunkRx} {c : TrunkChar} (step : rxChar link c rx = (rx', none)) (cs : List TrunkChar) :
    hear link rx (c :: cs) = hear link rx' cs := by
  rw [hear, step]

theorem hear_last {link : LinkState} {rx rx' : TrunkRx} {c : TrunkChar} {e : RxEvent} (step : rxChar link c rx = (rx', some e)) :
    hear link rx [c] = .event rx' e := by
  rw [hear, step]
  rfl

/-! ### A whole frame (R151, R188) -/

/-- No octets before the last of a whole frame are a whole frame. -/
theorem eofDue_front {os front rest : List Octet} (whole : EofDue os) (split : os = front ++ rest) (some : rest ≠ []) : ¬EofDue front := by
  intro due
  subst split
  have longer : 0 < rest.length := List.length_pos_iff.2 some
  unfold EofDue at whole due
  have three : 2 < front.length := by omega
  rw [List.getD_append _ _ _ _ three, List.length_append] at whole
  omega

/-- The octets of a frame in reception are read up to the last one. -/
theorem hear_octets (link : LinkState) (tail : List TrunkChar) {os : List Octet} (whole : EofDue os) (short : (os.getD 2 0).toNat ≤ 60)
    (rest front : List Octet) (split : os = front ++ rest) (rx : TrunkRx) (locked : rx.lock = true) (inside : rx.frame = some front) :
    ∃ rx' : TrunkRx, rx'.lock = true ∧ rx'.frame = some os ∧ hear link rx (rest.map .data ++ tail) = hear link rx' tail := by
  induction rest generalizing front rx with
  | nil => exact ⟨rx, locked, by rw [inside, split, List.append_nil], rfl⟩
  | cons o rest ih =>
    have len : front.length = 2 → o.toNat ≤ 60 := fun two => by
      rw [split, List.getD_append_right _ _ _ _ (Nat.le_of_eq two), two] at short
      exact short
    have step := rxChar_data (link := link) locked inside (o := o) (eofDue_front whole split (List.cons_ne_nil _ _)) len
    obtain ⟨rx', locked', inside', heard⟩ := ih (front ++ [o]) (by rw [split, List.append_assoc]; rfl)
      { clearIdles (advanceRun rx) with frame := some (front ++ [o]) } (clearIdles_advanceRun_lock locked) rfl
    refine ⟨rx', locked', inside', ?_⟩
    rw [List.map_cons, List.cons_append, hear_quiet step, heard]

theorem word16_octets2 (v : BitVec 16) : ∃ hi lo : Octet, octets2 v.toNat = [hi, lo] ∧ word16 hi lo = v := by
  refine ⟨_, _, rfl, BitVec.eq_of_toNat_eq ?_⟩
  have := v.isLt
  simp only [word16, BitVec.toNat_ofNat]
  omega

theorem coveredOctets_length {kind seq : Octet} {body : List Octet} : (coveredOctets kind seq body).length = body.length + 3 := rfl

theorem envelopeOctets_whole {kind seq : Octet} {body : List Octet} (short : body.length ≤ 60) :
    EofDue (envelopeOctets kind seq body) ∧ ((envelopeOctets kind seq body).getD 2 0).toNat ≤ 60 := by
  have third : (envelopeOctets kind seq body).getD 2 0 = BitVec.ofNat 8 body.length := rfl
  have small : (BitVec.ofNat 8 body.length).toNat = body.length := by
    rw [BitVec.toNat_ofNat]
    omega
  refine ⟨?_, by rw [third, small]; exact short⟩
  unfold EofDue
  rw [third, small, envelopeOctets, List.length_append, coveredOctets_length]
  rfl

/-- A receiver in lock, with no frame in reception, hears an envelope as one whole frame. -/
theorem hear_envelope (link : LinkState) {rx : TrunkRx} (kind seq : Octet) {body : List Octet} (locked : rx.lock = true)
    (outside : rx.frame = none) (short : body.length ≤ 60) :
    ∃ rx' : TrunkRx, rx'.lock = true ∧ rx'.frame = none ∧ rx'.idleR = 0 ∧ rx'.idleS = 0 ∧
      hear link rx (envelope kind seq body) = .event rx' (.frameEnded (.complete (envelopeOctets kind seq body))) := by
  obtain ⟨whole, len⟩ := envelopeOctets_whole (kind := kind) (seq := seq) short
  obtain ⟨rx', locked', inside', heard⟩ := hear_octets link [.eof] whole len (envelopeOctets kind seq body) [] rfl
    { clearIdles (advanceRun rx) with frame := some [] } (clearIdles_advanceRun_lock locked) rfl
  have ends := rxChar_eof (link := link) locked' inside'
  rw [if_pos whole] at ends
  refine ⟨{ clearIdles (advanceRun rx') with frame := none }, clearIdles_advanceRun_lock locked', rfl, rfl, rfl, ?_⟩
  rw [envelope, List.cons_append, hear_quiet (rxChar_sof locked outside), heard, hear_last ends]

/-! ### The checks at EOF (R152) -/

/-- The checks of octets that end with two of the CRC. -/
theorem checkFrame_append (kind seq len : Octet) (body : List Octet) (hi lo : Octet) :
    checkFrame (kind :: seq :: len :: body ++ [hi, lo]) =
      if crc16 (kind :: seq :: len :: body) = word16 hi lo then (receivedOf? kind seq body).elim .formatError .good else .crcError := by
  have length : (kind :: seq :: len :: body ++ [hi, lo]).length - 2 = (kind :: seq :: len :: body).length := by
    rw [List.length_append]
    rfl
  unfold checkFrame
  rw [length, List.take_left, List.drop_left]
  dsimp only
  cases receivedOf? kind seq body <;> rfl

theorem checkFrame_envelope (kind seq : Octet) (body : List Octet) :
    checkFrame (envelopeOctets kind seq body) = (receivedOf? kind seq body).elim .formatError .good := by
  obtain ⟨hi, lo, octets, word⟩ := word16_octets2 (crc16 (coveredOctets kind seq body))
  rw [envelopeOctets, octets]
  refine (checkFrame_append kind seq _ body hi lo).trans (if_pos ?_)
  exact word.symm

/-- Settles O49: the octets are read one after another, and the CRC-16 is the two octets at their end. -/
theorem envelopeIsHeardWhole : Obligations.EnvelopeIsHeardWhole := by
  intro link rx kind seq body locked outside short
  refine ⟨hear_envelope link kind seq locked outside short, fun r read => ?_, fun none => ?_, fun hi lo other => ?_⟩
  · rw [checkFrame_envelope, read]
    rfl
  · rw [checkFrame_envelope, none]
    rfl
  · refine (checkFrame_append kind seq _ body hi lo).trans (if_neg fun h => other ?_)
    exact h.symm

end Sys2Proof.Machine
end

