-- ==== Sys2Proof/Proofs/TrunkReception.lean ====
section
/-! PROOFS. Received frames: the faults of R152, and what a whole frame does by its kind and the link state. -/

-- One theorem after another: many at once need a thread each.
set_option Elab.async false

namespace Sys2Proof.Machine


/-! ### What the receiver hears (R144, R152) -/

theorem idleChar_lock (link : LinkState) (ready : Bool) (rx : TrunkRx) : (idleChar link ready rx).1.lock = rx.lock := by
  unfold idleChar
  cases ready <;> dsimp only <;> split <;> rfl

theorem frameChar_lock (link : LinkState) (c : TrunkChar) (rx : TrunkRx) : (frameChar link c rx).1.lock = rx.lock := by
  unfold frameChar
  split
  case h_1 => exact idleChar_lock _ _ _
  case h_2 => exact idleChar_lock _ _ _
  case h_5 =>
    split
    · rfl
    · dsimp only
      split
      · split <;> rfl
      · rfl
  all_goals rfl

/-- Lock is lost with an event alone. -/
theorem rxChar_quiet_locked {link : LinkState} {c : TrunkChar} {rx rx' : TrunkRx} (locked : rx.lock = true)
    (quiet : rxChar link c rx = (rx', none)) : rx'.lock = true := by
  by_cases invalid : c = .invalid
  · rw [rxChar, locked, if_pos rfl, if_pos invalid] at quiet
    split at quiet
    · cases quiet
    · exact (Prod.mk.inj quiet).1 ▸ locked
  · rw [rxChar_framed locked invalid] at quiet
    have lock := frameChar_lock link c (advanceRun rx)
    rw [quiet, advanceRun_lock] at lock
    exact lock.trans locked

/-- A run of characters that brings no event leaves the receiver in lock. -/
theorem hear_quiet_locked {link : LinkState} {chars : List TrunkChar} {rx rx' : TrunkRx} (locked : rx.lock = true)
    (quiet : hear link rx chars = .quiet rx') : rx'.lock = true := by
  induction chars generalizing rx with
  | nil =>
    cases quiet
    exact locked
  | cons c cs ih =>
    rw [hear] at quiet
    split at quiet
    next rx₁ step => exact ih (rxChar_quiet_locked locked step) quiet
    next rx₁ e step =>
      split at quiet <;> cases quiet

/-- A character after a run that brings no event is heard on its own. -/
theorem hear_append {link : LinkState} {chars : List TrunkChar} {rx rx' : TrunkRx} (quiet : hear link rx chars = .quiet rx')
    (more : List TrunkChar) : hear link rx (chars ++ more) = hear link rx' more := by
  induction chars generalizing rx with
  | nil =>
    cases quiet
    rfl
  | cons c cs ih =>
    rw [hear] at quiet
    split at quiet
    next rx₁ step =>
      rw [List.cons_append, hear_quiet step]
      exact ih quiet
    next rx₁ e step =>
      split at quiet <;> cases quiet

/-- Another receiver in lock is no change of the idle character to send. -/
theorem setTrunkRx_locked {rx : TrunkRx} {s : State} (locked : s.trunk.rx.lock = true) (locked' : rx.lock = true) :
    setTrunkRx rx s = { s with trunk := { s.trunk with rx := rx } } := by
  refine (retune_of_eq s ?_).trans rfl
  unfold sendsIdleR
  rw [locked, locked']

theorem exec_trunkFrameReceived {chars : List TrunkChar} {rx : TrunkRx} {e : FrameEnd} {s : State} (locked : s.trunk.rx.lock = true)
    (locked' : rx.lock = true) (heard : hear s.trunk.link s.trunk.rx chars = .event rx (.frameEnded e)) :
    exec (.trunkFrameReceived chars) s = .next (frameEnd e { s with trunk := { s.trunk with rx := rx } }) := by
  change execTrunkFrameReceived chars s = _
  unfold execTrunkFrameReceived Machine.heard
  rw [heard, ← setTrunkRx_locked locked locked']

/-! ### The faults of a frame in reception (R152) -/

/-- The octets of a whole frame are three at least and two of the CRC. -/
theorem checkFrame_other_crc {covered : List Octet} {hi lo : Octet} (whole : EofDue (covered ++ [hi, lo]))
    (other : crc16 covered ≠ word16 hi lo) : checkFrame (covered ++ [hi, lo]) = .crcError := by
  obtain _ | ⟨kind, _ | ⟨seq, _ | ⟨len, body⟩⟩⟩ := covered
  · exact absurd whole (by simp [EofDue])
  · exact absurd whole (by simp [EofDue])
  · exact absurd whole (by simp [EofDue])
  · exact (checkFrame_append kind seq len body hi lo).trans (if_neg other)

section
variable {link : LinkState} {rx : TrunkRx} {os : List Octet} (locked : rx.lock = true) (inside : rx.frame = some os)
include locked inside

theorem rxChar_idle_inside {ready : Bool} :
    rxChar link (if ready then .idleR else .idleS) rx = ({ idled ready rx with frame := none }, some (.frameEnded .formatError)) := by
  have frame : (advanceRun rx).frame = some os := by rw [advanceRun_frame, inside]
  have counts : (advanceRun rx).idleR = rx.idleR ∧ (advanceRun rx).idleS = rx.idleS := by
    rw [advanceRun_eq]
    exact ⟨rfl, rfl⟩
  cases ready
  · refine (rxChar_framed (c := .idleS) locked nofun).trans ?_
    simp [frameChar, idleChar, idled, frame, counts]
  · refine (rxChar_framed (c := .idleR) locked nofun).trans ?_
    simp [frameChar, idleChar, idled, frame, counts]

theorem rxChar_sof_inside :
    rxChar link .sof rx = ({ clearIdles (advanceRun rx) with frame := some [] }, some (.frameEnded .formatError)) := by
  have frame : (advanceRun rx).frame = some os := by rw [advanceRun_frame, inside]
  rw [rxChar_framed (c := .sof) locked nofun]
  simp only [frameChar, frame]

theorem rxChar_cut_inside :
    rxChar link .cut rx = ({ clearIdles (advanceRun rx) with frame := none }, some (.frameEnded .cut)) := by
  have frame : (advanceRun rx).frame = some os := by rw [advanceRun_frame, inside]
  rw [rxChar_framed (c := .cut) locked nofun]
  simp only [frameChar, frame]

/-- A data character past the end, or a length over 60, is a format error. -/
theorem rxChar_data_fault {o : Octet} (fault : (os.length = 2 ∧ 60 < o.toNat) ∨ EofDue os) :
    rxChar link (.data o) rx = ({ clearIdles (advanceRun rx) with frame := none }, some (.frameEnded .formatError)) := by
  have frame : (advanceRun rx).frame = some os := by rw [advanceRun_frame, inside]
  rw [rxChar_framed (c := .data o) locked nofun]
  by_cases due : EofDue os
  · simp only [frameChar, frame, (eofDue_iff os).2 due, if_true]
  · have going : eofDue os = false := Bool.eq_false_iff.2 fun h => due ((eofDue_iff os).1 h)
    obtain ⟨two, long⟩ := fault.resolve_right due
    obtain ⟨a, b, rfl⟩ := List.length_eq_two.1 two
    have read : lengthJustRead ([a, b] ++ [o]) = some o.toNat := rfl
    simp only [frameChar, frame, going, read, long, Bool.false_eq_true, if_false, if_true]

theorem rxChar_invalid_inside (more : rx.invalid + 1 ≠ 4) :
    rxChar link .invalid rx = ({ clearIdles rx with invalid := rx.invalid + 1, run := 0, frame := none }, some (.frameEnded .checkError)) := by
  rw [rxChar, locked, if_pos rfl, if_pos rfl, if_neg more, inside]
  rfl

/-- Each fault of R152 ends the frame in reception and is counted by its counter. -/
theorem rxChar_fault {c : TrunkChar} {counter : TrunkCounter} (fault : ReceiveFault rx os c counter) :
    ∃ (rx' : TrunkRx) (e : FrameEnd), rxChar link c rx = (rx', some (.frameEnded e)) ∧ rx'.lock = true ∧
      rx'.frame = (if c = .sof then some [] else none) ∧ ∀ s, frameEnd e s = countTrunk counter 1 s := by
  have lock := clearIdles_advanceRun_lock locked
  have eof := rxChar_eof (link := link) locked inside
  obtain ⟨rfl, more, rfl⟩ | ⟨idle, rfl⟩ | ⟨o, rfl, fault, rfl⟩ | ⟨rfl, early, rfl⟩ | ⟨rfl, rfl⟩ |
    ⟨covered, hi, lo, rfl, whole, rfl, other, rfl⟩ | ⟨kind, seq, len, body, hi, lo, rfl, whole, rfl, same, read, rfl⟩ := fault
  · exact ⟨_, _, rxChar_invalid_inside locked inside more, locked, (if_neg (by nofun)).symm, fun _ => rfl⟩
  · obtain rfl | rfl | rfl := idle
    · exact ⟨_, _, rxChar_sof_inside locked inside, lock, (if_pos rfl).symm, fun _ => rfl⟩
    · exact ⟨_, _, rxChar_idle_inside (ready := false) locked inside, (advanceRun_lock rx).trans locked, (if_neg (by nofun)).symm, fun _ => rfl⟩
    · exact ⟨_, _, rxChar_idle_inside (ready := true) locked inside, (advanceRun_lock rx).trans locked, (if_neg (by nofun)).symm, fun _ => rfl⟩
  · exact ⟨_, _, rxChar_data_fault locked inside fault, lock, (if_neg (by nofun)).symm, fun _ => rfl⟩
  · rw [if_neg early] at eof
    exact ⟨_, _, eof, lock, (if_neg (by nofun)).symm, fun _ => rfl⟩
  · exact ⟨_, _, rxChar_cut_inside locked inside, lock, (if_neg (by nofun)).symm, fun _ => rfl⟩
  · rw [if_pos whole] at eof
    refine ⟨_, _, eof, lock, (if_neg (by nofun)).symm, fun s => ?_⟩
    simp only [frameEnd, checkFrame_other_crc whole other]
  · rw [if_pos whole] at eof
    refine ⟨_, _, eof, lock, (if_neg (by nofun)).symm, fun s => ?_⟩
    have checked := checkFrame_append kind seq len body hi lo
    rw [if_pos same, read] at checked
    simp only [frameEnd, checked, Option.elim_none]

end

/-! ### A whole frame, by its kind and the link state (R153, R154) -/

theorem frameEnd_envelope {kind seq : Octet} {body : List Octet} {r : Received} (read : receivedOf? kind seq body = some r) (s : State) :
    frameEnd (.complete (envelopeOctets kind seq body)) s = dispatch r s := by
  have checked := checkFrame_envelope kind seq body
  rw [read] at checked
  simp only [frameEnd, checked, Option.elim_some]

/-- A DATA frame inside the window is taken into an unfilled reserved slot. -/
theorem takeData_eq {n : BitVec 8} {d : DataFrame} {s : State} (up : s.trunk.link = .up) (unfilled : unfilledCount s ≠ 0) :
    ∃ i : SlotId, s.pool.slots[i].status = .unfilled ∧ takeData n d s =
      countTrunk .seqGaps (n - s.trunk.nextExpected).toNat (countTrunk .framesIn 1 { s with
        freeCount := s.freeCount + 1
        pool := { s.pool with slots := s.pool.slots.set i { s.pool.slots[i] with
          status := .filled, frame := d.frame, inbound := some d.inbound } }
        trunk := { s.trunk with
          taken := s.trunk.taken ++ [i], nextExpected := n + 1
          creditPending := if n = s.trunk.nextExpected then s.trunk.creditPending else true } }) := by
  obtain ⟨i, picked, status⟩ := pickUnfilled_isSome (Nat.pos_of_ne_zero unfilled)
  refine ⟨i, status, ?_⟩
  have inOrder : (n - s.trunk.nextExpected).toNat = 0 ↔ n = s.trunk.nextExpected := by
    bv_omega
  have credit : ∀ u : State, u.trunk.link = .up → noteCredit u = modTrunk (fun t => { t with creditPending := true }) u :=
    fun u up => by rw [noteCredit, if_pos up]
  unfold takeData
  rw [picked]
  dsimp only
  by_cases next : n = s.trunk.nextExpected
  · rw [if_pos (inOrder.2 next), if_pos next]
    rfl
  · rw [if_neg (mt inOrder.1 next), if_neg next,
      credit (countTrunk .seqGaps (n - s.trunk.nextExpected).toNat (countTrunk .framesIn 1 (modTrunk (fun t => { t with nextExpected := n + 1 }) s))) up]
    simp only [countTrunk, modTrunk, modSlot, modPool, modAt]

section
variable {s : State} (up : s.trunk.link = .up)
include up

theorem dispatch_credit (limit : BitVec 8) :
    dispatch (.credit limit) s = countTrunk .framesIn 1 (modTrunk (fun t => { t with outLimit := limit }) s) := by
  rw [dispatch, up]

theorem dispatch_request (r : Request) : dispatch (.request r) s = offerRequest r (countTrunk .framesIn 1 s) := by
  rw [dispatch, up]

theorem dispatch_data (n : BitVec 8) (d : DataFrame) : dispatch (.data n d) s = receiveData n d s := by
  rw [dispatch, up]

end

theorem dispatch_unready {s : State} (r : Received) (link : s.trunk.link = .train ∨ s.trunk.link = .suspect) :
    dispatch r s = countTrunk .formatErrors 1 s := by
  unfold dispatch
  obtain link | link := link <;> rw [link]

/-- Settles O51: each fault at the receiver, then the dispatch of a whole frame. -/
theorem receivedFrameIsDispatched : Obligations.ReceivedFrameIsDispatched := by
  refine ⟨fun kind seq body r s locked outside short read => ?_, fun chars rx os c counter s locked quiet inside fault => ?_⟩
  · obtain ⟨rx, locked', outside', -, -, heard⟩ := hear_envelope s.trunk.link kind seq locked outside short
    have received := exec_trunkFrameReceived locked locked' heard
    rw [frameEnd_envelope read] at received
    generalize same : ({ s with trunk := { s.trunk with rx := rx } } : State) = h at received
    have agent : h.agent = s.agent := by rw [← same]
    have link : h.trunk.link = s.trunk.link := by rw [← same]
    have expected : h.trunk.nextExpected = s.trunk.nextExpected := by rw [← same]
    have advertised : h.trunk.advertised = s.trunk.advertised := by rw [← same]
    refine ⟨rx, h, locked', outside', same.symm, fun limit up eq => ?_, fun req up eq room => ?_, fun req up eq full => ?_,
      fun n d up eq out => ?_, fun n d up eq inside unfilled => ?_, fun down => ?_⟩
    · rw [received, eq, dispatch_credit (link.trans up)]
      rfl
    · rw [received, eq, dispatch_request (link.trans up), offerRequest, if_pos (by rw [← agent] at room; exact room), ← agent]
      rfl
    · rw [received, eq, dispatch_request (link.trans up), offerRequest, if_neg (by rw [← agent] at full; exact Nat.not_lt.2 full)]
    · have outside : insideWindow n h.trunk = false := by
        rw [insideWindow, expected, advertised, decide_eq_false_iff_not]
        exact Nat.not_lt.2 out
      rw [received, eq, dispatch_data (link.trans up), receiveData, outside]
      rfl
    · have within : insideWindow n h.trunk = true := by
        rw [insideWindow, expected, advertised, decide_eq_true_iff]
        exact inside
      obtain ⟨i, status, taken⟩ := takeData_eq (n := n) (d := d) (link.trans up) (by rw [← same]; exact unfilled)
      refine ⟨i, by rw [← same] at status; exact status, ?_⟩
      rw [received, eq, dispatch_data (link.trans up), receiveData, if_pos within, taken, ← same]
    · rw [received, dispatch_unready r (by rw [link]; exact down)]
  · have locked' := hear_quiet_locked locked quiet
    obtain ⟨rx', e, step, lock, frame, counts⟩ := rxChar_fault (link := s.trunk.link) locked' inside fault
    refine ⟨rx', lock, frame, ?_⟩
    rw [exec_trunkFrameReceived locked lock ((hear_append quiet [c]).trans (hear_last step)), counts]

end Sys2Proof.Machine
end

