-- ==== Sys2Proof/Proofs/PartnerBodies.lean ====
section
/-! PROOFS. The bodies that the partner sends: requests and DATA frames are read as they are laid out. -/

-- One theorem after another: many at once need a thread each.
set_option Elab.async false

namespace Sys2Proof.Machine


/-! ### Octets of a field (R188) -/

theorem octets2_word16 (hi lo : Octet) : octets2 (word16 hi lo).toNat = [hi, lo] := by
  have := hi.isLt
  have := lo.isLt
  have high : BitVec.ofNat 8 ((word16 hi lo).toNat / 256) = hi := BitVec.eq_of_toNat_eq (by simp only [word16, BitVec.toNat_ofNat]; omega)
  have low : BitVec.ofNat 8 (word16 hi lo).toNat = lo := BitVec.eq_of_toNat_eq (by simp only [word16, BitVec.toNat_ofNat]; omega)
  rw [octets2, high, low]

theorem word16_halves (v : BitVec 16) : word16 (BitVec.ofNat 8 (v.toNat / 256)) (BitVec.ofNat 8 v.toNat) = v := by
  obtain ⟨hi, lo, octets, word⟩ := word16_octets2 v
  cases octets
  exact word

/-- An octet is the code of the value of a small field that it is read as. -/
theorem ofNat_val_ofNat {n : Nat} [NeZero n] {o : Octet} (fits : o.toNat < n) : BitVec.ofNat 8 (Fin.ofNat n o.toNat).val = o := by
  rw [Fin.val_ofNat, Nat.mod_eq_of_lt fits, BitVec.ofNat_toNat, BitVec.setWidth_eq]

/-- A small field is read from the octet that it is laid out as. -/
theorem ofNat_toNat_val {n : Nat} [NeZero n] (small : n ≤ 256) (v : Fin n) :
    (BitVec.ofNat 8 v.val).toNat < n ∧ Fin.ofNat n (BitVec.ofNat 8 v.val).toNat = v := by
  have fits : (BitVec.ofNat 8 v.val).toNat = v.val := by
    rw [BitVec.toNat_ofNat]
    exact Nat.mod_eq_of_lt (Nat.lt_of_lt_of_le v.isLt small)
  rw [fits]
  exact ⟨v.isLt, Fin.ofNat_val_eq_self v⟩

/-! ### Requests (R167 check 1) -/

theorem requestOf_routeWrite (index : Octet) (fields : List Octet) :
    requestOf 3 (index :: fields) = (routeArgs? fields).elim .malformed (.routeWrite index) := by
  change (match routeArgs? fields with | some a => RequestOp.routeWrite index a | none => .malformed) = _
  cases routeArgs? fields <;> rfl

/-- The octets of a route entry's fields. -/
def routeOctets (a : RouteArgs) : List Octet :=
  [a.ingress, a.destLow, a.destHigh, a.sourcePresent, a.sourceLow, a.sourceHigh] ++
    octets2 a.services.toNat ++ [a.action, a.egress, a.mode, a.mirror, a.priority, a.lifetime]

theorem routeArgs?_routeOctets (a : RouteArgs) : routeArgs? (routeOctets a) = some a := by
  obtain ⟨hi, lo, octets, word⟩ := word16_octets2 a.services
  rw [routeOctets, octets]
  change some { a with services := word16 hi lo } = some a
  rw [word]

theorem routeArgs?_eq_some {fields : List Octet} {a : RouteArgs} (read : routeArgs? fields = some a) : fields = routeOctets a := by
  unfold routeArgs? at read
  split at read
  · cases read
    rw [routeOctets, octets2_word16]
    rfl
  · cases read

theorem requestOf_gatewayWrite (a : GatewayArgs) : requestOf 12 (gatewayOctets a) = .gatewayWrite a := by
  obtain ⟨c, d, octets₀, word₀⟩ := word16_octets2 a.lifetime0
  obtain ⟨e, f, octets₁, word₁⟩ := word16_octets2 a.lifetime1
  obtain ⟨g, h, octets₂, word₂⟩ := word16_octets2 a.lifetime2
  obtain ⟨i, j, octets₃, word₃⟩ := word16_octets2 a.lifetime3
  obtain ⟨m, n, octets₄, word₄⟩ := word16_octets2 a.eventMask
  rw [gatewayOctets, octets₀, octets₁, octets₂, octets₃, octets₄]
  change RequestOp.gatewayWrite { a with
    lifetime0 := word16 c d, lifetime1 := word16 e f, lifetime2 := word16 g h, lifetime3 := word16 i j, eventMask := word16 m n } = _
  rw [word₀, word₁, word₂, word₃, word₄]

theorem requestOf_requestOctets {op : RequestOp} {code : Octet} {args : List Octet} (laid : requestOctets op = some (code, args)) :
    requestOf code args = op := by
  cases op with
  | malformed => cases laid
  | routeWrite index a =>
    cases laid
    refine (requestOf_routeWrite index (routeOctets a)).trans ?_
    rw [routeArgs?_routeOctets]
    rfl
  | gatewayWrite a =>
    cases laid
    exact requestOf_gatewayWrite a
  | _ =>
    cases laid
    rfl

/-- Octets that are those of no request are a malformed one: the code, and the number of octets, are told apart. -/
theorem requestOf_unlaid {code : Octet} {args : List Octet} (unlaid : ∀ op : RequestOp, requestOctets op ≠ some (code, args)) :
    requestOf code args = .malformed := by
  obtain ⟨n, eq⟩ : ∃ n, code = BitVec.ofNat 8 n ∧ code.toNat = n := ⟨code.toNat, by rw [BitVec.ofNat_toNat, BitVec.setWidth_eq], rfl⟩
  match n with
  | 0 =>
    obtain ⟨rfl, -⟩ := eq
    rfl
  | 1 =>
    obtain ⟨rfl, -⟩ := eq
    rcases args with _ | ⟨more, rest⟩
    case nil => exact absurd rfl (unlaid .identify)
    all_goals rfl
  | 2 =>
    obtain ⟨rfl, -⟩ := eq
    rcases args with _ | ⟨bank, _ | ⟨index, _ | ⟨more, rest⟩⟩⟩
    case cons.cons.nil => exact absurd rfl (unlaid (.routeRead bank index))
    all_goals rfl
  | 3 =>
    obtain ⟨rfl, -⟩ := eq
    rcases args with _ | ⟨index, fields⟩
    · rfl
    · refine (requestOf_routeWrite index fields).trans ?_
      cases read : routeArgs? fields with
      | none => rfl
      | some a => exact absurd (by rw [routeArgs?_eq_some read]; rfl) (unlaid (.routeWrite index a))
  | 4 =>
    obtain ⟨rfl, -⟩ := eq
    rcases args with _ | ⟨first, _ | ⟨last, _ | ⟨more, rest⟩⟩⟩
    case cons.cons.nil => exact absurd rfl (unlaid (.routeClear first last))
    all_goals rfl
  | 5 =>
    obtain ⟨rfl, -⟩ := eq
    rcases args with _ | ⟨purge, _ | ⟨more, rest⟩⟩
    case cons.nil => exact absurd rfl (unlaid (.routeCommit purge))
    all_goals rfl
  | 6 =>
    obtain ⟨rfl, -⟩ := eq
    rcases args with _ | ⟨address, _ | ⟨more, rest⟩⟩
    case cons.nil => exact absurd rfl (unlaid (.nodeRead address))
    all_goals rfl
  | 7 =>
    obtain ⟨rfl, -⟩ := eq
    rcases args with _ | ⟨address, _ | ⟨location, _ | ⟨more, rest⟩⟩⟩
    case cons.cons.nil => exact absurd rfl (unlaid (.nodeWrite address location))
    all_goals rfl
  | 8 =>
    obtain ⟨rfl, -⟩ := eq
    rcases args with _ | ⟨address, _ | ⟨more, rest⟩⟩
    case cons.nil => exact absurd rfl (unlaid (.nodeUnblock address))
    all_goals rfl
  | 9 =>
    obtain ⟨rfl, -⟩ := eq
    rcases args with _ | ⟨port, _ | ⟨more, rest⟩⟩
    case cons.nil => exact absurd rfl (unlaid (.portRead port))
    all_goals rfl
  | 10 =>
    obtain ⟨rfl, -⟩ := eq
    rcases args with _ | ⟨port, _ | ⟨a, _ | ⟨b, _ | ⟨c, _ | ⟨d, _ | ⟨e, _ | ⟨f, _ | ⟨more, rest⟩⟩⟩⟩⟩⟩⟩⟩
    case cons.cons.cons.cons.cons.cons.cons.nil => exact absurd rfl (unlaid (.portWrite port ⟨a, b, c, d, e, f⟩))
    all_goals rfl
  | 11 =>
    obtain ⟨rfl, -⟩ := eq
    rcases args with _ | ⟨more, rest⟩
    case nil => exact absurd rfl (unlaid .gatewayRead)
    all_goals rfl
  | 12 =>
    obtain ⟨rfl, -⟩ := eq
    rcases args with _ | ⟨a, _ | ⟨b, _ | ⟨c, _ | ⟨d, _ | ⟨e, _ | ⟨f, _ | ⟨g, _ | ⟨h, _ | ⟨i, _ | ⟨j, _ | ⟨k, _ | ⟨l, _ | ⟨m, _ | ⟨n, _ | ⟨o, _ | ⟨more, rest⟩⟩⟩⟩⟩⟩⟩⟩⟩⟩⟩⟩⟩⟩⟩⟩
    case cons.cons.cons.cons.cons.cons.cons.cons.cons.cons.cons.cons.cons.cons.cons.nil =>
      refine absurd ?_ (unlaid (.gatewayWrite ⟨a, b, word16 c d, word16 e f, word16 g h, word16 i j, k, l, word16 m n, o⟩))
      simp only [requestOctets, gatewayOctets, octets2_word16]
      rfl
    all_goals rfl
  | 13 =>
    obtain ⟨rfl, -⟩ := eq
    rcases args with _ | ⟨group, _ | ⟨clear, _ | ⟨more, rest⟩⟩⟩
    case cons.cons.nil => exact absurd rfl (unlaid (.countersRead group clear))
    all_goals rfl
  | 14 =>
    obtain ⟨rfl, -⟩ := eq
    rcases args with _ | ⟨kind, _ | ⟨more, rest⟩⟩
    case cons.nil => exact absurd rfl (unlaid (.reset kind))
    all_goals rfl
  | n + 15 =>
    unfold requestOf
    rw [eq.2]
    rfl

/-! ### DATA bodies (R152, R189) -/

/-- The octet of a direct port, where a frame has one. -/
def directOctets (direct : Option SegPort) : List Octet :=
  match direct with
  | some p => [BitVec.ofNat 8 p.val]
  | none => []

/-- The octets of a tag, where a frame has one. -/
def tagOctets (tag : Option (BitVec 16)) : List Octet :=
  match tag with
  | some t => octets2 t.toNat
  | none => []

/-- The body of a DATA frame with a flags octet. -/
def dataLayout (flags : Octet) (d : DataFrame) : List Octet :=
  BitVec.ofNat 8 d.frame.priority.val :: BitVec.ofNat 8 d.frame.dest.val :: BitVec.ofNat 8 d.frame.source.val ::
    BitVec.ofNat 8 d.frame.service.val :: flags :: BitVec.ofNat 8 d.inbound.lifetime.val ::
    (directOctets d.inbound.direct ++ (tagOctets d.inbound.tag ++ BitVec.ofNat 8 d.frame.payload.length :: d.frame.payload))

theorem dataFrameBody_eq (d : DataFrame) : dataFrameBody d = dataLayout (BitVec.ofNat 8 (dataFlags d)) d := by
  unfold dataFrameBody dataLayout
  cases d.inbound.direct <;> cases d.inbound.tag <;> rfl

theorem dataFrameBody_set (d : DataFrame) (flags : Octet) : (dataFrameBody d).set 4 flags = dataLayout flags d := by
  rw [dataFrameBody_eq]
  rfl

theorem segPort?_eq_some {o : Octet} {p : SegPort} : segPort? o = some p ↔ o = BitVec.ofNat 8 p.val := by
  unfold segPort?
  refine ⟨fun read => ?_, fun laid => ?_⟩
  · split at read
    · cases read
      exact (BitVec.ofNat_toNat 8 o).symm ▸ (BitVec.setWidth_eq o).symm
    · cases read
  · have fits : o.toNat = p.val := by
      rw [laid, BitVec.toNat_ofNat]
      exact Nat.mod_eq_of_lt (Nat.lt_trans p.isLt (by decide))
    rw [dif_pos (fits ▸ p.isLt)]
    exact congrArg some (Fin.ext fits)

/-- The direct port of a DATA body, and what follows it. -/
def directOf? (present : Bool) (rest : List Octet) : Option (Option SegPort × List Octet) :=
  if present then
    match rest with
    | o :: os => (segPort? o).map fun p => (some p, os)
    | [] => none
  else some (none, rest)

/-- The tag of a DATA body, and what follows it. -/
def tagOf? (present : Bool) (rest : List Octet) : Option (Option (BitVec 16) × List Octet) :=
  if present then
    match rest with
    | hi :: lo :: more => some (some (word16 hi lo), more)
    | _ => none
  else some (none, rest)

/-- The payload of a DATA body. -/
def payloadOf? (rest : List Octet) : Option (List Octet) :=
  match rest with
  | n :: payload => if n.toNat ≤ 12 ∧ payload.length = n.toNat then some payload else none
  | [] => none

theorem directOf?_eq_some {present : Bool} {rest os : List Octet} {direct : Option SegPort} :
    directOf? present rest = some (direct, os) ↔ present = direct.isSome ∧ rest = directOctets direct ++ os := by
  unfold directOf? directOctets
  cases present with
  | false => cases direct <;> simp
  | true =>
    cases rest with
    | nil => cases direct <;> simp
    | cons o rest => cases direct <;> simp [segPort?_eq_some]

theorem tagOf?_eq_some {present : Bool} {rest os : List Octet} {tag : Option (BitVec 16)} :
    tagOf? present rest = some (tag, os) ↔ present = tag.isSome ∧ rest = tagOctets tag ++ os := by
  have halves (hi lo : Octet) (v : BitVec 16) : word16 hi lo = v ↔ hi = BitVec.ofNat 8 (v.toNat / 256) ∧ lo = BitVec.ofNat 8 v.toNat := by
    refine ⟨fun h => ?_, fun ⟨h, l⟩ => h ▸ l ▸ word16_halves v⟩
    have octets := octets2_word16 hi lo
    rw [h] at octets
    cases octets
    exact ⟨rfl, rfl⟩
  unfold tagOf? tagOctets
  cases present with
  | false => cases tag <;> simp
  | true =>
    rcases rest with _ | ⟨hi, _ | ⟨lo, rest⟩⟩
    · cases tag <;> simp [octets2]
    · cases tag <;> simp [octets2]
    · cases tag <;> simp [octets2, halves, and_assoc]

theorem payloadOf?_eq_some {rest payload : List Octet} :
    payloadOf? rest = some payload ↔ payload.length ≤ 12 ∧ rest = BitVec.ofNat 8 payload.length :: payload := by
  have same {o : Octet} : BitVec.ofNat 8 o.toNat = o := by rw [BitVec.ofNat_toNat, BitVec.setWidth_eq]
  unfold payloadOf?
  cases rest with
  | nil => simp
  | cons o rest =>
    dsimp only
    rw [Option.ite_none_right_eq_some, List.cons.injEq, Option.some.injEq]
    refine ⟨fun ⟨⟨short, length⟩, eq⟩ => ?_, fun ⟨short, first, eq⟩ => ?_⟩
    · subst eq
      rw [length, same]
      exact ⟨short, rfl, rfl⟩
    · subst first eq
      have fits : (BitVec.ofNat 8 rest.length).toNat = rest.length := by
        rw [BitVec.toNat_ofNat]
        omega
      rw [fits]
      exact ⟨⟨short, rfl⟩, rfl⟩

theorem dataTail?_eq (flags : Octet) (rest : List Octet) : dataTail? flags rest =
    (directOf? (flags.getLsbD 2) rest).bind fun d => (tagOf? (flags.getLsbD 1) d.2).bind fun t =>
      (payloadOf? t.2).map fun payload => (d.1, t.1, payload) := by
  unfold dataTail?
  refine congrArg₂ Option.bind rfl (funext fun ⟨d, os⟩ => congrArg₂ Option.bind rfl (funext fun ⟨t, more⟩ => ?_))
  unfold payloadOf?
  cases more with
  | nil => rfl
  | cons n payload =>
    dsimp only
    split <;> rfl

/-- What follows the lifetime class is read as it is laid out, by the flags. -/
theorem dataTail?_eq_some {flags : Octet} {rest : List Octet} {direct : Option SegPort} {tag : Option (BitVec 16)} {payload : List Octet} :
    dataTail? flags rest = some (direct, tag, payload) ↔
      flags.getLsbD 2 = direct.isSome ∧ flags.getLsbD 1 = tag.isSome ∧ payload.length ≤ 12 ∧
        rest = directOctets direct ++ (tagOctets tag ++ BitVec.ofNat 8 payload.length :: payload) := by
  rw [dataTail?_eq]
  simp only [Option.bind_eq_some_iff, Option.map_eq_some_iff, Prod.exists, Prod.mk.injEq]
  refine ⟨?_, fun ⟨bit, bit', short, eq⟩ => ?_⟩
  · rintro ⟨d, os, first, t, more, second, p, third, rfl, rfl, rfl⟩
    obtain ⟨bit, rfl⟩ := directOf?_eq_some.1 first
    obtain ⟨bit', rfl⟩ := tagOf?_eq_some.1 second
    obtain ⟨short, rfl⟩ := payloadOf?_eq_some.1 third
    exact ⟨bit, bit', short, rfl⟩
  · exact ⟨_, _, directOf?_eq_some.2 ⟨bit, eq⟩, _, _, tagOf?_eq_some.2 ⟨bit', rfl⟩, _, payloadOf?_eq_some.2 ⟨short, rfl⟩, rfl, rfl, rfl⟩

/-- A DATA body is read as it is laid out, whatever bits 3 to 7 of its flags. -/
theorem dataOf?_eq_some {body : List Octet} {d : DataFrame} : dataOf? body = some d ↔
    d.frame.payload.length ≤ 12 ∧ ∃ flags : Octet, flags.getLsbD 0 = d.inbound.custody ∧ flags.getLsbD 1 = d.inbound.tag.isSome ∧
      flags.getLsbD 2 = d.inbound.direct.isSome ∧ body = dataLayout flags d := by
  refine ⟨fun read => ?_, fun ⟨short, flags, custody, tag, direct, laid⟩ => ?_⟩
  · unfold dataOf? at read
    split at read
    next priority dest source service flags lifetime rest =>
      split at read
      next fits =>
        obtain ⟨p, de, so, se, li⟩ := fits
        obtain ⟨⟨direct, tag, payload⟩, tail, eq⟩ := Option.map_eq_some_iff.1 read
        obtain ⟨bit, bit', short, laid⟩ := dataTail?_eq_some.1 tail
        subst eq
        refine ⟨short, flags, rfl, bit', bit, ?_⟩
        unfold dataLayout
        dsimp only
        rw [ofNat_val_ofNat (by omega), ofNat_val_ofNat (by omega), ofNat_val_ofNat (by omega), ofNat_val_ofNat (by omega),
          ofNat_val_ofNat (by omega), ← laid]
      · cases read
    · cases read
  · have p := ofNat_toNat_val (by decide) d.frame.priority
    have de := ofNat_toNat_val (by decide) d.frame.dest
    have so := ofNat_toNat_val (by decide) d.frame.source
    have se := ofNat_toNat_val (by decide) d.frame.service
    have li := ofNat_toNat_val (by decide) d.inbound.lifetime
    have tail := dataTail?_eq_some.2 ⟨direct, tag, short, rfl⟩
    rw [laid]
    unfold dataLayout dataOf?
    dsimp only
    rw [if_pos ⟨by omega, by omega, by omega, by omega, by omega⟩, tail, p.2, de.2, so.2, se.2, li.2, custody]
    rfl

/-- A flags octet is the frame's own with its bits 3 to 7 free. -/
theorem flags_iff {flags : Octet} {d : DataFrame} :
    (flags.getLsbD 0 = d.inbound.custody ∧ flags.getLsbD 1 = d.inbound.tag.isSome ∧ flags.getLsbD 2 = d.inbound.direct.isSome) ↔
      ∃ high : Octet, flags = BitVec.ofNat 8 (dataFlags d) ||| high <<< 3 := by
  have split : ∀ flags : Octet, flags = BitVec.ofNat 8 ((flags.getLsbD 0).toNat + 2 * (flags.getLsbD 1).toNat + 4 * (flags.getLsbD 2).toNat) |||
      (flags >>> 3) <<< 3 := by decide
  have low : ∀ c t x : Bool, (BitVec.ofNat 8 (c.toNat + 2 * t.toNat + 4 * x.toNat)).getLsbD 0 = c ∧
      (BitVec.ofNat 8 (c.toNat + 2 * t.toNat + 4 * x.toNat)).getLsbD 1 = t ∧
      (BitVec.ofNat 8 (c.toNat + 2 * t.toNat + 4 * x.toNat)).getLsbD 2 = x := by decide
  refine ⟨fun ⟨custody, tag, direct⟩ => ⟨flags >>> 3, ?_⟩, fun ⟨high, eq⟩ => ?_⟩
  · rw [dataFlags, ← custody, ← tag, ← direct]
    exact split flags
  · obtain ⟨custody, tag, direct⟩ := low d.inbound.custody d.inbound.tag.isSome d.inbound.direct.isSome
    subst eq
    have bits {i : Nat} (below : i < 3) :
        (BitVec.ofNat 8 (dataFlags d) ||| high <<< 3).getLsbD i = (BitVec.ofNat 8 (dataFlags d)).getLsbD i := by
      rw [BitVec.getLsbD_or, BitVec.getLsbD_shiftLeft, decide_eq_true below]
      simp
    exact ⟨(bits (by decide)).trans custody, (bits (by decide)).trans tag, (bits (by decide)).trans direct⟩

theorem dataOf?_iff {body : List Octet} {d : DataFrame} : dataOf? body = some d ↔ d.frame.payload.length ≤ 12 ∧
    ∃ high : Octet, body = (dataFrameBody d).set 4 (BitVec.ofNat 8 (dataFlags d) ||| high <<< 3) := by
  rw [dataOf?_eq_some]
  refine and_congr_right fun _ => ⟨fun ⟨flags, custody, tag, direct, laid⟩ => ?_, fun ⟨high, laid⟩ => ?_⟩
  · obtain ⟨high, eq⟩ := flags_iff.1 ⟨custody, tag, direct⟩
    exact ⟨high, by rw [dataFrameBody_set, ← eq, laid]⟩
  · obtain ⟨custody, tag, direct⟩ := flags_iff.2 ⟨high, rfl⟩
    exact ⟨_, custody, tag, direct, by rw [laid, dataFrameBody_set]⟩

/-! ### By kind (R152) -/

theorem receivedOf?_data (seq : Octet) (body : List Octet) : receivedOf? 1 seq body = (dataOf? body).map (.data seq) := rfl

theorem receivedOf?_credit (seq : Octet) (body : List Octet) : receivedOf? 3 seq body ≠ none ↔ body.length = 1 := by
  rcases body with _ | ⟨limit, _ | ⟨more, rest⟩⟩ <;> simp [receivedOf?]

theorem receivedOf?_request (seq : Octet) (body : List Octet) : receivedOf? 4 seq body ≠ none ↔ 2 ≤ body.length := by
  rcases body with _ | ⟨code, _ | ⟨id, args⟩⟩ <;> simp [receivedOf?]

/-- Settles O50: each layout is read back, and what is read is laid out. -/
theorem partnerBodiesRoundTrip : Obligations.PartnerBodiesRoundTrip := by
  refine ⟨fun _ _ _ => requestOf_requestOctets, fun _ _ => requestOf_unlaid, fun d short => ?_, fun seq high d short => ?_,
    fun _ _ => rfl, fun _ _ _ _ => rfl, fun kind seq body => ⟨?_, ?_, ?_, fun one three four => ?_⟩⟩
  · refine dataOf?_iff.2 ⟨short, 0, ?_⟩
    rw [dataFrameBody_set, dataFrameBody_eq]
    simp
  · rw [receivedOf?_data, dataOf?_iff.2 ⟨short, high, rfl⟩]
    rfl
  · rintro rfl
    rw [receivedOf?_data, Ne, Option.map_eq_none_iff, ← Ne, Option.ne_none_iff_exists']
    exact ⟨fun ⟨d, read⟩ => ⟨d, (dataOf?_iff.1 read).2.imp fun high laid => ⟨(dataOf?_iff.1 read).1, laid⟩⟩,
      fun ⟨d, high, short, laid⟩ => ⟨d, dataOf?_iff.2 ⟨short, high, laid⟩⟩⟩
  · rintro rfl
    exact receivedOf?_credit seq body
  · rintro rfl
    exact receivedOf?_request seq body
  · unfold receivedOf?
    rw [if_neg one, if_neg three, if_neg four]

end Sys2Proof.Machine
end

