-- ==== Sys2Proof/Proofs/TrunkTransmission.lean ====
section
/-! PROOFS. The trunk transmitter: the end of a frame, and the arbiter's choice. -/

-- One theorem after another: many at once need a thread each.
set_option Elab.async false

namespace Sys2Proof.Machine


/-! ### The end of a frame (R151) -/

theorem exec_trunkFrameEof {f : TxFrame} {s ended : State} (tx : s.trunk.tx = some f)
    (eq : ended = countTrunk .framesOut 1 { s with
      now := max s.now (f.startedAt + (f.body.length + 7) * characterTime)
      trunk := { s.trunk with
        tx := none, nextStart := f.startedAt + (f.body.length + 7) * characterTime + characterTime } }) :
    exec .trunkFrameEof s = .next (settle (frameSent f ended)) := by
  change execTrunkFrameEof s = _
  unfold execTrunkFrameEof
  rw [tx, eq]
  rfl

/-- The event whose record is in transmission leaves the list, or goes to its tail with its further occurrences. -/
theorem eventSent_records {before after : List Event} {e : Event} {s : State} (records : s.events.records = before ++ e :: after)
    (inTx : e.inTx = true) (others : ∀ x ∈ before ++ after, x.inTx = false) :
    (eventSent s).events.records = before ++ after ++
      if e.further = 0 then [] else [{ e with detail := e.furtherDetail, occurrences := e.further, further := 0, inTx := false }] := by
  have kept (l : List Event) (sub : ∀ x ∈ l, x ∈ before ++ after) : l.filter (!·.inTx) = l ∧ l.filter (fun x => x.inTx && x.further != 0) = [] :=
    ⟨List.filter_eq_self.2 fun x mem => by rw [others x (sub x mem)]; rfl,
      List.filter_eq_nil_iff.2 fun x mem => by rw [others x (sub x mem)]; exact Bool.false_ne_true⟩
  obtain ⟨front, frontGone⟩ := kept before fun _ mem => List.mem_append_left _ mem
  obtain ⟨back, backGone⟩ := kept after fun _ mem => List.mem_append_right _ mem
  unfold eventSent modEvents
  rw [records]
  dsimp only
  rw [List.filter_append, List.filter_append, List.filter_cons, List.filter_cons, front, frontGone, back, backGone, inTx]
  by_cases further : e.further = 0 <;> simp [further]

/-- Settles O54: the end of a frame, by its kind. -/
theorem eofEndsFrame : Obligations.EofEndsFrame := by
  intro f s ended tx eq
  rw [exec_trunkFrameEof tx eq]
  have events : ended.events = s.events := by rw [eq]; rfl
  have custody : ended.custody = s.custody := by rw [eq]; rfl
  have queues : ended.pool = s.pool := by rw [eq]; rfl
  refine ⟨fun limit rest kind body => ?_, fun kind => ?_, fun kind => ?_, fun before e after kind records inTx others => ?_,
    fun r kind holder => ?_⟩
  · simp only [frameSent, kind, creditSent, body]
    rfl
  · simp only [frameSent, kind]
    rfl
  · simp only [frameSent, kind, reportSent, modCustody, custody]
  · have sent := eventSent_records (s := ended) (by rw [events]; exact records) inTx others
    simp only [frameSent, kind]
    rw [← sent, ← events]
    rfl
  · have sent : dataSent ended = dropRef trunkPort r .delivered (setHolder trunkPort none ended) := by
      unfold dataSent
      rw [queues, holder]
    obtain kind | kind := kind <;> simp only [frameSent, kind, sent]

/-! ### The arbiter (R161) -/

/-- The first boundary from a moment on is the one at which the transmitter's next choice stands. -/
theorem boundaryFrom_eq {k : Trunk} {t at' : Ticks} (on : OnBoundary k at') (later : t ≤ at')
    (first : ∀ b : Ticks, OnBoundary k b → t ≤ b → at' ≤ b) : boundaryFrom k t = at' := by
  refine Nat.le_antisymm (boundaryFrom_le on later) (first _ ⟨Nat.le_add_right _ _, ?_⟩ le_boundary)
  unfold boundaryFrom
  rw [Nat.add_sub_cancel_left]
  exact Nat.mul_mod_left _ 20

theorem exec_trunkFrameStart {at' : Ticks} {s : State} (up : s.trunk.link = .up) (idle : s.trunk.tx = none)
    (on : OnBoundary s.trunk at') (now : s.now ≤ at') (next : s.trunk.nextStart ≤ at')
    (first : ∀ b : Ticks, OnBoundary s.trunk b → s.now ≤ b → s.trunk.nextStart ≤ b → at' ≤ b) :
    exec .trunkFrameStart s = .next (settle (choose { s with now := at' })) := by
  have boundary : boundaryFrom s.trunk (max s.now s.trunk.nextStart) = at' :=
    boundaryFrom_eq on (Nat.max_le.2 ⟨now, next⟩) fun b onB le => first b onB (Nat.max_le.1 le).1 (Nat.max_le.1 le).2
  change execTrunkFrameStart s = _
  unfold execTrunkFrameStart
  rw [up, idle]
  dsimp only
  rw [boundary]

theorem find?_sent {reports : List Report} (sent : ∀ r ∈ reports, r.inTx = true) : reports.find? (!·.inTx) = none :=
  List.find?_eq_none.2 fun r mem => by rw [sent r mem]; exact Bool.false_ne_true

section
variable {s : State} (credit : s.trunk.creditPending = false)
include credit

theorem arbitrate_response {r : Response} (response : s.trunk.response = some r) :
    arbitrate s = transmit .mgmtRsp 0 (responseBody r) s := by
  unfold arbitrate
  rw [credit, response]
  rfl

variable (quiet : s.trunk.response = none)
include quiet

theorem arbitrate_report {r : Report} (offered : s.custody.reports.find? (!·.inTx) = some r) : arbitrate s = startReport r s := by
  unfold arbitrate
  rw [credit, quiet, offered]
  rfl

variable (sent : ∀ r ∈ s.custody.reports, r.inTx = true)
include sent

theorem arbitrate_event {e : Event} (offered : offeredEvent s = some e) : arbitrate s = startEvent e s := by
  unfold arbitrate
  rw [credit, quiet, find?_sent sent, offered]
  rfl

theorem arbitrate_data (offered : offeredEvent s = none) : arbitrate s = if creditAllows s.trunk then handOff s else s := by
  unfold arbitrate
  rw [credit, quiet, find?_sent sent, offered]
  rfl

end

/-! ### The heads of the trunk queue (R125) -/

theorem discardRef_trunk (r : Ref) (reason : Reason) (s : State) : discardRef trunkPort r reason s = dropRef trunkPort r reason s := rfl

theorem isStale_iff (epoch : Nat) (s : State) : isStale epoch s = true ↔ epoch < s.route.purgeEpoch := decide_eq_true_iff

theorem length_flatten_set {α : Type} {l : List (List α)} {i : Nat} (inRange : i < l.length) {a : α} {rest : List α} (head : l[i] = a :: rest) :
    (l.set i rest).flatten.length + 1 = l.flatten.length := by
  induction l generalizing i with
  | nil => exact absurd inRange (Nat.not_lt_zero _)
  | cons x xs ih =>
    cases i with
    | zero =>
      have first : x = a :: rest := head
      rw [List.set_cons_zero, List.flatten_cons, List.flatten_cons, first, List.length_append, List.length_append, List.length_cons]
      omega
    | succ i =>
      have tail := ih (Nat.lt_of_succ_lt_succ inRange) head
      rw [List.set_cons_succ, List.flatten_cons, List.flatten_cons, List.length_append, List.length_append]
      omega

/-- To pop a head takes one reference off the lanes. -/
theorem laneRefs_popLane {lane : Priority} {r : Ref} {s : State} (head : firstHead trunkPort s = some (lane, r)) :
    (laneRefs (popLane trunkPort lane s).pool.queues[trunkPort]).length + 1 = (laneRefs s.pool.queues[trunkPort]).length := by
  obtain ⟨rest, eq⟩ : ∃ rest, s.pool.queues[trunkPort].lanes[lane] = r :: rest :=
    ⟨_, List.eq_cons_of_mem_head? ((firstHead_eq_some _ _ _ _).1 head).1⟩
  have inRange : lane.val < s.pool.queues[trunkPort].lanes.toList.length := by rw [Vector.length_toList]; exact lane.isLt
  have popped : (popLane trunkPort lane s).pool.queues[trunkPort].lanes.toList = s.pool.queues[trunkPort].lanes.toList.set lane.val rest := by
    rw [popLane, modQueue_same]
    dsimp only
    rw [modAt, Vector.toList_set]
    exact congrArg _ (congrArg List.tail eq)
  rw [laneRefs, laneRefs, popped]
  exact length_flatten_set inRange eq

theorem purgeHeads_stale {n : Nat} {s : State} {lane : Priority} {r : Ref} (head : firstHead trunkPort s = some (lane, r))
    (stale : s.pool.slots[r.slot].epoch < s.route.purgeEpoch) :
    purgeHeads (n + 1) s = purgeHeads n (dropRef trunkPort r .purged (popLane trunkPort lane s)) := by
  rw [purgeHeads, head]
  dsimp only
  rw [if_pos ((isStale_iff (slotOf r s).epoch s).2 stale)]
  rfl

theorem purgeHeads_fresh {n : Nat} {s : State}
    (fresh : ∀ lane r, firstHead trunkPort s = some (lane, r) → s.route.purgeEpoch ≤ s.pool.slots[r.slot].epoch) : purgeHeads n s = s := by
  cases n with
  | zero => rfl
  | succ n =>
    rw [purgeHeads]
    split
    · rfl
    next lane r head => rw [if_neg fun h => Nat.not_lt.2 (fresh lane r head) ((isStale_iff (slotOf r s).epoch s).1 h)]

/-- With a turn for each reference of the lanes, the heads left are not stale. -/
theorem purgeHeads_head_fresh {n : Nat} {s : State} (enough : (laneRefs s.pool.queues[trunkPort]).length ≤ n) (lane : Priority) (r : Ref)
    (head : firstHead trunkPort (purgeHeads n s) = some (lane, r)) :
    (purgeHeads n s).route.purgeEpoch ≤ (purgeHeads n s).pool.slots[r.slot].epoch := by
  induction n generalizing s with
  | zero =>
    have count := laneRefs_popLane head
    rw [purgeHeads] at count
    omega
  | succ n ih =>
    by_cases fresh : ∀ lane r, firstHead trunkPort s = some (lane, r) → s.route.purgeEpoch ≤ s.pool.slots[r.slot].epoch
    · rw [purgeHeads_fresh fresh] at head ⊢
      exact fresh lane r head
    · simp only [not_forall, Nat.not_le] at fresh
      obtain ⟨lane', r', first, stale⟩ := fresh
      rw [purgeHeads_stale first stale] at head ⊢
      refine ih ?_ head
      have count := laneRefs_popLane first
      rw [dropRef_queues]
      omega

/-! ### TRUNK_FRAME_START (R161) -/

theorem choose_of_tx {s t : State} (f : TxFrame) (chosen : arbitrate s = t) (tx : t.trunk.tx = some f) : choose s = t := by
  rw [choose_starts _ (chosen ▸ tx), chosen]

theorem offeredEvent_head {s : State} {e : Event} {es : List Event} (records : s.events.records = e :: es)
    (waiting : ∀ x ∈ e :: es, x.inTx = false) : offeredEvent s = some e := by
  have none : (e :: es).any (·.inTx) = false := List.any_eq_false.2 fun x mem => by rw [waiting x mem]; exact Bool.false_ne_true
  unfold offeredEvent
  rw [records, none]
  rfl

theorem startReport_eq {before after : List Report} {r : Report} {s : State} (records : s.custody.reports = before ++ r :: after)
    (waiting : r.inTx = false) (sent : ∀ x ∈ before, x.inTx = true) : startReport r s = transmit .report 0 (reportBody r) { s with
      custody := { s.custody with reports := before ++ { r with inTx := true } :: after } } := by
  have first := updateFirst_split (test := fun x : Report => !x.inTx) (f := fun x => some { x with inTx := true }) (after := after)
    (fun x mem => by rw [sent x mem]; rfl) (by rw [waiting]; rfl : (!r.inTx) = true)
  unfold startReport modCustody
  dsimp only
  rw [records, first, List.append_assoc]
  rfl

theorem creditAllows_iff (k : Trunk) : creditAllows k = true ↔ 1 ≤ (k.outLimit - k.sent).toNat ∧ (k.outLimit - k.sent).toNat ≤ 128 := by
  rw [creditAllows, Bool.and_eq_true, decide_eq_true_iff, decide_eq_true_iff]

theorem unfilledCount_congr {s t : State} (slots : t.pool.slots = s.pool.slots) : unfilledCount t = unfilledCount s := by
  unfold unfilledCount
  rw [slotsIn_congr _ slots]

theorem startCredit_eq (s : State) : startCredit s = { s with trunk := { s.trunk with
    cut := none, tx := some ⟨.credit, 0, [s.trunk.nextExpected + BitVec.ofNat 8 (unfilledCount s)], s.now⟩
    creditPending := false, refresh := some (s.now + 22500) } } := by
  unfold startCredit currentLimit
  rw [← unfilledCount_congr (s := s) (t := modTrunk (fun t => { t with creditPending := false, refresh := some (s.now + refreshTime) }) s) rfl]
  rfl

theorem startData_eq (lane : Priority) (r : Ref) (s : State) : startData lane r s = modQueue trunkPort (fun Q =>
    { Q with holder := some { r with count := r.count + 1 }, lanes := modAt Q.lanes lane List.tail })
    { s with trunk := { s.trunk with
      sent := s.trunk.sent + 1, cut := none
      tx := some ⟨r.kind.txKind, s.trunk.sent, dataBody (slotOf r s), s.now⟩ } } := by
  have queue : setHolder trunkPort (some { r with count := r.count + 1 }) (popLane trunkPort lane s) = modQueue trunkPort (fun Q =>
      { Q with holder := some { r with count := r.count + 1 }, lanes := modAt Q.lanes lane List.tail }) s := modQueue_modQueue _ _ _ _
  unfold startData
  rw [queue]
  rfl

theorem arbitrate_empty {s : State} (credit : s.trunk.creditPending = false) (quiet : s.trunk.response = none)
    (sent : ∀ r ∈ s.custody.reports, r.inTx = true) (records : s.events.records = []) :
    arbitrate s = if creditAllows s.trunk then handOff s else s := by
  refine arbitrate_data credit quiet sent ?_
  unfold offeredEvent
  rw [records]
  rfl

/-- A hand-off from a head of the trunk queue. -/
theorem handOff_some {lane : Priority} {r : Ref} {s purged : State}
    (eq : purged = purgeHeads (laneRefs s.pool.queues[trunkPort]).length s) (head : firstHead trunkPort purged = some (lane, r)) :
    handOff s = startData lane r purged := by
  unfold handOff
  dsimp only
  rw [← eq, head]

theorem handOff_none {s purged : State}
    (eq : purged = purgeHeads (laneRefs s.pool.queues[trunkPort]).length s) (head : firstHead trunkPort purged = none) :
    handOff s = purged := by
  unfold handOff
  dsimp only
  rw [← eq, head]

/-- Settles O53: the arbiter's choices in their order, at the boundary. -/
theorem arbiterStartsFirstReady : Obligations.ArbiterStartsFirstReady := by
  refine ⟨fun at' s begun up idle on now next first eq => ?_, fun n s => ⟨fun lane r => purgeHeads_stale, purgeHeads_fresh,
    firstHead_eq_some trunkPort s, firstHead_eq_none trunkPort s⟩⟩
  rw [exec_trunkFrameStart up idle on now next first, ← eq]
  have trunk : begun.trunk = s.trunk := by rw [eq]
  have custody : begun.custody = s.custody := by rw [eq]
  have events : begun.events = s.events := by rw [eq]
  have clock : begun.now = at' := by rw [eq]
  rw [← trunk, ← custody, ← events]
  refine ⟨fun pending => ?_, fun r credit response => ?_, fun before r after credit quiet records waiting sent => ?_,
    fun e es credit quiet sent records waiting => ?_, fun credit quiet sent records => ⟨fun out => ?_, fun purged low high eq' => ?_⟩⟩
  · have chosen : arbitrate begun = startCredit begun := by rw [arbitrate, if_pos pending]
    have count : unfilledCount begun = unfilledCount s := unfilledCount_congr (by rw [eq])
    rw [choose_of_tx _ (chosen.trans (startCredit_eq begun)) rfl, count, clock]
  · rw [choose_of_tx _ (arbitrate_response credit response) rfl, transmit, modTrunk, clock]
    rfl
  · have chosen := arbitrate_report credit quiet (by
      rw [records]
      exact find?_split (fun x mem => by rw [sent x mem]; rfl) (by rw [waiting]; rfl))
    rw [choose_of_tx _ (chosen.trans (startReport_eq records waiting sent)) rfl, transmit, modTrunk, clock]
    rfl
  · have chosen := arbitrate_event credit quiet sent (offeredEvent_head records waiting)
    rw [choose_of_tx _ chosen rfl, startEvent, transmit, modTrunk, modEvents, records, clock]
    rfl
  · have denied : creditAllows begun.trunk = false := by
      rw [Bool.eq_false_iff, Ne, creditAllows_iff]
      omega
    have chosen := arbitrate_empty credit quiet sent records
    rw [denied, if_neg Bool.false_ne_true] at chosen
    rw [choose_idles _ (by rw [chosen, trunk, idle]), chosen, modTrunk, clock]
  · have allowed : creditAllows begun.trunk = true := (creditAllows_iff _).2 ⟨low, high⟩
    have chosen := arbitrate_empty credit quiet sent records
    rw [if_pos allowed] at chosen
    have same : begun.pool.queues[trunkPort] = s.pool.queues[4] := by rw [eq]; rfl
    have purge : purged = purgeHeads (laneRefs begun.pool.queues[trunkPort]).length begun := by rw [eq', same]
    have kept : Kept begun purged := purge ▸ purgeHeads_kept _ _
    have time : purged.now = at' := by rw [kept.now, clock]
    refine ⟨fun empty => ?_, fun lane r sl head slot => ⟨?_, ?_⟩⟩
    · rw [handOff_none purge empty] at chosen
      rw [choose_idles _ (by rw [chosen, kept.trunk, trunk, idle]), chosen, modTrunk, clock]
    · have fresh := purgeHeads_head_fresh (Nat.le_refl _) lane r (purge ▸ head)
      rw [← purge, kept.route, ← slot] at fresh
      rw [eq] at fresh
      exact fresh
    · rw [handOff_some purge head, startData_eq] at chosen
      have sentCount : purged.trunk.sent = begun.trunk.sent := by rw [kept.trunk]
      have kind : r.kind.txKind = if r.kind = .trap then .trap else .data := by cases r.kind <;> rfl
      rw [choose_of_tx _ chosen rfl, time, sentCount, slot, kind]
      rfl

end Sys2Proof.Machine
end

