-- ==== Sys2Proof/Proofs/TrunkRouting.lean ====
section
/-! PROOFS. DATA frames from the trunk: the source check, the decision, and the admission. -/

-- One theorem after another: many at once need a thread each.
set_option Elab.async false

namespace Sys2Proof.Machine


/-! ### References that join their lanes (R116, R121) -/

/-- A reference has joined the tail of one lane in each of some queues, whose ports are due to select. -/
structure Joined (targets : List PortId) (r : Ref) (lane : Priority) (s u : State) : Prop where
  frame : u = { s with pool := { s.pool with queues := u.pool.queues }, ports := u.ports }
  pending : ∀ q : PortId, u.pool.queues[q].pending = s.pool.queues[q].pending
  holder : ∀ q : PortId, u.pool.queues[q].holder = s.pool.queues[q].holder
  lanes : ∀ (q : PortId) (l : Priority), u.pool.queues[q].lanes[l] =
    s.pool.queues[q].lanes[l] ++ if q ∈ targets ∧ l = lane then [r] else []
  due : ∀ p : SegPort, u.ports[p] = { s.ports[p] with due := s.ports[p].due || decide (p.port ∈ targets) }

theorem SegPort.port_injective {p q : SegPort} (h : p.port = q.port) : p = q := by
  have := segOf?_port p
  rw [h, segOf?_port] at this
  exact (Option.some.inj this).symm

theorem makeDueQueue_frame (q : PortId) (s : State) : makeDueQueue q s = { s with ports := (makeDueQueue q s).ports } := by
  unfold makeDueQueue
  split <;> rfl

theorem makeDueQueue_ports (q : PortId) (s : State) (p : SegPort) :
    (makeDueQueue q s).ports[p] = { s.ports[p] with due := s.ports[p].due || decide (p.port = q) } := by
  obtain ⟨x, rfl⟩ | rfl := port_cases q
  · rw [makeDueQueue_port, makeDue, modPort_ports, getElem_modAt_fin]
    split
    next same => rw [same, decide_eq_true rfl, Bool.or_true]
    next other => rw [decide_eq_false fun h => other (SegPort.port_injective h), Bool.or_false]
  · rw [makeDueQueue_trunk, decide_eq_false (by revert p; decide), Bool.or_false]

theorem joinTail_joined (q : PortId) (r : Ref) {lane : Priority} {s : State} (h : (slotOf r s).priority = lane) :
    Joined [q] r lane s (joinTail q r s) := by
  subst h
  have queue (x : PortId) : (joinTail q r s).pool.queues[x] =
      if x = q then { s.pool.queues[q] with lanes := modAt s.pool.queues[q].lanes (slotOf r s).priority (· ++ [r]) } else s.pool.queues[x] := by
    rw [joinTail_pool]
    by_cases same : x = q
    · subst same
      rw [if_pos rfl, modQueue_same]
    · rw [if_neg same, modQueue_other _ _ same]
  refine ⟨by rw [joinTail, makeDueQueue_frame]; rfl, fun x => ?_, fun x => ?_, fun x l => ?_, fun p => ?_⟩
  · rw [queue]
    split
    next same => rw [same]
    · rfl
  · rw [queue]
    split
    next same => rw [same]
    · rfl
  · rw [queue]
    by_cases same : x = q
    · subst same
      rw [if_pos rfl]
      dsimp only
      rw [getElem_modAt_fin]
      by_cases lane : l = (slotOf r s).priority
      · subst lane
        simp
      · simp [lane]
    · simp [same]
  · rw [joinTail, makeDueQueue_ports]
    simp only [List.mem_singleton]
    rfl

theorem joinAll_joined {targets : List PortId} (nodup : targets.Nodup) (r : Ref) {lane : Priority} {s : State}
    (h : (slotOf r s).priority = lane) : Joined targets r lane s (targets.foldl (fun t q => joinTail q r t) s) := by
  induction targets generalizing s with
  | nil => exact ⟨rfl, fun _ => rfl, fun _ => rfl, fun _ _ => by simp, fun _ => by simp⟩
  | cons q qs ih =>
    obtain ⟨fresh, rest⟩ := List.nodup_cons.1 nodup
    have first := joinTail_joined q r h
    have same : (slotOf r (joinTail q r s)).priority = lane := by rw [← h, slotOf, first.frame, slotOf]
    have more := ih rest same
    rw [List.foldl_cons]
    refine ⟨?_, fun x => (more.pending x).trans (first.pending x), fun x => (more.holder x).trans (first.holder x), fun x l => ?_, fun p => ?_⟩
    · rw [more.frame, first.frame]
    · rw [more.lanes, first.lanes, List.append_assoc]
      congr 1
      by_cases here : x = q
      · subst here
        simp [fresh]
      · simp [here]
    · rw [more.due, first.due]
      simp [Bool.or_assoc]

/-! ### Admission of a trunk frame (R117 to R123) -/

theorem rejectTrunk_tagged (i : SlotId) (tag : BitVec 16) (reason : Reason) (s : State) :
    rejectTrunk i (some tag) reason s = createReport ⟨tag, reason, none, 0, false⟩ (releaseSlot i s) := rfl

theorem rejectTrunk_untagged (i : SlotId) (reason : Reason) (s : State) : rejectTrunk i none reason s = releaseSlot i s := rfl

theorem admitTrunk_rejected {i : SlotId} {inb : Inbound} {d : Decision} {s : State} {reason : Reason}
    (none : (settleTargets s.pool.slots[i].frame.dest d s).admitted = [])
    (why : (settleTargets s.pool.slots[i].frame.dest d s).reason = some reason) : admitTrunk i inb d s = rejectTrunk i inb.tag reason s := by
  unfold admitTrunk
  dsimp only
  rw [none, why]
  rfl

/-- A frame slot as the admission of a trunk frame fills it. -/
def trunkStored (inb : Inbound) (d : Decision) (count : Nat) (s : State) (sl : FrameSlot) : FrameSlot :=
  { sl with
    status := .queued, origin := trunkPort, ingress := trunkPort, priority := d.priority, epoch := d.epoch
    deadline := deadlineOf d.lifetime s, custody := d.mode == .custody && inb.custody, tag := inb.tag
    refs := count, inbound := none, decision := none }

theorem admitTrunk_admitted {i : SlotId} {inb : Inbound} {d : Decision} {s : State} {targets : List PortId}
    (eq : targets = (settleTargets s.pool.slots[i].frame.dest d s).admitted) (some : targets ≠ []) :
    admitTrunk i inb d s = refill (targets.foldl (fun t q => joinTail q (newRef i .frame) t)
      (modSlot i (trunkStored inb d targets.length s) s)) := by
  unfold admitTrunk
  dsimp only
  rw [← eq, if_neg (by rw [List.isEmpty_iff]; exact some)]
  rfl

/-- The admitted frame's slot has left the reserve. -/
theorem reservedCount_trunkStored {i : SlotId} {inb : Inbound} {d : Decision} {n : Nat} {s : State} (filled : s.pool.slots[i].status = .filled) :
    reservedCount (modSlot i (trunkStored inb d n s) s) = reservedCount s - 1 := by
  have count := reservedCount_modSlot i (trunkStored inb d n s) s
  have before : s.pool.slots[i].reserves = 1 := by rw [FrameSlot.reserves, filled]; rfl
  have after : (trunkStored inb d n s s.pool.slots[i]).reserves = 0 := rfl
  omega

/-- A frame that is admitted: its slot is QUEUED, its references have joined their lanes, and the reserve is refilled. -/
theorem admitTrunk_places {i : SlotId} {inb : Inbound} {d : Decision} {targets : List PortId} {s : State} (nodup : targets.Nodup)
    (filled : s.pool.slots[i].status = .filled) (taken : i ∉ s.pool.free) {n : Nat}
    (count : n = min (s.pool.reserveSize - (reservedCount s - 1)) s.pool.free.length) :
    ∃ u, Joined targets (newRef i .frame) d.priority (modSlot i (trunkStored inb d targets.length s) s) u ∧
      refill (targets.foldl (fun t q => joinTail q (newRef i .frame) t) (modSlot i (trunkStored inb d targets.length s) s)) = { u with
        pool := u.pool.takeIn n
        trunk := { s.trunk with creditPending := s.trunk.creditPending || (n != 0 && s.trunk.link == .up) } } ∧
      (∀ j : SlotId, (u.pool.takeIn n).slots[j] =
        if j = i then trunkStored inb d targets.length s s.pool.slots[i]
        else if j ∈ s.pool.free.take n then .blank .unfilled else s.pool.slots[j]) ∧
      (u.pool.takeIn n).free = s.pool.free.drop n := by
  generalize stored : modSlot i (trunkStored inb d targets.length s) s = v
  have slot : v.pool.slots[i] = trunkStored inb d targets.length s s.pool.slots[i] := by
    rw [← stored]
    exact (getElem_modAt_fin _ _ _ _).trans (if_pos rfl)
  have joined := joinAll_joined nodup (newRef i .frame) (lane := d.priority) (s := v) (congrArg FrameSlot.priority slot)
  generalize targets.foldl (fun t q => joinTail q (newRef i .frame) t) v = u at joined
  have slots : u.pool.slots = v.pool.slots := by rw [joined.frame]
  have free : u.pool.free = s.pool.free := by rw [joined.frame, ← stored]; rfl
  have size : u.pool.reserveSize = s.pool.reserveSize := by rw [joined.frame, ← stored]; rfl
  have trunk : u.trunk = s.trunk := by rw [joined.frame, ← stored]; rfl
  have reserved : reservedCount u = reservedCount s - 1 := by
    rw [reservedCount_congr slots, ← stored, reservedCount_trunkStored filled]
  have refilled : refillCount u = n := by rw [refillCount, size, reserved, free, count]
  refine ⟨u, joined, by rw [refill_eq, refilled, trunk], fun j => ?_, by rw [← free]; rfl⟩
  rw [takeIn_slots, free, slots]
  by_cases same : j = i
  · subst same
    rw [if_neg fun mem => taken (List.mem_of_mem_take mem), if_pos rfl, slot]
  · have other : v.pool.slots[j] = s.pool.slots[j] := by
      rw [← stored]
      exact (getElem_modAt_fin _ _ _ _).trans (if_neg same)
    rw [if_neg same, other]

/-! ### TRUNK_DATA_ROUTING (R155) -/

theorem matchFrame_frame (ingress : PortId) (miss : MissAction) (f : Frame) (s : State) :
    (matchFrame ingress miss f s).2 = { s with route := (matchFrame ingress miss f s).2.route } := by
  unfold matchFrame
  split <;> rfl

section
variable {i : SlotId} {rest : List SlotId} {inb : Inbound} {s routed : State} (taken : s.trunk.taken = i :: rest)
  (inbound : s.pool.slots[i].inbound = some inb) (eq : routed = { s with trunk := { s.trunk with taken := rest } })
include taken inbound eq

theorem exec_trunkDataRouting_bound {d : Decision} (bound : s.pool.slots[i].decision = some d) :
    exec .trunkDataRouting s = .next (settle (admitTrunk i inb d routed)) := by
  subst eq
  change execTrunkDataRouting s = _
  unfold execTrunkDataRouting
  rw [taken]
  dsimp only
  rw [inbound, bound]
  rfl

variable (unbound : s.pool.slots[i].decision = none)
include unbound

theorem exec_trunkDataRouting_badSource (source : nodeLocation s.pool.slots[i].frame.source s ≠ .trunk) :
    exec .trunkDataRouting s = .next (rejectTrunk i inb.tag .badSource routed) := by
  subst eq
  change execTrunkDataRouting s = _
  unfold execTrunkDataRouting
  rw [taken]
  dsimp only
  rw [inbound, unbound]
  dsimp only
  rw [if_pos source]
  rfl

omit eq in
theorem exec_trunkDataRouting_unbound (source : nodeLocation s.pool.slots[i].frame.source s = .trunk) :
    exec .trunkDataRouting s = .next (modSlot i (fun x => { x with decision := some (trunkDecision s.pool.slots[i].frame inb s).1 })
      (trunkDecision s.pool.slots[i].frame inb s).2) := by
  change execTrunkDataRouting s = _
  unfold execTrunkDataRouting
  rw [taken]
  dsimp only
  rw [inbound, unbound]
  dsimp only
  rw [if_neg (not_not_intro source)]

end

/-- Settles O52: the source check, the decision, and the admission by it. -/
theorem takenDataIsRouted : Obligations.TakenDataIsRouted := by
  refine ⟨fun i rest inb s routed taken inbound eq => ⟨fun unbound source => ?_, fun p unbound source direct => ?_,
    fun d looked unbound source listed found => ?_, fun d bound => ⟨exec_trunkDataRouting_bound taken inbound eq bound, fun stale => ?_⟩⟩,
    fun i inb d targets s t eq eq' => ⟨fun reason none why => ?_, fun n some filled free count => ?_⟩⟩
  · rw [exec_trunkDataRouting_badSource taken inbound eq unbound source]
    cases inb.tag <;> rfl
  · rw [exec_trunkDataRouting_unbound taken inbound unbound source, trunkDecision, direct]
    rfl
  · have route := matchFrame_frame trunkPort .drop s.pool.slots[i].frame s
    rw [found] at route
    rw [exec_trunkDataRouting_unbound taken inbound unbound source, trunkDecision, listed, found, route]
    rfl
  · have epoch : routed.route = s.route := by rw [eq]
    have none := settleTargets_stale (dest := routed.pool.slots[i].frame.dest) (d := d) (s := routed) (by rw [epoch]; exact stale)
    rw [exec_trunkDataRouting_bound taken inbound eq bound, admitTrunk_rejected (by rw [none]) (by rw [none])]
    cases inb.tag <;> rfl
  · rw [eq', admitTrunk_rejected (eq ▸ none) why]
    cases inb.tag <;> rfl
  · obtain ⟨u, joined, refilled, slots, rest⟩ := admitTrunk_places (inb := inb) (d := d) (eq ▸ settleTargets_admitted_nodup _ d s) filled free count
    rw [admitTrunk_admitted eq some, refilled] at eq'
    subst eq'
    refine ⟨(slots i).trans (if_pos rfl), fun j other => (slots j).trans (if_neg other), rest, fun q => ⟨joined.pending q, joined.holder q,
      joined.lanes q⟩, joined.due, ?_⟩
    rw [joined.frame]
    rfl

end Sys2Proof.Machine
end

