-- ==== Sys2Proof/Proofs/PoolStock.lean ====
section
/-! PROOFS. The frame pool: references counted, and the invariants that removals keep (R108 to R126) -/

-- One theorem after another: many at once need a thread each.
set_option Elab.async false

namespace Sys2Proof.Machine


/-! ### Counting references -/

/-- How many references of a list point at a frame slot. -/
def pointing (i : SlotId) (l : List Ref) : Nat := l.countP (·.slot == i)

@[simp] theorem pointing_nil (i : SlotId) : pointing i [] = 0 := rfl

theorem pointing_cons (i : SlotId) (r : Ref) (l : List Ref) : pointing i (r :: l) = pointing i l + if r.slot = i then 1 else 0 := by
  simp [pointing, List.countP_cons]

@[simp] theorem pointing_append (i : SlotId) (l m : List Ref) : pointing i (l ++ m) = pointing i l + pointing i m := List.countP_append

theorem pointing_eq_zero {i : SlotId} {l : List Ref} : pointing i l = 0 ↔ ∀ r ∈ l, r.slot ≠ i := by
  simp [pointing, List.countP_eq_zero]

/-- A change of references that keeps what they point at. -/
theorem pointing_map {g : Ref → Ref} (slot : ∀ r, (g r).slot = r.slot) (i : SlotId) (l : List Ref) : pointing i (l.map g) = pointing i l := by
  simp [pointing, List.countP_map, Function.comp_def, slot]

theorem pointing_filter (i : SlotId) (hit : Ref → Bool) (l : List Ref) :
    pointing i (l.filter fun r => !hit r) + pointing i (l.filter hit) = pointing i l := by
  induction l with
  | nil => rfl
  | cons r l ih => cases h : hit r <;> simp only [List.filter_cons, h, pointing_cons, Bool.not_true, Bool.not_false, Bool.false_eq_true, if_true, if_false] <;> omega

/-- The references of a queue that are in a lane or in hand. -/
def carried (Q : Queue) : List Ref := laneRefs Q ++ Q.holder.toList

theorem pointing_queueRefs (i : SlotId) (Q : Queue) : pointing i (queueRefs Q) = pointing i Q.pending + pointing i (carried Q) := by
  rw [queueRefs, carried, List.append_assoc, pointing_append]

theorem refCount_eq (i : SlotId) (s : State) : refCount i s = (allPorts.map fun q => pointing i (queueRefs s.pool.queues[q])).sum := by
  unfold refCount refsTo pointing
  simp only [List.countP_eq_length_filter]

theorem mem_allPorts (q : PortId) : q ∈ allPorts := by
  revert q
  decide

theorem pointing_le_refCount (i : SlotId) (q : PortId) (s : State) : pointing i (queueRefs s.pool.queues[q]) ≤ refCount i s := by
  rw [refCount_eq]
  exact List.le_sum_of_mem (List.mem_map_of_mem (mem_allPorts q))

theorem refCount_eq_zero {i : SlotId} {s : State} (h : ∀ q : PortId, pointing i (queueRefs s.pool.queues[q]) = 0) : refCount i s = 0 := by
  rw [refCount_eq, List.sum_eq_zero_iff]
  intro n mem
  obtain ⟨q, -, rfl⟩ := List.mem_map.1 mem
  exact h q

theorem refCount_congr {i : SlotId} {s t : State} (queues : t.pool.queues = s.pool.queues) : refCount i t = refCount i s := by
  rw [refCount_eq, refCount_eq, queues]

/-- A sum over a list without repetitions, of which one term changes. -/
theorem sum_map_of_one {α : Type} {l : List α} {g h : α → Nat} {a : α} (nodup : l.Nodup) (mem : a ∈ l) (other : ∀ b, b ≠ a → h b = g b) :
    (l.map h).sum + g a = (l.map g).sum + h a := by
  induction l with
  | nil => cases mem
  | cons b l ih =>
    obtain ⟨fresh, rest⟩ := List.nodup_cons.1 nodup
    rw [List.map_cons, List.map_cons, List.sum_cons, List.sum_cons]
    obtain rfl | mem := List.mem_cons.1 mem
    · have same : l.map h = l.map g := List.map_congr_left fun b mem => other b fun e => fresh (e ▸ mem)
      rw [same]
      omega
    · have := ih rest mem
      have := other b fun e => fresh (e ▸ mem)
      omega

/-- A change of one queue counts in the references of a slot by what it makes of that queue. -/
theorem refCount_modQueue (i : SlotId) (q : PortId) (f : Queue → Queue) (s : State) :
    refCount i (modQueue q f s) + pointing i (queueRefs s.pool.queues[q]) =
      refCount i s + pointing i (queueRefs (f s.pool.queues[q])) := by
  have changed := sum_map_of_one (l := allPorts) (g := fun q => pointing i (queueRefs s.pool.queues[q]))
    (h := fun x => pointing i (queueRefs (modQueue q f s).pool.queues[x])) (by decide) (mem_allPorts q)
    fun x other => by rw [modQueue_other _ _ other]
  rw [refCount_eq, refCount_eq]
  rw [modQueue_same] at changed
  exact changed

/-! ### The invariants of the pool between removals -/

/-- One frame slot stands as `SlotsOk` says, with some references taken out of their queues and still to be removed, or to be put into
another place. -/
structure SlotAt (loose : List Ref) (s : State) (i : SlotId) : Prop where
  free : s.pool.slots[i].status = .free ↔ i ∈ s.pool.free
  taken : s.pool.slots[i].status = .filled ↔ i ∈ s.trunk.taken
  inbound : s.pool.slots[i].status = .filled → s.pool.slots[i].inbound.isSome = true
  decision : s.pool.slots[i].decision.isSome = true → s.trunk.taken.head? = some i
  queued : s.pool.slots[i].status = .queued → 1 ≤ s.pool.slots[i].refs ∧ s.pool.slots[i].refs = refCount i s + pointing i loose
  unqueued : s.pool.slots[i].status ≠ .queued → refCount i s + pointing i loose = 0

/-- Every frame slot stands so. -/
structure SlotsAt (loose : List Ref) (s : State) : Prop where
  freeNodup : s.pool.free.Nodup
  takenNodup : s.trunk.taken.Nodup
  slot : ∀ i : SlotId, SlotAt loose s i

/-- The admissions not yet confirmed, given by `view` for each port, stand as `AdmissionsOk` says, with the references of a slot
whose admission is ending, if any, still pending in some queues. -/
structure Admitted (view : SegPort → Option SlotId) (closing : Option SlotId) (loose : List Ref) (s : State) : Prop where
  queued : ∀ p i, view p = some i → s.pool.slots[i].status = .queued
  apart : ∀ p i, view p = some i → (∀ q : PortId, pointing i (carried s.pool.queues[q]) = 0) ∧ pointing i loose = 0
  pending : ∀ q : PortId, ∀ r ∈ s.pool.queues[q].pending, (∃ p, view p = some r.slot) ∨ closing = some r.slot
  closed : ∀ i, closing = some i → ∀ p, view p ≠ some i

/-- The window, and the limit of a CREDIT in transmission, stand within the unfilled slots (R157). -/
def Windowed (s : State) : Prop :=
  (s.trunk.link = .up ∨ s.trunk.link = .suspect →
    (s.trunk.advertised - s.trunk.nextExpected).toNat ≤ unfilledCount s) ∧
  (∀ f ∈ s.trunk.tx, f.kind = .credit → ∃ limit ∈ f.body.head?, f.body.length = 1 ∧
    (s.trunk.advertised - s.trunk.nextExpected).toNat ≤ (limit - s.trunk.nextExpected).toNat ∧
    (limit - s.trunk.nextExpected).toNat ≤ unfilledCount s)

/-- The pool, with some references in no place, each queue's load within a cap, and the reserve short, it may be. -/
structure Stored (view : SegPort → Option SlotId) (closing : Option SlotId) (loose : List Ref) (cap : PortId → Nat) (s : State) :
    Prop where
  slots : SlotsAt loose s
  admitted : Admitted view closing loose s
  loaded : ∀ q : PortId, queueLoad s.pool.queues[q] ≤ cap q
  window : Windowed s

/-- The pool, with some references in no place, and each queue's load within a cap. -/
structure Stocked (view : SegPort → Option SlotId) (closing : Option SlotId) (loose : List Ref) (cap : PortId → Nat) (s : State) : Prop
    extends Stored view closing loose cap s where
  short : reservedCount s < s.pool.reserveSize → s.pool.free = []

/-- What the invariants of the pool see of the rest of the device. -/
structure Grounds (s t : State) : Prop where
  taken : t.trunk.taken = s.trunk.taken
  link : t.trunk.link = s.trunk.link
  advertised : t.trunk.advertised = s.trunk.advertised
  nextExpected : t.trunk.nextExpected = s.trunk.nextExpected
  tx : t.trunk.tx = s.trunk.tx

theorem Touched.grounds {s t : State} (h : Touched s t) : Grounds s t where
  taken := by rw [h.kept.trunk]
  link := by rw [h.kept.trunk]
  advertised := by rw [h.kept.trunk]
  nextExpected := by rw [h.kept.trunk]
  tx := by rw [h.kept.trunk]

theorem Grounds.of_trunk {s t : State} (h : t.trunk = s.trunk) : Grounds s t := by
  constructor <;> rw [h]

/-! ### One frame slot -/

section
variable {loose loose' : List Ref} {s t : State} {i : SlotId}

/-- A slot that is as it was, on the same lists, and pointed at as often, stands as it did. -/
theorem SlotAt.of_same (h : SlotAt loose s i) (slot : t.pool.slots[i] = s.pool.slots[i]) (free : i ∈ t.pool.free ↔ i ∈ s.pool.free)
    (taken : i ∈ t.trunk.taken ↔ i ∈ s.trunk.taken) (head : s.trunk.taken.head? = some i → t.trunk.taken.head? = some i)
    (count : refCount i t + pointing i loose' = refCount i s + pointing i loose) : SlotAt loose' t i where
  free := by rw [slot, free]; exact h.free
  taken := by rw [slot, taken]; exact h.taken
  inbound := by rw [slot]; exact h.inbound
  decision := by rw [slot]; exact fun some => head (h.decision some)
  queued := by rw [slot, count]; exact h.queued
  unqueued := by rw [slot, count]; exact h.unqueued

theorem SlotAt.of_unfilled (slot : s.pool.slots[i] = .blank .unfilled) (free : i ∉ s.pool.free) (taken : i ∉ s.trunk.taken)
    (alone : refCount i s + pointing i loose = 0) : SlotAt loose s i := by
  constructor <;> rw [slot]
  · exact ⟨nofun, fun mem => absurd mem free⟩
  · exact ⟨nofun, fun mem => absurd mem taken⟩
  · nofun
  · nofun
  · nofun
  · exact fun _ => alone

theorem SlotAt.of_free (slot : s.pool.slots[i] = .blank .free) (free : i ∈ s.pool.free) (taken : i ∉ s.trunk.taken)
    (alone : refCount i s + pointing i loose = 0) : SlotAt loose s i := by
  constructor <;> rw [slot]
  · exact ⟨fun _ => free, fun _ => rfl⟩
  · exact ⟨nofun, fun mem => absurd mem taken⟩
  · nofun
  · nofun
  · nofun
  · exact fun _ => alone

/-- A slot with references is QUEUED. -/
theorem SlotAt.queued_of_refs (h : SlotAt loose s i) (some : refCount i s + pointing i loose ≠ 0) : s.pool.slots[i].status = .queued := by
  by_contra other
  exact some (h.unqueued other)

theorem SlotAt.not_free (h : SlotAt loose s i) (other : s.pool.slots[i].status ≠ .free) : i ∉ s.pool.free := fun mem => other (h.free.2 mem)

theorem SlotAt.not_taken (h : SlotAt loose s i) (other : s.pool.slots[i].status ≠ .filled) : i ∉ s.trunk.taken :=
  fun mem => other (h.taken.2 mem)

end

section
variable {view : SegPort → Option SlotId} {closing : Option SlotId} {loose loose' : List Ref} {cap cap' : PortId → Nat} {s t : State}

/-- A window stands while its ends do and no unfilled slot goes. -/
theorem Windowed.of_le (h : Windowed s) (g : Grounds s t) (more : unfilledCount s ≤ unfilledCount t) : Windowed t := by
  obtain ⟨window, credit⟩ := h
  unfold Windowed
  rw [g.link, g.advertised, g.nextExpected, g.tx]
  refine ⟨fun up => (window up).trans more, fun f mem kind => ?_⟩
  obtain ⟨limit, head, length, low, high⟩ := credit f mem kind
  exact ⟨limit, head, length, low, high.trans more⟩

/-- The invariants speak of nothing but the pool and its grounds. -/
theorem Stored.of_grounds (h : Stored view closing loose cap s) (g : Grounds s t) (pool : t.pool = s.pool) :
    Stored view closing loose cap t where
  slots := by
    refine ⟨by rw [pool]; exact h.slots.freeNodup, by rw [g.taken]; exact h.slots.takenNodup, fun i => ?_⟩
    exact (h.slots.slot i).of_same (by rw [pool]) (by rw [pool]) (by rw [g.taken]) (by rw [g.taken]; exact id)
      (by rw [refCount_congr (s := s) (t := t) (by rw [pool])])
  admitted := by
    obtain ⟨a, b, c, d⟩ := h.admitted
    exact ⟨by rw [pool]; exact a, by rw [pool]; exact b, by rw [pool]; exact c, d⟩
  loaded := by rw [pool]; exact h.loaded
  window := h.window.of_le g (Nat.le_of_eq (unfilledCount_congr (by rw [pool])).symm)

theorem Stocked.of_grounds (h : Stocked view closing loose cap s) (g : Grounds s t) (pool : t.pool = s.pool) :
    Stocked view closing loose cap t where
  toStored := h.toStored.of_grounds g pool
  short := by rw [reservedCount_congr (s := s) (t := t) (by rw [pool]), pool]; exact h.short

theorem Stocked.touched (h : Stocked view closing loose cap s) (touched : Touched s t) (pool : t.pool = s.pool) :
    Stocked view closing loose cap t := h.of_grounds touched.grounds pool

/-! ### A change of one queue -/

/-- A change of one queue, in which references change places, come from the loose ones or go to them. -/
theorem Stored.changeQueue (h : Stored view closing loose cap s) {q : PortId} {f : Queue → Queue}
    (count : ∀ i, pointing i (queueRefs (f s.pool.queues[q])) + pointing i loose' =
      pointing i (queueRefs s.pool.queues[q]) + pointing i loose)
    (apart : ∀ p i, view p = some i → pointing i (carried (f s.pool.queues[q])) = 0 ∧ pointing i loose' = 0)
    (pending : ∀ r ∈ (f s.pool.queues[q]).pending, (∃ p, view p = some r.slot) ∨ closing = some r.slot)
    (load : queueLoad (f s.pool.queues[q]) ≤ cap' q) (others : ∀ x, x ≠ q → cap x ≤ cap' x) : Stored view closing loose' cap' (modQueue q f s) := by
  have queue : ∀ x : PortId, (modQueue q f s).pool.queues[x] = if x = q then f s.pool.queues[q] else s.pool.queues[x] := fun x => by
    by_cases e : x = q
    · subst e; rw [if_pos rfl, modQueue_same]
    · rw [if_neg e, modQueue_other _ _ e]
  have total (i : SlotId) : refCount i (modQueue q f s) + pointing i loose' = refCount i s + pointing i loose := by
    have := refCount_modQueue i q f s
    have := count i
    have := pointing_le_refCount i q s
    omega
  obtain ⟨a, b, c, d⟩ := h.admitted
  constructor
  · exact ⟨h.slots.freeNodup, h.slots.takenNodup, fun i => (h.slots.slot i).of_same rfl Iff.rfl Iff.rfl id (total i)⟩
  · refine ⟨a, fun p i v => ⟨fun x => ?_, (apart p i v).2⟩, fun x r mem => ?_, d⟩
    · rw [queue]
      split
      · exact (apart p i v).1
      · exact (b p i v).1 x
    · rw [queue] at mem
      split at mem
      · exact pending r mem
      · exact c x r mem
  · intro x
    rw [queue]
    split
    next e => subst e; exact load
    next e => exact (h.loaded x).trans (others x e)
  · exact h.window

/-- References change places within a queue and the loose ones, and the pending ones stay. -/
structure Moves (loose loose' : List Ref) (Q Q' : Queue) : Prop where
  pending : ∀ i, pointing i Q'.pending = pointing i Q.pending
  carried : ∀ i, pointing i (carried Q') + pointing i loose' = pointing i (carried Q) + pointing i loose

theorem exists_of_pointing {r : Ref} {l m : List Ref} (mem : r ∈ m) (h : pointing r.slot m = pointing r.slot l) : ∃ r' ∈ l, r'.slot = r.slot := by
  by_contra none
  have zero : pointing r.slot l = 0 := pointing_eq_zero.2 fun r' mem' e => none ⟨r', mem', e⟩
  exact pointing_eq_zero.1 (h.trans zero) r mem rfl

theorem Stored.moves (h : Stored view closing loose cap s) {q : PortId} {f : Queue → Queue}
    (m : Moves loose loose' s.pool.queues[q] (f s.pool.queues[q]))
    (load : queueLoad (f s.pool.queues[q]) ≤ cap' q) (others : ∀ x, x ≠ q → cap x ≤ cap' x) : Stored view closing loose' cap' (modQueue q f s) := by
  refine h.changeQueue (fun i => ?_) (fun p i v => ?_) (fun r mem => ?_) load others
  · have := m.pending i
    have := m.carried i
    rw [pointing_queueRefs, pointing_queueRefs]
    omega
  · have := m.carried i
    have := (h.admitted.apart p i v).1 q
    have := (h.admitted.apart p i v).2
    omega
  · obtain ⟨r', mem', e⟩ := exists_of_pointing mem (m.pending r.slot)
    rw [← e]
    exact h.admitted.pending q r' mem'

theorem Stocked.moves (h : Stocked view closing loose cap s) {q : PortId} {f : Queue → Queue}
    (m : Moves loose loose' s.pool.queues[q] (f s.pool.queues[q]))
    (load : queueLoad (f s.pool.queues[q]) ≤ cap' q) (others : ∀ x, x ≠ q → cap x ≤ cap' x) : Stocked view closing loose' cap' (modQueue q f s) :=
  ⟨h.toStored.moves m load others, h.short⟩

/-- The caps of the queues may be any that their loads do not pass, and loose references that point at the same slots stand for each
other. -/
theorem Stocked.weaken (h : Stocked view closing loose cap s) (load : ∀ q : PortId, queueLoad s.pool.queues[q] ≤ cap' q)
    (same : ∀ i, pointing i loose' = pointing i loose) : Stocked view closing loose' cap' s where
  slots := ⟨h.slots.freeNodup, h.slots.takenNodup, fun i => (h.slots.slot i).of_same rfl Iff.rfl Iff.rfl id (by rw [same])⟩
  admitted := { h.admitted with apart := fun p i v => by rw [same]; exact h.admitted.apart p i v }
  loaded := load
  window := h.window
  short := h.short

end

/-! ### The references and the load of one queue -/

theorem countP_flatten_set {α : Type} (test : α → Bool) {l : List (List α)} {i : Nat} (inRange : i < l.length) (m : List α) :
    (l.set i m).flatten.countP test + l[i].countP test = l.flatten.countP test + m.countP test := by
  induction l generalizing i with
  | nil => exact absurd inRange (Nat.not_lt_zero _)
  | cons x xs ih =>
    cases i with
    | zero =>
      simp only [List.set_cons_zero, List.flatten_cons, List.countP_append, List.getElem_cons_zero]
      omega
    | succ i =>
      have := ih (i := i) (Nat.lt_of_succ_lt_succ inRange)
      simp only [List.set_cons_succ, List.flatten_cons, List.countP_append, List.getElem_cons_succ]
      omega

theorem countP_laneRefs (test : Ref → Bool) (Q : Queue) (lane : Priority) (f : List Ref → List Ref) :
    (laneRefs { Q with lanes := modAt Q.lanes lane f }).countP test + Q.lanes[lane].countP test =
      (laneRefs Q).countP test + (f Q.lanes[lane]).countP test := by
  have inRange : lane.val < Q.lanes.toList.length := by rw [Vector.length_toList]; exact lane.isLt
  have := countP_flatten_set test inRange (f Q.lanes[lane])
  unfold laneRefs modAt
  rw [Vector.toList_set]
  exact this

/-- What a change of one lane makes of the references that point at a slot. -/
theorem pointing_laneRefs (i : SlotId) (Q : Queue) (lane : Priority) (f : List Ref → List Ref) :
    pointing i (laneRefs { Q with lanes := modAt Q.lanes lane f }) + pointing i Q.lanes[lane] =
      pointing i (laneRefs Q) + pointing i (f Q.lanes[lane]) := countP_laneRefs _ _ _ _

theorem length_laneRefs_modAt (Q : Queue) (lane : Priority) (f : List Ref → List Ref) :
    (laneRefs { Q with lanes := modAt Q.lanes lane f }).length + Q.lanes[lane].length =
      (laneRefs Q).length + (f Q.lanes[lane]).length := by
  have := countP_laneRefs (fun _ => true) Q lane f
  simpa only [List.countP_true] using this

theorem laneRefs_modAll (Q : Queue) (hit : Ref → Bool) :
    laneRefs { Q with lanes := modAll Q.lanes (·.filter fun r => !hit r) } = (laneRefs Q).filter fun r => !hit r := by
  have map : modAll Q.lanes (·.filter fun r => !hit r) = Q.lanes.map (·.filter fun r => !hit r) := by
    ext1 k hk
    rw [getElem_modAll, Vector.getElem_map]
  unfold laneRefs
  rw [map, Vector.toList_map, List.filter_flatten]

@[simp] theorem carried_pending (Q : Queue) (l : List Ref) : carried { Q with pending := l } = carried Q := rfl

theorem pointing_carried (i : SlotId) (Q : Queue) : pointing i (carried Q) = pointing i (laneRefs Q) + pointing i Q.holder.toList :=
  pointing_append _ _ _

theorem queueLoad_eq (Q : Queue) :
    queueLoad Q = (laneRefs Q).length + Q.holder.toList.length + (Q.pending.filter (·.mark.isNone)).length := rfl

end Sys2Proof.Machine
end

