-- ==== Sys2Proof/Proofs/PoolReserve.lean ====
section
/-! PROOFS. The frame pool: slots that join the reserve, and released slots (R111, R113) -/

-- One theorem after another: many at once need a thread each.
set_option Elab.async false

namespace Sys2Proof.Machine


section
variable {view : SegPort → Option SlotId} {closing : Option SlotId} {loose loose' : List Ref} {cap : PortId → Nat} {s t : State}

theorem Admitted.blanked (h : Admitted view closing loose s) (queues : t.pool.queues = s.pool.queues)
    (slots : ∀ p i, view p = some i → t.pool.slots[i] = s.pool.slots[i])
    (apart : ∀ p i, view p = some i → pointing i loose' = 0) : Admitted view closing loose' t where
  queued p i v := by rw [slots p i v]; exact h.queued p i v
  apart p i v := ⟨by rw [queues]; exact (h.apart p i v).1, apart p i v⟩
  pending := by rw [queues]; exact h.pending
  closed := h.closed

/-! ### Slots that join the reserve from the free list (R111) -/

theorem slotsIn_fill (st : SlotStatus) (other : st ≠ .free) {l : List SlotId} (nodup : l.Nodup) (s : State)
    (free : ∀ i ∈ l, s.pool.slots[i].status = .free) :
    (slotsIn st (modPool (fun p => { p with slots := l.foldl (fun v i => modAt v i fun _ => .blank .unfilled) p.slots }) s)).length =
      (slotsIn st s).length + if st = .unfilled then l.length else 0 := by
  induction l generalizing s with
  | nil => cases st <;> rfl
  | cons i l ih =>
    obtain ⟨fresh, rest⟩ := List.nodup_cons.1 nodup
    have filled := ih rest (modSlot i (fun _ => .blank .unfilled) s) fun j mem => by
      have untouched : (modSlot i (fun _ => .blank .unfilled) s).pool.slots[j] = s.pool.slots[j] := by
        rw [modSlot_pool]
        exact (getElem_modAt_fin _ _ _ _).trans (if_neg fun e : j = i => fresh (e ▸ mem))
      rw [untouched]
      exact free j (List.mem_cons_of_mem _ mem)
    have first := slotsIn_length_modSlot st i (fun _ => .blank .unfilled) s
    have was : ¬s.pool.slots[i].status = st := by rw [free i List.mem_cons_self]; exact other.symm
    have blank : (FrameSlot.blank .unfilled).status = .unfilled := rfl
    rw [if_neg was, blank] at first
    refine filled.trans ?_
    rw [List.length_cons]
    by_cases kind : st = .unfilled
    · rw [if_pos kind, if_pos kind]
      rw [if_pos kind.symm] at first
      omega
    · rw [if_neg kind, if_neg kind]
      rw [if_neg (Ne.symm kind)] at first
      omega

theorem takeIn_counts (h : SlotsAt loose s) {n : Nat} (enough : n ≤ s.pool.free.length) :
    unfilledCount (modPool (·.takeIn n) s) = unfilledCount s + n ∧ reservedCount (modPool (·.takeIn n) s) = reservedCount s + n := by
  have filled (st : SlotStatus) (other : st ≠ .free) := slotsIn_fill st other (h.freeNodup.sublist (List.take_sublist n _)) s
    fun i mem => (h.slot i).free.2 (List.mem_of_mem_take mem)
  have slots : ∀ st, slotsIn st (modPool (·.takeIn n) s) = slotsIn st (modPool (fun p =>
      { p with slots := (s.pool.free.take n).foldl (fun v i => modAt v i fun _ => .blank .unfilled) p.slots }) s) :=
    fun st => slotsIn_congr st rfl
  have length : (s.pool.free.take n).length = n := by rw [List.length_take]; exact Nat.min_eq_left enough
  have unfilled := filled .unfilled nofun
  have others := filled .filled nofun
  rw [if_pos rfl, length] at unfilled
  rw [if_neg nofun] at others
  unfold reservedCount unfilledCount
  rw [slots, slots, unfilled, others]
  omega

theorem mem_drop_iff {α : Type} {l : List α} (nodup : l.Nodup) (n : Nat) (a : α) : a ∈ l.drop n ↔ a ∈ l ∧ a ∉ l.take n := by
  have whole : a ∈ l ↔ a ∈ l.take n ∨ a ∈ l.drop n := by rw [← List.mem_append, List.take_append_drop]
  have apart : a ∈ l.take n → a ∉ l.drop n := fun x y => List.disjoint_take_drop nodup (Nat.le_refl n) x y
  tauto

/-- The head of the free list joins the reserve. -/
theorem Stored.takeIn (h : Stored view closing loose cap s) {n : Nat} (enough : n ≤ s.pool.free.length) :
    Stored view closing loose cap (modPool (·.takeIn n) s) := by
  have slot (j : SlotId) : (modPool (·.takeIn n) s).pool.slots[j] = if j ∈ s.pool.free.take n then .blank .unfilled else s.pool.slots[j] :=
    takeIn_slots _ _ _
  have unused {j : SlotId} (mem : j ∈ s.pool.free.take n) : s.pool.slots[j].status = .free :=
    (h.slots.slot j).free.2 (List.mem_of_mem_take mem)
  constructor
  · refine ⟨h.slots.freeNodup.sublist (List.drop_sublist n _), h.slots.takenNodup, fun j => ?_⟩
    have left : j ∈ (modPool (·.takeIn n) s).pool.free ↔ j ∈ s.pool.free ∧ j ∉ s.pool.free.take n := mem_drop_iff h.slots.freeNodup n j
    by_cases mem : j ∈ s.pool.free.take n
    · have alone := (h.slots.slot j).unqueued (by rw [unused mem]; nofun)
      have taken := (h.slots.slot j).not_taken (by rw [unused mem]; nofun)
      exact .of_unfilled ((slot j).trans (if_pos mem)) (fun free => (left.1 free).2 mem) taken alone
    · exact (h.slots.slot j).of_same ((slot j).trans (if_neg mem)) (left.trans (and_iff_left mem)) Iff.rfl id rfl
  · refine h.admitted.blanked rfl (fun p i v => ?_) fun p i v => (h.admitted.apart p i v).2
    rw [slot, if_neg]
    intro mem
    have := h.admitted.queued p i v
    rw [unused mem] at this
    cases this
  · exact h.loaded
  · refine h.window.of_le ⟨rfl, rfl, rfl, rfl, rfl⟩ ?_
    rw [(takeIn_counts h.slots enough).1]
    exact Nat.le_add_right _ _

theorem Stored.refill (h : Stored view closing loose cap s) : Stocked view closing loose cap (refill s) := by
  have enough : refillCount s ≤ s.pool.free.length := Nat.min_le_right _ _
  have taken := h.takeIn enough
  have counts := (takeIn_counts h.slots enough).2
  have stocked : Stocked view closing loose cap (modPool (·.takeIn (refillCount s)) s) := by
    refine ⟨taken, fun short => ?_⟩
    rw [counts] at short
    change _ < s.pool.reserveSize at short
    change s.pool.free.drop (refillCount s) = []
    rw [List.drop_eq_nil_iff]
    unfold refillCount at short ⊢
    omega
  refine stocked.of_grounds ?_ (by rw [refill_eq]; rfl)
  rw [refill_eq]
  exact ⟨rfl, rfl, rfl, rfl, rfl⟩

/-! ### A released slot (R113) -/

/-- A slot that nothing points at any more is released: written unfilled it would leave the pool well but for the number of the unfilled. -/
theorem releaseSlot_stocked {i : SlotId} (slots : SlotsAt loose (modSlot i (fun _ => .blank .unfilled) s))
    (admitted : Admitted view closing loose (modSlot i (fun _ => .blank .unfilled) s)) (loaded : ∀ q : PortId, queueLoad s.pool.queues[q] ≤ cap q)
    (window : Windowed (modSlot i (fun _ => .blank .free) s)) : Stocked view closing loose cap (releaseSlot i s) := by
  have unfilledMore : unfilledCount (modSlot i (fun _ => .blank .free) s) ≤ unfilledCount (modSlot i (fun _ => .blank .unfilled) s) := by
    have free := slotsIn_length_modSlot .unfilled i (fun _ => .blank .free) s
    have unfilled := slotsIn_length_modSlot .unfilled i (fun _ => .blank .unfilled) s
    have blank : (FrameSlot.blank .free).status = .free := rfl
    have blank' : (FrameSlot.blank .unfilled).status = .unfilled := rfl
    rw [blank, if_neg (show SlotStatus.free ≠ .unfilled from nofun)] at free
    rw [blank', if_pos rfl] at unfilled
    unfold unfilledCount
    omega
  have stored : Stored view closing loose cap (modSlot i (fun _ => .blank .unfilled) s) :=
    ⟨slots, admitted, loaded, window.of_le ⟨rfl, rfl, rfl, rfl, rfl⟩ unfilledMore⟩
  by_cases short : reservedCount (modSlot i (fun _ => .blank .free) s) < s.pool.reserveSize
  · have branch : releaseSlot i s = refill (noteCredit (modSlot i (fun _ => .blank .unfilled) s)) := if_pos short
    rw [branch]
    exact (stored.of_grounds (noteCredit_touched _).grounds (noteCredit_pool _)).refill
  · rw [releaseSlot_of_full (Nat.le_of_not_lt short)]
    have slot (j : SlotId) : (modSlot i (fun _ => .blank .free) s).pool.slots[j] = if j = i then .blank .free else s.pool.slots[j] := by
      rw [modSlot_pool]
      exact getElem_modAt_fin _ _ _ _
    have slot' (j : SlotId) : (modSlot i (fun _ => .blank .unfilled) s).pool.slots[j] = if j = i then .blank .unfilled else s.pool.slots[j] := by
      rw [modSlot_pool]
      exact getElem_modAt_fin _ _ _ _
    have own : (modSlot i (fun _ => .blank .unfilled) s).pool.slots[i] = .blank .unfilled := (slot' i).trans (if_pos rfl)
    have ownFree : (modSlot i (fun _ => .blank .free) s).pool.slots[i] = .blank .free := (slot i).trans (if_pos rfl)
    have other {j : SlotId} (e : j ≠ i) : (modSlot i (fun _ => .blank .free) s).pool.slots[j] =
        (modSlot i (fun _ => .blank .unfilled) s).pool.slots[j] := by rw [slot, slot', if_neg e, if_neg e]
    have fresh : i ∉ s.pool.free := (slots.slot i).not_free (by rw [own]; nofun)
    have untaken : i ∉ s.trunk.taken := (slots.slot i).not_taken (by rw [own]; nofun)
    have alone := (slots.slot i).unqueued (by rw [own]; nofun)
    refine ⟨⟨⟨?_, slots.takenNodup, fun j => ?_⟩, admitted.blanked rfl (fun p j v => ?_) fun p j v => (admitted.apart p j v).2, loaded, ?_⟩,
      fun less => ?_⟩
    · exact List.nodup_append.2 ⟨slots.freeNodup, List.nodup_singleton i, fun a mem b mem' e => by
        rw [List.mem_singleton.1 mem'] at e
        exact fresh (e ▸ mem)⟩
    · by_cases e : j = i
      · subst e
        exact .of_free ownFree (List.mem_append_right _ (List.mem_singleton_self j)) untaken alone
      · refine (slots.slot j).of_same (other e) ?_ Iff.rfl id rfl
        exact List.mem_append.trans (or_iff_left fun mem => e (List.mem_singleton.1 mem))
    · refine other fun e => ?_
      have := admitted.queued p j v
      rw [e, own] at this
      cases this
    · exact window.of_le ⟨rfl, rfl, rfl, rfl, rfl⟩ (Nat.le_of_eq (unfilledCount_congr rfl).symm)
    · exact absurd ((reservedCount_congr (s := modSlot i (fun _ => .blank .free) s) rfl).symm.trans_lt less) short

theorem unfilledCount_freed {i : SlotId} (other : s.pool.slots[i].status ≠ .unfilled) :
    unfilledCount (modSlot i (fun _ => .blank .free) s) = unfilledCount s := by
  have count := slotsIn_length_modSlot .unfilled i (fun _ => .blank .free) s
  rw [if_neg (show (FrameSlot.blank .free).status ≠ .unfilled from nofun), if_neg other] at count
  exact count

/-- A slot that nothing points at, and that is on no list, is released. -/
theorem Stocked.release {i : SlotId} (freeNodup : s.pool.free.Nodup) (takenNodup : s.trunk.taken.Nodup)
    (others : ∀ j, j ≠ i → SlotAt loose s j) (fresh : i ∉ s.pool.free) (untaken : i ∉ s.trunk.taken)
    (alone : refCount i s + pointing i loose = 0) (admitted : Admitted view closing loose s) (unadmitted : ∀ p, view p ≠ some i)
    (loaded : ∀ q : PortId, queueLoad s.pool.queues[q] ≤ cap q) (window : Windowed s) (filled : s.pool.slots[i].status ≠ .unfilled) :
    Stocked view closing loose cap (releaseSlot i s) := by
  have slot (j : SlotId) : (modSlot i (fun _ => .blank .unfilled) s).pool.slots[j] = if j = i then .blank .unfilled else s.pool.slots[j] := by
    rw [modSlot_pool]
    exact getElem_modAt_fin _ _ _ _
  refine releaseSlot_stocked ⟨freeNodup, takenNodup, fun j => ?_⟩ ?_ loaded ?_
  · by_cases e : j = i
    · subst e
      exact .of_unfilled ((slot _).trans (if_pos rfl)) fresh untaken alone
    · exact (others j e).of_same ((slot _).trans (if_neg e)) Iff.rfl Iff.rfl id rfl
  · refine admitted.blanked rfl (fun p j v => (slot _).trans (if_neg fun e => ?_)) fun p j v => (admitted.apart p j v).2
    exact unadmitted p (e ▸ v)
  · exact window.of_le ⟨rfl, rfl, rfl, rfl, rfl⟩ (Nat.le_of_eq (unfilledCount_freed filled).symm)

end

end Sys2Proof.Machine
end

