-- ==== Sys2Proof/Proofs/PoolRemovals.lean ====
section
/-! PROOFS. The frame pool: removals, sweeps and selection keep it (R54, R89, R105, R126 to R130) -/

-- One theorem after another: many at once need a thread each.
set_option Elab.async false

namespace Sys2Proof.Machine


section
variable {view : SegPort → Option SlotId} {closing : Option SlotId} {loose : List Ref} {cap : PortId → Nat} {s t : State}

/-! ### Removing one reference (R126) -/

/-- The slot of a reference that is nowhere, and the last to point at it, is released. -/
theorem Stocked.lastRef {r : Ref} (h : Stocked view closing (r :: loose) cap s) (last : refCount r.slot s + pointing r.slot loose = 0) :
    Stocked view closing loose cap (releaseSlot r.slot s) := by
  have live : s.pool.slots[r.slot].status = .queued :=
    (h.slots.slot r.slot).queued_of_refs (by rw [pointing_cons, if_pos rfl]; omega)
  have elsewhere {j : SlotId} (e : j ≠ r.slot) : pointing j (r :: loose) = pointing j loose := by
    rw [pointing_cons, if_neg (Ne.symm e), Nat.add_zero]
  refine .release h.slots.freeNodup h.slots.takenNodup (fun j e => ?_) ((h.slots.slot _).not_free (by rw [live]; nofun))
    ((h.slots.slot _).not_taken (by rw [live]; nofun)) last ⟨h.admitted.queued, fun p i v => ?_, h.admitted.pending, h.admitted.closed⟩
    (fun p v => ?_) h.loaded h.window (by rw [live]; nofun)
  · exact (h.slots.slot j).of_same rfl Iff.rfl Iff.rfl id (by rw [elsewhere e])
  · have := h.admitted.apart p i v
    rw [pointing_cons] at this
    exact ⟨this.1, by omega⟩
  · have := (h.admitted.apart p _ v).2
    rw [pointing_cons, if_pos rfl] at this
    omega

/-- A reference that is nowhere, and not the last to point at its slot, is counted off. -/
theorem Stocked.countOff {r : Ref} (h : Stocked view closing (r :: loose) cap s) (more : 1 < s.pool.slots[r.slot].refs) :
    Stocked view closing loose cap (modSlot r.slot (fun x => { x with refs := x.refs - 1 }) s) := by
  have live : s.pool.slots[r.slot].status = .queued :=
    (h.slots.slot r.slot).queued_of_refs (by rw [pointing_cons, if_pos rfl]; omega)
  have slot (j : SlotId) : (modSlot r.slot (fun x => { x with refs := x.refs - 1 }) s).pool.slots[j] =
      if j = r.slot then { s.pool.slots[j] with refs := s.pool.slots[j].refs - 1 } else s.pool.slots[j] := by
    rw [modSlot_pool]
    refine (getElem_modAt_fin _ _ _ _).trans ?_
    split
    next e => subst e; rfl
    · rfl
  have status (j : SlotId) : (modSlot r.slot (fun x => { x with refs := x.refs - 1 }) s).pool.slots[j].status = s.pool.slots[j].status := by
    rw [slot]
    split <;> rfl
  have elsewhere {j : SlotId} (e : j ≠ r.slot) : pointing j (r :: loose) = pointing j loose := by
    rw [pointing_cons, if_neg (Ne.symm e), Nat.add_zero]
  have counts (st : SlotStatus) : slotsIn st (modSlot r.slot (fun x => { x with refs := x.refs - 1 }) s) = slotsIn st s :=
    List.filter_congr fun j _ => by rw [status]
  refine ⟨⟨⟨h.slots.freeNodup, h.slots.takenNodup, fun j => ?_⟩, ⟨fun p i v => ?_, fun p i v => ?_, h.admitted.pending, h.admitted.closed⟩,
    h.loaded, ?_⟩, ?_⟩
  · by_cases e : j = r.slot
    · subst e
      have own : (modSlot r.slot (fun x => { x with refs := x.refs - 1 }) s).pool.slots[r.slot] =
        { s.pool.slots[r.slot] with refs := s.pool.slots[r.slot].refs - 1 } := (slot _).trans (if_pos rfl)
      obtain ⟨free, taken, inbound, decision, queued, -⟩ := h.slots.slot r.slot
      obtain ⟨-, refs⟩ := queued live
      rw [pointing_cons, if_pos rfl] at refs
      constructor <;> rw [own]
      · exact free
      · exact taken
      · exact inbound
      · exact decision
      · intro _
        refine ⟨Nat.le_sub_of_add_le more, ?_⟩
        change s.pool.slots[r.slot].refs - 1 = refCount r.slot s + _
        omega
      · exact fun other => absurd live other
    · exact (h.slots.slot j).of_same ((slot j).trans (if_neg e)) Iff.rfl Iff.rfl id (by rw [elsewhere e]; rfl)
  · rw [status]
    exact h.admitted.queued p i v
  · have := h.admitted.apart p i v
    rw [pointing_cons] at this
    exact ⟨this.1, by omega⟩
  · exact h.window.of_le ⟨rfl, rfl, rfl, rfl, rfl⟩ (by unfold unfilledCount; rw [counts])
  · have : reservedCount (modSlot r.slot (fun x => { x with refs := x.refs - 1 }) s) = reservedCount s := by
      unfold reservedCount unfilledCount
      rw [counts, counts]
    rw [this]
    exact h.short

/-- The end record that a removal hands over, where one is due. -/
def recordEnd (q : PortId) (r : Ref) (reason : Reason) (s : State) : State :=
  if endRecordDue (slotOf r s) r reason then takeEndRecord (slotOf r s) q r.count reason s else s

theorem recordEnd_pool (q : PortId) (r : Ref) (reason : Reason) (s : State) : (recordEnd q r reason s).pool = s.pool := by
  unfold recordEnd
  split
  · exact takeEndRecord_pool _ _ _ _ _
  · rfl

theorem recordEnd_touched (q : PortId) (r : Ref) (reason : Reason) (s : State) : Touched s (recordEnd q r reason s) := by
  unfold recordEnd
  split
  · exact takeEndRecord_touched _ _ _ _ _
  · exact .refl s

theorem dropRef_stocked {r : Ref} (h : Stocked view closing (r :: loose) cap s) (q : PortId) (reason : Reason) :
    Stocked view closing loose cap (dropRef q r reason s) := by
  have recorded := h.touched (recordEnd_touched q r reason s) (recordEnd_pool q r reason s)
  have refs : (recordEnd q r reason s).pool.slots[r.slot].refs = (slotOf r s).refs := by rw [recordEnd_pool]; rfl
  have unfolded : dropRef q r reason s = if (slotOf r s).refs ≤ 1 then releaseSlot r.slot (recordEnd q r reason s)
    else modSlot r.slot (fun x => { x with refs := x.refs - 1 }) (recordEnd q r reason s) := rfl
  rw [unfolded]
  split
  next last =>
    refine recorded.lastRef ?_
    have live := (recorded.slots.slot r.slot).queued_of_refs (by rw [pointing_cons, if_pos rfl]; omega)
    have count := ((recorded.slots.slot r.slot).queued live).2
    rw [pointing_cons, if_pos rfl, refs] at count
    omega
  next more => exact recorded.countOff (by rw [refs]; omega)

theorem discardRef_stocked {r : Ref} (h : Stocked view closing (r :: loose) cap s) (q : PortId) (reason : Reason) :
    Stocked view closing loose cap (discardRef q r reason s) := by
  unfold discardRef
  split
  · exact dropRef_stocked (h.touched (countPort_touched _ _ _ _) rfl) q reason
  · exact dropRef_stocked h q reason

theorem discardAll_stocked {gone : List Ref} (h : Stocked view closing (gone ++ loose) cap s) (q : PortId) (reason : Reason) :
    Stocked view closing loose cap (discardAll q gone reason s) := by
  refine Stocked.touched ?_ (dueIfGone_touched q _) (dueIfGone_pool q _)
  induction gone generalizing s with
  | nil => exact h
  | cons r gone ih => exact ih (discardRef_stocked h q reason)

/-! ### Marks and sweeps (R60, R89, R105, R128 to R130) -/

theorem length_marked_le (hit : Ref → Bool) (m : Mark) (l : List Ref) :
    ((l.map (markedIf hit m)).filter (·.mark.isNone)).length ≤ (l.filter (·.mark.isNone)).length := by
  rw [List.filter_map, List.length_map]
  refine (List.monotone_filter_right l fun r unmarked => ?_).length_le
  rw [Option.isNone_iff_eq_none]
  by_contra marked
  exact markedIf_mark hit m r marked (Option.isNone_iff_eq_none.1 unmarked)

theorem markedIf_slot (hit : Ref → Bool) (m : Mark) (r : Ref) : (markedIf hit m r).slot = r.slot := (markedFrom_markedIf hit m r).slot

theorem markPending_stocked (h : Stocked view closing loose cap s) (q : PortId) (hit : Ref → Bool) (m : Mark) :
    Stocked view closing loose cap (markPending q hit m s) := by
  refine h.moves ⟨fun i => pointing_map (markedIf_slot hit m) i _, fun _ => rfl⟩ ?_ fun _ _ => Nat.le_refl _
  refine Nat.le_trans ?_ (h.loaded q)
  exact Nat.add_le_add_left (length_marked_le hit m _) _

theorem markHolder_stocked (h : Stocked view closing loose cap s) (q : PortId) (hit : Ref → Bool) (m : Mark) :
    Stocked view closing loose cap (markHolder q hit m s) := by
  refine h.moves ⟨fun _ => rfl, fun i => ?_⟩ ?_ fun _ _ => Nat.le_refl _
  · have same : pointing i (s.pool.queues[q].holder.map (markedIf hit m)).toList = pointing i s.pool.queues[q].holder.toList := by
      rw [Option.toList_map]
      exact pointing_map (markedIf_slot hit m) i _
    rw [pointing_carried, pointing_carried]
    exact congrArg (_ + · + _) same
  · refine Nat.le_trans (Nat.le_of_eq ?_) (h.loaded q)
    have same : (s.pool.queues[q].holder.map (markedIf hit m)).toList.length = s.pool.queues[q].holder.toList.length := by
      rw [Option.toList_map, List.length_map]
    exact congrArg (_ + · + _) same

theorem sweepLanes_stocked (h : Stocked view closing loose cap s) (q : PortId) (hit : Ref → Bool) (reason : Reason) :
    Stocked view closing loose cap (sweepLanes q hit reason s) := by
  refine discardAll_stocked ?_ q reason
  refine h.moves ⟨fun _ => rfl, fun i => ?_⟩ ?_ fun _ _ => Nat.le_refl _
  · have parts := pointing_filter i hit (laneRefs s.pool.queues[q])
    rw [pointing_carried, pointing_carried, laneRefs_modAll, pointing_append]
    dsimp only
    omega
  · refine Nat.le_trans ?_ (h.loaded q)
    have fewer : ((laneRefs s.pool.queues[q]).filter fun r => !hit r).length ≤ (laneRefs s.pool.queues[q]).length := List.length_filter_le _ _
    rw [queueLoad_eq, queueLoad_eq, laneRefs_modAll]
    dsimp only
    omega

theorem sweepLane_stocked (h : Stocked view closing loose cap s) (q : PortId) (lane : Priority) (hit : Ref → Bool) (reason : Reason) :
    Stocked view closing loose cap (sweepLane q lane hit reason s) := by
  refine discardAll_stocked ?_ q reason
  refine h.moves ⟨fun _ => rfl, fun i => ?_⟩ ?_ fun _ _ => Nat.le_refl _
  · have parts := pointing_filter i hit s.pool.queues[q].lanes[lane]
    have lanes := pointing_laneRefs i s.pool.queues[q] lane (·.filter fun r => !hit r)
    rw [pointing_carried, pointing_carried, pointing_append]
    dsimp only at lanes ⊢
    omega
  · refine Nat.le_trans ?_ (h.loaded q)
    have fewer : (s.pool.queues[q].lanes[lane].filter fun r => !hit r).length ≤ s.pool.queues[q].lanes[lane].length := List.length_filter_le _ _
    have lanes := length_laneRefs_modAt s.pool.queues[q] lane (·.filter fun r => !hit r)
    rw [queueLoad_eq, queueLoad_eq]
    dsimp only at lanes ⊢
    omega

theorem popLane_stocked {q : PortId} {lane : Priority} {r : Ref} (h : Stocked view closing loose cap s)
    (head : s.pool.queues[q].lanes[lane].head? = some r) :
    Stocked view closing (r :: loose) cap (popLane q lane s) ∧ queueLoad (popLane q lane s).pool.queues[q] + 1 = queueLoad s.pool.queues[q] := by
  obtain ⟨rest, split⟩ := List.head?_eq_some_iff.1 head
  have load : queueLoad (popLane q lane s).pool.queues[q] + 1 = queueLoad s.pool.queues[q] := by
    have lanes := length_laneRefs_modAt s.pool.queues[q] lane List.tail
    rw [split, List.tail_cons, List.length_cons] at lanes
    unfold popLane
    rw [modQueue_same, queueLoad_eq, queueLoad_eq]
    dsimp only at lanes ⊢
    omega
  refine ⟨h.moves ⟨fun _ => rfl, fun i => ?_⟩ ?_ fun _ _ => Nat.le_refl _, load⟩
  · have lanes := pointing_laneRefs i s.pool.queues[q] lane List.tail
    rw [split, List.tail_cons, pointing_cons] at lanes
    rw [pointing_carried, pointing_carried, pointing_cons]
    dsimp only at lanes ⊢
    omega
  · refine Nat.le_trans ?_ (h.loaded q)
    unfold popLane at load
    rw [modQueue_same] at load
    omega

/-! ### Reports to the node map, and selection (R54, R102 to R105) -/

theorem nodeFailed_stocked (h : Stocked view closing loose cap s) (dest : Address) :
    Stocked view closing loose cap (nodeFailed dest s) := by
  unfold nodeFailed
  split
  · exact h
  · dsimp only
    split
    · refine List.foldlRecOn _ _ (Stocked.touched ?_ (raise_touched _ _ _ _) (raise_pool _ _ _ _)) fun t stocked p _ => ?_
      · exact h.of_grounds (.of_trunk rfl) rfl
      · exact sweepLanes_stocked (markHolder_stocked (markPending_stocked stocked _ _ _) _ _ _) _ _ _
    · exact h.of_grounds (.of_trunk rfl) rfl

theorem failRef_stocked {r : Ref} (h : Stocked view closing (r :: loose) cap s) (p : SegPort) (reason : Reason) (report : Bool) :
    Stocked view closing loose cap (failRef p r reason report s) := by
  have dropped := dropRef_stocked (h.touched (countPort_touched p .failed 1 s) rfl) p.port reason
  unfold failRef
  dsimp only
  split
  · exact nodeFailed_stocked dropped _
  · exact dropped

theorem deliverRef_stocked {r : Ref} (h : Stocked view closing (r :: loose) cap s) (p : SegPort) :
    Stocked view closing loose cap (deliverRef p r s) := by
  refine dropRef_stocked ?_ p.port .delivered
  unfold nodeDelivered
  split
  · exact h.of_grounds (.of_trunk rfl) rfl
  · exact h.of_grounds (.of_trunk rfl) rfl

/-- A frame that selection finds best is the head of its lane. -/
theorem bestChoice_head {p : SegPort} {lane : Priority} {r : Ref} (choice : bestChoice p s = .frame lane r) :
    s.pool.queues[p.port].lanes[lane].head? = some r := by
  unfold bestChoice at choice
  split at choice
  · cases choice
  · cases choice
  next head _ =>
    cases choice
    exact ((firstHead_eq_some _ _ _ _).1 head).1
  next head _ =>
    split at choice
    · cases choice
    · cases choice
      exact ((firstHead_eq_some _ _ _ _).1 head).1

theorem selectOnce_stocked (h : Stocked view closing loose cap s) (p : SegPort) : Stocked view closing loose cap (selectOnce p s) := by
  have settled (tx : TxState) : Stocked view closing loose cap (settleTx p tx s) := h.of_grounds (.of_trunk rfl) rfl
  unfold selectOnce
  dsimp only
  split
  · split
    · exact settled _
    · exact settled _
    next choice =>
      have popped := (popLane_stocked h (bestChoice_head choice)).1
      split
      · exact discardRef_stocked popped _ _
      · split
        · exact failRef_stocked popped _ _ _
        · exact settled _
  · exact settled _

theorem settle_stocked (h : Stocked view closing loose cap s) : Stocked view closing loose cap (settle s) := by
  unfold settle
  generalize 2048 = n
  induction n generalizing s with
  | zero => exact h
  | succ n ih =>
    rw [runSelections_succ]
    split
    · exact ih (selectOnce_stocked h _)
    · exact h

end

end Sys2Proof.Machine
end

