-- ==== Sys2Proof/Proofs/PoolAdmission.lean ====
section
/-! PROOFS. The frame pool: admissions withdrawn, confirmed and made keep it (R48, R117 to R123) -/

-- One theorem after another: many at once need a thread each.
set_option Elab.async false

namespace Sys2Proof.Machine


section
variable {view : SegPort → Option SlotId} {closing : Option SlotId} {loose : List Ref} {cap cap' : PortId → Nat} {s t : State}

/-! ### References that come into a lane (R116) -/

/-- A reference that was nowhere has been put into a lane. -/
theorem Stored.putLane {q : PortId} {r : Ref} {lane : Priority} {f : List Ref → List Ref} (h : Stored view closing (r :: loose) cap s)
    (put : ∀ test, (f s.pool.queues[q].lanes[lane]).countP test = (r :: s.pool.queues[q].lanes[lane]).countP test)
    (room : queueLoad s.pool.queues[q] + 1 ≤ cap' q) (others : ∀ x, x ≠ q → cap x ≤ cap' x) :
    Stored view closing loose cap' (modQueue q (fun Q => { Q with lanes := modAt Q.lanes lane f }) s) := by
  refine h.moves ⟨fun _ => rfl, fun i => ?_⟩ ?_ others
  · have lanes := pointing_laneRefs i s.pool.queues[q] lane f
    have more : pointing i (f s.pool.queues[q].lanes[lane]) = pointing i (r :: s.pool.queues[q].lanes[lane]) := put _
    rw [more, pointing_cons] at lanes
    rw [pointing_carried, pointing_carried, pointing_cons]
    dsimp only at lanes ⊢
    omega
  · refine Nat.le_trans ?_ room
    have lanes := length_laneRefs_modAt s.pool.queues[q] lane f
    have more := put fun _ => true
    rw [List.countP_true, List.length_cons] at more
    rw [queueLoad_eq, queueLoad_eq]
    dsimp only at lanes ⊢
    omega

theorem joinTail_stored {q : PortId} {r : Ref} (h : Stored view closing (r :: loose) cap s) (room : queueLoad s.pool.queues[q] + 1 ≤ cap' q)
    (others : ∀ x, x ≠ q → cap x ≤ cap' x) : Stored view closing loose cap' (joinTail q r s) := by
  have put := h.putLane (q := q) (lane := (slotOf r s).priority) (f := (· ++ [r]))
    (fun test => by simp only [List.countP_append, List.countP_cons, List.countP_nil]; omega) room others
  exact put.of_grounds (makeDueQueue_touched q _).grounds (joinTail_pool q r s)

theorem joinTail_stocked {q : PortId} {r : Ref} (h : Stocked view closing (r :: loose) cap s) (room : queueLoad s.pool.queues[q] + 1 ≤ cap' q)
    (others : ∀ x, x ≠ q → cap x ≤ cap' x) : Stocked view closing loose cap' (joinTail q r s) where
  toStored := joinTail_stored h.toStored room others
  short := by
    rw [joinTail_pool, reservedCount_congr (s := s) (t := joinTail q r s) (by rw [joinTail_pool]; rfl)]
    exact h.short

theorem joinTail_load (q x : PortId) (r : Ref) (s : State) :
    queueLoad (joinTail q r s).pool.queues[x] = queueLoad s.pool.queues[x] + if x = q then 1 else 0 := by
  rw [joinTail_pool]
  by_cases e : x = q
  · subst e
    have lanes := length_laneRefs_modAt s.pool.queues[x] (slotOf r s).priority (· ++ [r])
    rw [List.length_append, List.length_singleton] at lanes
    rw [modQueue_same, queueLoad_eq, queueLoad_eq, if_pos rfl]
    dsimp only at lanes ⊢
    omega
  · rw [modQueue_other _ _ e, if_neg e]
    rfl

theorem returnToHead_stocked {q : PortId} {r : Ref} (h : Stocked view closing (r :: loose) cap s)
    (room : queueLoad s.pool.queues[q] + 1 ≤ cap' q) (others : ∀ x, x ≠ q → cap x ≤ cap' x) :
    Stocked view closing loose cap' (returnToHead q r s) := ⟨h.toStored.putLane (fun _ => rfl) room others, h.short⟩

/-- The holder of a queue is emptied: the reference that was in it is nowhere. -/
theorem Stocked.takeHolder {q : PortId} {r : Ref} (h : Stocked view closing loose cap s) (held : s.pool.queues[q].holder = some r) :
    Stocked view closing (r :: loose) cap (setHolder q none s) ∧
      queueLoad (setHolder q none s).pool.queues[q] + 1 = queueLoad s.pool.queues[q] := by
  have load : queueLoad (setHolder q none s).pool.queues[q] + 1 = queueLoad s.pool.queues[q] := by
    unfold setHolder
    rw [modQueue_same, queueLoad_eq, queueLoad_eq, held, Option.toList_some, Option.toList_none, List.length_nil, List.length_singleton]
    dsimp only [laneRefs]
    omega
  refine ⟨h.moves ⟨fun _ => rfl, fun i => ?_⟩ ?_ fun _ _ => Nat.le_refl _, load⟩
  · rw [pointing_carried, pointing_carried, held, pointing_cons, Option.toList_some, pointing_cons]
    dsimp only [laneRefs, Option.toList_none]
    rw [pointing_nil]
    omega
  · refine Nat.le_trans ?_ (h.loaded q)
    unfold setHolder at load
    rw [modQueue_same] at load
    omega

/-- A reference that was nowhere is put into an empty holder. -/
theorem Stored.putHolder {q : PortId} {r r' : Ref} (h : Stored view closing (r :: loose) cap s) (empty : s.pool.queues[q].holder = none)
    (same : r'.slot = r.slot) (room : queueLoad s.pool.queues[q] + 1 ≤ cap' q) (others : ∀ x, x ≠ q → cap x ≤ cap' x) :
    Stored view closing loose cap' (setHolder q (some r') s) := by
  refine h.moves ⟨fun _ => rfl, fun i => ?_⟩ ?_ others
  · rw [pointing_carried, pointing_carried, empty, pointing_cons, Option.toList_some, pointing_cons, same]
    dsimp only [laneRefs, Option.toList_none]
    rw [pointing_nil]
    omega
  · refine Nat.le_trans ?_ room
    rw [queueLoad_eq, queueLoad_eq, empty]
    exact Nat.le_of_eq (by dsimp only [laneRefs, Option.toList_some, Option.toList_none, List.length_singleton, List.length_nil]; omega)

/-! ### An admission that is withdrawn, or confirmed (R48, R122) -/

theorem refCount_of_queues {i : SlotId} (same : ∀ q : PortId, pointing i (queueRefs t.pool.queues[q]) = pointing i (queueRefs s.pool.queues[q])) :
    refCount i t = refCount i s := by
  rw [refCount_eq, refCount_eq]
  exact congrArg List.sum (List.map_congr_left fun q _ => same q)

theorem pointing_filter_ne {i j : SlotId} (l : List Ref) (other : j ≠ i) : pointing j (l.filter fun r => r.slot ≠ i) = pointing j l := by
  unfold pointing
  rw [List.countP_filter]
  refine List.countP_congr fun r _ => ?_
  rw [Bool.and_eq_true, decide_eq_true_eq, beq_iff_eq]
  exact and_iff_left_of_imp fun e => e ▸ other

theorem mem_filter_ne {i : SlotId} {r : Ref} {l : List Ref} : (r ∈ l.filter fun r => r.slot ≠ i) ↔ r ∈ l ∧ r.slot ≠ i := by
  rw [List.mem_filter, decide_eq_true_eq]

/-- The admissions but for one port's. -/
def without (view : SegPort → Option SlotId) (p : SegPort) : SegPort → Option SlotId := Function.update view p none

theorem without_eq_some {p q : SegPort} {i : SlotId} : without view p q = some i ↔ q ≠ p ∧ view q = some i := by
  unfold without
  by_cases e : q = p
  · subst e
    rw [Function.update_self]
    exact ⟨nofun, fun ⟨other, _⟩ => absurd rfl other⟩
  · rw [Function.update_of_ne e]
    exact ⟨fun v => ⟨e, v⟩, And.right⟩

theorem without_of_none {p : SegPort} (none : view p = .none) : without view p = view := Function.update_eq_self_iff.2 none.symm

/-- What is admitted for a port is no other port's. -/
def Single (view : SegPort → Option SlotId) (p : SegPort) : Prop := ∀ q i, view p = some i → view q = some i → q = p

theorem withdraw_stocked {p : SegPort} (h : Stocked view none [] cap s) (own : view p = admittedSlot s.ports[p]) (once : Single view p) :
    Stocked (without view p) none [] cap (withdraw p s) := by
  cases admitted : admittedSlot s.ports[p] with
  | none =>
    rw [without_of_none (own.trans admitted), withdraw, admitted]
    exact h
  | some i =>
    rw [withdraw_eq p i s admitted]
    have mine : view p = some i := own.trans admitted
    generalize pulled : ({ s with pool := { s.pool with
      queues := s.pool.queues.map fun Q => { Q with pending := Q.pending.filter fun r => r.slot ≠ i } } } : State) = t
    have queue (q : PortId) : t.pool.queues[q] = { s.pool.queues[q] with pending := s.pool.queues[q].pending.filter fun r => r.slot ≠ i } := by
      rw [← pulled]
      exact Vector.getElem_map _ _
    have slots : t.pool.slots = s.pool.slots := by rw [← pulled]
    have free : t.pool.free = s.pool.free := by rw [← pulled]
    have trunk : t.trunk = s.trunk := by rw [← pulled]
    have live := h.admitted.queued p i mine
    have apart := (h.admitted.apart p i mine).1
    have alone : refCount i t = 0 := refCount_eq_zero fun q => by
      rw [queue, pointing_queueRefs, carried_pending, apart q, Nat.add_zero, pointing_eq_zero]
      exact fun r mem => (mem_filter_ne.1 mem).2
    have elsewhere {j : SlotId} (e : j ≠ i) : refCount j t = refCount j s := refCount_of_queues fun q => by
      rw [queue, pointing_queueRefs, pointing_queueRefs, carried_pending, pointing_filter_ne _ e]
    refine .release (by rw [free]; exact h.slots.freeNodup) (by rw [trunk]; exact h.slots.takenNodup) (fun j e => ?_)
      (by rw [free]; exact (h.slots.slot i).not_free (by rw [live]; nofun)) (by rw [trunk]; exact (h.slots.slot i).not_taken (by rw [live]; nofun))
      (by rw [alone]; rfl) ⟨fun x j v => ?_, fun x j v => ?_, fun q r mem => ?_, nofun⟩ (fun x v => ?_) (fun q => ?_) ?_ (by rw [slots, live]; nofun)
    · exact (h.slots.slot j).of_same (by rw [slots]) (by rw [free]) (by rw [trunk]) (by rw [trunk]; exact id) (by rw [elsewhere e])
    · rw [slots]
      exact h.admitted.queued x j (without_eq_some.1 v).2
    · refine ⟨fun q => ?_, rfl⟩
      rw [queue, carried_pending]
      exact (h.admitted.apart x j (without_eq_some.1 v).2).1 q
    · rw [queue] at mem
      obtain ⟨mem, other⟩ := mem_filter_ne.1 mem
      obtain ⟨x, v⟩ := (h.admitted.pending q r mem).resolve_right nofun
      refine .inl ⟨x, without_eq_some.2 ⟨fun e => other ?_, v⟩⟩
      rw [e, mine] at v
      exact (Option.some.inj v).symm
    · obtain ⟨other, v⟩ := without_eq_some.1 v
      exact other (once x i mine v)
    · refine Nat.le_trans ?_ (h.loaded q)
      rw [queue]
      exact Nat.add_le_add_left ((List.filter_sublist.filter _).length_le) _
    · exact h.window.of_le (.of_trunk trunk) (Nat.le_of_eq (unfilledCount_congr slots).symm)

/-- A change of one slot that the invariants do not see. -/
theorem Stocked.editSlot {i : SlotId} {f : FrameSlot → FrameSlot} (h : Stocked view closing loose cap s)
    (status : (f s.pool.slots[i]).status = s.pool.slots[i].status) (refs : (f s.pool.slots[i]).refs = s.pool.slots[i].refs)
    (inbound : (f s.pool.slots[i]).inbound = s.pool.slots[i].inbound)
    (decision : (f s.pool.slots[i]).decision.isSome = true → s.trunk.taken.head? = some i) :
    Stocked view closing loose cap (modSlot i f s) := by
  have slot (j : SlotId) : (modSlot i f s).pool.slots[j] = if j = i then f s.pool.slots[i] else s.pool.slots[j] := by
    rw [modSlot_pool]
    refine (getElem_modAt_fin _ _ _ _).trans ?_
    split
    next e => subst e; rfl
    · rfl
  have statuses (j : SlotId) : (modSlot i f s).pool.slots[j].status = s.pool.slots[j].status := by
    rw [slot]
    split
    next e => subst e; exact status
    · rfl
  have counts (st : SlotStatus) : slotsIn st (modSlot i f s) = slotsIn st s := List.filter_congr fun j _ => by rw [statuses]
  refine ⟨⟨⟨h.slots.freeNodup, h.slots.takenNodup, fun j => ?_⟩, ⟨fun p j v => ?_, h.admitted.apart, h.admitted.pending, h.admitted.closed⟩,
    h.loaded, h.window.of_le ⟨rfl, rfl, rfl, rfl, rfl⟩ (by unfold unfilledCount; rw [counts])⟩, ?_⟩
  · by_cases e : j = i
    · subst e
      obtain ⟨free, taken, filled, -, queued, unqueued⟩ := h.slots.slot j
      constructor <;> rw [slot, if_pos rfl]
      · rw [status]; exact free
      · rw [status]; exact taken
      · rw [status, inbound]; exact filled
      · exact decision
      · rw [status, refs]; exact queued
      · rw [status]; exact unqueued
    · exact (h.slots.slot j).of_same ((slot j).trans (if_neg e)) Iff.rfl Iff.rfl id rfl
  · rw [statuses]
    exact h.admitted.queued p j v
  · have : reservedCount (modSlot i f s) = reservedCount s := by
      unfold reservedCount unfilledCount
      rw [counts, counts]
    rw [this]
    exact h.short

/-- The admission of a port begins to end. -/
theorem Stocked.close {p : SegPort} {i : SlotId} (h : Stocked view none [] cap s) (mine : view p = some i) (once : Single view p) :
    Stocked (without view p) (some i) [] cap s where
  slots := h.slots
  admitted := by
    refine ⟨fun x j v => h.admitted.queued x j (without_eq_some.1 v).2, fun x j v => h.admitted.apart x j (without_eq_some.1 v).2,
      fun q r mem => ?_, fun j e x v => ?_⟩
    · obtain ⟨x, v⟩ := (h.admitted.pending q r mem).resolve_right nofun
      by_cases e : x = p
      · rw [e, mine] at v
        exact .inr v
      · exact .inl ⟨x, without_eq_some.2 ⟨e, v⟩⟩
    · obtain ⟨other, v⟩ := without_eq_some.1 v
      rw [← e] at v
      exact other (once x i mine v)
  loaded := h.loaded
  window := h.window
  short := h.short

/-- An admission has ended once nothing pending points at its slot. -/
theorem Stocked.closed {i : SlotId} (h : Stocked view (some i) loose cap s) (gone : ∀ q : PortId, ∀ r ∈ s.pool.queues[q].pending, r.slot ≠ i) :
    Stocked view none loose cap s where
  slots := h.slots
  admitted := ⟨h.admitted.queued, h.admitted.apart, fun q r mem => .inl ((h.admitted.pending q r mem).resolve_right fun e =>
    gone q r mem (Option.some.inj e).symm), nofun⟩
  loaded := h.loaded
  window := h.window
  short := h.short

/-- How many references of a list are unmarked. -/
def unmarked (l : List Ref) : Nat := l.countP (·.mark.isNone)

theorem length_filter_unmarked (l : List Ref) : (l.filter (·.mark.isNone)).length = unmarked l := List.countP_eq_length_filter.symm

theorem confirmRefs_stocked {q : PortId} {refs : List Ref} (h : Stocked view closing refs cap' s)
    (room : queueLoad s.pool.queues[q] + unmarked refs ≤ cap q) (others : ∀ x, x ≠ q → cap' x ≤ cap x) :
    Stocked view closing [] cap (refs.foldl (confirmRef q) s) := by
  induction refs generalizing s cap' with
  | nil => exact h.weaken (fun x => by by_cases e : x = q; · subst e; exact room
                                       · exact (h.loaded x).trans (others x e)) fun _ => rfl
  | cons r refs ih =>
    rw [List.foldl_cons]
    unfold unmarked at room ih
    cases mark : r.mark with
    | none =>
      rw [List.countP_cons, mark, Option.isNone_none, if_pos rfl] at room
      have joined : confirmRef q s r = joinTail q r s := by unfold confirmRef; rw [mark]
      rw [joined]
      have load := joinTail_load q q r s
      rw [if_pos rfl] at load
      refine ih (cap' := fun x => if x = q then queueLoad s.pool.queues[q] + 1 else cap' x) (joinTail_stocked h ?_ fun x e => ?_) ?_ fun x e => ?_
      · rw [if_pos rfl]
      · rw [if_neg e]
      · rw [load]
        omega
      · rw [if_neg e]
        exact others x e
    | some m =>
      rw [List.countP_cons, mark, Option.isNone_some, if_neg Bool.false_ne_true] at room
      have discarded : confirmRef q s r = discardRef q r m.reason s := by unfold confirmRef; rw [mark]
      rw [discarded]
      exact ih (discardRef_stocked h q _) (by rw [discardRef_queues]; exact room) others

theorem confirmQueue_stocked {i : SlotId} (h : Stocked view (some i) [] cap s) (q : PortId) :
    Stocked view (some i) [] cap (confirmQueue i s q) := by
  rw [confirmQueue_eq]
  have split : unmarked (s.pool.queues[q].pending.filter fun r => !(r.slot == i)) + unmarked (s.pool.queues[q].pending.filter (·.slot == i)) =
      unmarked s.pool.queues[q].pending := by
    unfold unmarked
    rw [List.countP_filter, List.countP_filter]
    generalize s.pool.queues[q].pending = l
    induction l with
    | nil => rfl
    | cons r l ih =>
      simp only [List.countP_cons]
      cases r.slot == i <;> cases r.mark.isNone <;> simp <;> omega
  have pulled : Stored view (some i) (s.pool.queues[q].pending.filter (·.slot == i)) cap
      (modQueue q (fun Q => { Q with pending := Q.pending.filter fun r => !(r.slot == i) }) s) := by
    refine h.changeQueue (fun j => ?_) (fun p j v => ⟨(h.admitted.apart p j v).1 q, ?_⟩) (fun r mem => ?_) ?_ fun _ _ => Nat.le_refl _
    · have parts := pointing_filter j (·.slot == i) s.pool.queues[q].pending
      rw [pointing_queueRefs, pointing_queueRefs, carried_pending, pointing_nil]
      dsimp only
      omega
    · refine pointing_eq_zero.2 fun r mem e => h.admitted.closed i rfl p ?_
      obtain ⟨-, own⟩ := List.mem_filter.1 mem
      rw [v, ← e, beq_iff_eq.1 own]
    · exact h.admitted.pending q r (List.mem_of_mem_filter mem)
    · exact (Nat.add_le_add_left (List.filter_sublist.filter _).length_le _).trans (h.loaded q)
  refine confirmRefs_stocked ⟨pulled, h.short⟩ ?_ fun _ _ => Nat.le_refl _
  have load := h.loaded q
  rw [queueLoad_eq, length_filter_unmarked] at load
  rw [modQueue_same, queueLoad_eq, length_filter_unmarked]
  dsimp only [laneRefs] at load ⊢
  omega

/-- The pending references and the holders of the queues are the same. -/
structure LanesMove (s t : State) : Prop where
  pending : ∀ q : PortId, t.pool.queues[q].pending = s.pool.queues[q].pending
  holder : ∀ q : PortId, t.pool.queues[q].holder = s.pool.queues[q].holder

theorem LanesMove.trans {u : State} (a : LanesMove s t) (b : LanesMove t u) : LanesMove s u :=
  ⟨fun q => (b.pending q).trans (a.pending q), fun q => (b.holder q).trans (a.holder q)⟩

theorem LanesMove.of_queues (h : t.pool.queues = s.pool.queues) : LanesMove s t := ⟨fun q => by rw [h], fun q => by rw [h]⟩

theorem confirmRef_moves (q : PortId) (r : Ref) (s : State) : LanesMove s (confirmRef q s r) := by
  unfold confirmRef
  split
  · have joined := joinTail_joined q r (s := s) rfl
    exact ⟨joined.pending, joined.holder⟩
  · exact .of_queues (discardRef_queues _ _ _ _)

theorem confirmRefs_moves (q : PortId) (refs : List Ref) (s : State) : LanesMove s (refs.foldl (confirmRef q) s) := by
  induction refs generalizing s with
  | nil => exact .of_queues rfl
  | cons r refs ih => exact (confirmRef_moves q r s).trans (ih _)

theorem confirmQueue_pending (i : SlotId) (q x : PortId) (s : State) : (confirmQueue i s q).pool.queues[x].pending =
    if x = q then s.pool.queues[x].pending.filter (fun r => !(r.slot == i)) else s.pool.queues[x].pending := by
  rw [confirmQueue_eq, (confirmRefs_moves _ _ _).pending]
  by_cases e : x = q
  · subst e
    rw [if_pos rfl, modQueue_same]
  · rw [if_neg e, modQueue_other _ _ e]

theorem confirmQueue_holder (i : SlotId) (q x : PortId) (s : State) :
    (confirmQueue i s q).pool.queues[x].holder = s.pool.queues[x].holder := by
  rw [confirmQueue_eq, (confirmRefs_moves _ _ _).holder]
  by_cases e : x = q
  · subst e
    rw [modQueue_same]
  · rw [modQueue_other _ _ e]

/-- Once the queues have been confirmed, no pending reference of theirs points at the slot. -/
theorem confirmQueues_pending (i : SlotId) (qs : List PortId) (s : State) {x : PortId}
    (done : x ∈ qs ∨ ∀ r ∈ s.pool.queues[x].pending, r.slot ≠ i) : ∀ r ∈ (qs.foldl (confirmQueue i) s).pool.queues[x].pending, r.slot ≠ i := by
  induction qs generalizing s with
  | nil => exact done.resolve_left nofun
  | cons q qs ih =>
    rw [List.foldl_cons]
    refine ih _ ?_
    rw [confirmQueue_pending]
    by_cases e : x = q
    · refine .inr fun r mem => ?_
      rw [if_pos e] at mem
      simpa using List.of_mem_filter mem
    · rw [if_neg e]
      exact done.imp_left fun mem => (List.mem_cons.1 mem).resolve_left e

theorem confirm_stocked {p : SegPort} (h : Stocked view none [] cap s) (own : view p = admittedSlot s.ports[p]) (once : Single view p) :
    Stocked (without view p) none [] cap (confirm p s) := by
  cases admitted : admittedSlot s.ports[p] with
  | none =>
    rw [without_of_none (own.trans admitted), confirm, admitted]
    exact h
  | some i =>
    rw [confirm, admitted]
    dsimp only
    refine Stocked.closed (i := i) ?_ fun q => confirmQueues_pending i allPorts _ (.inl (mem_allPorts q))
    refine List.foldlRecOn _ _ ?_ fun t stocked q _ => confirmQueue_stocked stocked q
    exact (h.editSlot rfl rfl rfl (h.slots.slot i).decision).close (own.trans admitted) once

/-! ### The admission of a segment frame (R117 to R121) -/

/-- What a queue may hold: a port's QUEUE_LIMIT, nothing for a disabled port, and 48 for the trunk (R63, R115). -/
def capOf (s : State) (q : PortId) : Nat :=
  match segOf? q with
  | some p => if s.ports[p].enabled then s.ports[p].queueLimit else 0
  | none => trunkQueueLimit

theorem capOf_port (s : State) (p : SegPort) : capOf s p.port = if s.ports[p].enabled then s.ports[p].queueLimit else 0 := by
  rw [capOf, segOf?_port]

theorem capOf_trunk (s : State) : capOf s trunkPort = trunkQueueLimit := rfl

theorem load_le_occupancy (Q : Queue) : queueLoad Q ≤ occupancy Q := Nat.add_le_add_left (List.length_filter_le _ _) _

theorem targetFailure_of_admitted {dest : Address} {d : Decision} {q : PortId} (mem : q ∈ (settleTargets dest d s).admitted) :
    q ∈ portMembers d.egress ∧ targetFailure dest s q = none := by
  unfold settleTargets at mem
  split at mem
  · cases mem
  · split at mem
    · cases mem
    · dsimp only at mem
      split_ifs at mem with empty all bad
      · cases mem
      · refine ⟨mem, ?_⟩
        by_contra fails
        obtain ⟨reason, why⟩ := Option.ne_none_iff_exists'.1 fails
        have : reason ∈ (portMembers d.egress).filterMap (targetFailure dest s) := List.mem_filterMap.2 ⟨q, mem, why⟩
        rw [List.isEmpty_iff.1 all] at this
        cases this
      · cases mem
      · obtain ⟨mem, passes⟩ := List.mem_filter.1 mem
        exact ⟨mem, Option.isNone_iff_eq_none.1 passes⟩

/-- A target that is admitted has room. -/
theorem load_lt_of_admitted {dest : Address} {d : Decision} {q : PortId} (mem : q ∈ (settleTargets dest d s).admitted) :
    queueLoad s.pool.queues[q] < capOf s q := by
  have passes := (targetFailure_of_admitted mem).2
  refine Nat.lt_of_le_of_lt (load_le_occupancy _) ?_
  obtain ⟨p, rfl⟩ | rfl := port_cases q
  · rw [targetFailure, segOf?_port] at passes
    dsimp only at passes
    split_ifs at passes with off blocked full
    rw [Bool.not_eq_true, Bool.not_eq_false'] at off
    rw [capOf_port, if_pos off]
    exact Nat.lt_of_not_le full
  · by_contra full
    have : targetFailure dest s trunkPort = some .noSpace := if_pos (Nat.le_of_not_lt full)
    rw [this] at passes
    cases passes

/-- A reference that was nowhere is made pending, for a slot whose admission is not settled yet. -/
theorem addPending_stocked {r : Ref} {i : SlotId} (h : Stocked view (some i) (r :: loose) cap s) (own : r.slot = i) (q : PortId) :
    ∃ cap', Stocked view (some i) loose cap' (addPending r s q) := by
  let f : Queue → Queue := fun Q => { Q with pending := Q.pending ++ [r] }
  have stored : Stored view (some i) loose (fun x => cap x + queueLoad (f s.pool.queues[q])) (modQueue q f s) := by
    refine h.changeQueue (fun j => ?_) (fun p j v => ⟨(h.admitted.apart p j v).1 q, ?_⟩) (fun r' mem => ?_) (Nat.le_add_left _ _)
      fun _ _ => Nat.le_add_right _ _
    · rw [pointing_queueRefs, pointing_queueRefs, carried_pending, pointing_append, pointing_cons, pointing_cons, pointing_nil]
      omega
    · have := (h.admitted.apart p j v).2
      rw [pointing_cons] at this
      omega
    · obtain mem | mem := List.mem_append.1 mem
      · exact h.admitted.pending q r' mem
      · rw [List.mem_singleton.1 mem, own]
        exact .inr rfl
  exact ⟨_, stored, h.short⟩

theorem addPendings_stocked {r : Ref} {i : SlotId} {qs : List PortId} (h : Stocked view (some i) (qs.map (fun _ => r) ++ loose) cap s)
    (own : r.slot = i) : ∃ cap', Stocked view (some i) loose cap' (qs.foldl (addPending r) s) := by
  induction qs generalizing s cap with
  | nil => exact ⟨cap, h⟩
  | cons q qs ih =>
    obtain ⟨_, added⟩ := addPending_stocked h own q
    exact ih added

/-- A slot leaves the head of the free list for references that are still nowhere. -/
theorem Stocked.fillSlot {i : SlotId} {rest : List SlotId} {sl : FrameSlot} (h : Stocked view none [] cap s) (free : s.pool.free = i :: rest)
    (status : sl.status = .queued) (decision : sl.decision = none) (positive : 1 ≤ sl.refs) (count : sl.refs = pointing i loose)
    (own : ∀ r ∈ loose, r.slot = i) :
    Stocked view (some i) loose cap (modSlot i (fun _ => sl) (modPool (fun p => { p with free := p.free.tail }) s)) := by
  generalize stored : modSlot i (fun _ => sl) (modPool (fun p => { p with free := p.free.tail }) s) = t
  have slot (j : SlotId) : t.pool.slots[j] = if j = i then sl else s.pool.slots[j] := by
    rw [← stored]
    exact getElem_modAt_fin _ _ _ _
  have queues : t.pool.queues = s.pool.queues := by rw [← stored]; rfl
  have trunk : t.trunk = s.trunk := by rw [← stored]; rfl
  have frees : t.pool.free = rest := by rw [← stored]; exact congrArg List.tail free
  have head := h.slots.freeNodup
  rw [free] at head
  obtain ⟨fresh, nodup⟩ := List.nodup_cons.1 head
  have unused : s.pool.slots[i].status = .free := (h.slots.slot i).free.2 (by rw [free]; exact List.mem_cons_self)
  have alone : refCount i s = 0 := (h.slots.slot i).unqueued (by rw [unused]; nofun)
  have elsewhere {j : SlotId} (e : j ≠ i) : pointing j loose = 0 := pointing_eq_zero.2 fun r mem e' => e (e'.symm.trans (own r mem))
  have counts (st : SlotStatus) (a : st ≠ .free) (b : st ≠ .queued) : slotsIn st t = slotsIn st s := List.filter_congr fun j _ => by
    rw [slot]
    split
    next e => rw [e, status, unused, beq_eq_false_iff_ne.2 a.symm, beq_eq_false_iff_ne.2 b.symm]
    · rfl
  have unfilled : unfilledCount t = unfilledCount s := by unfold unfilledCount; rw [counts .unfilled nofun nofun]
  have reserved : reservedCount t = reservedCount s := by unfold reservedCount; rw [unfilled, counts .filled nofun nofun]
  have others {p : SegPort} {j : SlotId} (v : view p = some j) : j ≠ i := fun e => by
    have := h.admitted.queued p j v
    rw [e, unused] at this
    cases this
  refine ⟨⟨⟨by rw [frees]; exact nodup, by rw [trunk]; exact h.slots.takenNodup, fun j => ?_⟩, ⟨fun p j v => ?_, fun p j v => ?_, fun q r mem => ?_,
    fun j e p v => ?_⟩, by rw [queues]; exact h.loaded, h.window.of_le (.of_trunk trunk) (Nat.le_of_eq unfilled.symm)⟩, ?_⟩
  · by_cases e : j = i
    · subst e
      constructor <;> rw [slot, if_pos rfl]
      · rw [status, frees]
        exact ⟨nofun, fun mem => absurd mem fresh⟩
      · rw [status, trunk]
        exact ⟨nofun, fun mem => absurd mem ((h.slots.slot j).not_taken (by rw [unused]; nofun))⟩
      · rw [status]
        nofun
      · rw [decision]
        nofun
      · rw [refCount_congr queues, alone, Nat.zero_add]
        exact fun _ => ⟨positive, count⟩
      · exact fun other => absurd status other
    · refine (h.slots.slot j).of_same ((slot j).trans (if_neg e)) ?_ (by rw [trunk]) (by rw [trunk]; exact id)
        (by rw [refCount_congr queues, elsewhere e]; rfl)
      rw [frees, free, List.mem_cons]
      exact (or_iff_right e).symm
  · rw [slot, if_neg (others v)]
    exact h.admitted.queued p j v
  · rw [queues, elsewhere (others v)]
    exact ⟨(h.admitted.apart p j v).1, rfl⟩
  · rw [queues] at mem
    exact .inl ((h.admitted.pending q r mem).resolve_right nofun)
  · exact others v (Option.some.inj e).symm
  · have size : t.pool.reserveSize = s.pool.reserveSize := by rw [← stored]; rfl
    rw [reserved, size, frees]
    intro less
    have := h.short less
    rw [free] at this
    cases this

/-- The admissions with a new one. -/
def withAdmission (view : SegPort → Option SlotId) (p : SegPort) (i : SlotId) : SegPort → Option SlotId := Function.update view p (some i)

/-- A slot whose references are all pending is a port's admission. -/
theorem Stocked.addAdmission {p : SegPort} {i : SlotId} (h : Stocked view (some i) [] cap s) (unused : view p = none)
    (queued : s.pool.slots[i].status = .queued) (apart : ∀ q : PortId, pointing i (carried s.pool.queues[q]) = 0) :
    Stocked (withAdmission view p i) none [] cap s where
  slots := h.slots
  admitted := by
    have cases {x : SegPort} {j : SlotId} (v : withAdmission view p i x = some j) : view x = some j ∨ j = i := by
      unfold withAdmission at v
      by_cases e : x = p
      · rw [e, Function.update_self] at v
        exact .inr (Option.some.inj v).symm
      · rw [Function.update_of_ne e] at v
        exact .inl v
    refine ⟨fun x j v => ?_, fun x j v => ?_, fun q r mem => .inl ?_, nofun⟩
    · obtain v | rfl := cases v
      · exact h.admitted.queued x j v
      · exact queued
    · obtain v | rfl := cases v
      · exact h.admitted.apart x j v
      · exact ⟨apart, rfl⟩
    · obtain ⟨x, v⟩ | e := h.admitted.pending q r mem
      · refine ⟨x, ?_⟩
        unfold withAdmission
        rw [Function.update_of_ne fun e => by rw [e, unused] at v; cases v]
        exact v
      · exact ⟨p, by unfold withAdmission; rw [Function.update_self]; exact e⟩
  loaded := h.loaded
  window := h.window
  short := h.short

theorem takeSlot_stocked {p : SegPort} {f : Frame} {d : Decision} {i : SlotId} {rest : List SlotId} {mirror : Bool}
    (h : Stocked view none [] (capOf s) s) (empty : view p = none) (free : s.pool.free = i :: rest)
    (due : mirror = mirrorDue d s) (clear : d.mirror = true → d.egress.getLsbD 4 = false)
    (needed : (settleTargets f.dest d s).admitted ≠ [] ∨ mirror = true) :
    Stocked (withAdmission view p i) none [] (capOf s) (takeSlot p f d i (settleTargets f.dest d s).admitted mirror s) := by
  have nodup := settleTargets_admitted_nodup f.dest d s
  have target {q : PortId} (mem : q ∈ (settleTargets f.dest d s).admitted) := load_lt_of_admitted mem
  have trunk : mirror = true → trunkPort ∉ (settleTargets f.dest d s).admitted ∧ queueLoad s.pool.queues[trunkPort] < trunkQueueLimit := by
    intro on
    rw [due] at on
    unfold mirrorDue at on
    rw [Bool.and_eq_true, Bool.and_eq_true, decide_eq_true_eq] at on
    obtain ⟨⟨-, mirrors⟩, room⟩ := on
    refine ⟨fun mem => ?_, Nat.lt_of_le_of_lt (load_le_occupancy _) room⟩
    have := mem_portMembers.1 (targetFailure_of_admitted mem).1
    rw [show trunkPort.val = 4 from rfl, clear mirrors] at this
    cases this
  generalize (settleTargets f.dest d s).admitted = admitted at *
  obtain ⟨pool, eq, -, -, -, slots, queues⟩ := takeSlot_eq p f d i rest admitted mirror s free nodup
  have stocked : ∃ cap', Stocked view (some i) [] cap' (takeSlot p f d i admitted mirror s) := by
    let loose := admitted.map (fun _ => newRef i .frame) ++ if mirror then [newRef i .trap] else []
    have own : ∀ r ∈ loose, r.slot = i := by
      intro r mem
      obtain mem | mem := List.mem_append.1 mem
      · obtain ⟨-, -, rfl⟩ := List.mem_map.1 mem
        rfl
      · split at mem
        · rw [List.mem_singleton.1 mem]
          rfl
        · cases mem
    have length : pointing i loose = admitted.length + mirror.toNat := by
      have all : pointing i loose = loose.length := List.countP_eq_length.2 fun r mem => by rw [own r mem, beq_self_eq_true]
      rw [all, List.length_append, List.length_map]
      cases mirror <;> rfl
    have positive : 1 ≤ admitted.length + mirror.toNat := by
      obtain targets | rfl := needed
      · have := List.length_pos_of_ne_nil targets
        omega
      · exact Nat.le_add_left _ _
    have stored := h.fillSlot (loose := loose) (sl :=
      { status := .queued, frame := f, origin := p.port, ingress := p.port, entry := d.entry, priority := d.priority
        epoch := d.epoch, deadline := deadlineOf d.lifetime s, custody := false, tag := .none
        refs := admitted.length + mirror.toNat, inbound := .none, decision := .none }) free rfl rfl positive length.symm own
    obtain ⟨cap', queued⟩ := addPendings_stocked stored rfl
    unfold takeSlot
    dsimp only
    cases mirror with
    | false => exact ⟨cap', queued⟩
    | true => exact addPending_stocked queued rfl trunkPort
  obtain ⟨cap', stocked⟩ := stocked
  have unused : s.pool.slots[i].status = .free := (h.slots.slot i).free.2 (by rw [free]; exact List.mem_cons_self)
  have alone : refCount i s = 0 := (h.slots.slot i).unqueued (by rw [unused]; nofun)
  rw [eq] at stocked ⊢
  refine (stocked.weaken (cap' := capOf s) (fun q => ?_) fun _ => rfl).addAdmission empty ?_ fun q => ?_
  · have load : queueLoad pool.queues[q] = queueLoad s.pool.queues[q] + (if q ∈ admitted then 1 else 0) +
        if mirror = true ∧ q = trunkPort then 1 else 0 := by
      rw [queues, queueLoad_eq, queueLoad_eq]
      dsimp only
      rw [List.filter_append, List.filter_append, List.length_append, List.length_append]
      dsimp only [laneRefs]
      split_ifs <;> simp <;> omega
    rw [load]
    have within := h.loaded q
    by_cases mem : q ∈ admitted
    · have := target mem
      have other : ¬(mirror = true ∧ q = trunkPort) := fun ⟨on, e⟩ => (trunk on).1 (e ▸ mem)
      rw [if_pos mem, if_neg other]
      omega
    · rw [if_neg mem]
      split
      next copy =>
        obtain ⟨on, rfl⟩ := copy
        exact (trunk on).2
      · exact within
  · dsimp only
    rw [slots]
    exact congrArg FrameSlot.status (Vector.getElem_set_self _)
  · have := pointing_le_refCount i q s
    rw [pointing_queueRefs] at this
    dsimp only
    rw [queues, carried_pending]
    omega

end

end Sys2Proof.Machine
end

