-- ==== Sys2Proof/Proofs/PoolTrunk.lean ====
section
/-! PROOFS. The frame pool: DATA frames taken and routed, and the trunk queue, keep it (R112 to R114, R123, R125, R154) -/

-- One theorem after another: many at once need a thread each.
set_option Elab.async false

namespace Sys2Proof.Machine


section
variable {view : SegPort → Option SlotId} {closing : Option SlotId} {loose : List Ref} {cap cap' : PortId → Nat} {s t : State}

/-! ### DATA frames taken, and routed (R112, R123, R154, R155) -/

/-- The oldest DATA frame taken leaves the taken ones. -/
def takeOff (rest : List SlotId) (s : State) : State := modTrunk (fun t => { t with taken := rest }) s

/-- Another slot than the oldest taken one, once that one is no longer among the taken. -/
theorem SlotAt.routed {i j : SlotId} {rest : List SlotId} (h : SlotAt [] s j) (taken : s.trunk.taken = i :: rest) (e : j ≠ i)
    (slot : t.pool.slots[j] = s.pool.slots[j]) (free : t.pool.free = s.pool.free) (taken' : t.trunk.taken = rest)
    (count : refCount j t + pointing j loose = refCount j s) : SlotAt loose t j := by
  refine h.of_same slot (by rw [free]) ?_ (fun head => ?_) count
  · rw [taken, taken', List.mem_cons]
    exact (or_iff_right e).symm
  · rw [taken, List.head?_cons, Option.some_inj] at head
    exact absurd head.symm e

theorem takeRejection_pool (tag : Option (BitVec 16)) (reason : Reason) (s : State) : (takeRejection tag reason s).pool = s.pool := by
  unfold takeRejection
  split
  · exact createReport_pool _ _
  · rfl

theorem rejectTrunk_stocked {i : SlotId} {rest : List SlotId} (h : Stocked view none [] cap s) (taken : s.trunk.taken = i :: rest)
    (tag : Option (BitVec 16)) (reason : Reason) :
    Stocked view none [] cap (rejectTrunk i tag reason (takeOff rest s)) := by
  have distinct := h.slots.takenNodup
  rw [taken] at distinct
  obtain ⟨fresh, nodup⟩ := List.nodup_cons.1 distinct
  have filled : s.pool.slots[i].status = .filled := (h.slots.slot i).taken.2 (by rw [taken]; exact List.mem_cons_self)
  have released : Stocked view none [] cap (releaseSlot i (takeOff rest s)) := by
    refine .release h.slots.freeNodup nodup (fun j e => (h.slots.slot j).routed taken e rfl rfl rfl rfl)
      ((h.slots.slot i).not_free (by rw [filled]; nofun)) fresh ((h.slots.slot i).unqueued (by rw [filled]; nofun))
      ⟨h.admitted.queued, h.admitted.apart, h.admitted.pending, nofun⟩
      (fun p v => ?_) h.loaded h.window (by rw [show (takeOff rest s).pool = s.pool from rfl, filled]; nofun)
    have := h.admitted.queued p i v
    rw [filled] at this
    cases this
  exact released.touched (takeRejection_touched tag reason _) (takeRejection_pool tag reason _)

/-- The oldest taken slot is QUEUED, for references that are still nowhere. -/
theorem Stocked.queueTaken {i : SlotId} {rest : List SlotId} {sl : FrameSlot} (h : Stocked view none [] cap s)
    (taken : s.trunk.taken = i :: rest) (status : sl.status = .queued) (decision : sl.decision = none) (positive : 1 ≤ sl.refs)
    (count : sl.refs = pointing i loose) (own : ∀ r ∈ loose, r.slot = i) :
    Stored view none loose cap (modSlot i (fun _ => sl) (takeOff rest s)) := by
  have distinct := h.slots.takenNodup
  rw [taken] at distinct
  obtain ⟨fresh, nodup⟩ := List.nodup_cons.1 distinct
  have filled : s.pool.slots[i].status = .filled := (h.slots.slot i).taken.2 (by rw [taken]; exact List.mem_cons_self)
  have alone : refCount i s = 0 := (h.slots.slot i).unqueued (by rw [filled]; nofun)
  have elsewhere {j : SlotId} (e : j ≠ i) : pointing j loose = 0 := pointing_eq_zero.2 fun r mem e' => e (e'.symm.trans (own r mem))
  have slot (j : SlotId) : (modSlot i (fun _ => sl) (takeOff rest s)).pool.slots[j] =
      if j = i then sl else s.pool.slots[j] := getElem_modAt_fin _ _ _ _
  have refs (j : SlotId) : refCount j (modSlot i (fun _ => sl) (takeOff rest s)) = refCount j s :=
    refCount_congr rfl
  have others {p : SegPort} {j : SlotId} (v : view p = some j) : j ≠ i := fun e => by
    have := h.admitted.queued p j v
    rw [e, filled] at this
    cases this
  refine ⟨⟨h.slots.freeNodup, nodup, fun j => ?_⟩, ⟨fun p j v => ?_, fun p j v => ?_, h.admitted.pending, nofun⟩, h.loaded, ?_⟩
  · by_cases e : j = i
    · subst e
      constructor <;> rw [slot, if_pos rfl]
      · rw [status]
        exact ⟨nofun, fun mem => absurd mem ((h.slots.slot j).not_free (by rw [filled]; nofun))⟩
      · rw [status]
        exact ⟨nofun, fun mem => absurd mem fresh⟩
      · rw [status]
        nofun
      · rw [decision]
        nofun
      · rw [refs, alone, Nat.zero_add]
        exact fun _ => ⟨positive, count⟩
      · exact fun other => absurd status other
    · exact (h.slots.slot j).routed taken e ((slot j).trans (if_neg e)) rfl rfl (by rw [refs, elsewhere e]; rfl)
  · rw [slot, if_neg (others v)]
    exact h.admitted.queued p j v
  · rw [elsewhere (others v)]
    exact ⟨(h.admitted.apart p j v).1, rfl⟩
  · have same : unfilledCount (modSlot i (fun _ => sl) (takeOff rest s)) = unfilledCount s := by
      have count := slotsIn_length_modSlot .unfilled i (fun _ => sl) (takeOff rest s)
      rw [show (takeOff rest s).pool = s.pool from rfl, if_neg (by rw [filled]; nofun), if_neg (by rw [status]; nofun)] at count
      exact count
    unfold Windowed
    rw [same]
    exact h.window

theorem joinTails_stored {r : Ref} {qs : List PortId} (h : Stored view closing (qs.map fun _ => r) cap s) :
    ∃ cap', Stored view closing [] cap' (qs.foldl (fun t q => joinTail q r t) s) := by
  induction qs generalizing s cap with
  | nil => exact ⟨cap, h⟩
  | cons q qs ih =>
    exact ih (joinTail_stored (cap' := fun x => cap x + (queueLoad s.pool.queues[q] + 1)) h (Nat.le_add_left _ _) fun _ _ => Nat.le_add_right _ _)

theorem joinTails_load (r : Ref) (qs : List PortId) (x : PortId) (s : State) :
    queueLoad (qs.foldl (fun t q => joinTail q r t) s).pool.queues[x] = queueLoad s.pool.queues[x] + qs.count x := by
  induction qs generalizing s with
  | nil => rfl
  | cons q qs ih =>
    rw [List.foldl_cons, ih, joinTail_load, List.count_cons, Nat.add_assoc, Nat.add_comm (qs.count x)]
    congr 2
    by_cases e : x = q
    · rw [if_pos e, if_pos (beq_iff_eq.2 e.symm)]
    · rw [if_neg e, if_neg fun same => e (beq_iff_eq.1 same).symm]

theorem admitTrunk_stocked {i : SlotId} {rest : List SlotId} (h : Stocked view none [] (capOf s) s) (taken : s.trunk.taken = i :: rest)
    (inb : Inbound) (d : Decision) :
    Stocked view none [] (capOf s) (admitTrunk i inb d (takeOff rest s)) := by
  generalize eq : (settleTargets s.pool.slots[i].frame.dest d (takeOff rest s)).admitted = targets
  by_cases refused : targets = []
  · have rejected (reason : Reason) := rejectTrunk_stocked h taken inb.tag reason
    unfold admitTrunk
    rw [show (takeOff rest s).pool = s.pool from rfl]
    dsimp only
    rw [eq, refused]
    exact rejected _
  · have nodup := settleTargets_admitted_nodup s.pool.slots[i].frame.dest d (takeOff rest s)
    have target {q : PortId} := load_lt_of_admitted (dest := s.pool.slots[i].frame.dest) (d := d) (q := q)
      (s := takeOff rest s)
    rw [eq] at nodup target
    rw [admitTrunk_admitted (targets := targets) eq.symm refused]
    have positive : 1 ≤ targets.length := List.length_pos_of_ne_nil refused
    have own : ∀ r ∈ targets.map fun _ => newRef i .frame, r.slot = i := fun r mem => by
      obtain ⟨-, -, rfl⟩ := List.mem_map.1 mem
      rfl
    have count : targets.length = pointing i (targets.map fun _ => newRef i .frame) := by
      have all : pointing i (targets.map fun _ => newRef i .frame) = (targets.map fun _ => newRef i .frame).length :=
        List.countP_eq_length.2 fun r mem => by rw [own r mem, beq_self_eq_true]
      rw [all, List.length_map]
    obtain ⟨cap', joined⟩ := joinTails_stored (h.queueTaken (sl := trunkStored inb d targets.length (takeOff rest s)
      s.pool.slots[i]) taken rfl rfl positive count own)
    refine joined.refill.weaken (fun q => ?_) fun _ => rfl
    rw [refill_queues]
    refine Nat.le_trans (Nat.le_of_eq (joinTails_load _ _ _ _)) ?_
    have within := h.loaded q
    have once := List.nodup_iff_count_le_one.1 nodup q
    by_cases mem : q ∈ targets
    · have := target mem
      have : queueLoad s.pool.queues[q] < capOf s q := this
      change queueLoad s.pool.queues[q] + _ ≤ _
      omega
    · rw [List.count_eq_zero_of_not_mem mem]
      exact within

/-- A DATA frame inside the window is taken into an unfilled slot. -/
theorem takeData_stocked {seq : BitVec 8} {d : DataFrame} (h : Stocked view closing loose cap s) (up : s.trunk.link = .up)
    (inside : insideWindow seq s.trunk = true) : Stocked view closing loose cap (takeData seq d s) := by
  have inside : (seq - s.trunk.nextExpected).toNat < (s.trunk.advertised - s.trunk.nextExpected).toNat := of_decide_eq_true inside
  have window := h.window.1 (.inl up)
  obtain ⟨i, status, taken⟩ := takeData_eq (n := seq) (d := d) up (by omega)
  rw [taken]
  generalize eq : ({ s with
    freeCount := s.freeCount + 1
    pool := { s.pool with slots := s.pool.slots.set i { s.pool.slots[i] with
      status := .filled, frame := d.frame, inbound := some d.inbound } }
    trunk := { s.trunk with
      taken := s.trunk.taken ++ [i], nextExpected := seq + 1
      creditPending := if seq = s.trunk.nextExpected then s.trunk.creditPending else true } } : State) = t
  suffices stocked : Stocked view closing loose cap t from stocked.of_grounds ⟨rfl, rfl, rfl, rfl, rfl⟩ rfl
  have slot (j : SlotId) : t.pool.slots[j] =
      if j = i then { s.pool.slots[i] with status := .filled, frame := d.frame, inbound := some d.inbound } else s.pool.slots[j] := by
    rw [← eq]
    exact getElem_modAt_fin s.pool.slots i j fun _ => _
  have untaken : i ∉ s.trunk.taken := (h.slots.slot i).not_taken (by rw [status]; nofun)
  have undecided : s.pool.slots[i].decision.isSome ≠ true := fun some =>
    untaken (List.mem_of_mem_head? ((h.slots.slot i).decision some))
  have free : t.pool.free = s.pool.free := by rw [← eq]
  have queues : t.pool.queues = s.pool.queues := by rw [← eq]
  have takens : t.trunk.taken = s.trunk.taken ++ [i] := by rw [← eq]
  have count (j : SlotId) : refCount j t = refCount j s := refCount_congr queues
  have others {p : SegPort} {j : SlotId} (v : view p = some j) : j ≠ i := fun e => by
    have := h.admitted.queued p j v
    rw [e, status] at this
    cases this
  have slots : t.pool.slots = (modSlot i (fun x => { x with status := .filled, frame := d.frame, inbound := some d.inbound }) s).pool.slots := by
    rw [← eq]
    rfl
  have unfilled : unfilledCount t + 1 = unfilledCount s := by
    have count := slotsIn_length_modSlot .unfilled i (fun x => { x with status := .filled, frame := d.frame, inbound := some d.inbound }) s
    rw [if_pos status] at count
    rw [unfilledCount_congr slots]
    exact count
  have reserved : reservedCount t = reservedCount s := by
    have count := reservedCount_modSlot i (fun x => { x with status := .filled, frame := d.frame, inbound := some d.inbound }) s
    have before : s.pool.slots[i].reserves = 1 := by rw [FrameSlot.reserves, status]; rfl
    rw [before] at count
    rw [reservedCount_congr slots]
    exact Nat.add_right_cancel count
  refine ⟨⟨⟨by rw [free]; exact h.slots.freeNodup, ?_, fun j => ?_⟩, ⟨fun p j v => ?_, by rw [queues]; exact h.admitted.apart,
    by rw [queues]; exact h.admitted.pending, h.admitted.closed⟩, by rw [queues]; exact h.loaded, ?_⟩, ?_⟩
  · rw [takens]
    exact List.nodup_append.2 ⟨h.slots.takenNodup, List.nodup_singleton i, fun a mem b mem' e => by
      rw [List.mem_singleton.1 mem'] at e
      exact untaken (e ▸ mem)⟩
  · by_cases e : j = i
    · subst e
      have alone := (h.slots.slot j).unqueued (by rw [status]; nofun)
      constructor <;> rw [slot, if_pos rfl]
      · rw [free]
        exact ⟨nofun, fun mem => absurd mem ((h.slots.slot j).not_free (by rw [status]; nofun))⟩
      · rw [takens]
        exact ⟨fun _ => List.mem_append_right _ (List.mem_singleton_self j), fun _ => rfl⟩
      · exact fun _ => rfl
      · exact fun some => absurd some undecided
      · nofun
      · rw [count]
        exact fun _ => alone
    · refine (h.slots.slot j).of_same ((slot j).trans (if_neg e)) (by rw [free]) ?_ (fun head => ?_) (by rw [count])
      · rw [takens, List.mem_append, List.mem_singleton]
        exact or_iff_left e
      · rw [takens, List.head?_append, head]
        rfl
  · rw [slot, if_neg (others v)]
    exact h.admitted.queued p j v
  · have next : t.trunk.nextExpected = seq + 1 := by rw [← eq]
    have adv : t.trunk.advertised = s.trunk.advertised := by rw [← eq]
    have tx : t.trunk.tx = s.trunk.tx := by rw [← eq]
    have later (limit : BitVec 8) (ahead : (seq - s.trunk.nextExpected).toNat < (limit - s.trunk.nextExpected).toNat) :
        (limit - (seq + 1)).toNat + (seq - s.trunk.nextExpected).toNat + 1 = (limit - s.trunk.nextExpected).toNat := by bv_omega
    have own := later _ inside
    refine ⟨fun _ => ?_, fun f mem kind => ?_⟩
    · rw [adv, next]
      omega
    · rw [tx] at mem
      obtain ⟨limit, head, length, low, high⟩ := h.window.2 f mem kind
      have carried := later limit (by omega)
      refine ⟨limit, head, length, ?_, ?_⟩
      · rw [adv, next]
        omega
      · rw [next]
        omega
  · have size : t.pool.reserveSize = s.pool.reserveSize := by rw [← eq]
    rw [reserved, size, free]
    exact h.short

/-! ### The trunk queue's own frames (R125) -/

/-- The invariants see the trunk link by the frames taken and the window. -/
theorem Stocked.relink (h : Stocked view closing loose cap s) (pool : t.pool = s.pool) (taken : t.trunk.taken = s.trunk.taken)
    (window : Windowed t) : Stocked view closing loose cap t where
  slots := by
    refine ⟨by rw [pool]; exact h.slots.freeNodup, by rw [taken]; exact h.slots.takenNodup, fun i => ?_⟩
    exact (h.slots.slot i).of_same (by rw [pool]) (by rw [pool]) (by rw [taken]) (by rw [taken]; exact id)
      (by rw [refCount_congr (s := s) (t := t) (by rw [pool])])
  admitted := by
    obtain ⟨a, b, c, d⟩ := h.admitted
    exact ⟨by rw [pool]; exact a, by rw [pool]; exact b, by rw [pool]; exact c, d⟩
  loaded := by rw [pool]; exact h.loaded
  window := window
  short := by rw [reservedCount_congr (s := s) (t := t) (by rw [pool]), pool]; exact h.short

/-- A window holds a fortiori where less is sent and the link has gone no further. -/
theorem Windowed.relax (h : Windowed s) (slots : t.pool.slots = s.pool.slots) (advertised : t.trunk.advertised = s.trunk.advertised)
    (nextExpected : t.trunk.nextExpected = s.trunk.nextExpected)
    (link : t.trunk.link = .up ∨ t.trunk.link = .suspect → s.trunk.link = .up ∨ s.trunk.link = .suspect)
    (tx : ∀ f ∈ t.trunk.tx, f.kind = .credit → f ∈ s.trunk.tx) : Windowed t := by
  unfold Windowed
  rw [advertised, nextExpected, unfilledCount_congr slots]
  exact ⟨fun up => h.1 (link up), fun f mem kind => h.2 f (tx f mem kind) kind⟩

theorem cutReference_stocked (h : Stocked view closing loose cap s) : Stocked view closing loose cap (cutReference s) := by
  unfold cutReference
  split
  · exact h
  next r held =>
    obtain ⟨taken, load⟩ := h.takeHolder held
    have room : queueLoad (setHolder trunkPort none s).pool.queues[trunkPort] + 1 ≤ cap trunkPort := by rw [load]; exact h.loaded _
    have back := returnToHead_stocked taken room fun _ _ => Nat.le_refl _
    dsimp only
    split
    · split
      · exact dropRef_stocked taken _ _
      · exact back
    · exact back

theorem dataSent_stocked (h : Stocked view closing loose cap s) : Stocked view closing loose cap (dataSent s) := by
  unfold dataSent
  split
  · exact h
  next held => exact dropRef_stocked (h.takeHolder held).1 _ _

theorem purgeHeads_stocked (n : Nat) (h : Stocked view closing loose cap s) : Stocked view closing loose cap (purgeHeads n s) := by
  induction n generalizing s with
  | zero => exact h
  | succ n ih =>
    unfold purgeHeads
    split
    · exact h
    next head =>
      split
      · exact ih (discardRef_stocked (popLane_stocked h ((firstHead_eq_some _ _ _ _).1 head).1).1 _ _)
      · exact h

/-- The head of a lane moves into the empty holder of its queue, its count and mark free to change. -/
theorem Stocked.takeHead {q : PortId} {lane : Priority} {r r' : Ref} (h : Stocked view closing loose cap s)
    (head : s.pool.queues[q].lanes[lane].head? = some r) (empty : s.pool.queues[q].holder = none) (same : r'.slot = r.slot) :
    Stocked view closing loose cap (setHolder q (some r') (popLane q lane s)) := by
  obtain ⟨popped, load⟩ := popLane_stocked h head
  refine ⟨popped.toStored.putHolder ?_ same ?_ fun _ _ => Nat.le_refl _, popped.short⟩
  · unfold popLane
    rw [modQueue_same]
    exact empty
  · rw [load]
    exact h.loaded q

/-! ### A trim of the reserve (R114) -/

theorem pickUnfilled_status {i : SlotId} (picked : pickUnfilled s = some i) : s.pool.slots[i].status = .unfilled :=
  mem_slotsIn.1 (List.mem_of_getElem? picked)

theorem unreserve_stored {i : SlotId} (h : Stored view closing loose cap s) (status : s.pool.slots[i].status = .unfilled)
    (rest : Windowed (unreserve i s)) : Stored view closing loose cap (unreserve i s) := by
  have fresh : i ∉ s.pool.free := (h.slots.slot i).not_free (by rw [status]; nofun)
  refine ⟨⟨?_, h.slots.takenNodup, fun j => ?_⟩, h.admitted.blanked rfl (fun p j v => ?_) fun p j v => (h.admitted.apart p j v).2, h.loaded, rest⟩
  · exact List.nodup_append.2 ⟨h.slots.freeNodup, List.nodup_singleton i, fun a mem b mem' e => by
      rw [List.mem_singleton.1 mem'] at e
      exact fresh (e ▸ mem)⟩
  · by_cases e : j = i
    · subst e
      exact .of_free ((unreserve_slots _ _ _).trans (if_pos rfl)) (List.mem_append_right _ (List.mem_singleton_self j))
        ((h.slots.slot j).not_taken (by rw [status]; nofun)) ((h.slots.slot j).unqueued (by rw [status]; nofun))
    · refine (h.slots.slot j).of_same ((unreserve_slots _ _ _).trans (if_neg e)) ?_ Iff.rfl id rfl
      exact List.mem_append.trans (or_iff_left fun mem => e (List.mem_singleton.1 mem))
  · refine (unreserve_slots _ _ _).trans (if_neg fun e => ?_)
    have := h.admitted.queued p j v
    rw [e, status] at this
    cases this

/-- No window is open: the link is in SEEK or TRAIN and sends nothing. -/
def WindowShut (s : State) : Prop := (s.trunk.link = .seek ∨ s.trunk.link = .train) ∧ s.trunk.tx = none

theorem WindowShut.windowed (h : WindowShut s) : Windowed s := by
  obtain ⟨link, tx⟩ := h
  unfold Windowed
  rw [tx]
  exact ⟨fun up => by obtain e | e := link <;> rw [e] at up <;> exact absurd up (by decide), nofun⟩

theorem trimBy_stored (n : Nat) (h : Stored view closing loose cap s) (shut : WindowShut s) : Stored view closing loose cap (trimBy n s) := by
  induction n generalizing s with
  | zero => exact h
  | succ n ih =>
    unfold trimBy
    split
    · exact h
    next picked =>
      have status := pickUnfilled_status picked
      exact ih (unreserve_stored h status (WindowShut.windowed shut)) shut

theorem trim_stocked (h : Stocked view closing loose cap s) (shut : WindowShut s) : Stocked view closing loose cap (trim s) := by
  refine ⟨trimBy_stored _ h.toStored shut, ?_⟩
  obtain ⟨gone, trimmed⟩ := trimBy_trimmed (min (reservedCount s - s.pool.reserveSize) (unfilledCount s)) s (Nat.min_le_right _ _)
  have size : (trim s).pool.reserveSize = s.pool.reserveSize := by
    unfold trim
    rw [trimBy_frame]
  have count : reservedCount (trim s) + min (reservedCount s - s.pool.reserveSize) (unfilledCount s) = reservedCount s := trimmed.reservedCount
  have free : (trim s).pool.free = s.pool.free ++ gone := trimmed.free
  have length := trimmed.length
  intro less
  rw [size] at less
  have none : gone.length = 0 := by omega
  rw [free, List.eq_nil_of_length_eq_zero none, List.append_nil]
  exact h.short (by omega)

end

end Sys2Proof.Machine
end

