-- ==== Sys2Proof/Proofs/PoolInvariant.lean ====
section
/-! PROOFS. The frame pool's invariant: selection, the end of an attempt, and a frame that is left keep it -/

-- One theorem after another: many at once need a thread each.
set_option Elab.async false

namespace Sys2Proof.Machine


/-! ### The invariant of the pool, port by port -/

/-- What `AdmissionsOk` asks of one port: an admission not yet confirmed is a listener's in SLOTS with a good check, and no bound
decision mirrors a frame that goes to T (R46, R83). -/
structure PortAdmits (pt : Port) : Prop where
  listening : pt.assembly.admission.isSome = true →
    pt.rx = .slots ∧ isTalker pt = false ∧ pt.pulse = none ∧ pt.assembly.checkGood = some true
  mirror : ∀ d ∈ pt.assembly.decision, d.mirror = true → d.egress.getLsbD 4 = false

/-- The frame slots of the admissions not yet confirmed. -/
def admissions (s : State) (p : SegPort) : Option SlotId := admittedSlot s.ports[p]

/-- The frame pool stands as `PoolOk` says. -/
structure PoolInv (s : State) : Prop where
  ports : ∀ p : SegPort, PortAdmits s.ports[p]
  single : ∀ p : SegPort, Single (admissions s) p
  holders : HoldersOk s
  stock : Stocked (admissions s) none [] (capOf s) s

/-! ### What the invariant sees of the ports and the holders -/

/-- A port that the invariant of the pool does not see change. -/
structure SamePort (a b : Port) : Prop where
  rx : b.rx = a.rx
  pulse : b.pulse = a.pulse
  assembly : b.assembly = a.assembly
  attempt : attemptOf b = attemptOf a
  enabled : b.enabled = a.enabled
  queueLimit : b.queueLimit = a.queueLimit

/-- Ports that the invariant of the pool does not see change. -/
def SamePorts (s t : State) : Prop := ∀ p : SegPort, SamePort s.ports[p] t.ports[p]

/-- The same holders of the queues are in use. -/
def SameHolders (s t : State) : Prop := ∀ q : PortId, t.pool.queues[q].holder.isSome = s.pool.queues[q].holder.isSome

section
variable {s t u : State}

theorem SamePort.refl (a : Port) : SamePort a a := ⟨rfl, rfl, rfl, rfl, rfl, rfl⟩

theorem SamePort.trans {a b c : Port} (x : SamePort a b) (y : SamePort b c) : SamePort a c :=
  ⟨y.rx.trans x.rx, y.pulse.trans x.pulse, y.assembly.trans x.assembly, y.attempt.trans x.attempt, y.enabled.trans x.enabled,
    y.queueLimit.trans x.queueLimit⟩

theorem SamePort.admits {a b : Port} (x : SamePort a b) (h : PortAdmits a) : PortAdmits b where
  listening some := by
    rw [x.assembly] at some ⊢
    rw [x.rx, x.pulse, isTalker, x.attempt]
    exact h.listening some
  mirror := by
    rw [x.assembly]
    exact h.mirror

theorem SamePort.slot {a b : Port} (x : SamePort a b) : admittedSlot b = admittedSlot a := by
  unfold admittedSlot
  rw [x.assembly]

theorem SamePorts.refl (s : State) : SamePorts s s := fun _ => .refl _

theorem SamePorts.trans (a : SamePorts s t) (b : SamePorts t u) : SamePorts s u := fun p => (a p).trans (b p)

theorem SamePorts.of_ports (h : t.ports = s.ports) : SamePorts s t := fun p => by rw [h]; exact .refl _

theorem SamePorts.of_kept (kept : Kept s t) (attempts : ∀ p : SegPort, attemptOf t.ports[p] = attemptOf s.ports[p]) : SamePorts s t :=
  fun p => ⟨by rw [kept.port], by rw [kept.port], by rw [kept.port], attempts p, by rw [kept.port], by rw [kept.port]⟩

theorem Touched.samePorts (h : Touched s t) : SamePorts s t := .of_kept h.kept h.attemptOf

theorem modPort_samePorts {p : SegPort} {f : Port → Port} {s : State} (same : SamePort s.ports[p] (f s.ports[p])) : SamePorts s (modPort p f s) := by
  intro x
  rw [modPort_ports, getElem_modAt_fin]
  split
  next e => subst e; exact same
  · exact .refl _

theorem SamePorts.admissions (h : SamePorts s t) : admissions t = admissions s := funext fun p => (h p).slot

theorem capOf_congr (enabled : ∀ p : SegPort, t.ports[p].enabled = s.ports[p].enabled)
    (queueLimit : ∀ p : SegPort, t.ports[p].queueLimit = s.ports[p].queueLimit) : capOf t = capOf s := by
  funext q
  obtain ⟨p, rfl⟩ | rfl := port_cases q
  · rw [capOf_port, capOf_port, enabled, queueLimit]
  · rfl

theorem SamePorts.capOf (h : SamePorts s t) : capOf t = capOf s := capOf_congr (fun p => (h p).enabled) fun p => (h p).queueLimit

theorem SameHolders.refl (s : State) : SameHolders s s := fun _ => rfl

theorem SameHolders.trans (a : SameHolders s t) (b : SameHolders t u) : SameHolders s u := fun q => (b q).trans (a q)

theorem SameHolders.of_queues (h : t.pool.queues = s.pool.queues) : SameHolders s t := fun q => by rw [h]

theorem LanesMove.sameHolders (h : LanesMove s t) : SameHolders s t := fun q => by rw [h.holder]

theorem Thins.sameHolders (h : Thins s t) : SameHolders s t := fun q => by
  have rel := (h q).holder
  revert rel
  generalize t.pool.queues[q].holder = b
  generalize s.pool.queues[q].holder = a
  rintro (_ | _) <;> rfl

/-- A frame's attempt is being made. -/
def frameAttempt (pt : Port) : Bool := (attemptOf pt).any (!·.notice)

theorem holdersOk_of_same (h : HoldersOk s) (attempts : ∀ p : SegPort, frameAttempt t.ports[p] = frameAttempt s.ports[p])
    (tx : t.trunk.tx = s.trunk.tx) (holders : SameHolders s t) : HoldersOk t :=
  ⟨fun p => (holders p.port).trans ((h.1 p).trans (attempts p).symm), by rw [holders, tx]; exact h.2⟩

/-- The invariant stands while the pool does, and nothing else that it sees changes. -/
theorem PoolInv.keep (h : PoolInv s) (ports : SamePorts s t) (tx : t.trunk.tx = s.trunk.tx) (holders : SameHolders s t)
    (stock : Stocked (admissions s) none [] (capOf s) t) : PoolInv t where
  ports p := (ports p).admits (h.ports p)
  single := by rw [ports.admissions]; exact h.single
  holders := holdersOk_of_same h.holders (fun p => by unfold frameAttempt; rw [(ports p).attempt]) tx holders
  stock := by rw [ports.admissions, ports.capOf]; exact stock

/-- The invariant sees nothing of a change that leaves ports, pool, and what it sees of the link. -/
theorem PoolInv.of_eq (h : PoolInv s) (ports : t.ports = s.ports) (pool : t.pool = s.pool) (g : Grounds s t) : PoolInv t :=
  h.keep (.of_ports ports) g.tx (.of_queues (by rw [pool])) (h.stock.of_grounds g pool)

theorem PoolInv.touched (h : PoolInv s) (touched : Touched s t) (pool : t.pool = s.pool) : PoolInv t :=
  h.keep touched.samePorts (by rw [touched.kept.trunk]) (.of_queues (by rw [pool])) (h.stock.touched touched pool)

theorem PoolInv.modPort (h : PoolInv s) {p : SegPort} {f : Port → Port} (admits : PortAdmits s.ports[p] → PortAdmits (f s.ports[p]))
    (slot : admittedSlot (f s.ports[p]) = admittedSlot s.ports[p]) (attempt : frameAttempt (f s.ports[p]) = frameAttempt s.ports[p])
    (enabled : (f s.ports[p]).enabled = s.ports[p].enabled) (queueLimit : (f s.ports[p]).queueLimit = s.ports[p].queueLimit) :
    PoolInv (modPort p f s) := by
  have port (x : SegPort) : (Machine.modPort p f s).ports[x] = if x = p then f s.ports[p] else s.ports[x] := by
    rw [modPort_ports, getElem_modAt_fin]
    split
    next e => subst e; rfl
    · rfl
  have same {α : Type} {g : Port → α} (own : g (f s.ports[p]) = g s.ports[p]) (x : SegPort) :
      g (Machine.modPort p f s).ports[x] = g s.ports[x] := by
    rw [port]
    split
    next e => subst e; exact own
    · rfl
  have slots : admissions (Machine.modPort p f s) = admissions s := funext fun x => same (g := admittedSlot) slot x
  refine ⟨fun x => ?_, by rw [slots]; exact h.single, holdersOk_of_same h.holders (same (g := frameAttempt) attempt) rfl (.of_queues rfl), ?_⟩
  · rw [port]
    split
    · exact admits (h.ports p)
    · exact h.ports x
  · rw [slots, capOf_congr (same (g := Port.enabled) enabled) (same (g := Port.queueLimit) queueLimit)]
    exact h.stock.of_grounds ⟨rfl, rfl, rfl, rfl, rfl⟩ rfl

/-- A change that leaves a port's receiver, attempt and assembly buffer. -/
theorem PoolInv.modPort_same (h : PoolInv s) {p : SegPort} {f : Port → Port} (same : SamePort s.ports[p] (f s.ports[p])) :
    PoolInv (Machine.modPort p f s) :=
  h.modPort same.admits same.slot (by unfold frameAttempt; rw [same.attempt]) same.enabled same.queueLimit

/-- A port without an admission admits whatever its receiver does. -/
theorem PortAdmits.of_none {a b : Port} (h : PortAdmits a) (none : a.assembly.admission = none)
    (admission : b.assembly.admission = a.assembly.admission) (decision : b.assembly.decision = a.assembly.decision) : PortAdmits b where
  listening some := by
    rw [admission, none] at some
    cases some
  mirror := by
    rw [decision]
    exact h.mirror

theorem PortAdmits.of_empty {pt : Port} (empty : pt.assembly = {}) : PortAdmits pt where
  listening some := by
    rw [empty] at some
    cases some
  mirror := by
    rw [empty]
    nofun

theorem PortAdmits.none_of_rx {pt : Port} (h : PortAdmits pt) (rx : pt.rx ≠ .slots) : pt.assembly.admission = none :=
  Option.not_isSome_iff_eq_none.1 fun some => rx (h.listening some).1

theorem PortAdmits.none_of_talker {pt : Port} (h : PortAdmits pt) (talks : isTalker pt = true) : pt.assembly.admission = none :=
  Option.not_isSome_iff_eq_none.1 fun some => by
    have := (h.listening some).2.1
    rw [talks] at this
    cases this

theorem PortAdmits.none_of_pulse {pt : Port} {t : Ticks} (h : PortAdmits pt) (pulse : pt.pulse = some t) : pt.assembly.admission = none :=
  Option.not_isSome_iff_eq_none.1 fun some => by
    have := (h.listening some).2.2.1
    rw [pulse] at this
    cases this

theorem PortAdmits.none_of_check {pt : Port} (h : PortAdmits pt) (check : pt.assembly.checkGood = none) : pt.assembly.admission = none :=
  Option.not_isSome_iff_eq_none.1 fun some => by
    have := (h.listening some).2.2.2
    rw [check] at this
    cases this

theorem admittedSlot_of_none {pt : Port} (none : pt.assembly.admission = none) : admittedSlot pt = .none := by
  unfold admittedSlot
  rw [none]
  rfl

/-- A port without an admission goes on without one, whatever its receiver does. -/
theorem PoolInv.modIdle (h : PoolInv s) {p : SegPort} {f : Port → Port} (none : s.ports[p].assembly.admission = none)
    (admission : (f s.ports[p]).assembly.admission = s.ports[p].assembly.admission)
    (decision : (f s.ports[p]).assembly.decision = s.ports[p].assembly.decision) (attempt : frameAttempt (f s.ports[p]) = frameAttempt s.ports[p])
    (enabled : (f s.ports[p]).enabled = s.ports[p].enabled) (queueLimit : (f s.ports[p]).queueLimit = s.ports[p].queueLimit) :
    PoolInv (Machine.modPort p f s) :=
  h.modPort (fun admits => admits.of_none none admission decision) (by unfold admittedSlot; rw [admission]) attempt enabled queueLimit

/-- A port without an admission clears its assembly buffer. -/
theorem PoolInv.modEmpty (h : PoolInv s) {p : SegPort} {f : Port → Port} (none : s.ports[p].assembly.admission = none)
    (empty : (f s.ports[p]).assembly = {}) (attempt : frameAttempt (f s.ports[p]) = frameAttempt s.ports[p])
    (enabled : (f s.ports[p]).enabled = s.ports[p].enabled) (queueLimit : (f s.ports[p]).queueLimit = s.ports[p].queueLimit) :
    PoolInv (Machine.modPort p f s) :=
  h.modPort (fun _ => .of_empty empty) (by rw [admittedSlot_of_none none]; exact admittedSlot_of_none (by rw [empty])) attempt enabled queueLimit

theorem single_without {view : SegPort → Option SlotId} (single : ∀ p, Single view p) (p x : SegPort) : Single (without view p) x :=
  fun q i a b => single x q i (without_eq_some.1 a).2 (without_eq_some.1 b).2

/-- A port's admission is another one, and nothing else changes that the invariant sees. -/
theorem PoolInv.setAdmission (h : PoolInv s) {p : SegPort} {f : Port → Port} {slot : Option SlotId} (ports : SamePorts s t)
    (tx : t.trunk.tx = s.trunk.tx) (holders : SameHolders s t) (single : ∀ x, Single (Function.update (admissions s) p slot) x)
    (stock : Stocked (Function.update (admissions s) p slot) none [] (capOf s) t) (admits : PortAdmits t.ports[p] → PortAdmits (f t.ports[p]))
    (admitted : admittedSlot (f t.ports[p]) = slot) (attempt : frameAttempt (f t.ports[p]) = frameAttempt t.ports[p])
    (enabled : (f t.ports[p]).enabled = t.ports[p].enabled) (queueLimit : (f t.ports[p]).queueLimit = t.ports[p].queueLimit) :
    PoolInv (Machine.modPort p f t) := by
  have port (x : SegPort) : (Machine.modPort p f t).ports[x] = if x = p then f t.ports[p] else t.ports[x] := by
    rw [modPort_ports, getElem_modAt_fin]
    split
    next e => subst e; rfl
    · rfl
  have same {α : Type} {g : Port → α} (own : g (f t.ports[p]) = g t.ports[p]) (x : SegPort) :
      g (Machine.modPort p f t).ports[x] = g t.ports[x] := by
    rw [port]
    split
    next e => subst e; exact own
    · rfl
  have slots : admissions (Machine.modPort p f t) = Function.update (admissions s) p slot := by
    funext x
    unfold admissions
    rw [port]
    by_cases e : x = p
    · rw [if_pos e, e, Function.update_self]
      exact admitted
    · rw [if_neg e, Function.update_of_ne e]
      exact (ports x).slot
  refine ⟨fun x => ?_, by rw [slots]; exact single, holdersOk_of_same h.holders (fun x => ?_) tx holders, ?_⟩
  · rw [port]
    split
    · exact admits ((ports p).admits (h.ports p))
    · exact (ports x).admits (h.ports x)
  · rw [same (g := frameAttempt) attempt]
    unfold frameAttempt
    rw [(ports x).attempt]
  · rw [slots, capOf_congr (same (g := Port.enabled) enabled) (same (g := Port.queueLimit) queueLimit), ports.capOf]
    exact stock.of_grounds ⟨rfl, rfl, rfl, rfl, rfl⟩ rfl

/-- A port's admission has ended, and its assembly buffer is cleared. -/
theorem PoolInv.dropAdmission (h : PoolInv s) {p : SegPort} {f : Port → Port} (ports : SamePorts s t) (tx : t.trunk.tx = s.trunk.tx)
    (holders : SameHolders s t) (stock : Stocked (without (admissions s) p) none [] (capOf s) t) (empty : (f t.ports[p]).assembly = {})
    (attempt : frameAttempt (f t.ports[p]) = frameAttempt t.ports[p]) (enabled : (f t.ports[p]).enabled = t.ports[p].enabled)
    (queueLimit : (f t.ports[p]).queueLimit = t.ports[p].queueLimit) : PoolInv (Machine.modPort p f t) :=
  h.setAdmission ports tx holders (single_without h.single p) stock (fun _ => .of_empty empty) (admittedSlot_of_none (by rw [empty]))
    attempt enabled queueLimit

/-! ### Selection (R54) -/

theorem settleTx_attempt {p : SegPort} {tx : TxState} (own : attemptOf { s.ports[p] with tx := tx } = attemptOf s.ports[p]) (x : SegPort) :
    attemptOf (settleTx p tx s).ports[x] = attemptOf s.ports[x] := by
  unfold settleTx
  rw [modPort_ports, getElem_modAt_fin]
  split
  next e => subst e; exact own
  · rfl

theorem attemptOf_of_tx {pt : Port} (free : pt.tx = .idle ∨ ∃ c, pt.tx = .armed c) : attemptOf pt = none := by
  unfold attemptOf
  obtain e | ⟨c, e⟩ := free <;> rw [e]

theorem selectOnce_attempt (p x : SegPort) (s : State) : attemptOf (selectOnce p s).ports[x] = attemptOf s.ports[x] := by
  unfold selectOnce
  dsimp only
  split
  next may =>
    have idle := attemptOf_of_tx (maySelect_iff.1 may).2
    have settled (tx : TxState) (free : tx = .idle ∨ ∃ c, tx = .armed c) : attemptOf (settleTx p tx s).ports[x] = attemptOf s.ports[x] :=
      settleTx_attempt (idle.symm ▸ attemptOf_of_tx (pt := { s.ports[p] with tx := tx }) free) x
    split
    · exact settled _ (.inl rfl)
    · exact settled _ (.inr ⟨_, rfl⟩)
    · split
      · exact ((popLane_touched _ _ _).trans (discardRef_touched _ _ _ _)).attemptOf x
      · split
        · exact ((popLane_touched _ _ _).trans (failRef_touched _ _ _ _ _)).attemptOf x
        · exact settled _ (.inr ⟨_, rfl⟩)
  · refine settleTx_attempt ?_ x
    split
    next gone => exact (attemptOf_of_tx (.inr (candidateGone_armed gone))).symm ▸ rfl
    · rfl

theorem settle_attempt (x : SegPort) (s : State) : attemptOf (settle s).ports[x] = attemptOf s.ports[x] := by
  unfold settle
  generalize 2048 = n
  induction n generalizing s with
  | zero => rfl
  | succ n ih =>
    rw [runSelections_succ]
    split
    · exact (ih _).trans (selectOnce_attempt _ _ _)
    · rfl

theorem PoolInv.settle (h : PoolInv s) : PoolInv (settle s) :=
  h.keep (.of_kept (settle_kept s) fun p => settle_attempt p s) (by rw [(settle_kept s).trunk]) (settle_thins s).sameHolders
    (settle_stocked h.stock)

/-! ### The end of an attempt, and of a frame that is left (R43, R48, R58 to R62) -/

theorem disarm_inv (h : PoolInv s) (p : SegPort) : PoolInv (disarm p s) := by
  unfold disarm
  split
  next armed => exact h.modPort_same ⟨rfl, rfl, rfl, (attemptOf_of_tx (.inr ⟨_, armed⟩)).symm ▸ rfl, rfl, rfl⟩
  · exact h
  · exact h
  · exact h
  · exact h

section
variable {view : SegPort → Option SlotId} {closing : Option SlotId} {loose : List Ref} {cap : PortId → Nat} {r r' : Ref}

/-- A reference that is nowhere changes its count or its mark. -/
theorem Stocked.relabel (h : Stocked view closing (r :: loose) cap s) (same : r'.slot = r.slot) : Stocked view closing (r' :: loose) cap s :=
  h.weaken h.loaded fun i => by rw [pointing_cons, pointing_cons, same]

theorem refEnded_stocked (h : Stocked view closing loose cap s) (p : SegPort) (o : TalkerOutcome) :
    Stocked view closing loose cap (refEnded p o s) := by
  unfold refEnded
  split
  · exact h
  next r held =>
    obtain ⟨taken, load⟩ := h.takeHolder held
    have room : queueLoad (setHolder p.port none s).pool.queues[p.port] + 1 ≤ cap p.port := by rw [load]; exact h.loaded _
    have counted : Stocked view closing ({ r with count := r.count + 1 } :: loose) cap (setHolder p.port none s) := taken.relabel rfl
    dsimp only
    split
    · exact deliverRef_stocked taken p
    · exact returnToHead_stocked taken room fun _ _ => Nat.le_refl _
    · exact failRef_stocked taken p _ _
    · split
      · exact returnToHead_stocked counted room fun _ _ => Nat.le_refl _
      · exact failRef_stocked counted p _ _
    · exact failRef_stocked counted p _ _

end

theorem returnToHead_moves (q : PortId) (r : Ref) (s : State) : LanesMove s (returnToHead q r s) := by
  constructor <;> intro x <;> unfold returnToHead <;> by_cases e : x = q
  · subst e
    rw [modQueue_same]
  · rw [modQueue_other _ _ e]
  · subst e
    rw [modQueue_same]
  · rw [modQueue_other _ _ e]

theorem deliverRef_queues (p : SegPort) (r : Ref) (s : State) : (deliverRef p r s).pool.queues = s.pool.queues := by
  refine (dropRef_queues _ _ _ _).trans ?_
  unfold nodeDelivered
  split <;> rfl

theorem trunkPort_ne (p : SegPort) : trunkPort ≠ p.port := by
  revert p
  decide

/-- The end of a reference's attempt empties its holder, and no other. -/
theorem refEnded_holders (p : SegPort) (o : TalkerOutcome) (s : State) : SameHolders (setHolder p.port none s) (refEnded p o s) := by
  unfold refEnded
  split
  next empty => rw [setHolder_same empty]; exact .refl s
  next r held =>
    dsimp only
    split
    · exact .of_queues (deliverRef_queues _ _ _)
    · exact (returnToHead_moves _ _ _).sameHolders
    · exact (failRef_thins _ _ _ _ _).sameHolders
    · split
      · exact (returnToHead_moves _ _ _).sameHolders
      · exact (failRef_thins _ _ _ _ _).sameHolders
    · exact (failRef_thins _ _ _ _ _).sameHolders

theorem noticeEnded_pool (p : SegPort) (o : TalkerOutcome) (s : State) : (noticeEnded p o s).pool = s.pool := by
  unfold noticeEnded
  split
  · rfl
  · split
    · rfl
    · rfl
    all_goals split <;> rfl

theorem setHolder_none_isSome (p x : SegPort) (s : State) : (setHolder p.port none s).pool.queues[x.port].holder.isSome =
    if x = p then false else s.pool.queues[x.port].holder.isSome := by
  unfold setHolder
  by_cases e : x = p
  · subst e
    rw [modQueue_same, if_pos rfl]
    rfl
  · rw [modQueue_other _ _ fun same => e (SegPort.port_injective same), if_neg e]

theorem endAttempt_inv (h : PoolInv s) (p : SegPort) (o : TalkerOutcome) : PoolInv (endAttempt p o s) := by
  cases talks : attemptOf s.ports[p] with
  | none => rw [endAttempt_none p o s (by rw [isTalker, talks]; rfl)]; exact h
  | some a =>
    obtain ⟨notice, frame⟩ := a
    generalize counted : (if o = .lost then countPort p .arbLost 1 s else s) = u
    have touched : Touched s u := by
      rw [← counted]
      split
      · exact countPort_touched _ _ _ _
      · exact .refl s
    have pool : u.pool = s.pool := by
      rw [← counted]
      split <;> rfl
    have hu := h.touched touched pool
    have own : attemptOf u.ports[p] = some ⟨notice, frame⟩ := (touched.attemptOf p).trans talks
    have silent : u.ports[p].assembly.admission = none := (hu.ports p).none_of_talker (by rw [isTalker, own]; rfl)
    have idle (x : SegPort) : frameAttempt (setTx p .idle u).ports[x] = if x = p then false else frameAttempt u.ports[x] := by
      unfold setTx
      rw [modPort_ports, getElem_modAt_fin]
      split
      · rfl
      · rfl
    cases notice with
    | true =>
      rw [endAttempt_notice talks, counted]
      refine PoolInv.touched ?_ (noticeEnded_touched p o _) (noticeEnded_pool p o _)
      exact hu.modIdle silent rfl rfl (by unfold frameAttempt; rw [own]; rfl) rfl rfl
    | false =>
      rw [endAttempt_frame talks, counted]
      have ended := refEnded_touched p o (setTx p .idle u)
      have slot (x : SegPort) : PortAdmits (setTx p .idle u).ports[x] ∧ admittedSlot (setTx p .idle u).ports[x] = admittedSlot u.ports[x] ∧
          (setTx p .idle u).ports[x].enabled = u.ports[x].enabled ∧ (setTx p .idle u).ports[x].queueLimit = u.ports[x].queueLimit := by
        unfold setTx
        rw [modPort_ports, getElem_modAt_fin]
        split
        next e =>
          subst e
          exact ⟨(hu.ports x).of_none silent rfl rfl, rfl, rfl, rfl⟩
        · exact ⟨hu.ports x, rfl, rfl, rfl⟩
      have slots : admissions (refEnded p o (setTx p .idle u)) = admissions u :=
        ended.samePorts.admissions.trans (funext fun x => (slot x).2.1)
      refine ⟨fun x => (ended.samePorts x).admits (slot x).1, by rw [slots]; exact hu.single, ⟨fun x => ?_, ?_⟩, ?_⟩
      · have same : frameAttempt (refEnded p o (setTx p .idle u)).ports[x] = frameAttempt (setTx p .idle u).ports[x] := by
          unfold frameAttempt
          rw [ended.attemptOf]
        refine ((refEnded_holders p o _) x.port).trans ?_
        rw [setHolder_none_isSome]
        refine Eq.trans ?_ (same.trans (idle x)).symm
        split
        · rfl
        · exact hu.holders.1 x
      · rw [refEnded_holders p o _ trunkPort, ended.kept.trunk]
        unfold setHolder
        rw [modQueue_other _ _ (trunkPort_ne p)]
        exact hu.holders.2
      · rw [slots, ended.samePorts.capOf, capOf_congr (fun x => (slot x).2.2.1) fun x => (slot x).2.2.2]
        have idled : Stocked (admissions u) none [] (capOf u) (setTx p .idle u) := hu.stock.of_grounds ⟨rfl, rfl, rfl, rfl, rfl⟩ rfl
        exact refEnded_stocked idled p o

theorem withdraw_holders (p : SegPort) (s : State) : SameHolders s (withdraw p s) := fun q => by
  obtain ⟨gone, queue⟩ := withdraw_queue p q s
  rw [queue]

theorem leaveFrame_inv (h : PoolInv s) (p : SegPort) : PoolInv (leaveFrame p s) := by
  have left := withdraw_touched p s
  exact h.dropAdmission left.samePorts (by rw [left.kept.trunk]) (withdraw_holders p s) (withdraw_stocked h.stock rfl (h.single p)) rfl rfl rfl rfl

theorem leaveFrame_assembly (p : SegPort) (s : State) : (leaveFrame p s).ports[p].assembly = {} := by
  unfold leaveFrame clearAssembly
  rw [modPort_port]

end

end Sys2Proof.Machine
end

