-- ==== Sys2Proof/Proofs/PoolReceivers.lean ====
section
/-! PROOFS. The frame pool's invariant: the commands of the receivers keep it -/

-- One theorem after another: many at once need a thread each.
set_option Elab.async false

namespace Sys2Proof.Machine


/-- Whatever a command goes on with meets the invariant of the pool. -/
def PoolNext (o : Host.Outcome State Fault Refusal) : Prop := ∀ t, o = .next t → PoolInv t

theorem PoolNext.next {t : State} (h : PoolInv t) : PoolNext (.next t) := fun _ e => by
  cases e
  exact h

section
variable {s t : State} {p : SegPort}

/-! ### A frame that is left, and an error (R18 to R23, R43) -/

theorem advance_inv (h : PoolInv s) (n : Ticks) : PoolInv (advance n s) := h.of_eq rfl rfl ⟨rfl, rfl, rfl, rfl, rfl⟩

theorem countPort_inv (h : PoolInv s) (p : SegPort) (c : PortCounter) (n : Nat) : PoolInv (countPort p c n s) :=
  h.modPort_same ⟨rfl, rfl, rfl, rfl, rfl, rfl⟩

theorem makeDue_inv (h : PoolInv s) (p : SegPort) : PoolInv (makeDue p s) := h.modPort_same ⟨rfl, rfl, rfl, rfl, rfl, rfl⟩

theorem leaveFrame_none (p : SegPort) (s : State) : (leaveFrame p s).ports[p].assembly.admission = none := by rw [leaveFrame_assembly]

theorem release_inv (h : PoolInv s) (none : s.ports[p].assembly.admission = none) : PoolInv (release p s) := h.modIdle none rfl rfl rfl rfl rfl

theorem toFlush_inv (h : PoolInv s) (none : s.ports[p].assembly.admission = none) : PoolInv (toFlush p s) := h.modIdle none rfl rfl rfl rfl rfl

theorem setRx_inv (h : PoolInv s) (none : s.ports[p].assembly.admission = none) (rx : RxState) : PoolInv (setRx p rx s) :=
  h.modIdle none rfl rfl rfl rfl rfl

theorem release_assembly (p : SegPort) (s : State) : (release p s).ports[p].assembly = s.ports[p].assembly := by
  unfold release
  rw [modPort_port]

theorem toFlush_assembly (p : SegPort) (s : State) : (toFlush p s).ports[p].assembly = s.ports[p].assembly := by
  unfold toFlush
  rw [modPort_port]

/-- The frame is left and the line released. -/
theorem leaves_inv (h : PoolInv s) (p : SegPort) :
    PoolInv (release p (leaveFrame p s)) ∧ (release p (leaveFrame p s)).ports[p].assembly.admission = none :=
  ⟨release_inv (leaveFrame_inv h p) (leaveFrame_none p s), by rw [release_assembly, leaveFrame_assembly]⟩

theorem driveAbort_inv (h : PoolInv s) (none : s.ports[p].assembly.admission = none) (fall t : Ticks) : PoolInv (driveAbort p fall t s) := by
  have counted := countPort_inv h p .abortsSent 1
  refine counted.modIdle ?_ rfl rfl rfl rfl rfl
  rw [countPort, modPort_port]
  exact none

theorem frameError_inv (h : PoolInv s) (c : PortCounter) (n : Ticks) : PoolInv (frameError p c n s) := by
  have ended := endAttempt_inv (disarm_inv (countPort_inv h p c 1) p) p .aborted
  have left := toFlush_inv (leaveFrame_inv ended p) (leaveFrame_none p _)
  have none : (toFlush p (leaveFrame p (endAttempt p .aborted (disarm p (countPort p c 1 s))))).ports[p].assembly.admission = none := by
    rw [toFlush_assembly, leaveFrame_assembly]
  unfold frameError
  dsimp only
  split
  · exact driveAbort_inv left none n n
  · exact release_inv left none

/-! ### Hearing (R42) -/

theorem HeardFrame.same_attempt {a b : Port} (h : HeardFrame a b) : frameAttempt b = frameAttempt a := by
  unfold frameAttempt attemptOf
  rw [h.tx]

theorem HeardFrame.admits {a b : Port} (x : HeardFrame a b) (h : PortAdmits a) : PortAdmits b where
  listening some := by
    rw [x.admission] at some
    rw [x.slots, x.isTalker, x.pulse, x.checkGood]
    exact h.listening some
  mirror := by
    rw [x.decision]
    exact h.mirror

theorem hearOn_inv (h : PoolInv s) {sy : Symbols} (heard : hearOn p sy s = some t) : PoolInv t ∧ HeardFrame s.ports[p] t.ports[p] ∧ s.ports[p].pulse = none := by
  rcases hearOn_cases p sy s with ⟨-, none⟩ | ⟨pt, ⟨inside, hears⟩, some⟩
  · rw [none] at heard
    cases heard
  · rw [some] at heard
    cases heard
    have frame := hearSymbols_frame hears
    refine ⟨?_, by rw [withHeard_port]; exact frame, (following_iff.1 inside).1⟩
    have modified : PoolInv (modPort p (fun _ => pt) s) := h.modPort frame.admits (by unfold admittedSlot; rw [frame.admission])
      frame.same_attempt (by rw [frame.port]) (by rw [frame.port])
    exact modified.of_eq rfl rfl ⟨rfl, rfl, rfl, rfl, rfl⟩

/-- A part of the assembly buffer changes that the invariant does not see. -/
theorem modAssembly_inv (h : PoolInv s) {f : Assembly → Assembly} (admission : (f s.ports[p].assembly).admission = s.ports[p].assembly.admission)
    (checkGood : (f s.ports[p].assembly).checkGood = s.ports[p].assembly.checkGood)
    (mirror : ∀ d ∈ (f s.ports[p].assembly).decision, d ∈ s.ports[p].assembly.decision ∨ (d.mirror = true → d.egress.getLsbD 4 = false)) :
    PoolInv (modAssembly p f s) := by
  refine h.modPort (fun admits => ⟨fun some => ?_, fun d mem => ?_⟩) ?_ rfl rfl rfl
  · dsimp only at some ⊢
    rw [admission] at some
    rw [checkGood]
    exact admits.listening some
  · exact (mirror d mem).elim (admits.mirror d) id
  · unfold admittedSlot
    rw [admission]

/-! ### Completions (R31, R44 to R46) -/

theorem execHeaderCompletion_inv (h : PoolInv s) (p : SegPort) (low : Option Ticks) (slots : List BitSlot) :
    PoolNext (execHeaderCompletion p low slots s) := by
  unfold execHeaderCompletion
  split
  next t _ heard =>
    obtain ⟨inv, -, -⟩ := hearOn_inv h heard
    dsimp only
    have read (header : Header) : PoolInv (modAssembly p (fun a => { a with header := some header }) t) :=
      modAssembly_inv inv rfl rfl fun _ => .inl
    split
    · split
      · exact .next (read _)
      · exact .next (frameError_inv (read _) _ _).settle
    · exact .next inv
  · exact .next h

theorem mirrorOf_clear {ingress : PortId} {e : RouteEntry} {egress : PortSet} (mirror : mirrorOf ingress e egress = true) :
    egress.getLsbD 4 = false := by
  unfold mirrorOf at mirror
  rw [Bool.and_eq_true, Bool.not_eq_true'] at mirror
  exact mirror.2

/-- No decision of a lookup mirrors a frame that goes to T (R83). -/
theorem segmentLookup_mirror (p : SegPort) (f : Frame) (s : State) (mirror : (segmentLookup p f s).1.mirror = true) :
    (segmentLookup p f s).1.egress.getLsbD 4 = false := by
  have miss (action : MissAction) : (resolveMiss p.port action f s).mirror = false := by
    unfold resolveMiss
    split
    · rfl
    · split <;> rfl
  unfold segmentLookup at mirror ⊢
  split at mirror
  · cases mirror
  next placed =>
    rw [if_neg placed]
    unfold matchFrame at mirror ⊢
    split at mirror
    · exact mirrorOf_clear mirror
    · rw [miss] at mirror
      cases mirror

theorem segmentLookup_inv (h : PoolInv s) (p : SegPort) (f : Frame) : PoolInv (segmentLookup p f s).2 := by
  unfold segmentLookup
  split
  · exact h
  · rw [matchFrame_frame]
    exact h.of_eq rfl rfl ⟨rfl, rfl, rfl, rfl, rfl⟩

theorem execControlCompletion_inv (h : PoolInv s) (p : SegPort) (sy : Symbols) : PoolNext (execControlCompletion p sy s) := by
  unfold execControlCompletion
  split
  next header t _ _ heard =>
    obtain ⟨inv, -, -⟩ := hearOn_inv h heard
    dsimp only
    have read (c : Control) : PoolInv (modAssembly p (fun a => { a with control := some c }) t) :=
      modAssembly_inv inv rfl rfl fun _ => .inl
    split
    · split
      · exact .next (frameError_inv (read _) _ _).settle
      · split
        · exact .next (read _)
        · refine .next (modAssembly_inv (segmentLookup_inv (read _) _ _) rfl rfl fun d mem => .inr ?_)
          cases mem
          exact segmentLookup_mirror _ _ _
    · exact .next inv
  · exact .next h

end

/-! ### The admission of a frame whose check is good (R46, R117 to R121) -/

section
variable {view : SegPort → Option SlotId} {s : State}

/-- What admission leaves: the slot that it gives is a new one, with nothing but pending references. -/
theorem admitSegment_stocked {p : SegPort} {f : Frame} {d : Decision} (h : Stocked view none [] (capOf s) s) (empty : view p = none)
    (clear : d.mirror = true → d.egress.getLsbD 4 = false) :
    ((admitSegment p f d s).1.slot = none ∧ Stocked view none [] (capOf s) (admitSegment p f d s).2) ∨
      ∃ i, (admitSegment p f d s).1.slot = some i ∧ (∀ x, view x ≠ some i) ∧
        Stocked (withAdmission view p i) none [] (capOf s) (admitSegment p f d s).2 := by
  unfold admitSegment
  dsimp only
  split
  · exact .inl ⟨rfl, h⟩
  next needed =>
    rw [Bool.and_eq_true, List.isEmpty_iff, Bool.not_eq_true', not_and_or, Bool.not_eq_false] at needed
    split
    next i rest free =>
      refine .inr ⟨i, rfl, fun x v => ?_, takeSlot_stocked h empty free rfl clear needed⟩
      have unused : s.pool.slots[i].status = .free := (h.slots.slot i).free.2 (by rw [free]; exact List.mem_cons_self)
      have := h.admitted.queued x i v
      rw [unused] at this
      cases this
    · have full : Stocked view none [] (capOf s) (countGateway .poolEmptyCount (raise .poolEmpty (.seg p) f.dest.val s)) :=
        h.touched ((raise_touched _ _ _ _).trans (countGateway_touched _ _)) (raise_pool _ _ _ _)
      split
      · exact .inl ⟨rfl, full⟩
      · exact .inl ⟨rfl, full⟩

theorem addPendings_holders (r : Ref) (qs : List PortId) (s : State) : SameHolders s (qs.foldl (addPending r) s) := by
  refine List.foldlRecOn _ _ (.refl s) fun t same q _ => same.trans fun x => ?_
  unfold addPending
  by_cases e : x = q
  · subst e
    rw [modQueue_same]
  · rw [modQueue_other _ _ e]

theorem admitSegment_holders (p : SegPort) (f : Frame) (d : Decision) (s : State) : SameHolders s (admitSegment p f d s).2 := by
  unfold admitSegment
  dsimp only
  split
  · exact .refl s
  · split
    · unfold takeSlot
      dsimp only
      have stored (i : SlotId) (sl : FrameSlot) : SameHolders s (modSlot i (fun _ => sl) (modPool (fun pl => { pl with free := pl.free.tail }) s)) :=
        .of_queues rfl
      split
      · exact ((stored _ _).trans (addPendings_holders _ _ _)).trans (addPendings_holders _ [trunkPort] _)
      · exact (stored _ _).trans (addPendings_holders _ _ _)
    · have full : SameHolders s (countGateway .poolEmptyCount (raise .poolEmpty (.seg p) f.dest.val s)) :=
        .of_queues (congrArg Pool.queues (raise_pool _ _ _ _))
      split
      · exact full
      · exact full

theorem single_withAdmission {p : SegPort} {i : SlotId} (single : ∀ x, Single view x) (fresh : ∀ x, view x ≠ some i) (x : SegPort) :
    Single (withAdmission view p i) x := by
  intro q j a b
  unfold withAdmission at a b
  by_cases ex : x = p
  · by_cases eq : q = p
    · rw [ex, eq]
    · rw [ex, Function.update_self] at a
      rw [Function.update_of_ne eq, ← a] at b
      exact absurd b (fresh q)
  · rw [Function.update_of_ne ex] at a
    by_cases eq : q = p
    · rw [eq, Function.update_self] at b
      rw [← b] at a
      exact absurd a (fresh x)
    · rw [Function.update_of_ne eq] at b
      exact single x q j a b

theorem goodCheck_inv {p : SegPort} {f : Frame} {d : Decision} (h : PoolInv s) (none : s.ports[p].assembly.admission = none)
    (rx : s.ports[p].rx = .slots) (listens : isTalker s.ports[p] = false) (pulse : s.ports[p].pulse = .none)
    (check : s.ports[p].assembly.checkGood = some true) (clear : d.mirror = true → d.egress.getLsbD 4 = false) : PoolInv (goodCheck p f d s) := by
  unfold goodCheck
  split
  · exact countPort_inv h _ _ _
  · have present := h.touched (nodePresent_touched p f.source s) (by unfold nodePresent; split <;> rfl)
    have same := (nodePresent_touched p f.source s).samePorts p
    generalize nodePresent p f.source s = u at present same
    have touched := admitSegment_touched p f d u
    have holders := admitSegment_holders p f d u
    have admitted := admitSegment_stocked (f := f) present.stock (admittedSlot_of_none (by rw [same.assembly]; exact none)) clear
    generalize admitSegment p f d u = result at touched holders admitted
    obtain ⟨adm, t⟩ := result
    dsimp only at touched holders admitted ⊢
    have ports := touched.samePorts
    have own := same.trans (ports p)
    have empty : admissions u p = .none := admittedSlot_of_none (by rw [same.assembly]; exact none)
    have stock : (∀ x, Single (Function.update (admissions u) p adm.slot) x) ∧
        Stocked (Function.update (admissions u) p adm.slot) .none [] (capOf u) t := by
      obtain ⟨slot, stock⟩ | ⟨i, slot, fresh, stock⟩ := admitted
      · have unchanged : Function.update (admissions u) p adm.slot = admissions u := by rw [slot]; exact without_of_none empty
        rw [unchanged]
        exact ⟨present.single, stock⟩
      · rw [slot]
        exact ⟨single_withAdmission present.single fresh, stock⟩
    have answered : PoolInv (modAssembly p (fun a => { a with admission := some adm, answer := answerOf f.dest d adm }) t) := by
      refine present.setAdmission ports (by rw [touched.kept.trunk]) holders stock.1 stock.2 (fun admits => ⟨fun _ => ⟨?_, ?_, ?_, ?_⟩, admits.mirror⟩)
        rfl rfl rfl rfl
      · exact own.rx.trans rx
      · exact (congrArg Option.isSome own.attempt).trans listens
      · exact own.pulse.trans pulse
      · exact (congrArg Assembly.checkGood own.assembly).trans check
    split
    · exact countPort_inv answered _ _ _
    · exact answered

theorem execCheckCompletion_inv (h : PoolInv s) (p : SegPort) (sy : Symbols) : PoolNext (execCheckCompletion p sy s) := by
  unfold execCheckCompletion
  split
  next header c t _ _ unchecked heard =>
    obtain ⟨inv, frame, silent⟩ := hearOn_inv h heard
    dsimp only
    split
    · have vacant : t.ports[p].assembly.admission = none := (inv.ports p).none_of_check (frame.checkGood.trans unchecked)
      generalize payloadOf c.length t.ports[p].assembly.bits = payload
      generalize checkOf c.length t.ports[p].assembly.bits = octet
      generalize (checkOctet (assembledFrame header c payload) == octet) = good
      have read : PoolInv (setRx p .slots (modAssembly p (fun a => { a with payload := payload, check := some octet, checkGood := some good }) t)) := by
        have assembled : PoolInv (modAssembly p (fun a => { a with payload := payload, check := some octet, checkGood := some good }) t) :=
          inv.modIdle vacant rfl rfl rfl rfl rfl
        refine setRx_inv assembled ?_ _
        unfold modAssembly
        rw [modPort_port]
        exact vacant
      have port : (setRx p .slots (modAssembly p (fun a => { a with payload := payload, check := some octet, checkGood := some good }) t)).ports[p] =
          { t.ports[p] with
            rx := .slots
            assembly := { t.ports[p].assembly with payload := payload, check := some octet, checkGood := some good } } := by
        unfold setRx modAssembly
        rw [modPort_port, modPort_port]
      split
      · exact .next read
      next listens =>
        split
        · exact .next (countPort_inv (modAssembly_inv read rfl rfl fun _ => .inl) _ _ _)
        next good' =>
          split
          next d decided =>
            refine .next (goodCheck_inv read ?_ ?_ ?_ ?_ ?_ ((inv.ports p).mirror d decided))
            · rw [port]; exact vacant
            · rw [port]
            · rw [port]; exact Bool.not_eq_true _ ▸ listens
            · rw [port]; exact frame.pulse.trans silent
            · rw [port]
              rw [Bool.not_eq_true, Bool.not_eq_false'] at good'
              rw [good']
          · exact .next read
    · exact .next inv
  · exact .next h

/-! ### The end of a frame (R47, R122) -/

theorem confirm_holders (p : SegPort) (s : State) : SameHolders s (confirm p s) := by
  unfold confirm
  split
  · exact .refl s
  next i _ =>
    have flagged : SameHolders s (modSlot i (fun sl => { sl with custody := s.ports[p].assembly.answer == .accept }) s) := .of_queues rfl
    refine List.foldlRecOn _ _ flagged fun t same q _ => same.trans fun x => ?_
    rw [confirmQueue_holder]

/-- The receiver ends its frame, and its admission is confirmed. -/
theorem endFrame_confirm_inv (h : PoolInv s) (p : SegPort) (early : Bool) (n : Ticks) : PoolInv (endFrame p early n (confirm p s)) := by
  have confirmed := confirm_touched p s
  have stock := confirm_stocked h.stock rfl (h.single p)
  refine makeDue_inv (h.dropAdmission (t := advance n (confirm p s)) ?_ ?_ ?_ ?_ rfl rfl rfl rfl) p
  · exact confirmed.samePorts
  · change (confirm p s).trunk.tx = s.trunk.tx
    rw [confirmed.kept.trunk]
  · exact confirm_holders p s
  · exact stock.of_grounds ⟨rfl, rfl, rfl, rfl, rfl⟩ rfl

theorem execEndOfFrame_inv (h : PoolInv s) (p : SegPort) (e : FrameEnding) : PoolNext (execEndOfFrame p e s) := by
  unfold execEndOfFrame
  dsimp only
  split
  · split
    · exact .next h
    next t heard =>
      obtain ⟨inv, -, -⟩ := hearOn_inv h heard
      split
      · exact .next inv
      · refine .next (endFrame_confirm_inv ?_ _ _ _).settle
        have good : PoolInv (if t.ports[p].assembly.checkGood = some true then countPort p .rxGood 1 t else t) := by
          split
          · exact countPort_inv inv _ _ _
          · exact inv
        split
        · split
          · exact countPort_inv good _ _ _
          · exact good
        · exact good
  · exact .next h

/-! ### Errors, aborts and held lines (R17 to R23, R66) -/

theorem faultAt_same {pt q : Port} {fault : SignalFault} {n : Ticks} (detected : faultAt pt fault = some (n, q)) : SamePort pt q := by
  have same (a b : Ticks) : SamePort pt { pt with edge := a, lastRise := b } := ⟨rfl, rfl, rfl, rfl, rfl, rfl⟩
  unfold faultAt at detected
  split at detected
  · split at detected
    · cases detected
      exact same _ _
    · cases detected
  · generalize (if pt.rx = .gap then 380 else 90) = window at detected
    split at detected
    · cases detected
      exact same _ _
    · cases detected
  · dsimp only at detected
    generalize (if pt.rx = .gap then 440 else 130) = window at detected
    split at detected
    · cases detected
      exact .refl pt
    · cases detected

theorem execSignalError_inv (h : PoolInv s) (p : SegPort) (e : SignalEvidence) : PoolNext (execSignalError p e s) := by
  unfold execSignalError
  dsimp only
  split
  · exact .next h
  next t heard =>
    obtain ⟨inv, -, -⟩ := hearOn_inv h heard
    split
    · exact .next h
    next at' seen detected =>
      exact .next (frameError_inv ((advance_inv inv at').modPort_same (f := fun _ => seen) (faultAt_same detected)) _ _).settle

theorem execFalseStart_inv (h : PoolInv s) (p : SegPort) (low : Ticks) : PoolNext (execFalseStart p low s) := by
  unfold execFalseStart
  dsimp only
  split
  · have seen : PoolInv (modPort p (fun q => { q with lastRise := q.edge + low }) (advance (s.ports[p].edge + low) s)) :=
      (advance_inv h _).modPort_same ⟨rfl, rfl, rfl, rfl, rfl, rfl⟩
    obtain ⟨left, vacant⟩ := leaves_inv (endAttempt_inv (disarm_inv (countPort_inv seen p .rxSignalErrors 1) p) p .aborted) p
    exact .next (toFlush_inv left vacant).settle
  · exact .next h

theorem execAbortPulse_inv (h : PoolInv s) (line : PortSymbols) : PoolNext (execAbortPulse line s) := by
  unfold execAbortPulse
  dsimp only
  split
  · exact .next h
  next t heard =>
    obtain ⟨inv, -, -⟩ := hearOn_inv h heard
    split
    · obtain ⟨left, vacant⟩ := leaves_inv (endAttempt_inv (disarm_inv (advance_inv inv _) line.port) line.port .aborted) line.port
      exact .next (toFlush_inv left vacant).settle
    · exact .next h

theorem execAbortPulseEnd_inv (h : PoolInv s) (pulse : PulseEnd) : PoolNext (execAbortPulseEnd pulse s) := by
  unfold execAbortPulseEnd
  dsimp only
  split
  · exact .next h
  next n driven =>
    have vacant := (h.ports pulse.port).none_of_pulse driven
    have cleared : PoolInv (clearAssembly pulse.port (advance n s)) := (advance_inv h n).modEmpty vacant rfl rfl rfl rfl
    have seen : PoolInv (modPort pulse.port (fun pt => { pt with lastRise := if pulse.stillLow then pt.lastRise else n })
      (clearAssembly pulse.port (advance n s))) := cleared.modPort_same ⟨rfl, rfl, rfl, rfl, rfl, rfl⟩
    have none : (modPort pulse.port (fun pt => { pt with lastRise := if pulse.stillLow then pt.lastRise else n })
      (clearAssembly pulse.port (advance n s))).ports[pulse.port].assembly.admission = none := by
      unfold clearAssembly
      rw [modPort_port, modPort_port]
    exact .next (toFlush_inv (release_inv seen none) (by rw [release_assembly]; exact none))

theorem execLineHeld_inv (h : PoolInv s) (e : PortEdge) : PoolNext (execLineHeld e s) := by
  unfold execLineHeld
  dsimp only
  split
  · exact .next h
  · generalize s.ports[e.port].edge + e.gap = edge
    have seen : PoolInv (modPort e.port (fun q => { q with edge := edge }) (advance (edge + 5 * bitPeriod s.ports[e.port].rate) s)) :=
      (advance_inv h _).modPort_same ⟨rfl, rfl, rfl, rfl, rfl, rfl⟩
    have raised := seen.touched (raise_touched .lineHeld (.seg e.port) (isTalker s.ports[e.port]).toNat _) (raise_pool _ _ _ _)
    obtain ⟨left, vacant⟩ := leaves_inv (endAttempt_inv (disarm_inv raised e.port) e.port .aborted) e.port
    exact .next (setRx_inv left vacant _).settle

theorem execLineReleased_inv (h : PoolInv s) (p : SegPort) (low : Ticks) : PoolNext (execLineReleased p low s) := by
  unfold execLineReleased
  dsimp only
  split
  next held =>
    refine .next (PoolInv.touched ?_ (raise_touched _ _ _ _) (raise_pool _ _ _ _))
    exact (advance_inv h _).modIdle ((h.ports p).none_of_rx (by rw [held]; nofun)) rfl rfl rfl rfl rfl
  · exact .next h

theorem execFlushComplete_inv (h : PoolInv s) (p : SegPort) (quiet : Quiet) : PoolNext (execFlushComplete p quiet s) := by
  unfold execFlushComplete
  dsimp only
  split
  next ready =>
    have vacant := (h.ports p).none_of_rx (by rw [ready.1]; nofun)
    exact .next (makeDue_inv ((advance_inv h _).modIdle vacant rfl rfl rfl rfl rfl) p).settle
  · exact .next h

/-! ### The accept slot (R11, R49) -/

/-- A bit slot begins in SLOTS, whatever becomes of the talker's state, its flag, and the responder's. -/
theorem slotBegun_inv (h : PoolInv s) {p : SegPort} {pt : Port} (rx : s.ports[p].rx = .slots) {gap : Ticks}
    (attempt : attemptOf pt = attemptOf s.ports[p]) {tx : TxState} {flag driven : Bool}
    (eq : pt = { beginSlot gap s.ports[p] with
      tx := tx, lastTalker := flag, assembly := { (beginSlot gap s.ports[p]).assembly with acceptDriven := driven } }) :
    PoolInv (modPort p (fun _ => pt) s) := by
  have begun : pt.rx = s.ports[p].rx := by
    rw [eq]
    exact if_neg (by rw [rx]; nofun)
  have admission : pt.assembly.admission = s.ports[p].assembly.admission := by rw [eq]; rfl
  refine h.modPort (fun admits => ⟨fun some => ?_, ?_⟩) (by unfold admittedSlot; rw [admission]) (by unfold frameAttempt; rw [attempt])
    (by rw [eq]; rfl) (by rw [eq]; rfl)
  · rw [admission] at some
    obtain ⟨slots, listens, pulse, check⟩ := admits.listening some
    refine ⟨begun.trans slots, ?_, ?_, ?_⟩
    · rw [isTalker, attempt]
      exact listens
    · rw [eq]
      exact pulse
    · rw [eq]
      exact check
  · rw [eq]
    exact admits.mirror

theorem execAcceptSlotEdge_inv (h : PoolInv s) (e : PortEdge) : PoolNext (execAcceptSlotEdge e s) := by
  unfold execAcceptSlotEdge
  dsimp only
  split
  next ready =>
    obtain ⟨-, rx, -⟩ := ready
    have listens {pt : Port} (tx : pt.tx = s.ports[e.port].tx) : attemptOf pt = attemptOf s.ports[e.port] := by
      unfold attemptOf
      rw [tx]
    refine .next (advance_inv ?_ _)
    split
    next a sending => exact slotBegun_inv h rx (by unfold attemptOf; rw [sending]) rfl
    next a slots => exact slotBegun_inv h rx (by unfold attemptOf; rw [slots]) rfl
    · exact slotBegun_inv h rx (listens rfl) rfl
    · exact slotBegun_inv h rx (listens rfl) rfl
    · exact slotBegun_inv h rx (listens rfl) rfl
  · exact .next h

end

end Sys2Proof.Machine
end

