-- ==== Sys2Proof/Proofs/PoolTransmitters.lean ====
section
/-! PROOFS. The frame pool's invariant: sweeps and the commands of the transmitters keep it -/

-- One theorem after another: many at once need a thread each.
set_option Elab.async false

namespace Sys2Proof.Machine


section
variable {s t : State} {p : SegPort}

/-! ### Sweeps (R89, R128) -/

/-- References removed, and marked where they stand. -/
theorem PoolInv.swept (h : PoolInv s) (touched : Touched s t) (thins : Thins s t) (stock : Stocked (admissions s) none [] (capOf s) t) : PoolInv t :=
  h.keep touched.samePorts (by rw [touched.kept.trunk]) thins.sameHolders stock

theorem holderMarked_stocked {view : SegPort → Option SlotId} {closing : Option SlotId} {loose : List Ref} {cap : PortId → Nat}
    (h : Stocked view closing loose cap s) (q : PortId) (hit : Ref → Bool) (m : Mark) :
    Stocked view closing loose cap (modQueue q (holderMarked q hit m) s) := by
  rw [← markHolder_segment]
  split
  · exact h
  · exact markHolder_stocked h q hit m

theorem holderMarked_thins (q : PortId) (hit : Ref → Bool) (m : Mark) (s : State) : Thins s (modQueue q (holderMarked q hit m) s) := by
  rw [← markHolder_segment]
  split
  · exact .refl s
  · exact markHolder_thins s q hit m

theorem expireQueue_inv (i : SlotId) (h : PoolInv s) (q : PortId) : PoolInv (expireQueue i s q) := by
  refine h.swept (expireQueue_touched i s q) ?_ ?_ <;> rw [expireQueue_eq]
  · exact (holderMarked_thins _ _ _ _).trans (sweepLanes_thins _ _ _ _)
  · exact sweepLanes_stocked (holderMarked_stocked h.stock _ _ _) _ _ _

theorem execDeadlineExpiry_inv (h : PoolInv s) (i : SlotId) : PoolNext (execDeadlineExpiry i s) := by
  unfold execDeadlineExpiry
  split
  next d _ _ =>
    have later : PoolInv { s with now := max s.now d } := h.of_eq rfl rfl ⟨rfl, rfl, rfl, rfl, rfl⟩
    exact .next (List.foldlRecOn (motive := PoolInv) _ _ later fun _ inv q _ => expireQueue_inv i inv q).settle
  · exact .next h

theorem sweepLane_thins (q : PortId) (lane : Priority) (hit : Ref → Bool) (reason : Reason) (s : State) : Thins s (sweepLane q lane hit reason s) := by
  intro other
  by_cases e : other = q
  · subst e
    rw [sweepLane_queue]
    refine ⟨forall₂_markedFrom_refl _, fun l => ?_, (Thinned.refl _).holder⟩
    rw [getElem_modAt_fin]
    split
    · exact List.filter_sublist
    · exact List.Sublist.refl _
  · rw [sweepLane_other _ _ _ _ e]
    exact .refl _

theorem purgeSweepLane_inv (h : PoolInv s) (q : PortId) (lane : Priority) : PoolInv (purgeSweepLane q lane s) := by
  refine h.swept (purgeSweepLane_touched q lane s) ?_ ?_ <;> rw [purgeSweepLane_eq]
  · exact (holderMarked_thins _ _ _ _).trans (sweepLane_thins _ _ _ _ _)
  · exact sweepLane_stocked (holderMarked_stocked h.stock _ _ _) _ _ _ _

theorem commitComplete_inv (h : PoolInv s) : PoolInv (commitComplete s) := by
  unfold commitComplete
  split
  · dsimp only
    split
    · split
      · exact h.of_eq rfl rfl ⟨rfl, rfl, rfl, rfl, rfl⟩
      · exact h.of_eq rfl rfl ⟨rfl, rfl, rfl, rfl, rfl⟩
    · exact h.of_eq rfl rfl ⟨rfl, rfl, rfl, rfl, rfl⟩
  · exact h
  · exact h
  · exact h

theorem execPurgeSweepStep_inv (h : PoolInv s) : PoolNext (execPurgeSweepStep s) := by
  unfold execPurgeSweepStep
  split
  next q lane rest resync _ =>
    have left : PoolInv (modRoute (fun r => { r with commit := .running rest resync }) (purgeSweepLane q lane s)) :=
      (purgeSweepLane_inv h q lane).of_eq rfl rfl ⟨rfl, rfl, rfl, rfl, rfl⟩
    exact .next (commitComplete_inv left).settle
  · exact .next h
  · exact .next h

theorem execResyncComplete_inv (h : PoolInv s) : PoolNext (execResyncComplete s) := by
  unfold execResyncComplete
  split
  · exact .next (commitComplete_inv (h.of_eq rfl rfl ⟨rfl, rfl, rfl, rfl, rfl⟩))
  · exact .next h
  · exact .next h

/-! ### An attempt begins (R55 to R57) -/

/-- An attempt begins on a port that has none, with its reference in hand where it has one. -/
theorem begun_inv (h : PoolInv s) {f : Port → Port} {a : Attempt} (none : s.ports[p].assembly.admission = none) (ports : t.ports = s.ports)
    (tx : t.trunk.tx = s.trunk.tx) (stock : Stocked (admissions s) .none [] (capOf s) t)
    (holders : ∀ x : SegPort, t.pool.queues[x.port].holder.isSome = if x = p then !a.notice else s.pool.queues[x.port].holder.isSome)
    (trunk : t.pool.queues[trunkPort].holder = s.pool.queues[trunkPort].holder) (attempt : attemptOf (f s.ports[p]) = some a)
    (empty : (f s.ports[p]).assembly = {}) (enabled : (f s.ports[p]).enabled = s.ports[p].enabled)
    (queueLimit : (f s.ports[p]).queueLimit = s.ports[p].queueLimit) : PoolInv (modPort p f t) := by
  have port (x : SegPort) : (modPort p f t).ports[x] = if x = p then f s.ports[p] else s.ports[x] := by
    rw [modPort_ports, getElem_modAt_fin, ports]
    split
    next e => subst e; rfl
    · rfl
  have same {α : Type} {g : Port → α} (own : g (f s.ports[p]) = g s.ports[p]) (x : SegPort) : g (modPort p f t).ports[x] = g s.ports[x] := by
    rw [port]
    split
    next e => subst e; exact own
    · rfl
  have vacant : admittedSlot (f s.ports[p]) = admittedSlot s.ports[p] := by
    rw [admittedSlot_of_none none]
    exact admittedSlot_of_none (by rw [empty])
  have slots : admissions (modPort p f t) = admissions s := funext fun x => same (g := admittedSlot) vacant x
  refine ⟨fun x => ?_, by rw [slots]; exact h.single, ⟨fun x => ?_, ?_⟩, ?_⟩
  · rw [port]
    split
    · exact .of_empty empty
    · exact h.ports x
  · refine (holders x).trans ?_
    rw [port]
    split
    · rw [attempt]
      rfl
    · exact h.holders.1 x
  · exact (congrArg Option.isSome trunk).trans (h.holders.2.trans (congrArg _ tx.symm))
  · rw [slots, capOf_congr (same (g := Port.enabled) enabled) (same (g := Port.queueLimit) queueLimit)]
    exact stock.of_grounds ⟨rfl, rfl, rfl, rfl, rfl⟩ rfl

theorem holder_of_no_attempt (h : PoolInv s) (free : attemptOf s.ports[p] = none) : s.pool.queues[p.port].holder = none := by
  have held := h.holders.1 p
  rw [free] at held
  exact Option.not_isSome_iff_eq_none.1 (by rw [held]; nofun)

theorem beginAttempt_inv (h : PoolInv s) {c : Candidate} {edge : Ticks} (armed : s.ports[p].tx = .armed c) (idle : s.ports[p].rx = .idle)
    (begun : beginAttempt p c edge s = some t) : PoolInv t := by
  have vacant : s.ports[p].assembly.admission = none := (h.ports p).none_of_rx (by rw [idle]; nofun)
  have empty := holder_of_no_attempt h (attemptOf_of_tx (.inr ⟨c, armed⟩))
  unfold beginAttempt at begun
  obtain ⟨⟨a, taken⟩, take, rfl⟩ := Option.map_eq_some_iff.1 begun
  suffices inHand : taken.ports = s.ports ∧ taken.trunk.tx = s.trunk.tx ∧ Stocked (admissions s) none [] (capOf s) taken ∧
      (∀ x : SegPort, taken.pool.queues[x.port].holder.isSome = if x = p then !a.notice else s.pool.queues[x.port].holder.isSome) ∧
      taken.pool.queues[trunkPort].holder = s.pool.queues[trunkPort].holder by
    obtain ⟨ports, tx, stock, holders, trunk⟩ := inHand
    exact advance_inv (countPort_inv (begun_inv h vacant ports tx stock holders trunk rfl rfl rfl rfl) _ _ _) _
  unfold takeCandidate at take
  split at take
  next lane _ =>
    obtain ⟨r, head, eq⟩ := Option.map_eq_some_iff.1 take
    cases eq
    have popped (q : PortId) : (popLane p.port lane s).pool.queues[q].holder = s.pool.queues[q].holder := by
      unfold popLane
      by_cases e : q = p.port
      · subst e
        rw [modQueue_same]
      · rw [modQueue_other _ _ e]
    refine ⟨rfl, rfl, h.stock.takeHead head empty rfl, fun x => ?_, ?_⟩ <;> unfold setHolder
    · split
      next e =>
        subst e
        rw [modQueue_same]
        rfl
      next e => rw [modQueue_other _ _ fun same => e (SegPort.port_injective same), popped]
    · rw [modQueue_other _ _ (trunkPort_ne p), popped]
  · obtain ⟨n, held, eq⟩ := Option.map_eq_some_iff.1 take
    cases eq
    refine ⟨rfl, rfl, h.stock.of_grounds ⟨rfl, rfl, rfl, rfl, rfl⟩ rfl, fun x => ?_, rfl⟩
    split
    next e =>
      subst e
      exact congrArg Option.isSome empty
    · rfl

theorem execAttemptBegin_inv (h : PoolInv s) (start : PortStart) : PoolNext (execAttemptBegin start s) := by
  unfold execAttemptBegin
  dsimp only
  split
  next armed idle =>
    split
    next begun =>
      obtain ⟨edge, -, begun⟩ := Option.bind_eq_some_iff.1 begun
      exact .next (beginAttempt_inv h armed idle begun)
    · exact .next h
  · exact .next h

theorem execIdleFallingEdge_inv (h : PoolInv s) (p : SegPort) (e : IdleEdge) : PoolNext (execIdleFallingEdge p e s) := by
  unfold execIdleFallingEdge
  dsimp only
  split
  next idle =>
    split
    next joins =>
      split at joins
      next armed =>
        obtain ⟨edge, -, begun⟩ := Option.bind_eq_some_iff.1 joins
        exact .next (beginAttempt_inv h armed idle begun)
      all_goals cases joins
    · split
      · have vacant : s.ports[p].assembly.admission = none := (h.ports p).none_of_rx (by rw [idle]; nofun)
        exact .next (disarm_inv ((advance_inv h _).modEmpty vacant rfl rfl rfl rfl) p)
      · exact .next h
  · exact .next h

/-! ### An attempt ends (R14, R15, R38, R59) -/

theorem PortAdmits.none_of_sending {pt : Port} {a : Attempt} (h : PortAdmits pt) (tx : pt.tx = .sending a ∨ pt.tx = .slots a) :
    pt.assembly.admission = none :=
  h.none_of_talker (by unfold isTalker attemptOf; obtain e | e := tx <;> rw [e] <;> rfl)

theorem endAttempt_assembly (p : SegPort) (o : TalkerOutcome) (s : State) :
    (endAttempt p o s).ports[p].assembly = s.ports[p].assembly := by
  rw [(endAttempt_kept p o s).port]

theorem execArbitrationLost_inv (h : PoolInv s) (p : SegPort) (sy : Symbols) : PoolNext (execArbitrationLost p sy s) := by
  unfold execArbitrationLost
  split
  next a t sending heard =>
    obtain ⟨inv, frame, -⟩ := hearOn_inv h heard
    have vacant := (inv.ports p).none_of_sending (.inl (frame.tx.trans sending))
    dsimp only
    split
    · exact .next (release_inv (endAttempt_inv (advance_inv inv _) p .lost) (by rw [endAttempt_assembly]; exact vacant)).settle
    · exact .next h
  · exact .next h

theorem execOverdrive_inv (h : PoolInv s) (p : SegPort) (sy : Symbols) : PoolNext (execOverdrive p sy s) := by
  unfold execOverdrive
  split
  next a t sending heard =>
    obtain ⟨inv, frame, -⟩ := hearOn_inv h heard
    have vacant := (inv.ports p).none_of_sending (.inl (frame.tx.trans sending))
    dsimp only
    split
    · exact .next (driveAbort_inv (endAttempt_inv (advance_inv inv _) p .aborted) (by rw [endAttempt_assembly]; exact vacant) _ _).settle
    · exact .next h
  · exact .next h

theorem execAttemptEnd_inv (h : PoolInv s) (p : SegPort) (low : Option Ticks) (slots : List BitSlot) (early : Option Ticks) :
    PoolNext (execAttemptEnd p low slots early s) := by
  unfold execAttemptEnd
  dsimp only
  split
  next a t tx _ heard =>
    obtain ⟨inv, frame, -⟩ := hearOn_inv h heard
    have vacant := (inv.ports p).none_of_sending (.inr (frame.tx.trans tx))
    split
    · exact .next inv
    · refine .next (makeDue_inv ((advance_inv (endAttempt_inv inv p _) _).modEmpty ?_ rfl rfl rfl rfl) p).settle
      exact (congrArg Assembly.admission (endAttempt_assembly p _ t)).trans vacant
  · exact .next h

end

end Sys2Proof.Machine
end

