-- ==== Sys2Proof/Proofs/PoolLink.lean ====
section
/-! PROOFS. The frame pool's invariant: the link monitor keeps it -/

-- One theorem after another: many at once need a thread each.
set_option Elab.async false

namespace Sys2Proof.Machine


section
variable {s t : State}

/-! ### What the trunk link sends (R116, R125) -/

/-- A frame in transmission that carries a reference. -/
def carriesRef (tx : Option TxFrame) : Bool := tx.any fun f => f.kind == .data || f.kind == .trap

/-- The trunk link sends another frame, or none, while its holder is in use where that frame carries a reference. -/
theorem PoolInv.sends (h : PoolInv s) (ports : SamePorts s t)
    (segments : ∀ p : SegPort, t.pool.queues[p.port].holder.isSome = s.pool.queues[p.port].holder.isSome)
    (trunk : t.pool.queues[trunkPort].holder.isSome = carriesRef t.trunk.tx) (stock : Stocked (admissions s) none [] (capOf s) t) : PoolInv t where
  ports p := (ports p).admits (h.ports p)
  single := by rw [ports.admissions]; exact h.single
  holders := ⟨fun p => (segments p).trans ((h.holders.1 p).trans (by rw [(ports p).attempt])), trunk⟩
  stock := by rw [ports.admissions, ports.capOf]; exact stock

/-- The link changes, but for what it has taken; what it sends carries a reference where it did. -/
theorem PoolInv.relink (h : PoolInv s) (ports : t.ports = s.ports) (pool : t.pool = s.pool) (taken : t.trunk.taken = s.trunk.taken)
    (carries : carriesRef t.trunk.tx = carriesRef s.trunk.tx) (window : Windowed t) : PoolInv t :=
  h.sends (.of_ports ports) (fun _ => by rw [pool]) (by rw [pool, carries]; exact h.holders.2) (h.stock.relink pool taken window)

/-- The frame in transmission is gone, and its reference out of the holder. -/
theorem PoolInv.silenced (h : PoolInv s) (ports : SamePorts s t) (tx : t.trunk.tx = none) (holders : SameHolders (setHolder trunkPort none s) t)
    (stock : Stocked (admissions s) none [] (capOf s) t) : PoolInv t := by
  refine h.sends ports (fun p => (holders p.port).trans ?_) ((holders trunkPort).trans ?_) stock <;> unfold setHolder
  · rw [modQueue_other _ _ (trunkPort_ne p).symm]
  · rw [modQueue_same, tx]
    rfl

theorem setHolder_sameHolders (pool : t.pool = s.pool) : SameHolders (setHolder trunkPort none s) (setHolder trunkPort none t) :=
  .of_queues (by unfold setHolder; rw [modQueue_pool, modQueue_pool, pool])

/-- Where the frame in transmission carries no reference, the holder is empty. -/
theorem setHolder_of_bare (h : PoolInv s) (bare : carriesRef s.trunk.tx = false) : setHolder trunkPort none s = s :=
  setHolder_same (Option.not_isSome_iff_eq_none.1 (by rw [h.holders.2]; exact Bool.eq_false_iff.1 bare))

theorem cutReference_holders (s : State) : SameHolders (setHolder trunkPort none s) (cutReference s) := by
  unfold cutReference
  split
  next empty => rw [setHolder_same empty]; exact .refl s
  · dsimp only
    split
    · split
      · exact .of_queues (dropRef_queues _ _ _ _)
      · exact (returnToHead_moves _ _ _).sameHolders
    · exact (returnToHead_moves _ _ _).sameHolders

theorem dataSent_holders (s : State) : SameHolders (setHolder trunkPort none s) (dataSent s) := by
  unfold dataSent
  split
  next empty => rw [setHolder_same empty]; exact .refl s
  · exact .of_queues (dropRef_queues _ _ _ _)

/-! ### The receiver and the monitor (R144 to R150) -/

theorem setTrunkRx_inv (h : PoolInv s) (rx : TrunkRx) : PoolInv (setTrunkRx rx s) := by
  obtain ⟨changed, wasR, -, eq⟩ := setTrunkRx_eq rx s
  rw [eq]
  exact h.of_eq rfl rfl ⟨rfl, rfl, rfl, rfl, rfl⟩

theorem countTrunk_inv (h : PoolInv s) (c : TrunkCounter) (n : Nat) : PoolInv (countTrunk c n s) := h.of_eq rfl rfl ⟨rfl, rfl, rfl, rfl, rfl⟩

theorem raise_inv (h : PoolInv s) (kind : EventKind) (port : Location) (detail : Nat) : PoolInv (raise kind port detail s) :=
  h.touched (raise_touched kind port detail s) (raise_pool kind port detail s)

theorem heardOther_inv (h : PoolInv s) (heard : Heard) : PoolNext (heardOther heard s) := by
  unfold heardOther
  split
  · exact .next (setTrunkRx_inv h _)
  · exact .next h
  · exact .next h

/-- The monitor changes state, and the link with it, but for what it has taken and sends. -/
theorem setLink_inv (h : PoolInv s) {l : LinkState} {f : Trunk → Trunk} (taken : (f s.trunk).taken = s.trunk.taken)
    (tx : (f s.trunk).tx = s.trunk.tx) (window : ∀ t : State, t.pool = s.pool → t.trunk.link = l → t.trunk.tx = s.trunk.tx →
      t.trunk.advertised = (f s.trunk).advertised → t.trunk.nextExpected = (f s.trunk).nextExpected → Windowed t) :
    PoolInv (setLink l (modTrunk f s)) := by
  obtain ⟨changed, wasR, -, eq⟩ := setLink_modTrunk l f s
  rw [eq]
  exact h.relink rfl rfl taken (congrArg carriesRef tx) (window _ rfl rfl tx rfl rfl)

/-- The monitor changes state, and opens no window. -/
theorem setLink_open (h : PoolInv s) {l : LinkState} {f : Trunk → Trunk} (taken : (f s.trunk).taken = s.trunk.taken)
    (tx : (f s.trunk).tx = s.trunk.tx) (advertised : (f s.trunk).advertised = s.trunk.advertised)
    (nextExpected : (f s.trunk).nextExpected = s.trunk.nextExpected)
    (link : l = .up ∨ l = .suspect → s.trunk.link = .up ∨ s.trunk.link = .suspect) : PoolInv (setLink l (modTrunk f s)) :=
  setLink_inv h taken tx fun t pool state sent a n => h.stock.window.relax (by rw [pool]) (a.trans advertised) (n.trans nextExpected)
    (by rw [state]; exact link) (by rw [sent]; exact fun _ mem _ => mem)

theorem execLockGained_inv (h : PoolInv s) (chars : List TrunkChar) : PoolNext (execLockGained chars s) := by
  unfold execLockGained
  split
  next rx _ =>
    have locked := setTrunkRx_inv h rx
    dsimp only
    split
    · exact .next (setLink_open (f := id) locked rfl rfl rfl rfl (by rintro (e | e) <;> cases e))
    · exact .next locked
  · exact heardOther_inv h _

theorem carriesRef_bare {tx : Option TxFrame} (other : ∀ k, tx.map TxFrame.kind = some k → k ≠ .data ∧ k ≠ .trap) : carriesRef tx = false := by
  cases tx with
  | none => rfl
  | some f =>
    obtain ⟨data, trap⟩ := other f.kind rfl
    exact Bool.or_eq_false_iff.2 ⟨beq_false_of_ne data, beq_false_of_ne trap⟩

/-- What is left of a frame once it is cut. -/
theorem afterCut_inv {f : Trunk → Trunk} (h : PoolInv s) (tx : (f s.trunk).tx = none)
    (stock : Stocked (admissions s) none [] (capOf s) (modTrunk f s)) : PoolInv (afterCut s.trunk.tx (modTrunk f s)) := by
  have same : SamePorts s (modTrunk f s) := .of_ports rfl
  have back := h.silenced (same.trans (cutReference_touched _).samePorts) (by rw [(cutReference_touched _).kept.trunk]; exact tx)
    ((setHolder_sameHolders rfl).trans (cutReference_holders (modTrunk f s))) (cutReference_stocked stock)
  have bare (t : State) (ports : t.ports = s.ports) (pool : t.pool = s.pool) (grounds : Grounds (modTrunk f s) t)
      (none : carriesRef s.trunk.tx = false) : PoolInv t :=
    h.silenced (.of_ports ports) (grounds.tx.trans tx) (by rw [setHolder_of_bare h none]; exact .of_queues (by rw [pool]))
      (stock.of_grounds grounds pool)
  unfold afterCut
  split
  · exact back
  · exact back
  all_goals
    next kind =>
      have none : carriesRef s.trunk.tx = false := carriesRef_bare fun k e => by
        have e := kind.symm.trans e
        revert e
        cases k <;> decide
      exact bare _ rfl rfl ⟨rfl, rfl, rfl, rfl, rfl⟩ none

/-- The link goes to SUSPECT, the frame in transmission is cut, and what it carried is dealt with. -/
theorem cut_inv {g : Trunk → Trunk} (h : PoolInv s) (taken : (g s.trunk).taken = s.trunk.taken)
    (advertised : (g s.trunk).advertised = s.trunk.advertised) (nextExpected : (g s.trunk).nextExpected = s.trunk.nextExpected)
    (link : s.trunk.link = .up ∨ s.trunk.link = .suspect) : PoolInv (afterCut s.trunk.tx (modTrunk (fun t => cutTrunk s.now (g t)) s)) := by
  have frame := cutTrunk_frame s.now (g s.trunk)
  have tx := congrArg Trunk.tx frame
  refine afterCut_inv h tx (h.stock.relink rfl ((congrArg Trunk.taken frame).trans taken) (h.stock.window.relax rfl
    ((congrArg Trunk.advertised frame).trans advertised) ((congrArg Trunk.nextExpected frame).trans nextExpected) (fun _ => link) fun f mem => ?_))
  exact absurd (tx.symm.trans (show _ = some f from mem)) nofun

theorem enterSuspect_inv (h : PoolInv s) (link : s.trunk.link = .up ∨ s.trunk.link = .suspect) : PoolInv (enterSuspect s) := by
  obtain ⟨changed, wasR, -, eq⟩ := enterSuspect_modTrunk id s
  have eq : enterSuspect s = _ := eq
  rw [eq]
  exact cut_inv h rfl rfl rfl link

theorem execLockLost_inv (h : PoolInv s) (chars : List TrunkChar) : PoolNext (execLockLost chars s) := by
  unfold execLockLost
  split
  next rx abandoned _ =>
    have lost := countTrunk_inv (setTrunkRx_inv h rx) .checkErrors abandoned.toNat
    dsimp only
    refine .next ?_
    split
    · exact setLink_open (f := id) lost rfl rfl rfl rfl (by rintro (e | e) <;> cases e)
    next up =>
      refine (enterSuspect_inv lost (.inl ?_)).settle
      obtain ⟨changed, wasR, -, eq⟩ := setTrunkRx_eq rx s
      rw [eq]
      exact up
    · exact lost
    · exact lost
  · exact heardOther_inv h _

theorem execFreshUp_inv (h : PoolInv s) (silent : s.trunk.link ≠ .up → s.trunk.tx = none) (chars : List TrunkChar) :
    PoolNext (execFreshUp chars s) := by
  unfold execFreshUp
  split
  next train =>
    refine .next (countTrunk_inv (setLink_inv h rfl rfl fun t pool _ tx a n => ?_) _ _)
    have a : t.trunk.advertised = 0 := a
    have n : t.trunk.nextExpected = 0 := n
    have shut : (t.trunk.advertised - t.trunk.nextExpected).toNat = 0 := by rw [a, n]; decide
    unfold Windowed
    rw [tx, silent (by rw [train]; nofun), shut]
    exact ⟨fun _ => Nat.zero_le _, nofun⟩
  · exact heardOther_inv h _

theorem rxChar_idleS8 {link : LinkState} {c : TrunkChar} {rx : TrunkRx} (h : (rxChar link c rx).2 = some .idleS8) : link = .up := by
  have idle (ready : Bool) (rx : TrunkRx) (h : (idleChar link ready rx).2 = some .idleS8) : link = .up := by
    unfold idleChar at h
    dsimp only at h
    split at h
    · cases h
    · split at h
      · split at h <;> cases h
      · split at h
        next up => exact up.2
        · cases h
  have framed (rx : TrunkRx) (h : (frameChar link c rx).2 = some .idleS8) : link = .up := by
    unfold frameChar at h
    split at h
    · exact idle _ _ h
    · exact idle _ _ h
    all_goals
      dsimp only at h
      repeat' split at h
      all_goals cases h
  unfold rxChar at h
  split at h
  · split at h
    · split at h
      · cases h
      · dsimp only at h
        split at h <;> cases h
    · exact framed _ h
  · split at h
    · cases h
    · split at h <;> cases h

/-- The 8th IDLE_S is an event of UP alone (R145). -/
theorem hear_idleS8_up {link : LinkState} {cs : List TrunkChar} {rx rx' : TrunkRx} (h : hear link rx cs = .event rx' .idleS8) : link = .up := by
  induction cs generalizing rx with
  | nil => cases h
  | cons c cs ih =>
    unfold hear at h
    split at h
    · exact ih h
    next e eq =>
      split at h
      · cases h
        exact rxChar_idleS8 (congrArg Prod.snd eq)
      · cases h

theorem execEnterSuspect_inv (h : PoolInv s) (chars : List TrunkChar) : PoolNext (execEnterSuspect chars s) := by
  unfold execEnterSuspect
  split
  next rx idles =>
    refine .next (enterSuspect_inv (setTrunkRx_inv h rx) (.inl ?_)).settle
    obtain ⟨changed, wasR, -, eq⟩ := setTrunkRx_eq rx s
    rw [eq]
    exact hear_idleS8_up idles
  · exact heardOther_inv h _

theorem execResume_inv (h : PoolInv s) (chars : List TrunkChar) : PoolNext (execResume chars s) := by
  unfold execResume
  split
  next suspect _ => exact .next (raise_inv (setLink_open h rfl rfl rfl rfl fun _ => .inr suspect) _ _ _)
  · exact heardOther_inv h _

/-! ### DOWN processing (R150) -/

theorem trim_inv (h : PoolInv s) (shut : WindowShut s) : PoolInv (trim s) := by
  have stock := trim_stocked h.stock shut
  have frame : trim s = { s with
      freeCount := (trim s).freeCount, pool := { s.pool with slots := (trim s).pool.slots, free := (trim s).pool.free } } := trimBy_frame _ s
  exact h.keep (.of_ports (by rw [frame])) (by rw [frame]) (.of_queues (by rw [frame])) stock

theorem downProcessing_inv (h : PoolInv s) (silent : s.trunk.tx = none) : PoolInv (downProcessing s) := by
  have marked := h.swept (markPending_touched trunkPort (fun _ => true) .linkDown s) (markPending_thins _ _ _ _) (markPending_stocked h.stock _ _ _)
  have flushed := marked.swept (sweepLanes_touched trunkPort (fun _ => true) .linkDown _) (sweepLanes_thins _ _ _ _)
    (sweepLanes_stocked marked.stock _ _ _)
  have tx : (sweepLanes trunkPort (fun _ => true) .linkDown (markPending trunkPort (fun _ => true) .linkDown s)).trunk.tx = none := by
    rw [((markPending_touched _ _ _ _).trans (sweepLanes_touched _ _ _ _)).kept.trunk]
    exact silent
  unfold downProcessing
  dsimp only
  generalize sweepLanes trunkPort (fun _ => true) .linkDown (markPending trunkPort (fun _ => true) .linkDown s) = u at flushed tx ⊢
  generalize requests : modAgent _ (countTrunk .reportsLost u.custody.reports.length (modCustody (fun c => { c with reports := [] }) u)) = v
  have hv : PoolInv v := by rw [← requests]; exact flushed.of_eq rfl rfl ⟨rfl, rfl, rfl, rfl, rfl⟩
  have tx : v.trunk.tx = none := by rw [← requests]; exact tx
  generalize which : (if (modTrunk (fun t => { t with
      hold := none, outLimit := 0, sent := 0, nextExpected := 0, advertised := 0
      creditPending := false, refresh := none, response := none }) v).trunk.rx.lock then LinkState.train else .seek) = l
  have down : l = .seek ∨ l = .train := by
    rw [← which]
    split
    · exact .inr rfl
    · exact .inl rfl
  obtain ⟨changed, wasR, -, eq⟩ := setLink_modTrunk l (fun t => { t with
      hold := none, outLimit := 0, sent := 0, nextExpected := 0, advertised := 0
      creditPending := false, refresh := none, response := none }) v
  have shut : WindowShut (setLink l (modTrunk (fun t => { t with
      hold := none, outLimit := 0, sent := 0, nextExpected := 0, advertised := 0
      creditPending := false, refresh := none, response := none }) v)) := by
    rw [eq]
    exact ⟨down, tx⟩
  exact trim_inv (setLink_inv hv rfl rfl fun t _ state sent _ _ => WindowShut.windowed ⟨by rw [state]; exact down, by rw [sent]; exact tx⟩) shut

theorem execHoldTimerExpiry_inv (h : PoolInv s) (silent : s.trunk.link ≠ .up → s.trunk.tx = none) : PoolNext (execHoldTimerExpiry s) := by
  unfold execHoldTimerExpiry
  split
  next hold suspect _ =>
    have later : PoolInv { s with now := max s.now hold.expiresAt } := h.of_eq rfl rfl ⟨rfl, rfl, rfl, rfl, rfl⟩
    exact .next (downProcessing_inv later (silent (by rw [suspect]; nofun))).settle
  · exact .next h

theorem execRefreshTimerExpiry_inv (h : PoolInv s) : PoolNext (execRefreshTimerExpiry s) := by
  unfold execRefreshTimerExpiry
  split
  · exact .next (h.of_eq rfl rfl ⟨rfl, rfl, rfl, rfl, rfl⟩)
  · exact .next h

end

end Sys2Proof.Machine
end

