-- ==== Sys2Proof/Proofs/PoolTrunkFrames.lean ====
section
/-! PROOFS. The frame pool's invariant: the frames of the trunk link keep it -/

-- One theorem after another: many at once need a thread each.
set_option Elab.async false

namespace Sys2Proof.Machine


section
variable {s t : State}

/-! ### Frames received (R152 to R154) -/

theorem takeData_inv (h : PoolInv s) (up : s.trunk.link = .up) {seq : BitVec 8} (inside : insideWindow seq s.trunk = true) (d : DataFrame) :
    PoolInv (takeData seq d s) := by
  have stock := takeData_stocked (d := d) h.stock up inside
  have room : (seq - s.trunk.nextExpected).toNat < (s.trunk.advertised - s.trunk.nextExpected).toNat := of_decide_eq_true inside
  have window := h.stock.window.1 (.inl up)
  obtain ⟨i, -, eq⟩ := takeData_eq (n := seq) (d := d) up (by omega)
  refine h.keep (.of_ports ?_) ?_ (.of_queues ?_) stock <;> rw [eq] <;> rfl

theorem offerRequest_inv (h : PoolInv s) (r : Request) : PoolInv (offerRequest r s) := by
  unfold offerRequest
  split
  · exact h.of_eq rfl rfl ⟨rfl, rfl, rfl, rfl, rfl⟩
  · exact countTrunk_inv h _ _

theorem dispatch_inv (h : PoolInv s) (r : Received) : PoolInv (dispatch r s) := by
  unfold dispatch
  split
  next up =>
    split
    · unfold receiveData
      split
      next inside => exact takeData_inv h up inside _
      · exact raise_inv (countTrunk_inv h _ _) _ _ _
    · exact h.of_eq rfl rfl ⟨rfl, rfl, rfl, rfl, rfl⟩
    · exact offerRequest_inv (countTrunk_inv h _ _) _
  · exact countTrunk_inv h _ _
  · exact countTrunk_inv h _ _
  · exact h

theorem frameEnd_inv (h : PoolInv s) (e : FrameEnd) : PoolInv (frameEnd e s) := by
  unfold frameEnd
  split
  · exact countTrunk_inv h _ _
  · exact countTrunk_inv h _ _
  · exact countTrunk_inv h _ _
  · split
    · exact countTrunk_inv h _ _
    · exact countTrunk_inv h _ _
    · exact dispatch_inv h _

theorem execTrunkFrameReceived_inv (h : PoolInv s) (chars : List TrunkChar) : PoolNext (execTrunkFrameReceived chars s) := by
  unfold execTrunkFrameReceived
  split
  · exact .next (frameEnd_inv (setTrunkRx_inv h _) _)
  · exact heardOther_inv h _

/-! ### A DATA frame routed (R123, R155) -/

theorem rejectTrunk_queues (i : SlotId) (tag : Option (BitVec 16)) (reason : Reason) (s : State) :
    (rejectTrunk i tag reason s).pool.queues = s.pool.queues :=
  (congrArg Pool.queues (takeRejection_pool tag reason (releaseSlot i s))).trans (releaseSlot_queues i s)

theorem joinTails_holders (r : Ref) (qs : List PortId) (s : State) : SameHolders s (qs.foldl (fun t q => joinTail q r t) s) :=
  List.foldlRecOn _ _ (.refl s) fun t same q _ => same.trans (LanesMove.sameHolders
    (have joined := joinTail_joined q r (s := t) rfl; ⟨joined.pending, joined.holder⟩))

theorem admitTrunk_holders (i : SlotId) (inb : Inbound) (d : Decision) (s : State) : SameHolders s (admitTrunk i inb d s) := by
  unfold admitTrunk
  dsimp only
  split
  · exact .of_queues (rejectTrunk_queues _ _ _ _)
  · refine SameHolders.trans ?_ (.of_queues (refill_queues _))
    exact (SameHolders.of_queues rfl).trans (joinTails_holders _ _ _)

/-- The oldest DATA frame taken is no longer among the taken, and its slot is dealt with. -/
theorem routed_inv {rest : List SlotId} (h : PoolInv s) (touched : Touched (takeOff rest s) t) (holders : SameHolders (takeOff rest s) t)
    (stock : Stocked (admissions s) none [] (capOf s) t) : PoolInv t := by
  have ports : SamePorts s (takeOff rest s) := .of_ports rfl
  have queues : SameHolders s (takeOff rest s) := .of_queues rfl
  refine h.keep (ports.trans touched.samePorts) ?_ (queues.trans holders) stock
  rw [touched.kept.trunk]
  rfl

theorem trunkDecision_inv (h : PoolInv s) (f : Frame) (inb : Inbound) :
    PoolInv (trunkDecision f inb s).2 ∧ (trunkDecision f inb s).2.trunk = s.trunk := by
  unfold trunkDecision
  split
  · exact ⟨h, rfl⟩
  · rw [matchFrame_frame]
    exact ⟨h.of_eq rfl rfl ⟨rfl, rfl, rfl, rfl, rfl⟩, rfl⟩

theorem execTrunkDataRouting_inv (h : PoolInv s) : PoolNext (execTrunkDataRouting s) := by
  unfold execTrunkDataRouting
  split
  · exact .next h
  next i rest taken =>
    have filled : s.pool.slots[i].status = .filled := (h.stock.slots.slot i).taken.2 (by rw [taken]; exact List.mem_cons_self)
    have arrived := (h.stock.slots.slot i).inbound filled
    have admitted (inb : Inbound) (d : Decision) : PoolInv (admitTrunk i inb d (takeOff rest s)) :=
      routed_inv h (admitTrunk_touched _ _ _ _) (admitTrunk_holders _ _ _ _) (admitTrunk_stocked h.stock taken inb d)
    have rejected (inb : Inbound) : PoolInv (rejectTrunk i inb.tag .badSource (takeOff rest s)) :=
      routed_inv h (rejectTrunk_touched _ _ _ _) (.of_queues (rejectTrunk_queues _ _ _ _)) (rejectTrunk_stocked h.stock taken _ _)
    dsimp only
    split
    next none =>
      rw [none] at arrived
      cases arrived
    · exact .next (admitted _ _).settle
    next inb _ _ =>
      split
      · exact .next (rejected _)
      · obtain ⟨inv, trunk⟩ := trunkDecision_inv h s.pool.slots[i].frame inb
        refine .next (inv.keep (.of_ports rfl) rfl (.of_queues rfl) (inv.stock.editSlot rfl rfl rfl fun _ => ?_))
        rw [trunk, taken]
        rfl

/-! ### The arbiter (R157 to R162) -/

theorem unfilledCount_le (s : State) : unfilledCount s ≤ 64 := by
  have all : allSlots.length = 64 := List.length_finRange
  exact (List.length_filter_le _ _).trans (Nat.le_of_eq all)

/-- The current limit closes the window over the unfilled slots (R157). -/
theorem currentLimit_window (s : State) : (currentLimit s - s.trunk.nextExpected).toNat = unfilledCount s := by
  have few := unfilledCount_le s
  unfold currentLimit
  bv_omega

/-- A frame goes into transmission that carries no reference. -/
theorem transmit_inv (h : PoolInv s) (silent : s.trunk.tx = none) {kind : TxKind} (bare : kind ≠ .data ∧ kind ≠ .trap) (seq : BitVec 8)
    {body : List Octet} (credit : kind = .credit → body = [currentLimit s] ∧
      (s.trunk.link = .up ∨ s.trunk.link = .suspect)) : PoolInv (transmit kind seq body s) := by
  refine h.relink rfl rfl rfl ?_ ⟨h.stock.window.1, fun f mem eq => ?_⟩
  · rw [silent]
    exact Bool.or_eq_false_iff.2 ⟨beq_false_of_ne bare.1, beq_false_of_ne bare.2⟩
  · cases mem
    obtain ⟨rfl, link⟩ := credit eq
    have window := h.stock.window.1 link
    have limit := currentLimit_window s
    exact ⟨currentLimit s, rfl, rfl, window.trans (Nat.le_of_eq limit.symm), Nat.le_of_eq limit⟩

theorem purgeHeads_thins (n : Nat) (s : State) : Thins s (purgeHeads n s) := by
  induction n generalizing s with
  | zero => exact .refl s
  | succ n ih =>
    unfold purgeHeads
    split
    · exact .refl s
    · split
      · exact ((popLane_thins s _ _).trans (.of_queues (discardRef_queues _ _ _ _))).trans (ih _)
      · exact .refl s

theorem handOff_inv (h : PoolInv s) (silent : s.trunk.tx = none) : PoolInv (handOff s) := by
  generalize many : (laneRefs s.pool.queues[trunkPort]).length = n
  have touched := purgeHeads_touched n s
  have purged := h.swept touched (purgeHeads_thins n s) (purgeHeads_stocked n h.stock)
  have idle : (purgeHeads n s).trunk.tx = none := by rw [touched.kept.trunk]; exact silent
  unfold handOff
  rw [many]
  dsimp only
  generalize purgeHeads n s = u at purged idle
  split
  · exact purged
  next lane r head =>
    have empty : u.pool.queues[trunkPort].holder = none := Option.not_isSome_iff_eq_none.1 (by rw [purged.holders.2, idle]; nofun)
    have moved := purged.stock.takeHead (r' := { r with count := r.count + 1 }) ((firstHead_eq_some _ _ _ _).1 head).1 empty rfl
    refine purged.sends (.of_ports rfl) (fun p => ?_) ?_ (moved.relink rfl rfl ?_)
    · unfold startData transmit setHolder popLane
      rw [modTrunk_pool, modTrunk_pool, modQueue_other _ _ (trunkPort_ne p).symm, modQueue_other _ _ (trunkPort_ne p).symm]
    · unfold startData transmit setHolder
      rw [modTrunk_pool, modTrunk_pool, modQueue_same]
      cases r with
      | mk slot kind count mark => cases kind <;> rfl
    · refine ⟨moved.window.1, fun f mem eq => ?_⟩
      cases mem
      cases r with
      | mk slot kind count mark => cases kind <;> cases eq

theorem modEvents_inv (h : PoolInv s) (f : List Event → List Event) : PoolInv (modEvents f s) := h.of_eq rfl rfl ⟨rfl, rfl, rfl, rfl, rfl⟩

theorem arbitrate_inv (h : PoolInv s) (up : s.trunk.link = .up) (silent : s.trunk.tx = none) : PoolInv (arbitrate s) := by
  unfold arbitrate
  split
  · have refreshed : PoolInv (modTrunk (fun t => { t with creditPending := false, refresh := some (s.now + refreshTime) }) s) :=
      h.of_eq rfl rfl ⟨rfl, rfl, rfl, rfl, rfl⟩
    exact transmit_inv (kind := .credit) refreshed silent ⟨nofun, nofun⟩ 0 fun _ => ⟨rfl, .inl up⟩
  · split
    · exact transmit_inv (kind := .mgmtRsp) h silent ⟨nofun, nofun⟩ 0 nofun
    · split
      next r _ =>
        have marked : PoolInv (modCustody (fun c =>
          { c with reports := updateFirst (fun x => !x.inTx) (fun x => some { x with inTx := true }) c.reports }) s) :=
          h.of_eq rfl rfl ⟨rfl, rfl, rfl, rfl, rfl⟩
        exact transmit_inv (kind := .report) marked silent ⟨nofun, nofun⟩ 0 nofun
      · split
        · unfold startEvent
          exact transmit_inv (kind := .event) (modEvents_inv h _) silent ⟨nofun, nofun⟩ 0 nofun
        · split
          · exact handOff_inv h silent
          · exact h

theorem execTrunkFrameStart_inv (h : PoolInv s) : PoolNext (execTrunkFrameStart s) := by
  unfold execTrunkFrameStart
  split
  next up silent =>
    refine .next (PoolInv.settle ?_)
    have later : PoolInv { s with now := boundaryFrom s.trunk (max s.now s.trunk.nextStart) } := h.of_eq rfl rfl ⟨rfl, rfl, rfl, rfl, rfl⟩
    have chosen := arbitrate_inv later up silent
    unfold choose
    dsimp only
    split
    · exact chosen.of_eq rfl rfl ⟨rfl, rfl, rfl, rfl, rfl⟩
    · exact chosen
  · exact .next h

/-! ### The end of a frame in transmission (R125, R157) -/

/-- The frame in transmission has ended. -/
theorem frameSent_inv {f : TxFrame} (h : PoolInv s) (tx : s.trunk.tx = some f) (ports : t.ports = s.ports) (pool : t.pool = s.pool)
    (grounds : t.trunk.taken = s.trunk.taken ∧ t.trunk.link = s.trunk.link ∧ t.trunk.advertised = s.trunk.advertised ∧
      t.trunk.nextExpected = s.trunk.nextExpected) (ended : t.trunk.tx = none) : PoolInv (frameSent f t) := by
  obtain ⟨taken, link, advertised, nextExpected⟩ := grounds
  have stock : Stocked (admissions s) none [] (capOf s) t := h.stock.relink pool taken
    (h.stock.window.relax (by rw [pool]) advertised nextExpected (by rw [link]; exact id) (by rw [ended]; nofun))
  have sent := h.silenced ((SamePorts.of_ports ports).trans (dataSent_touched t).samePorts) (by rw [(dataSent_touched t).kept.trunk]; exact ended)
    ((setHolder_sameHolders pool).trans (dataSent_holders t)) (dataSent_stocked stock)
  have bare (u : State) (other : f.kind ≠ .data ∧ f.kind ≠ .trap) (ports' : u.ports = t.ports) (pool' : u.pool = t.pool)
      (tx' : u.trunk.tx = t.trunk.tx) (stock : Stocked (admissions s) none [] (capOf s) u) : PoolInv u := by
    refine h.silenced (.of_ports (ports'.trans ports)) (tx'.trans ended) ?_ stock
    rw [setHolder_of_bare h (by rw [tx]; exact Bool.or_eq_false_iff.2 ⟨beq_false_of_ne other.1, beq_false_of_ne other.2⟩)]
    exact .of_queues (by rw [pool', pool])
  unfold frameSent
  split
  next credit =>
    obtain ⟨limit, head, length, low, high⟩ := h.stock.window.2 f tx credit
    unfold creditSent
    split
    next body =>
      rw [body] at head
      cases head
      refine bare _ (by rw [credit]; exact ⟨nofun, nofun⟩) rfl rfl rfl (stock.relink rfl rfl ⟨fun _ => ?_, ?_⟩)
      · change (limit - t.trunk.nextExpected).toNat ≤ unfilledCount _
        rw [nextExpected, unfilledCount_congr (s := s) (by rw [modTrunk_pool, pool])]
        exact high
      · change ∀ f ∈ t.trunk.tx, _
        rw [ended]
        nofun
    next body =>
      rw [body] at length
      cases length
  next kind => exact bare _ (by rw [kind]; exact ⟨nofun, nofun⟩) rfl rfl rfl (stock.of_grounds ⟨rfl, rfl, rfl, rfl, rfl⟩ rfl)
  next kind => exact bare _ (by rw [kind]; exact ⟨nofun, nofun⟩) rfl rfl rfl (stock.of_grounds ⟨rfl, rfl, rfl, rfl, rfl⟩ rfl)
  next kind => exact bare _ (by rw [kind]; exact ⟨nofun, nofun⟩) rfl rfl rfl (stock.of_grounds ⟨rfl, rfl, rfl, rfl, rfl⟩ rfl)
  · exact sent
  · exact sent

theorem execTrunkFrameEof_inv (h : PoolInv s) : PoolNext (execTrunkFrameEof s) := by
  unfold execTrunkFrameEof
  split
  · exact .next h
  next tx =>
    refine .next (PoolInv.settle (frameSent_inv h tx ?_ ?_ ?_ ?_))
    · rfl
    · rfl
    · exact ⟨rfl, rfl, rfl, rfl⟩
    · rfl

end

end Sys2Proof.Machine
end

