-- ==== Sys2Proof/Proofs/PoolSettings.lean ====
section
/-! PROOFS. The frame pool's invariant: the settings of the ports and the gateway keep it -/

-- One theorem after another: many at once need a thread each.
set_option Elab.async false

namespace Sys2Proof.Machine


/-- What the invariants of the ports and the link say that the pool's leans on. -/
structure Ruled (s : State) : Prop where
  off : ∀ p : SegPort, s.ports[p].enabled = false → s.ports[p].tx = .off ∧ s.ports[p].assembly = {}
  silent : s.trunk.link ≠ .up → s.trunk.tx = none

section
variable {s t : State} {p : SegPort}

theorem Ruled.of_eq (h : Ruled s) (ports : t.ports = s.ports) (link : t.trunk.link = s.trunk.link) (tx : t.trunk.tx = s.trunk.tx) : Ruled t :=
  ⟨by rw [ports]; exact h.off, by rw [link, tx]; exact h.silent⟩

theorem ruled_of (off : PortsOff s) (link : LinkOk s) : Ruled s where
  off p disabled := by
    obtain ⟨-, tx, empty, -⟩ := (off p).1 disabled
    exact ⟨tx, empty⟩
  silent other := by
    obtain ⟨-, -, -, down, -⟩ := link
    exact (down other).2.2

/-! ### The settings of a port (R63, R64, R171) -/

/-- A port's settings change, its queue limit to one that its queue does not pass. -/
theorem PoolInv.modSettings (h : PoolInv s) {f : Port → Port} (admits : PortAdmits s.ports[p] → PortAdmits (f s.ports[p]))
    (slot : admittedSlot (f s.ports[p]) = admittedSlot s.ports[p]) (attempt : frameAttempt (f s.ports[p]) = frameAttempt s.ports[p])
    (cap : (if s.ports[p].enabled then s.ports[p].queueLimit else 0) ≤ if (f s.ports[p]).enabled then (f s.ports[p]).queueLimit else 0) :
    PoolInv (Machine.modPort p f s) := by
  have port (x : SegPort) : (Machine.modPort p f s).ports[x] = if x = p then f s.ports[p] else s.ports[x] := by
    rw [modPort_ports, getElem_modAt_fin]
    split
    next e => subst e; rfl
    · rfl
  have slots : admissions (Machine.modPort p f s) = admissions s := by
    funext x
    unfold admissions
    rw [port]
    split
    next e => subst e; exact slot
    · rfl
  have room (q : PortId) : capOf s q ≤ capOf (Machine.modPort p f s) q := by
    obtain ⟨x, rfl⟩ | rfl := port_cases q
    · rw [capOf_port, capOf_port, port]
      by_cases e : x = p
      · subst e
        rw [if_pos rfl]
        exact cap
      · rw [if_neg e]
    · exact Nat.le_refl _
  refine ⟨fun x => ?_, by rw [slots]; exact h.single, holdersOk_of_same h.holders (fun x => ?_) rfl (.of_queues rfl), ?_⟩
  · rw [port]
    split
    · exact admits (h.ports p)
    · exact h.ports x
  · rw [port]
    split
    next e => subst e; exact attempt
    · rfl
  · rw [slots]
    have kept : Stocked (admissions s) none [] (capOf s) (Machine.modPort p f s) := h.stock.of_grounds ⟨rfl, rfl, rfl, rfl, rfl⟩ rfl
    exact kept.weaken (fun q => (kept.loaded q).trans (room q)) fun _ => rfl

theorem enablePort_inv (h : PoolInv s) (disabled : s.ports[p].enabled = false) (off : s.ports[p].tx = .off ∧ s.ports[p].assembly = {}) :
    PoolInv (enablePort p s) := by
  have vacant : s.ports[p].assembly.admission = none := by rw [off.2]
  refine h.modSettings (fun admits => admits.of_none vacant rfl rfl) rfl ?_ ?_
  · have none : attemptOf s.ports[p] = none := by unfold attemptOf; rw [off.1]
    unfold frameAttempt
    rw [none]
    rfl
  · rw [disabled]
    exact Nat.zero_le _

section
variable {view : SegPort → Option SlotId} {closing : Option SlotId} {loose : List Ref} {cap : PortId → Nat}

theorem flushHolder_stocked (h : Stocked view closing loose cap s) (p : SegPort) : Stocked view closing loose cap (flushHolder p s) := by
  unfold flushHolder
  split
  · exact h
  next held => exact discardRef_stocked (h.takeHolder held).1 _ _

end

theorem flushHolder_holders (p : SegPort) (s : State) : SameHolders (setHolder p.port none s) (flushHolder p s) := by
  unfold flushHolder
  split
  next empty => rw [setHolder_same empty]; exact .refl s
  · exact .of_queues (discardRef_queues _ _ _ _)

theorem SameHolders.setHolder (h : SameHolders s t) (q : PortId) (r : Option Ref) :
    SameHolders (Machine.setHolder q r s) (Machine.setHolder q r t) := fun x => by
  unfold Machine.setHolder
  by_cases e : x = q
  · subst e
    rw [modQueue_same, modQueue_same]
  · rw [modQueue_other _ _ e, modQueue_other _ _ e]
    exact h x

/-- A disable empties the holder of its port, and no other. -/
theorem disablePort_holders (p : SegPort) (s : State) : SameHolders (setHolder p.port none s) (disablePort p s) := by
  have off : SameHolders s (release p (modPort p (fun pt => { pt with enabled := false, tx := .off }) s)) := .of_queues rfl
  have marked := off.trans (markPending_thins _ p.port (fun _ => true) .portDisabled).sameHolders
  have cut := (marked.setHolder p.port none).trans (flushHolder_holders p _)
  have withdrawn := cut.trans (withdraw_holders p _)
  unfold disablePort
  dsimp only
  have left : SameHolders (setHolder p.port none s) (setRx p .off (leaveFrame p (flushHolder p (markPending p.port (fun _ => true) .portDisabled
    (release p (modPort p (fun pt => { pt with enabled := false, tx := .off }) s)))))) := withdrawn.trans (.of_queues rfl)
  exact (left.trans (sweepLanes_thins _ p.port (fun _ => true) .portDisabled).sameHolders).trans (.of_queues rfl)

theorem disablePort_stocked (h : PoolInv s) (p : SegPort) : Stocked (without (admissions s) p) none [] (capOf s) (disablePort p s) := by
  have off : Stocked (admissions s) none [] (capOf s) (release p (modPort p (fun pt => { pt with enabled := false, tx := .off }) s)) :=
    h.stock.of_grounds ⟨rfl, rfl, rfl, rfl, rfl⟩ rfl
  have port : (release p (modPort p (fun pt => { pt with enabled := false, tx := .off }) s)).ports[p].assembly = s.ports[p].assembly := by
    rw [release_assembly, modPort_port]
  unfold disablePort
  dsimp only
  generalize release p (modPort p (fun pt => { pt with enabled := false, tx := .off }) s) = u at off port ⊢
  have touched := (markPending_touched p.port (fun _ => true) .portDisabled u).trans (flushHolder_touched p _)
  have cut := flushHolder_stocked (markPending_stocked off p.port (fun _ => true) .portDisabled) p
  generalize flushHolder p (markPending p.port (fun _ => true) .portDisabled u) = v at touched cut ⊢
  have own : admissions s p = admittedSlot v.ports[p] := by
    unfold admissions admittedSlot
    rw [(touched.samePorts p).assembly, port]
  have left : Stocked (without (admissions s) p) none [] (capOf s) (setRx p .off (leaveFrame p v)) :=
    (withdraw_stocked cut own (h.single p)).of_grounds ⟨rfl, rfl, rfl, rfl, rfl⟩ rfl
  exact (sweepLanes_stocked left p.port (fun _ => true) .portDisabled).of_grounds ⟨rfl, rfl, rfl, rfl, rfl⟩ rfl

theorem Drained.load {Q : Queue} (h : Drained Q) : queueLoad Q = 0 := by
  have pending : Q.pending.filter (·.mark.isNone) = [] := List.filter_eq_nil_iff.2 fun r mem => by
    rw [Option.isNone_iff_eq_none]
    exact h.pending r mem
  rw [queueLoad_eq, h.laneRefs, h.holder, pending]
  rfl

theorem disablePort_inv (h : PoolInv s) (p : SegPort) : PoolInv (disablePort p s) := by
  have stock := disablePort_stocked h p
  have holders := disablePort_holders p s
  have empty := (disablePort_shut p s).queue.load
  have trunk : (disablePort p s).trunk.tx = s.trunk.tx := by rw [(disablePort_keptBut p s).trunk]
  have port (x : SegPort) := disablePort_port p x s
  generalize disablePort p s = t at stock holders empty trunk port
  have own : t.ports[p].assembly = {} ∧ attemptOf t.ports[p] = none ∧ t.ports[p].enabled = false := by
    rw [port, if_pos rfl]
    exact ⟨rfl, rfl, rfl⟩
  have other {x : SegPort} (e : x ≠ p) : SamePort s.ports[x] t.ports[x] := by
    rw [port, if_neg e]
    exact ⟨rfl, rfl, rfl, rfl, rfl, rfl⟩
  have slots : admissions t = without (admissions s) p := by
    funext x
    unfold admissions without
    by_cases e : x = p
    · rw [e, Function.update_self]
      exact admittedSlot_of_none (by rw [own.1])
    · rw [Function.update_of_ne e]
      exact (other e).slot
  refine ⟨fun x => ?_, by rw [slots]; exact single_without h.single p, ⟨fun x => ?_, ?_⟩, ?_⟩
  · by_cases e : x = p
    · rw [e]
      exact .of_empty own.1
    · exact (other e).admits (h.ports x)
  · rw [holders, setHolder_none_isSome]
    by_cases e : x = p
    · rw [if_pos e, e, own.2.1]
      rfl
    · rw [if_neg e, (other e).attempt]
      exact h.holders.1 x
  · rw [holders, trunk]
    unfold setHolder
    rw [modQueue_other _ _ (trunkPort_ne p)]
    exact h.holders.2
  · rw [slots]
    refine stock.weaken (fun q => ?_) fun _ => rfl
    obtain ⟨x, rfl⟩ | rfl := port_cases q
    · by_cases e : x = p
      · rw [e, empty]
        exact Nat.zero_le _
      · rw [capOf_port, (other e).enabled, (other e).queueLimit, ← capOf_port]
        exact stock.loaded _
    · exact stock.loaded _

/-- A PORT_WRITE that is not refused keeps the queue limit of an enabled port (R171). -/
theorem queueLimit_kept {a : PortArgs} {v : PortSettings} {pt : Port} (now : ¬portNotNow a pt = true) (settings : portSettings? a = some v)
    (enabled : pt.enabled = true) : v.queueLimit = pt.queueLimit := by
  obtain ⟨named, -, low, high⟩ := portSettings?_eq_some.1 settings
  by_contra other
  exact now ((portNotNow_iff a pt).2 ⟨enabled, .inr ⟨low, high, by rw [← named.queueLimit]; exact other⟩⟩)

theorem writePort_inv (h : PoolInv s) (ruled : Ruled s) {v : PortSettings}
    (limit : s.ports[p].enabled = true → v.queueLimit = s.ports[p].queueLimit) : PoolInv (writePort p v s) := by
  unfold writePort
  dsimp only
  generalize eq : modPort p (fun pt => { pt with
    rate := v.rate, queueLimit := v.queueLimit, retryLimit := v.retryLimit, missAction := v.missAction
    abortOnError := v.abortOnError }) s = w
  have written : PoolInv w := by
    rw [← eq]
    refine h.modSettings (fun admits => ⟨admits.listening, admits.mirror⟩) rfl rfl ?_
    dsimp only
    split
    next on => rw [limit on]
    · exact Nat.le_refl _
  have port : w.ports[p].enabled = s.ports[p].enabled ∧ w.ports[p].tx = s.ports[p].tx ∧ w.ports[p].assembly = s.ports[p].assembly := by
    rw [← eq, modPort_port]
    exact ⟨rfl, rfl, rfl⟩
  split
  · exact written
  next changes =>
    split
    next on =>
      have disabled : s.ports[p].enabled = false := Bool.eq_false_iff.2 fun was => changes (on.trans was.symm)
      exact enablePort_inv written (port.1.trans disabled) (by rw [port.2.1, port.2.2]; exact ruled.off p disabled)
    · exact (disablePort_inv written p).settle

/-! ### The gateway settings (R111, R114, R173) -/

/-- The pool with another size of the reserve, or other lifetimes. -/
theorem Stored.resize {view : SegPort → Option SlotId} {closing : Option SlotId} {loose : List Ref} {cap : PortId → Nat}
    (h : Stored view closing loose cap s) (g : Grounds s t) (slots : t.pool.slots = s.pool.slots) (free : t.pool.free = s.pool.free)
    (queues : t.pool.queues = s.pool.queues) : Stored view closing loose cap t where
  slots := by
    refine ⟨by rw [free]; exact h.slots.freeNodup, by rw [g.taken]; exact h.slots.takenNodup, fun i => ?_⟩
    exact (h.slots.slot i).of_same (by rw [slots]) (by rw [free]) (by rw [g.taken]) (by rw [g.taken]; exact id)
      (by rw [refCount_congr (s := s) (t := t) queues])
  admitted := by
    obtain ⟨a, b, c, d⟩ := h.admitted
    exact ⟨by rw [slots]; exact a, by rw [queues]; exact b, by rw [queues]; exact c, d⟩
  loaded := by rw [queues]; exact h.loaded
  window := h.window.of_le g (Nat.le_of_eq (unfilledCount_congr slots).symm)

theorem setReserveSize_inv (h : PoolInv s) (silent : s.trunk.link ≠ .up → s.trunk.tx = none) (n : Nat) : PoolInv (setReserveSize n s) := by
  have stored : Stored (admissions s) none [] (capOf s) (modPool (fun p => { p with reserveSize := n }) s) :=
    h.stock.toStored.resize ⟨rfl, rfl, rfl, rfl, rfl⟩ rfl rfl rfl
  have smaller (less : n ≤ s.pool.reserveSize) : PoolInv (modPool (fun p => { p with reserveSize := n }) s) := by
    refine h.keep (.of_ports rfl) rfl (.of_queues rfl) ⟨stored, fun short => h.stock.short ?_⟩
    rw [reservedCount_congr (s := s) (t := modPool (fun p => { p with reserveSize := n }) s) rfl] at short
    exact Nat.lt_of_lt_of_le short less
  unfold setReserveSize
  dsimp only
  split
  · have touched := refill_touched (modPool (fun p => { p with reserveSize := n }) s)
    have ports : SamePorts s (modPool (fun p => { p with reserveSize := n }) s) := .of_ports rfl
    refine h.keep (ports.trans touched.samePorts) ?_ (.of_queues (refill_queues _)) stored.refill
    rw [touched.kept.trunk]
    rfl
  next more =>
    have less := smaller (Nat.le_of_not_lt more)
    split
    next down =>
      exact trim_inv less ⟨down.2, silent (by obtain e | e := down.2 <;> rw [e] <;> nofun)⟩
    · exact less

theorem writeGateway_inv (h : PoolInv s) (ruled : Ruled s) (a : GatewayArgs) : PoolInv (writeGateway a s) := by
  unfold writeGateway
  refine setReserveSize_inv ?_ ?_ _
  · exact h.keep (.of_ports rfl) rfl (.of_queues rfl) ⟨h.stock.toStored.resize ⟨rfl, rfl, rfl, rfl, rfl⟩ rfl rfl rfl, h.stock.short⟩
  · exact ruled.silent

end

end Sys2Proof.Machine
end

