-- ==== Sys2Proof/Proofs/PoolResets.lean ====
section
/-! PROOFS. The frame pool's invariant: the resets keep it -/

-- One theorem after another: many at once need a thread each.
set_option Elab.async false

namespace Sys2Proof.Machine


section
variable {s t : State}

/-! ### The invariant of the pool, as the obligations have it -/

theorem poolInv_of_poolOk (h : PoolOk s) : PoolInv s := by
  obtain ⟨⟨freeNodup, free, takenNodup, taken, inbound, decision, queued, unqueued⟩, ⟨listening, admitted, pending, mirror⟩, holders,
    ⟨segments, trunk⟩, short, window⟩ := h
  refine ⟨fun p => ⟨listening p, mirror p⟩, fun p q i own => fun other => (admitted p i own).2.2 q other, holders,
    ⟨⟨⟨freeNodup, takenNodup, fun i => ⟨free i, taken i, inbound i, decision i, queued i, unqueued i⟩⟩,
      ⟨fun p i v => (admitted p i v).1, fun p i v => ⟨fun q => pointing_eq_zero.2 ((admitted p i v).2.1 q), rfl⟩,
        fun q r mem => .inl (pending q r mem), nofun⟩, fun q => ?_, window⟩, short⟩⟩
  obtain ⟨p, rfl⟩ | rfl := port_cases q
  · rw [capOf_port]
    split
    · exact (segments p).1
    next off => exact Nat.le_of_eq ((segments p).2 (Bool.eq_false_iff.2 off))
  · exact trunk

theorem PoolInv.poolOk (h : PoolInv s) : PoolOk s := by
  obtain ⟨ports, single, holders, ⟨⟨slots, admitted, loaded, window⟩, short⟩⟩ := h
  refine ⟨⟨slots.freeNodup, fun i => (slots.slot i).free, slots.takenNodup, fun i => (slots.slot i).taken, fun i => (slots.slot i).inbound,
    fun i => (slots.slot i).decision, fun i => (slots.slot i).queued, fun i => (slots.slot i).unqueued⟩,
    ⟨fun p => (ports p).listening, fun p i v => ⟨admitted.queued p i v, fun q => pointing_eq_zero.1 ((admitted.apart p i v).1 q),
      fun q other => single p q i v other⟩, fun q r mem => (admitted.pending q r mem).resolve_right nofun, fun p => (ports p).mirror⟩,
    holders, ⟨fun p => ?_, loaded trunkPort⟩, short, window⟩
  have load := loaded p.port
  rw [capOf_port] at load
  split at load
  next on => exact ⟨load, fun off => by rw [on] at off; cases off⟩
  · exact ⟨by omega, fun _ => by omega⟩

/-! ### The resets (R130, R176 to R178) -/

theorem mem_freedList (h : SlotsAt [] s) (i : SlotId) : i ∈ freedList s ↔ keptSlot s i = false := by
  unfold freedList
  rw [List.mem_append, List.mem_filter, ← (h.slot i).free, Bool.and_eq_true, Bool.not_eq_true', bne_iff_ne]
  have kept : s.pool.slots[i].status = .free → keptSlot s i = false := fun free => by
    unfold keptSlot
    rw [free]
    rfl
  have all : i ∈ List.finRange 64 := List.mem_finRange i
  tauto

theorem freedList_nodup (h : SlotsAt [] s) : (freedList s).Nodup := by
  refine List.nodup_append.2 ⟨h.freeNodup, (List.nodup_finRange 64).filter _, fun a mem b mem' e => ?_⟩
  have freed := (List.mem_filter.1 mem').2
  rw [Bool.and_eq_true, bne_iff_ne, ← e] at freed
  exact freed.2 ((h.slot a).free.2 mem)

/-- A reset leaves what the window stands on. -/
theorem SlotsReset.unfilledCount_le {size : Nat} (h : SlotsReset size s t) (up : s.trunk.link = .up ∨ s.trunk.link = .suspect) :
    unfilledCount s ≤ unfilledCount t := by
  have all (i : SlotId) : (t.pool.slots[i].status == .unfilled) = keptSlot s i := by
    rw [h.slots, resetSlots_getElem]
    cases keptSlot s i <;> rfl
  have same (i : SlotId) : (s.pool.slots[i].status == .unfilled) = keptSlot s i := by
    rw [Bool.eq_iff_iff, keptSlot_iff, beq_iff_eq]
    exact (and_iff_left up).symm
  unfold unfilledCount slotsIn
  simp only [all, same, Nat.le_refl]

/-- Queues empty, no frame taken, and each slot kept or FREE: the pool after a reset, before the refill. -/
theorem SlotsReset.stored {size : Nat} {cap : PortId → Nat} (h : SlotsReset size s t) (before : SlotsAt [] s)
    (queues : ∀ q : PortId, t.pool.queues[q] = .empty) (taken : t.trunk.taken = []) (window : Windowed t) :
    Stored (fun _ => none) none [] cap t := by
  have alone (i : SlotId) : refCount i t + pointing i [] = 0 := refCount_eq_zero fun q => by rw [queues]; rfl
  have slot (i : SlotId) : t.pool.slots[i] = if keptSlot s i then .blank .unfilled else .blank .free := by
    rw [h.slots, resetSlots_getElem]
  refine ⟨⟨by rw [h.free]; exact freedList_nodup before, by rw [taken]; exact .nil, fun i => ?_⟩, ⟨nofun, nofun, fun q r mem => ?_, nofun⟩,
    fun q => by rw [queues]; exact Nat.zero_le _, window⟩
  · have untaken : i ∉ t.trunk.taken := by rw [taken]; nofun
    have free := mem_freedList before i
    rw [← h.free] at free
    cases kept : keptSlot s i with
    | true => exact .of_unfilled ((slot i).trans (if_pos kept)) (fun mem => by rw [free.1 mem] at kept; cases kept) untaken (alone i)
    | false => exact .of_free ((slot i).trans (if_neg (by rw [kept]; nofun))) (free.2 kept) untaken (alone i)
  · rw [queues] at mem
    cases mem

/-- A reset, with its refill. -/
theorem SlotsReset.inv {size : Nat} (h : SlotsReset size s t) (before : SlotsAt [] s) (queues : ∀ q : PortId, t.pool.queues[q] = .empty)
    (taken : t.trunk.taken = []) (window : Windowed t) (ports : ∀ p : SegPort, t.ports[p].assembly = {} ∧ attemptOf t.ports[p] = none)
    (bare : carriesRef t.trunk.tx = false) : PoolInv (refill t) := by
  have slots : admissions t = fun _ => none := funext fun p => admittedSlot_of_none (by rw [(ports p).1])
  have touched := refill_touched t
  have same := touched.samePorts
  refine ⟨fun p => (same p).admits (.of_empty (ports p).1), ?_, ⟨fun p => ?_, ?_⟩, ?_⟩
  · rw [same.admissions, slots]
    nofun
  · rw [refill_queues, queues, (same p).attempt, (ports p).2]
    rfl
  · rw [refill_queues, queues, touched.kept.trunk]
    exact bare.symm
  · rw [same.admissions, slots]
    exact (h.stored before queues taken window).refill

theorem cutIf_tx (cuts : TxKind → Bool) (s : State) : ∀ f ∈ (cutIf cuts s).trunk.tx, f ∈ s.trunk.tx ∧ cuts f.kind = false := by
  intro f mem
  unfold cutIf at mem
  split at mem
  next g tx =>
    split at mem
    · unfold cutFrame at mem
      rw [tx] at mem
      cases mem
    next kept =>
      rw [tx] at mem ⊢
      cases mem
      exact ⟨rfl, Bool.eq_false_iff.2 kept⟩
  next idle =>
    rw [idle] at mem
    cases mem

theorem cutIf_bare {cuts : TxKind → Bool} (data : cuts .data = true) (trap : cuts .trap = true) (s : State) :
    carriesRef (cutIf cuts s).trunk.tx = false := by
  refine carriesRef_bare fun k sends => ?_
  obtain ⟨f, tx, rfl⟩ := Option.map_eq_some_iff.1 sends
  have kept := (cutIf_tx cuts s f tx).2
  have cut {kind : TxKind} (cuts' : cuts kind = true) (e : f.kind = kind) : False := by
    rw [e, cuts'] at kept
    cases kept
  exact ⟨cut data, cut trap⟩

/-- The window stands over a reset that keeps the counts, and the unfilled slots in UP and SUSPECT. -/
theorem SlotsReset.windowed {size : Nat} {cuts : TxKind → Bool} (h : SlotsReset size s t) (before : Windowed s)
    (silent : s.trunk.link ≠ .up → s.trunk.tx = none) (advertised : t.trunk.advertised = s.trunk.advertised)
    (nextExpected : t.trunk.nextExpected = s.trunk.nextExpected) (tx : t.trunk.tx = (cutIf cuts s).trunk.tx) : Windowed t := by
  unfold Windowed
  rw [h.link, advertised, nextExpected, tx]
  refine ⟨fun up => (before.1 up).trans (h.unfilledCount_le up), fun f mem kind => ?_⟩
  have sent := (cutIf_tx cuts s f mem).1
  obtain ⟨limit, head, length, low, high⟩ := before.2 f sent kind
  have up : s.trunk.link = .up := by
    by_contra down
    rw [silent down] at sent
    cases sent
  exact ⟨limit, head, length, low, high.trans (h.unfilledCount_le (.inl up))⟩

theorem trafficPool_queues (s : State) (q : PortId) : (trafficPool s).pool.queues[q] = .empty := by
  unfold trafficPool
  simp only [modPool_pool, Fin.getElem_fin, Vector.getElem_replicate]

theorem trafficReset_inv (h : PoolInv s) (ruled : Ruled s) : PoolInv (trafficReset s) := by
  rw [trafficReset_eq]
  have trunk := cutIf_trunk trafficCuts s
  have advertised := congrArg Trunk.advertised trunk
  have nextExpected := congrArg Trunk.nextExpected trunk
  have reset := trafficked_reset s
  refine reset.inv h.stock.slots (trafficPool_queues s) rfl
    (reset.windowed (cuts := trafficCuts) h.stock.window ruled.silent advertised nextExpected rfl) (fun p => ?_) (cutIf_bare rfl rfl s)
  have port : (trafficked s).ports[p] = trafficOf (queueLength s.pool.queues[p.port]) s.ports[p] := by
    unfold trafficked
    simp only [Fin.getElem_fin, Vector.getElem_ofFn]
  rw [port]
  unfold trafficOf
  dsimp only
  split
  · exact ⟨rfl, rfl⟩
  next disabled =>
    obtain ⟨off, empty⟩ := ruled.off p (Bool.eq_false_iff.2 disabled)
    refine ⟨empty, ?_⟩
    unfold attemptOf
    dsimp only
    rw [off]

theorem reset_ports (p : SegPort) : State.reset.ports[p].assembly = {} ∧ attemptOf State.reset.ports[p] = none := by
  revert p
  decide

theorem fullReset_inv (h : PoolInv s) (ruled : Ruled s) : PoolInv (fullReset s) := by
  rw [fullReset_eq]
  have trunk := cutIf_trunk fullCuts s
  have advertised := congrArg Trunk.advertised trunk
  have nextExpected := congrArg Trunk.nextExpected trunk
  have reset := fullyReset_reset s
  exact reset.inv h.stock.slots (trafficPool_queues s) rfl
    (reset.windowed (cuts := fullCuts) h.stock.window ruled.silent advertised nextExpected rfl) reset_ports (cutIf_bare rfl rfl s)

theorem execHardwareReset_inv (s : State) : PoolNext (execHardwareReset s) := by
  obtain ⟨-, -, -, -, -, pool⟩ := resetMeetsInvariants
  exact .next ((poolInv_of_poolOk pool).of_eq rfl rfl ⟨rfl, rfl, rfl, rfl, rfl⟩)

end

end Sys2Proof.Machine
end

