-- ==== Sys2Proof/Proofs/PoolRequests.lean ====
section
/-! PROOFS. The frame pool's invariant: the requests keep it, and so does every step -/

-- One theorem after another: many at once need a thread each.
set_option Elab.async false

namespace Sys2Proof.Machine


section
variable {s t : State}

/-! ### The requests (R166 to R175) -/

theorem accept_state (results : List Octet) (t : State) : (accept results t).state = t := rfl

theorem modAgent_inv (h : PoolInv s) (f : Agent → Agent) : PoolInv (modAgent f s) := h.of_eq rfl rfl ⟨rfl, rfl, rfl, rfl, rfl⟩

theorem modRoute_inv (h : PoolInv s) (f : RouteList → RouteList) : PoolInv (modRoute f s) := h.of_eq rfl rfl ⟨rfl, rfl, rfl, rfl, rfl⟩

theorem modNode_inv (h : PoolInv s) (i : Fin 120) (f : NodeEntry → NodeEntry) : PoolInv (modNode i f s) :=
  h.of_eq rfl rfl ⟨rfl, rfl, rfl, rfl, rfl⟩

theorem clearGroup_inv (h : PoolInv s) (g : CounterGroup) : PoolInv (clearGroup g s) := by
  unfold clearGroup
  split
  · exact h.modPort_same ⟨rfl, rfl, rfl, rfl, rfl, rfl⟩
  · exact h.of_eq rfl rfl ⟨rfl, rfl, rfl, rfl, rfl⟩
  · exact h.of_eq rfl rfl ⟨rfl, rfl, rfl, rfl, rfl⟩

section
variable (h : PoolInv s)
include h

theorem runRouteRead_inv (bank index : Octet) : PoolInv (runRouteRead bank index s).state := by
  unfold runRouteRead
  split
  · exact h
  · split
    · exact h
    · split <;> exact h

theorem runRouteWrite_inv (index : Octet) (a : RouteArgs) : PoolInv (runRouteWrite index a s).state := by
  unfold runRouteWrite
  split
  · exact modRoute_inv h _
  · exact h

theorem runRouteClear_inv (first last : Octet) : PoolInv (runRouteClear first last s).state := by
  unfold runRouteClear
  split
  · exact h
  · exact modRoute_inv h _

theorem runNodeRead_inv (address : Octet) : PoolInv (runNodeRead address s).state := by
  unfold runNodeRead
  split <;> exact h

theorem runNodeWrite_inv (address location : Octet) : PoolInv (runNodeWrite address location s).state := by
  unfold runNodeWrite
  split
  · exact modNode_inv h _ _
  · exact h

theorem runNodeUnblock_inv (address : Octet) : PoolInv (runNodeUnblock address s).state := by
  unfold runNodeUnblock
  split
  · exact h
  · exact modNode_inv h _ _

theorem runPortRead_inv (port : Octet) : PoolInv (runPortRead port s).state := by
  unfold runPortRead
  split <;> exact h

theorem runPortWrite_inv (ruled : Ruled s) (port : Octet) (a : PortArgs) : PoolInv (runPortWrite port a s).state := by
  unfold runPortWrite
  split
  · exact h
  · split
    · exact h
    next now =>
      split
      · exact h
      next settings => exact writePort_inv h ruled (queueLimit_kept now settings)

theorem runGatewayWrite_inv (ruled : Ruled s) (a : GatewayArgs) : PoolInv (runGatewayWrite a s).state := by
  unfold runGatewayWrite
  split
  · exact writeGateway_inv h ruled a
  · exact h

theorem runCountersRead_inv (group clear : Octet) : PoolInv (runCountersRead group clear s).state := by
  unfold runCountersRead
  split
  next c _ _ =>
    cases c with
    | true => exact clearGroup_inv h _
    | false => exact h
  · exact h

theorem runReset_inv (ruled : Ruled s) (kind : Octet) : PoolInv (runReset kind s).state := by
  have traffic : PoolInv (accept [] (trafficReset s)).state := by
    rw [accept_state]
    exact trafficReset_inv h ruled
  have full : PoolInv (accept [] (fullReset s)).state := by
    rw [accept_state]
    exact fullReset_inv h ruled
  unfold runReset
  split
  · exact traffic
  · split
    · exact full
    · exact h

theorem runRequest_inv (ruled : Ruled s) (op : RequestOp) : PoolInv (runRequest op s).state := by
  cases op with
  | malformed => exact h
  | identify => exact h
  | routeRead bank index => exact runRouteRead_inv h bank index
  | routeWrite index fields => exact runRouteWrite_inv h index fields
  | routeClear first last => exact runRouteClear_inv h first last
  | routeCommit purge => exact h
  | nodeRead address => exact runNodeRead_inv h address
  | nodeWrite address location => exact runNodeWrite_inv h address location
  | nodeUnblock address => exact runNodeUnblock_inv h address
  | portRead port => exact runPortRead_inv h port
  | portWrite port settings => exact runPortWrite_inv h ruled port settings
  | gatewayRead => exact h
  | gatewayWrite settings => exact runGatewayWrite_inv h ruled settings
  | countersRead group clear => exact runCountersRead_inv h group clear
  | reset kind => exact runReset_inv h ruled kind

end

theorem answerNow_inv {r : Reply} (h : PoolInv r.state) (id : Octet) : PoolInv (answerNow id r) := h.of_eq rfl rfl ⟨rfl, rfl, rfl, rfl, rfl⟩

theorem commitSwap_inv (h : PoolInv s) (purge : Bool) : PoolInv (commitSwap purge s) := by
  have swapped := modRoute_inv h (swapBanks purge)
  unfold commitSwap
  dsimp only
  split
  · refine List.foldlRecOn (motive := PoolInv) _ _ swapped fun t inv p _ => ?_
    unfold dueIfArmed
    split
    · exact makeDue_inv inv p
    all_goals exact inv
  · exact swapped

theorem beginRequest_inv (h : PoolInv s) (ruled : Ruled s) : PoolInv (beginRequest s) := by
  unfold beginRequest
  split
  · exact h
  · split
    · exact h
    next r rest _ =>
      have freed := modAgent_inv h fun a => { a with buffers := rest }
      split
      · unfold beginCommit
        dsimp only
        split
        · exact answerNow_inv freed _
        · split
          · exact answerNow_inv freed _
          · exact (commitSwap_inv (modAgent_inv h _) _).settle
      · exact answerNow_inv (runRequest_inv freed (ruled.of_eq rfl rfl rfl) _) _

theorem submit_inv (h : PoolInv s) (ruled : Ruled s) (id : Octet) (op : RequestOp) : PoolNext (submit id op s) := by
  unfold submit
  split
  · refine .next (beginRequest_inv (offerRequest_inv h _) ?_)
    unfold offerRequest
    split
    · exact ruled.of_eq rfl rfl rfl
    · exact ruled.of_eq rfl rfl rfl
  · exact .next h

/-! ### The step -/

/-- Every command keeps the pool's invariant where the ports and the link stand as theirs say. -/
theorem exec_poolInv (h : PoolInv s) (ruled : Ruled s) (c : Instr) : PoolNext (exec c s) := by
  cases c with
  | hardwareReset => exact execHardwareReset_inv s
  | purgeSweepStep => exact execPurgeSweepStep_inv h
  | resyncComplete => exact execResyncComplete_inv h
  | agentBeginRequest => exact .next (beginRequest_inv h ruled)
  | falseStart p low => exact execFalseStart_inv h p low
  | headerCompletion p low slots => exact execHeaderCompletion_inv h p low slots
  | controlCompletion p heard => exact execControlCompletion_inv h p heard
  | checkCompletion p heard => exact execCheckCompletion_inv h p heard
  | endOfFrame p ending => exact execEndOfFrame_inv h p ending
  | signalError p evidence => exact execSignalError_inv h p evidence
  | abortPulse line => exact execAbortPulse_inv h line
  | lineHeld edge => exact execLineHeld_inv h edge
  | lineReleased p low => exact execLineReleased_inv h p low
  | flushComplete p quiet => exact execFlushComplete_inv h p quiet
  | attemptBegin start => exact execAttemptBegin_inv h start
  | arbitrationLost p heard => exact execArbitrationLost_inv h p heard
  | overdrive p heard => exact execOverdrive_inv h p heard
  | attemptEnd p low slots early => exact execAttemptEnd_inv h p low slots early
  | deadlineExpiry slot => exact execDeadlineExpiry_inv h slot
  | lockGained chars => exact execLockGained_inv h chars
  | lockLost chars => exact execLockLost_inv h chars
  | freshUp chars => exact execFreshUp_inv h ruled.silent chars
  | enterSuspect chars => exact execEnterSuspect_inv h chars
  | resume chars => exact execResume_inv h chars
  | holdTimerExpiry => exact execHoldTimerExpiry_inv h ruled.silent
  | trunkFrameReceived chars => exact execTrunkFrameReceived_inv h chars
  | trunkDataRouting => exact execTrunkDataRouting_inv h
  | trunkFrameStart => exact execTrunkFrameStart_inv h
  | trunkFrameEof => exact execTrunkFrameEof_inv h
  | refreshTimerExpiry => exact execRefreshTimerExpiry_inv h
  | idleFallingEdge p edge => exact execIdleFallingEdge_inv h p edge
  | acceptSlotEdge edge => exact execAcceptSlotEdge_inv h edge
  | abortPulseEnd pulse => exact execAbortPulseEnd_inv h pulse
  | _ => exact submit_inv h ruled _ _

theorem step_poolInv (h : PoolInv s) (ruled : Ruled s) : PoolNext (step s) := by
  unfold step
  split
  · exact .next (h.of_eq rfl rfl ⟨rfl, rfl, rfl, rfl, rfl⟩)
  next rest _ =>
    have fetched : PoolInv { s with pending := rest } := h.of_eq rfl rfl ⟨rfl, rfl, rfl, rfl, rfl⟩
    exact exec_poolInv fetched (ruled.of_eq rfl rfl rfl) _

end

/-- Settles O56: the lists by themselves, and the pool with the ports and the link, whose invariants it leans on. -/
theorem listsAreKept : Obligations.ListsAreKept := by
  refine ⟨?_, ?_⟩
  · rintro s t ⟨capacity, events⟩ h
    have safe := step_safe h
    exact ⟨safe.capacity capacity, safe.events events⟩
  · rintro s t ⟨ports, link, pool⟩ h
    have safe := step_safe h
    exact ⟨safe.ports ports, safe.link link, (step_poolInv (poolInv_of_poolOk pool) (ruled_of ports link) t h).poolOk⟩

end Sys2Proof.Machine
end
